-- ==== Sys2Proof/Word.lean ====
section
/-! DEFINITION. Word types of the Maelrix MX5-1664 (spec 00 R18, 04 R110): the bit vectors that software sees as words. -/

namespace Sys2Proof

/-- 8 bits (00 R18). -/
abbrev Byte := BitVec 8
/-- 64 bits: a scalar register, a dword (00 R18, 04 R110). -/
abbrev Word := BitVec 64
/-- 128 bits: a label register or a path label (04 R110, 13 R306). -/
abbrev Label := BitVec 128
/-- 512 bits: a vector row (04 R120). -/
abbrev Row := BitVec 512

end Sys2Proof
end

