-- ==== Sys2Proof/Machine/Bits.lean ====
section
/-! DEFINITION. Bit fields, sign extension, counts and byte order (00 R17). -/

namespace Sys2Proof.Machine

/-- The low `w` bits of a word, sign-extended to 64. -/
def sextTo (w : Nat) (v : Word) : Word := (BitVec.ofNat w v.toNat).signExtend 64

/-- The low `w` bits of a word, zero-extended to 64. -/
def zextTo (w : Nat) (v : Word) : Word := (BitVec.ofNat w v.toNat).setWidth 64

/-- Number of one bits. -/
def popCount {w : Nat} (v : BitVec w) : Nat := (List.range w).foldl (fun n i => if v.getLsbD i then n + 1 else n) 0

/-- Index of the highest one bit. -/
def highBit {w : Nat} (v : BitVec w) : Option Nat := if v = 0 then none else some (Nat.log2 v.toNat)

/-- Index of the lowest one bit. -/
def lowBit {w : Nat} (v : BitVec w) : Option Nat := (List.range w).find? fun i => v.getLsbD i

/-- Bits [hi : lo] of a bit vector as a number. -/
def bitsAt {w : Nat} (v : BitVec w) (hi lo : Nat) : Nat := v.toNat / 2 ^ lo % 2 ^ (hi + 1 - lo)

/-- The little-endian bytes of a number (00 R17). -/
def toBytes : Nat → Nat → List Byte
  | 0, _ => []
  | n + 1, v => BitVec.ofNat 8 v :: toBytes n (v / 256)

/-- A number from its little-endian bytes (00 R17). -/
def ofBytes : List Byte → Nat
  | [] => 0
  | b :: r => b.toNat + 256 * ofBytes r

/-- `n` bytes of a list from position `i`, zero beyond its end. -/
def bytesAt (l : List Byte) (i n : Nat) : List Byte := (List.range n).map fun k => l.getD (i + k) 0

/-- Lane `j` of `w` bits of a row (04 R120). -/
def lane (r : Row) (w j : Nat) : Nat := r.toNat / 2 ^ (w * j) % 2 ^ w

/-- A row from its lanes of `w` bits, lane 0 first (04 R120). -/
def rowOf (w : Nat) (l : List Nat) : Row := BitVec.ofNat 512 (l.foldr (fun v acc => v % 2 ^ w + 2 ^ w * acc) 0)

/-- The lanes of a row. -/
def lanesOf (w : Nat) (r : Row) : List Nat := (List.range (512 / w)).map (lane r w)

/-- A signed number from its low `w` bits. -/
def sintOf (w n : Nat) : Int := if n % 2 ^ w < 2 ^ (w - 1) then (n % 2 ^ w : Nat) else ((n % 2 ^ w : Nat) : Int) - (2 ^ w : Nat)

/-- The `w`-bit pattern of an integer, modulo 2^w. -/
def patOf (w : Nat) (i : Int) : Nat := (i % ((2 ^ w : Nat) : Int)).toNat

end Sys2Proof.Machine
end

