-- ==== Sys2Proof/Syntax.lean ====
section
/-! DEFINITION. The instruction syntax of Gleral, of the kiln, and the device's event rows: one constructor of `Instr` per row of spec/opcode_table.json. -/

namespace Sys2Proof

/-- The immediate of an I-format word, signed (03 R81, R82). -/
abbrev Imm31 := BitVec 31
/-- Scalar register number; 24 to 27 name the network queues (03 R84, 04 R112). -/
abbrev SReg := Fin 32
/-- Label register number (03 R84). -/
abbrev LReg := Fin 8
/-- Predicate number (03 R84). -/
abbrev PReg := Fin 8
/-- Guard slot number (03 R84). -/
abbrev GReg := Fin 4
/-- Vector register number (03 R84). -/
abbrev VReg := Fin 64
/-- Mask register number (03 R84). -/
abbrev MReg := Fin 16
/-- Tile number (03 R84). -/
abbrev TReg := Fin 4
/-- Kiln register number (12 R298). -/
abbrev KReg := Fin 8

/-- What every Gleral base word carries: the switch bit and the predicate guard (03 R78, R83). -/
structure Hdr where
  sw : Bool
  pg : PReg
  pn : Bool
  deriving DecidableEq, Repr

/-- Destination of CMP, CMPI, FCMP and PRED: a predicate or a guard slot (03 R84). -/
inductive PDst where
  | p (r : PReg)
  | g (r : GReg)
  deriving DecidableEq, Repr

/-- Source A of `pmov`: a predicate or `U` (03 R84). -/
inductive PSrc where
  | p (r : PReg)
  | unset
  deriving DecidableEq, Repr

/-- Access size of LD, ST and LMEM (03 R93, 13 R319). -/
inductive Size where
  | b1 | b2 | b4 | b8
  deriving DecidableEq, Repr

/-- SCOPE of a memory prefix (03 R87). -/
inductive Scope where
  | narrowest | core | die | module | system
  deriving DecidableEq, Repr

/-- The memory prefix (03 R87). -/
structure MPfx where
  scope : Scope
  deriving DecidableEq, Repr

/-- Rounding field of a prefix or record (02 R57). -/
inductive Rnd where
  | thread | rne | rtz | rdn | rup
  deriving DecidableEq, Repr

/-- The vector prefix (03 R86); `e` is E when EV = 1. -/
structure VPfx where
  mask : MReg
  z : Bool
  rnd : Rnd
  e : Option VReg
  deriving DecidableEq, Repr

/-- The guard prefix (03 R88). -/
structure GPfx where
  slot : GReg
  gn : Bool
  deriving DecidableEq, Repr

/-- VMEM carries a vector prefix or a memory prefix or none (09 R225). -/
inductive RowPfx where
  | none
  | vector (p : VPfx)
  | memory (m : MPfx)
  deriving DecidableEq, Repr

/-- A lane modifier (03 R90). -/
inductive LaneMod where
  | none
  | rot (k : Fin 32)
  | rev
  | g8 (k : Fin 32)
  | bc (k : Fin 32)
  | xor (k : Fin 32)
  deriving DecidableEq, Repr

/-- Formats of FCVT (03 R93). -/
inductive CvtFmt where
  | fp32 | bf16 | fp16 | i32 | n32 | i64
  deriving DecidableEq, Repr

/-- Format codes (02 R56). -/
inductive Fmt where
  | i8 | n8 | i16 | n16 | i32 | n32 | i64 | n64 | fp32 | bf16 | fp16 | f8a | f8b | ds8 | e8
  deriving DecidableEq, Repr

/-- The IMM of `rb.send` beside LEN: the ring k, and the bits that are zero in a legal one, IMM[15:3] and IMM[63:34] (11 R275). -/
structure RingImm where
  k : Fin 8
  lo : BitVec 13
  hi : BitVec 30
  deriving DecidableEq, Repr

/-- The punty descriptor's used fields (09 R230). -/
structure Punty where
  anch : Bool
  w64 : Bool
  entry : BitVec 54
  deriving DecidableEq, Repr

/-- OFF, FMT and MAXD of a TE command (13 R331). -/
structure TeForm where
  off : BitVec 16
  fmt : Fin 16
  maxd : Fin 64
  deriving DecidableEq, Repr

/-- Control registers (04 R121). -/
inductive CReg where
  | thid | coreid | dieid | partid | stamp | cycle | fpmode | qos | tvec | tcause | tpc
  | tword0 | tword1 | taddr | pvec | qhvec | twm (k : Fin 4) | tstat (k : Fin 4) | tpra
  | dllimit | agemax | ringcfg (k : Fin 8) | ckptid | kilnver
  deriving DecidableEq, Repr

/-- A core, a slice core or a service core: its physical die (0 to 15 compute, 16 to 19 attention) and its number on the die; a core's number is
64 (32 on an attention die) times its mesh row plus its column, a service core's is its quadrant (00 R4, 04 R127). -/
inductive Loc where
  | core (die idx : Nat)
  | slice (die idx : Nat)
  | svc (die quadrant : Nat)
  deriving DecidableEq, Repr

/-- The engines (07 R191). -/
inductive Engine where
  | me | ie | te | nm | pe
  deriving DecidableEq, Repr

/-- A run of physical 2 MiB units (15 R404). -/
structure Grant where
  first : Nat
  log2 : Nat
  deriving DecidableEq, Repr

/-- The host's answer to a GRANT request (15 R366, R380). -/
inductive GrantReply where
  | granted (g : Grant)
  | refused
  | busy
  deriving DecidableEq, Repr

/-- What the host names when it assigns a partition (01 R44, 11 R268, 12 R292, 16 R383, 15 R404). -/
structure AssignReq where
  cnode : Nat
  anode : Nat
  quota : Nat
  counterArea : Nat
  spoilBase : Nat
  sliceLen : Nat
  grants : List Grant
  sliceUnits : List (Nat × Nat)
  deriving DecidableEq, Repr

/-- What a scrub read finds (08 R212, R213). -/
inductive SoftError where
  | none | corrected | uncorrectable
  deriving DecidableEq, Repr

/-- Control traffic between dies (00 R8; 12 R285, R303; 13 R323): a commit to the deputy or its acknowledgement, a completion report, a request of the
label table, its PREPARE and COMMIT messages and copies, copies and purges of a map for a service request, a kiln load or swap, or a reply to a thread. -/
inductive CtlSrc where
  | commit (attn back : Bool)
  | report (id : Nat)
  | labelAsk (id : Nat)
  | labelTable
  | map (id : Nat)
  | kiln (attn : Bool)
  | reply (id : Nat)
  deriving DecidableEq, Repr

/-- What a flit carries (16 R387, R388): part of an access or its reply, of a message, of an engine command's access to a die, which may be to a
key-value page, of a task's launch, of control traffic of a partition, of a host request or answer of a service core, or of the transport between
modules; the last three name their class, which the spec does not give. -/
inductive FlitSrc where
  | request (id : Nat)
  | message (id : Nat)
  | command (l : Loc) (e : Engine) (dest : Nat) (page : Bool)
  | launch (id : Nat)
  | control (pid : Nat) (what : CtlSrc) (dest : Nat) (cls : Fin 4)
  | host (pid : Nat) (sc : Fin 64) (back : Bool) (cls : Fin 4)
  | transport (cls : Fin 4)
  deriving DecidableEq, Repr

/-- A flit offered to a link: its source, the kind its header names and its payload (16 R387). -/
structure FlitOffer where
  src : FlitSrc
  kind : Nat
  payload : Vector Byte 64
  deriving DecidableEq, Repr

/-- The instructions, kiln instructions and events of the opcode table. -/
inductive Instr where
  -- ALU (05 R132)
  | add (h : Hdr) (d a b : SReg)
  | sub (h : Hdr) (d a b : SReg)
  | and (h : Hdr) (d a b : SReg)
  | or (h : Hdr) (d a b : SReg)
  | xor (h : Hdr) (d a b : SReg)
  | andn (h : Hdr) (d a b : SReg)
  | shl (h : Hdr) (d a b : SReg)
  | shr (h : Hdr) (d a b : SReg)
  | sra (h : Hdr) (d a b : SReg)
  | rol (h : Hdr) (d a b : SReg)
  | min (h : Hdr) (d a b : SReg)
  | max (h : Hdr) (d a b : SReg)
  | minn (h : Hdr) (d a b : SReg)
  | maxn (h : Hdr) (d a b : SReg)
  | mul (h : Hdr) (d a b : SReg)
  | mulh (h : Hdr) (d a b : SReg)
  | mulhn (h : Hdr) (d a b : SReg)
  | div (h : Hdr) (d a b : SReg)
  | divn (h : Hdr) (d a b : SReg)
  | rem (h : Hdr) (d a b : SReg)
  | remn (h : Hdr) (d a b : SReg)
  | clz (h : Hdr) (d a : SReg)
  | ctz (h : Hdr) (d a : SReg)
  | popc (h : Hdr) (d a : SReg)
  | bswap (h : Hdr) (d a : SReg)
  -- ALUI (05 R134)
  | addi (h : Hdr) (d a : SReg) (imm : Imm31)
  | andi (h : Hdr) (d a : SReg) (imm : Imm31)
  | ori (h : Hdr) (d a : SReg) (imm : Imm31)
  | xori (h : Hdr) (d a : SReg) (imm : Imm31)
  | shli (h : Hdr) (d a : SReg) (k : Fin 64)
  | shri (h : Hdr) (d a : SReg) (k : Fin 64)
  | srai (h : Hdr) (d a : SReg) (k : Fin 64)
  | roli (h : Hdr) (d a : SReg) (k : Fin 64)
  | mini (h : Hdr) (d a : SReg) (imm : Imm31)
  | maxi (h : Hdr) (d a : SReg) (imm : Imm31)
  | muli (h : Hdr) (d a : SReg) (imm : Imm31)
  -- CMP and CMPI (05 R135)
  | eq (h : Hdr) (d : PDst) (a b : SReg)
  | ne (h : Hdr) (d : PDst) (a b : SReg)
  | lt (h : Hdr) (d : PDst) (a b : SReg)
  | le (h : Hdr) (d : PDst) (a b : SReg)
  | ltn (h : Hdr) (d : PDst) (a b : SReg)
  | len (h : Hdr) (d : PDst) (a b : SReg)
  | eqi (h : Hdr) (d : PDst) (a : SReg) (imm : Imm31)
  | nei (h : Hdr) (d : PDst) (a : SReg) (imm : Imm31)
  | lti (h : Hdr) (d : PDst) (a : SReg) (imm : Imm31)
  | lei (h : Hdr) (d : PDst) (a : SReg) (imm : Imm31)
  | ltni (h : Hdr) (d : PDst) (a : SReg) (imm : Imm31)
  | leni (h : Hdr) (d : PDst) (a : SReg) (imm : Imm31)
  -- PRED (05 R136)
  | pand (h : Hdr) (d : PDst) (a b : PReg)
  | por (h : Hdr) (d : PDst) (a b : PReg)
  | pxor (h : Hdr) (d : PDst) (a b : PReg)
  | pandn (h : Hdr) (d : PDst) (a b : PReg)
  | pnot (h : Hdr) (d : PDst) (a : PReg)
  | pmov (h : Hdr) (d : PDst) (a : PSrc)
  | sel (h : Hdr) (d a b : SReg) (p : PReg)
  -- LI and BITS (05 R138, R139)
  | li (h : Hdr) (d : SReg) (imm : Word)
  | lipc (h : Hdr) (d : SReg) (imm : Word)
  | sext (h : Hdr) (d a : SReg) (wm1 : Fin 64)
  | zext (h : Hdr) (d a : SReg) (wm1 : Fin 64)
  | bfx (h : Hdr) (d a : SReg) (signed : Bool) (lsb wm1 : Fin 64)
  | bfi (h : Hdr) (d a : SReg) (lsb wm1 : Fin 64)
  -- FALU, FCMP, FCVT (05 R140 to R143)
  | fadd (h : Hdr) (d a b : SReg)
  | fsub (h : Hdr) (d a b : SReg)
  | fmul (h : Hdr) (d a b : SReg)
  | fdiv (h : Hdr) (d a b : SReg)
  | fsqrt (h : Hdr) (d a : SReg)
  | fmin (h : Hdr) (d a b : SReg)
  | fmax (h : Hdr) (d a b : SReg)
  | fabs (h : Hdr) (d a : SReg)
  | fneg (h : Hdr) (d a : SReg)
  | fma (h : Hdr) (d a b : SReg)
  | feq (h : Hdr) (d : PDst) (a b : SReg)
  | flt (h : Hdr) (d : PDst) (a b : SReg)
  | fle (h : Hdr) (d : PDst) (a b : SReg)
  | funord (h : Hdr) (d : PDst) (a b : SReg)
  | fcvt (h : Hdr) (src dst : CvtFmt) (d a : SReg)
  -- BR, LOOP, CHK, MISC (05 R144 to R152)
  | jmp (h : Hdr) (imm : Imm31)
  | call (h : Hdr) (imm : Imm31)
  | jr (h : Hdr) (a : SReg)
  | callr (h : Hdr) (a : SReg)
  | loop (h : Hdr) (a : SReg) (len : Fin 65536)
  | loopi (h : Hdr) (n : Fin 65536) (len : Fin 32768)
  | chk (h : Hdr) (a : SReg) (imm : Imm31)
  | chkl (h : Hdr) (a : LReg) (imm : Imm31)
  | nop (h : Hdr)
  | yield (h : Hdr)
  | ckpt (h : Hdr) (code : BitVec 16)
  | trap (h : Hdr) (code : BitVec 16)
  | brk (h : Hdr) (code : BitVec 16)
  | tdone (h : Hdr)
  -- LD, ST, FE, FENCE, VMEM (09 R220 to R225)
  | ld (h : Hdr) (m : Option MPfx) (d a : SReg) (imm : Imm31) (sz : Size) (uns : Bool)
  | ldSync (h : Hdr) (d a : SReg) (imm : Imm31) (sz : Size) (uns : Bool)
  | ldTake (h : Hdr) (d a : SReg) (imm : Imm31) (sz : Size) (uns : Bool)
  | ldSpec (h : Hdr) (m : Option MPfx) (d a : SReg) (imm : Imm31) (sz : Size) (uns : Bool)
  | st (h : Hdr) (m : Option MPfx) (d a : SReg) (imm : Imm31) (sz : Size)
  | stFill (h : Hdr) (d a : SReg) (imm : Imm31) (sz : Size)
  | stXfill (h : Hdr) (d a : SReg) (imm : Imm31) (sz : Size)
  | feSet (h : Hdr) (a : SReg) (imm : Imm31)
  | feClr (h : Hdr) (a : SReg) (imm : Imm31)
  | feGet (h : Hdr) (d a : SReg) (imm : Imm31)
  | feWait (h : Hdr) (a : SReg) (imm : Imm31)
  | fenceCore (h : Hdr)
  | fenceDie (h : Hdr)
  | fenceMod (h : Hdr)
  | fenceSys (h : Hdr)
  | fenceEng (h : Hdr)
  | vld (h : Hdr) (q : RowPfx) (d : VReg) (a : SReg) (imm : Imm31)
  | vst (h : Hdr) (q : RowPfx) (d : VReg) (a : SReg) (imm : Imm31)
  | vldSync (h : Hdr) (p : Option VPfx) (d : VReg) (a : SReg) (imm : Imm31)
  | vstFill (h : Hdr) (p : Option VPfx) (d : VReg) (a : SReg) (imm : Imm31)
  -- AMO, CAS, RED, AMOK (09 R226 to R231)
  | amoAdd (h : Hdr) (m : Option MPfx) (w64 : Bool) (d a b : SReg)
  | amoAnd (h : Hdr) (m : Option MPfx) (w64 : Bool) (d a b : SReg)
  | amoOr (h : Hdr) (m : Option MPfx) (w64 : Bool) (d a b : SReg)
  | amoXor (h : Hdr) (m : Option MPfx) (w64 : Bool) (d a b : SReg)
  | amoMin (h : Hdr) (m : Option MPfx) (w64 : Bool) (d a b : SReg)
  | amoMax (h : Hdr) (m : Option MPfx) (w64 : Bool) (d a b : SReg)
  | amoMinn (h : Hdr) (m : Option MPfx) (w64 : Bool) (d a b : SReg)
  | amoMaxn (h : Hdr) (m : Option MPfx) (w64 : Bool) (d a b : SReg)
  | amoSwap (h : Hdr) (m : Option MPfx) (w64 : Bool) (d a b : SReg)
  | amoFadd (h : Hdr) (m : Option MPfx) (d a b : SReg)
  | cas32 (h : Hdr) (m : Option MPfx) (d a b : SReg)
  | cas64 (h : Hdr) (m : Option MPfx) (d a b : SReg)
  | redAdd (h : Hdr) (m : Option MPfx) (w64 : Bool) (a b : SReg)
  | redAnd (h : Hdr) (m : Option MPfx) (w64 : Bool) (a b : SReg)
  | redOr (h : Hdr) (m : Option MPfx) (w64 : Bool) (a b : SReg)
  | redXor (h : Hdr) (m : Option MPfx) (w64 : Bool) (a b : SReg)
  | redMin (h : Hdr) (m : Option MPfx) (w64 : Bool) (a b : SReg)
  | redMax (h : Hdr) (m : Option MPfx) (w64 : Bool) (a b : SReg)
  | redMinn (h : Hdr) (m : Option MPfx) (w64 : Bool) (a b : SReg)
  | redMaxn (h : Hdr) (m : Option MPfx) (w64 : Bool) (a b : SReg)
  | redSwap (h : Hdr) (m : Option MPfx) (w64 : Bool) (a b : SReg)
  | redFadd (h : Hdr) (m : Option MPfx) (a b : SReg)
  | redArrive (h : Hdr) (m : Option MPfx) (a b : SReg)
  | casK (h : Hdr) (d a b c : SReg) (k : Punty)
  | decK (h : Hdr) (d a b : SReg) (k : Punty)
  -- SPAWN, RING, QCTL, GRAPH (11)
  | spawn (h : Hdr) (d a : SReg) (npay : Fin 9) (anch : Bool) (entry : BitVec 54)
  | migrate (h : Hdr) (a : SReg)
  | rbSend (h : Hdr) (d a b c : SReg) (len : BitVec 18) (k : RingImm)
  | rbGet (h : Hdr) (d : SReg) (k : Fin 8)
  | rbGetNb (h : Hdr) (d : SReg) (k : Fin 8)
  | rbFree (h : Hdr) (k : Fin 8)
  | qsendc (h : Hdr) (q : Fin 4) (a : SReg)
  | qstat (h : Hdr) (d : SReg) (sel : Fin 3)
  | qret (h : Hdr)
  | tgLaunch (h : Hdr) (d a : SReg) (n : BitVec 9)
  | tgSignal (h : Hdr) (a : SReg) (t : BitVec 8)
  -- LALU, LMEM, LTAB, TE (13)
  | lroot (h : Hdr) (d : LReg) (a : SReg)
  | lchild (h : Hdr) (d a : LReg) (b : SReg)
  | lparent (h : Hdr) (d a : LReg)
  | lanc (h : Hdr) (d : PReg) (a b : LReg)
  | lpanc (h : Hdr) (d : PReg) (a b : LReg)
  | ldepth (h : Hdr) (d : SReg) (a : LReg)
  | lcommon (h : Hdr) (d a b : LReg)
  | ldig (h : Hdr) (d : SReg) (a : LReg) (b : SReg)
  | lend (h : Hdr) (d a : LReg)
  | lget (h : Hdr) (d : SReg) (a : LReg) (k : Fin 4)
  | lset (h : Hdr) (d : LReg) (a : SReg) (k : Fin 2)
  | lmov (h : Hdr) (d a : LReg)
  | lld (h : Hdr) (m : Option MPfx) (d : SReg) (a : LReg) (off : BitVec 16) (sz : Size) (uns spec : Bool)
  | lst (h : Hdr) (m : Option MPfx) (d : SReg) (a : LReg) (off : BitVec 16) (sz : Size)
  | lldL (h : Hdr) (m : Option MPfx) (d a : LReg) (off : BitVec 16) (spec : Bool)
  | lstL (h : Hdr) (m : Option MPfx) (d a : LReg) (off : BitVec 16)
  | ltree (h : Hdr) (d : LReg) (a b c : SReg) (dsize : Fin 32)
  | ltreeV (h : Hdr) (d : LReg) (a : SReg) (b : LReg)
  | lnew (h : Hdr) (d a : LReg) (b c : SReg)
  | lfree (h : Hdr) (a : LReg)
  | lmove (h : Hdr) (d a b : LReg)
  | lmoveF (h : Hdr) (d a b : LReg)
  | lrebase (h : Hdr) (d a : LReg)
  | lxlate (h : Hdr) (d : SReg) (a : LReg)
  | lxlateT (h : Hdr) (d : SReg) (a : LReg)
  | lxlateTs (h : Hdr) (d : SReg) (a : LReg)
  | lxlateOld (h : Hdr) (d : LReg)
  | lxlateNew (h : Hdr) (d : LReg)
  | teSum (h : Hdr) (g : Option GPfx) (d : SReg) (a : LReg) (f : TeForm)
  | teCount (h : Hdr) (g : Option GPfx) (d : SReg) (a : LReg) (maxd : Fin 64)
  | teCopy (h : Hdr) (g : Option GPfx) (d : SReg) (a : LReg) (b : SReg) (f : TeForm) (n : BitVec 32)
  | teFill (h : Hdr) (g : Option GPfx) (d : SReg) (a : LReg) (b : SReg) (f : TeForm)
  | teVisit (h : Hdr) (g : Option GPfx) (d : SReg) (a : LReg) (b c : SReg) (maxd : Fin 64) (anch : Bool)
  -- VINT, VFLT, VCMP, VMOV, VCVT, SFU, VRED, VMASK (06)
  | vadd (h : Hdr) (p : Option VPfx) (d a b : VReg) (ma mb : LaneMod)
  | vsub (h : Hdr) (p : Option VPfx) (d a b : VReg) (ma mb : LaneMod)
  | vmul (h : Hdr) (p : Option VPfx) (d a b : VReg) (ma mb : LaneMod)
  | vmulh (h : Hdr) (p : Option VPfx) (d a b : VReg) (ma mb : LaneMod)
  | vmin (h : Hdr) (p : Option VPfx) (d a b : VReg) (ma mb : LaneMod)
  | vmax (h : Hdr) (p : Option VPfx) (d a b : VReg) (ma mb : LaneMod)
  | vminn (h : Hdr) (p : Option VPfx) (d a b : VReg) (ma mb : LaneMod)
  | vmaxn (h : Hdr) (p : Option VPfx) (d a b : VReg) (ma mb : LaneMod)
  | vand (h : Hdr) (p : Option VPfx) (d a b : VReg) (ma mb : LaneMod)
  | vor (h : Hdr) (p : Option VPfx) (d a b : VReg) (ma mb : LaneMod)
  | vxor (h : Hdr) (p : Option VPfx) (d a b : VReg) (ma mb : LaneMod)
  | vandn (h : Hdr) (p : Option VPfx) (d a b : VReg) (ma mb : LaneMod)
  | vshl (h : Hdr) (p : Option VPfx) (d a b : VReg) (ma mb : LaneMod)
  | vshr (h : Hdr) (p : Option VPfx) (d a b : VReg) (ma mb : LaneMod)
  | vsra (h : Hdr) (p : Option VPfx) (d a b : VReg) (ma mb : LaneMod)
  | vabs (h : Hdr) (p : Option VPfx) (d a : VReg) (ma : LaneMod)
  | vneg (h : Hdr) (p : Option VPfx) (d a : VReg) (ma : LaneMod)
  | vsadd (h : Hdr) (p : Option VPfx) (d a b : VReg) (ma mb : LaneMod)
  | vssub (h : Hdr) (p : Option VPfx) (d a b : VReg) (ma mb : LaneMod)
  | vfadd (h : Hdr) (p : Option VPfx) (d a b : VReg) (ma mb : LaneMod)
  | vfsub (h : Hdr) (p : Option VPfx) (d a b : VReg) (ma mb : LaneMod)
  | vfmul (h : Hdr) (p : Option VPfx) (d a b : VReg) (ma mb : LaneMod)
  | vfma (h : Hdr) (p : Option VPfx) (d a b : VReg) (ma mb : LaneMod)
  | vfmin (h : Hdr) (p : Option VPfx) (d a b : VReg) (ma mb : LaneMod)
  | vfmax (h : Hdr) (p : Option VPfx) (d a b : VReg) (ma mb : LaneMod)
  | vfabs (h : Hdr) (p : Option VPfx) (d a : VReg) (ma : LaneMod)
  | vfneg (h : Hdr) (p : Option VPfx) (d a : VReg) (ma : LaneMod)
  | vcmpEq (h : Hdr) (p : Option VPfx) (d : MReg) (a b : VReg) (ma mb : LaneMod)
  | vcmpNe (h : Hdr) (p : Option VPfx) (d : MReg) (a b : VReg) (ma mb : LaneMod)
  | vcmpLt (h : Hdr) (p : Option VPfx) (d : MReg) (a b : VReg) (ma mb : LaneMod)
  | vcmpLe (h : Hdr) (p : Option VPfx) (d : MReg) (a b : VReg) (ma mb : LaneMod)
  | vcmpLtn (h : Hdr) (p : Option VPfx) (d : MReg) (a b : VReg) (ma mb : LaneMod)
  | vcmpLen (h : Hdr) (p : Option VPfx) (d : MReg) (a b : VReg) (ma mb : LaneMod)
  | vfcmpEq (h : Hdr) (p : Option VPfx) (d : MReg) (a b : VReg) (ma mb : LaneMod)
  | vfcmpLt (h : Hdr) (p : Option VPfx) (d : MReg) (a b : VReg) (ma mb : LaneMod)
  | vfcmpLe (h : Hdr) (p : Option VPfx) (d : MReg) (a b : VReg) (ma mb : LaneMod)
  | vfcmpUn (h : Hdr) (p : Option VPfx) (d : MReg) (a b : VReg) (ma mb : LaneMod)
  | vmov (h : Hdr) (p : Option VPfx) (d a : VReg) (ma : LaneMod)
  | vsel (h : Hdr) (p : VPfx) (d a b : VReg) (ma mb : LaneMod)
  | vsplat (h : Hdr) (p : Option VPfx) (d : VReg) (a : SReg)
  | vext (h : Hdr) (d : SReg) (a : VReg) (b : SReg) (ma : LaneMod)
  | vins (h : Hdr) (d : VReg) (a b : SReg)
  | vidx (h : Hdr) (p : Option VPfx) (d : VReg) (a : SReg)
  | vcvt (h : Hdr) (p : Option VPfx) (t : Fmt) (d a : VReg) (part : Fin 64) (ma : LaneMod)
  | vexp2 (h : Hdr) (p : Option VPfx) (d a : VReg) (ma : LaneMod)
  | vlog2 (h : Hdr) (p : Option VPfx) (d a : VReg) (ma : LaneMod)
  | vrcp (h : Hdr) (p : Option VPfx) (d a : VReg) (ma : LaneMod)
  | vrsqrt (h : Hdr) (p : Option VPfx) (d a : VReg) (ma : LaneMod)
  | vtanh (h : Hdr) (p : Option VPfx) (d a : VReg) (ma : LaneMod)
  | vsigm (h : Hdr) (p : Option VPfx) (d a : VReg) (ma : LaneMod)
  | vredadd (h : Hdr) (p : Option VPfx) (d : SReg) (a : VReg) (ma : LaneMod)
  | vredmax (h : Hdr) (p : Option VPfx) (d : SReg) (a : VReg) (ma : LaneMod)
  | vredmin (h : Hdr) (p : Option VPfx) (d : SReg) (a : VReg) (ma : LaneMod)
  | vfredadd (h : Hdr) (p : Option VPfx) (d : SReg) (a : VReg) (ma : LaneMod)
  | vfredmax (h : Hdr) (p : Option VPfx) (d : SReg) (a : VReg) (ma : LaneMod)
  | vscanAdd (h : Hdr) (p : Option VPfx) (d a : VReg) (ma : LaneMod)
  | vmergeSm (h : Hdr) (p : Option VPfx) (d a b : VReg) (ma mb : LaneMod)
  | vcompress (h : Hdr) (p : Option VPfx) (d a : VReg) (b : SReg) (ma : LaneMod)
  | vexpand (h : Hdr) (p : Option VPfx) (d a : VReg) (ma : LaneMod)
  | mpopc (h : Hdr) (d : SReg) (a : MReg)
  | mand (h : Hdr) (d a b : MReg)
  | mor (h : Hdr) (d a b : MReg)
  | mxor (h : Hdr) (d a b : MReg)
  | mnot (h : Hdr) (d a : MReg)
  | mset (h : Hdr) (d : MReg) (a : SReg)
  | mget (h : Hdr) (d : SReg) (a : MReg)
  | mfirst (h : Hdr) (d : SReg) (a : MReg)
  -- TILE, MATRIX, HM (07)
  | tcfg (h : Hdr) (d : TReg) (fmt : Fin 16)
  | tzero (h : Hdr) (d : TReg)
  | tfree (h : Hdr) (d : TReg)
  | twm (h : Hdr) (d : TReg) (n : Fin 32)
  | wload (h : Hdr) (g : Option GPfx) (a b : SReg) (pitch : BitVec 24) (sp : Bool)
  | mma (h : Hdr) (g : Option GPfx) (d a : TReg) (b c : MReg) (stream : Fin 4) (pm : Bool)
  | mmaZ (h : Hdr) (g : Option GPfx) (d a : TReg) (b c : MReg) (stream : Fin 4) (pm : Bool)
  | mmaSp (h : Hdr) (g : Option GPfx) (d a : TReg) (b c : MReg) (stream : Fin 4) (pm : Bool)
  | tstore (h : Hdr) (g : Option GPfx) (d : SReg) (a : TReg) (b c : SReg) (pitch : BitVec 24) (wrow0 rows : BitVec 16)
  | tload (h : Hdr) (g : Option GPfx) (d : TReg) (a : SReg) (pitch : BitVec 24)
  | mparam (h : Hdr) (g : Option GPfx) (a : SReg)
  | hmGemv (h : Hdr) (g : Option GPfx) (d a b c : SReg) (nv : Fin 16) (mm1 km1 : BitVec 16)
  -- IE (09 R236)
  | ieGather (h : Hdr) (g : Option GPfx) (d a b c : SReg) (n : BitVec 32)
  | ieScatter (h : Hdr) (g : Option GPfx) (d a b c : SReg) (n : BitVec 32) (opk : Fin 4)
  | ieCopy (h : Hdr) (g : Option GPfx) (d a b : SReg) (bytes : BitVec 32)
  | ieFill (h : Hdr) (g : Option GPfx) (d a b : SReg) (bytes : BitVec 32)
  | ieMcast (h : Hdr) (g : Option GPfx) (d a b c : SReg) (bytes : BitVec 32) (ntm1 : Fin 4)
  | ieCond (h : Hdr) (g : Option GPfx) (d a b c : SReg) (n : BitVec 32) (esz : Fin 4)
  -- PG (14 R350)
  | pgLoad (h : Hdr) (g : Option GPfx) (d : SReg) (a : LReg) (b : SReg) (first : BitVec 16) (nm1 : Fin 32)
  | pgLoadNb (h : Hdr) (g : Option GPfx) (d : SReg) (a : LReg) (b : SReg) (first : BitVec 16) (nm1 : Fin 32)
  | pgLoadList (h : Hdr) (g : Option GPfx) (d : SReg) (a : LReg) (b c : SReg) (nm1 : Fin 32)
  | pgLoadNbList (h : Hdr) (g : Option GPfx) (d : SReg) (a : LReg) (b c : SReg) (nm1 : Fin 32)
  | pgApp (h : Hdr) (g : Option GPfx) (d : SReg) (a : LReg) (b : SReg)
  | pgFork (h : Hdr) (g : Option GPfx) (d : SReg) (a b : LReg)
  | pgSel (h : Hdr) (g : Option GPfx) (d : SReg) (a : LReg) (b c : SReg) (k : BitVec 7) (kf kt : Bool)
  | pgSeal (h : Hdr) (g : Option GPfx) (d : SReg) (a : LReg)
  | pgFree (h : Hdr) (g : Option GPfx) (d : SReg) (a : LReg)
  | pgExt (h : Hdr) (g : Option GPfx) (d : SReg) (a : LReg) (order : Fin 16) (lns : Fin 4)
  | pgEvict (h : Hdr) (g : Option GPfx) (d : SReg) (a : LReg) (b : SReg)
  -- SYS (15 R364 to R368)
  | cget (h : Hdr) (d : SReg) (r : CReg)
  | cset (h : Hdr) (a : SReg) (r : CReg)
  | csetFpmode (h : Hdr) (a : SReg)
  | csetAgemax (h : Hdr) (a : SReg)
  | csetRingcfg (h : Hdr) (a : SReg) (k : Fin 8)
  | eret (h : Hdr)
  | pcall (h : Hdr) (d a : SReg) (svc : BitVec 16)
  | ifl (h : Hdr)
  | lfl (h : Hdr)
  | kswap (h : Hdr) (d : SReg)
  -- Kiln instructions (12 R299)
  | kld (d s : KReg) (i : Fin 32)
  | kadd (d s : KReg) (i : Fin 32)
  | ksub (d s : KReg) (i : Fin 32)
  | kand (d s : KReg) (i : Fin 32)
  | kor (d s : KReg) (i : Fin 32)
  | kshl (d s : KReg) (i : Fin 32)
  | kshr (d s : KReg) (i : Fin 32)
  | kmin (d s : KReg) (i : Fin 32)
  | kmax (d s : KReg) (i : Fin 32)
  | kceq (d s : KReg) (i : Fin 32)
  | kcgt (d s : KReg) (i : Fin 32)
  | kfirst (d s : KReg) (i : Fin 32)
  | kamax (d s : KReg) (i : Fin 32)
  | kpop (d s : KReg) (i : Fin 32)
  | kldi (d : KReg) (i : Fin 32)
  | klui (d : KReg) (i : Fin 32)
  | kbz (d : KReg) (i : Fin 32)
  | kbnz (d : KReg) (i : Fin 32)
  | ksel (d s c : KReg)
  | kstw (s : KReg) (i : Fin 32)
  | kemit (s : KReg) (i : Fin 32)
  | kend
  -- Events without an encoding (95_what_each_step_holds)
  | continuationAct (id : Nat)
  | launchWaitReevaluate (l : Loc)
  | puntyStart (l : Loc)
  | ringMessagePlace (id : Nat)
  | linkGrow (l : Loc) (dir : Fin 4)
  | deadlockProbeSend (l : Loc) (slot : Fin 16)
  | deadlockProbeReceive (id : Nat)
  | sfuResultWrite (l : Loc)
  | vredResultWrite (l : Loc)
  | meCommandStart (l : Loc)
  | meRowWrite (l : Loc)
  | nmCommandRun (l : Loc) (n : Nat)
  | ieCommandRun (l : Loc) (n : Nat)
  | teCommandRun (l : Loc) (n : Nat)
  | peCommandRun (l : Loc) (n : Nat)
  | pgAppendAct (l : Loc)
  | nvmeWriteComplete (id : Nat) (ok : Bool)
  | nvmeReadComplete (id : Nat) (ok : Bool)
  | engineCommandComplete (l : Loc) (e : Engine)
  | longResultWrite (l : Loc) (slot : Fin 16)
  | accessPerform (id : Nat)
  | accessReply (id : Nat)
  | requestResend (id : Nat)
  | extentWalkComplete (id : Nat)
  | labelWalkComplete (id : Nat)
  | migrationDepart (l : Loc) (slot : Fin 16)
  | migrationArrival (id : Nat)
  | replyForward (id : Nat)
  | spawnArrival (id : Nat)
  | arrivalSpillStart (l : Loc) (reserved : Bool)
  | tdoneSlotFree (l : Loc) (slot : Fin 16)
  | taskStart (id : Nat)
  | taskComplete (l : Loc)
  | readyAgeExpire (die entry : Nat)
  | timeSliceEnd (pid : Nat)
  | kilnDecision (die : Nat)
  | graphLaunchRequest (id : Nat)
  | graphSignalReceive (id : Nat)
  | hostLaunchRequest (pid sc : Nat) (handle : Word) (t : Nat)
  | completionReport (id : Nat)
  | deputyCommit (pid : Nat) (attn : Bool)
  | deputyCommitAck (pid : Nat) (attn : Bool)
  | dieFence (die : Nat)
  | kswapRequest (id : Nat)
  | kswapPrepare (pid : Nat) (attn : Bool) (die : Nat)
  | kswapCommit (pid : Nat) (attn : Bool)
  | lttChangeRequest (id : Nat)
  | lttPrepare (pid : Nat) (l : Loc)
  | lttCommit (pid : Nat) (l : Loc)
  | preemptRequest (l : Loc) (pid : Nat)
  | threadHalt (l : Loc) (slot : Fin 16)
  | coreSave (l : Loc) (pid : Nat)
  | coreRestore (l : Loc) (id : Nat)
  | hostRead (pid sc : Nat) (va : Word) (len : Nat)
  | hostWrite (pid sc : Nat) (va : Word) (data : List Byte)
  | hostPause (pid : Nat)
  | hostResume (pid : Nat)
  | hostReset (pid : Nat)
  | partitionResetComplete (pid : Nat)
  | partitionAssign (req : AssignReq)
  | partitionSplit (attn : Bool) (node : Nat)
  | partitionMerge (attn : Bool) (node : Nat)
  | partitionRelease (pid : Nat)
  | hostGrantResponse (id : Nat) (stamp : BitVec 16) (grant : GrantReply)
  | serviceMap (id : Nat)
  | serviceUnmap (id : Nat)
  | serviceGrant (id : Nat)
  | serviceKload (id : Nat)
  | serviceCkpttab (id : Nat)
  | serviceIntr (id : Nat)
  | serviceUnknown (id : Nat)
  | scrubRead (l : Loc) (found : SoftError)
  | counterSnapshot (die pid : Nat)
  | hostCounterRead (die : Nat)
  | class3WindowEnd (die link : Nat)
  | flitSend (die link : Nat) (offered : List FlitOffer)
  | flitCrcReplay (die link : Nat)
  | ethernetFrameReceive (port : Fin 16) (frame : List Byte)
  | moduleReset
  | firmwareImageReceive (image : List Byte) (version : Nat) (sig : List Byte)
  | hostMeasurement (item : List Byte)
  | attestationRequest (nonce : List Byte) (pid : Nat)
  | temperatureAlarm (die : Nat)
  | thermalReset (die : Nat)
  | hotRemoval (die : Nat) (drive : Fin 8)
  | releaseRequest (pid unit : Nat)
  deriving DecidableEq, Repr

end Sys2Proof
end

