-- ==== Sys2Proof/Config.lean ====
section
/-! DEFINITION. What the spec leaves free, as constants without a body (logs 3, 5, 6, 7): nothing in Lean can evaluate them, so a statement holds whatever they are. -/

namespace Sys2Proof.Config

/-- Whether a fetch before `ifl` returns the block as it stands now (true) or as it stood (03 R97; log 5). -/
opaque freshBlock : Nat → Bool

/-- Which of the admitted values the SFU delivers, by form, lane format and input bits (06 R165; log 6). -/
opaque sfuPick : Nat → Fmt → Nat → Nat

/-- Which comes next of so many accesses that may come next: the granules of a row, the reads and the writes of an engine's command (10 R243, R249; log 3). -/
opaque rowPick : Nat → Nat

/-- A byte the spec leaves open, one for each draw (11 R272). -/
opaque freeByte : Nat → Byte

/-- Which of the admitted values step 4 of the epilogue delivers, by input (02 R65; log 6). -/
opaque gelu2Pick : Nat → Nat

/-- The SHAKE256 digest of the vendor's public key in the fuses of die 0 (16 R390; log 7). -/
opaque vendorDigest : Vector Byte 64

/-- The vendor's SLH-DSA-SHAKE-256s public key as the module receives it (16 R390, R391; log 7). -/
opaque vendorKey : Vector Byte 64

/-- The device's identity secret in the fuses of die 0 (16 R390; log 7). -/
opaque identitySecret : Vector Byte 96

/-- The randomizer of a signature, one for each draw (FIPS 205; log 7). -/
opaque signRand : Nat → Vector Byte 32

/-- The boot ROM's contents (16 R390, R392; log 7). -/
opaque romImage : List Byte

/-- The firmware's configuration, as measured at bring-up (16 R392; log 7). -/
opaque fwConfig : List Byte

/-- The fused minimum firmware version (16 R391; log 7). -/
opaque minVersion : Nat

/-- The drives found at bring-up: attention die, drive port, slots (00 R5, 08 R216, R217; log 3). -/
opaque drivesPresent : List (Nat × Nat × Nat)

/-- Where firmware maps the 2 MiB unit of a counter area, in 2 MiB units above 2^52 (16 R383; log 3). -/
opaque counterVbase : Nat → Nat

/-- The units of the ownership table that are firmware's (08 R210; log 32). -/
opaque firmwareUnits : List Nat

/-- Whether a host read sees a write that is not fenced, by a draw and the write's place among those it may see (10 R258; log 43). -/
opaque hostPick : Nat → Nat → Bool

end Sys2Proof.Config
end

