-- ==== Sys2Proof/WellFormed.lean ====
section
/-! DEFINITION. Which terms of `Instr` have an encoding (03 R82 to R91 and each family's operand limits), for a given issuing location. -/

namespace Sys2Proof

/-- What decoding depends on beside the word: the profile of the die (03 R94), which of the queue numbers 24 to 27 have a link for the
issuing thread (03 R84, 11 R260), and the element types of the core's tiles (06 R163). -/
structure DecodeCtx where
  attn : Bool
  links : BitVec 4
  tiles : Vector Fmt 4
  deriving DecidableEq, Repr

/-- A scalar register number that its field and the issuing core admit (03 R84). -/
def DecodeCtx.okS (x : DecodeCtx) (n : Nat) : Bool := n < 32 && (n < 24 || 27 < n || x.links.getLsbD (n - 24))

/-- A scalar destination that may not be a queue (04 R112, 09 R219). -/
def okN (n : Nat) : Bool := n < 32 && (n < 24 || 27 < n)

/-- The payload registers of `spawn` (11 R278). -/
def payOk (a n : Nat) : Bool := n == 0 || (0 < a && a + n ≤ 24)

/-- `pmov` from `U` needs a guard slot as destination (05 R136). -/
def pmovWf (d : PDst) (a : PSrc) : Bool :=
  match d, a with
  | .p _, .unset => false
  | _, _ => true

/-- A vector prefix that is not all zero (03 R86). -/
def VPfx.wf (p : VPfx) : Bool := p.mask.val != 0 || p.z || p.rnd != .thread || p.e.isSome

/-- A prefix of `vld` or `vst` (03 R86, 09 R225). -/
def RowPfx.wf : RowPfx → Bool
  | .none => true
  | .vector p => p.wf && p.e.isNone
  | .memory _ => true

/-- The parameters that 03 R90 gives a lane modifier whatever the lane count. -/
def LaneMod.wf : LaneMod → Bool
  | .xor k => k.val == 1 || k.val == 2 || k.val == 4 || k.val == 8 || k.val == 16
  | _ => true

/-- Bits of one element (02 R49, R51, R67). -/
def Fmt.bits : Fmt → Nat
  | .i8 | .n8 | .f8a | .f8b | .ds8 | .e8 => 8
  | .i16 | .n16 | .bf16 | .fp16 => 16
  | .i32 | .n32 | .fp32 => 32
  | .i64 | .n64 => 64

/-- Formats that `vcvt` may name as target (02 R56). -/
def Fmt.isVcvtTarget : Fmt → Bool
  | .ds8 | .e8 => false
  | _ => true

/-- The number of parts of a `vcvt` from `src` lanes to `dst` lanes (06 R163). -/
def vcvtParts (src dst : Fmt) : Nat := (max src.bits dst.bits) / (min src.bits dst.bits)

def CvtFmt.isInt : CvtFmt → Bool
  | .i32 | .n32 | .i64 => true
  | _ => false

/-- A pair of formats that FCVT converts (03 R93). -/
def cvtPair (src dst : CvtFmt) : Bool := src != dst && !(src.isInt && dst.isInt)

/-- The tile that holds a vector register (04 R120). -/
def VReg.tile (v : VReg) : TReg := ⟨v.val / 16, by omega⟩

/-- Control registers that the general `cset` row serves; FPMODE, AGEMAX and RINGCFG have rows of their own. -/
def CReg.general : CReg → Bool
  | .fpmode | .agemax | .ringcfg _ => false
  | _ => true

/-- Operations the compute profile lacks (03 R94). -/
def Instr.isPg : Instr → Bool
  | .pgLoad .. | .pgLoadNb .. | .pgLoadList .. | .pgLoadNbList .. | .pgApp .. | .pgFork .. | .pgSel .. | .pgSeal .. | .pgFree ..
  | .pgExt .. | .pgEvict .. => true
  | _ => false

/-- Operations the attention profile lacks (03 R94). -/
def Instr.isHm : Instr → Bool
  | .hmGemv .. => true
  | _ => false

/-- The term has an encoding that the decoder accepts at a location `x` describes. -/
def wellFormed (x : DecodeCtx) : Instr → Bool
  | .add _ d a b => (x.okS d.val) && (x.okS a.val) && (x.okS b.val)
  | .sub _ d a b => (x.okS d.val) && (x.okS a.val) && (x.okS b.val)
  | .and _ d a b => (x.okS d.val) && (x.okS a.val) && (x.okS b.val)
  | .or _ d a b => (x.okS d.val) && (x.okS a.val) && (x.okS b.val)
  | .xor _ d a b => (x.okS d.val) && (x.okS a.val) && (x.okS b.val)
  | .andn _ d a b => (x.okS d.val) && (x.okS a.val) && (x.okS b.val)
  | .shl _ d a b => (x.okS d.val) && (x.okS a.val) && (x.okS b.val)
  | .shr _ d a b => (x.okS d.val) && (x.okS a.val) && (x.okS b.val)
  | .sra _ d a b => (x.okS d.val) && (x.okS a.val) && (x.okS b.val)
  | .rol _ d a b => (x.okS d.val) && (x.okS a.val) && (x.okS b.val)
  | .min _ d a b => (x.okS d.val) && (x.okS a.val) && (x.okS b.val)
  | .max _ d a b => (x.okS d.val) && (x.okS a.val) && (x.okS b.val)
  | .minn _ d a b => (x.okS d.val) && (x.okS a.val) && (x.okS b.val)
  | .maxn _ d a b => (x.okS d.val) && (x.okS a.val) && (x.okS b.val)
  | .mul _ d a b => (x.okS d.val) && (x.okS a.val) && (x.okS b.val)
  | .mulh _ d a b => (x.okS d.val) && (x.okS a.val) && (x.okS b.val)
  | .mulhn _ d a b => (x.okS d.val) && (x.okS a.val) && (x.okS b.val)
  | .div _ d a b => (okN d.val) && (x.okS a.val) && (x.okS b.val)
  | .divn _ d a b => (okN d.val) && (x.okS a.val) && (x.okS b.val)
  | .rem _ d a b => (okN d.val) && (x.okS a.val) && (x.okS b.val)
  | .remn _ d a b => (okN d.val) && (x.okS a.val) && (x.okS b.val)
  | .clz _ d a => (x.okS d.val) && (x.okS a.val)
  | .ctz _ d a => (x.okS d.val) && (x.okS a.val)
  | .popc _ d a => (x.okS d.val) && (x.okS a.val)
  | .bswap _ d a => (x.okS d.val) && (x.okS a.val)
  | .addi _ d a _ => (x.okS d.val) && (x.okS a.val)
  | .andi _ d a _ => (x.okS d.val) && (x.okS a.val)
  | .ori _ d a _ => (x.okS d.val) && (x.okS a.val)
  | .xori _ d a _ => (x.okS d.val) && (x.okS a.val)
  | .shli _ d a _ => (x.okS d.val) && (x.okS a.val)
  | .shri _ d a _ => (x.okS d.val) && (x.okS a.val)
  | .srai _ d a _ => (x.okS d.val) && (x.okS a.val)
  | .roli _ d a _ => (x.okS d.val) && (x.okS a.val)
  | .mini _ d a _ => (x.okS d.val) && (x.okS a.val)
  | .maxi _ d a _ => (x.okS d.val) && (x.okS a.val)
  | .muli _ d a _ => (x.okS d.val) && (x.okS a.val)
  | .eq _ _ a b => (x.okS a.val) && (x.okS b.val)
  | .ne _ _ a b => (x.okS a.val) && (x.okS b.val)
  | .lt _ _ a b => (x.okS a.val) && (x.okS b.val)
  | .le _ _ a b => (x.okS a.val) && (x.okS b.val)
  | .ltn _ _ a b => (x.okS a.val) && (x.okS b.val)
  | .len _ _ a b => (x.okS a.val) && (x.okS b.val)
  | .eqi _ _ a _ => (x.okS a.val)
  | .nei _ _ a _ => (x.okS a.val)
  | .lti _ _ a _ => (x.okS a.val)
  | .lei _ _ a _ => (x.okS a.val)
  | .ltni _ _ a _ => (x.okS a.val)
  | .leni _ _ a _ => (x.okS a.val)
  | .pand .. => true
  | .por .. => true
  | .pxor .. => true
  | .pandn .. => true
  | .pnot .. => true
  | .pmov _ d a => (pmovWf d a)
  | .sel _ d a b _ => (x.okS d.val) && (x.okS a.val) && (x.okS b.val)
  | .li _ d _ => (x.okS d.val)
  | .lipc _ d _ => (x.okS d.val)
  | .sext _ d a _ => (x.okS d.val) && (x.okS a.val)
  | .zext _ d a _ => (x.okS d.val) && (x.okS a.val)
  | .bfx _ d a _ _ _ => (x.okS d.val) && (x.okS a.val)
  | .bfi _ d a _ _ => (x.okS d.val) && (x.okS a.val)
  | .fadd _ d a b => (x.okS d.val) && (x.okS a.val) && (x.okS b.val)
  | .fsub _ d a b => (x.okS d.val) && (x.okS a.val) && (x.okS b.val)
  | .fmul _ d a b => (x.okS d.val) && (x.okS a.val) && (x.okS b.val)
  | .fdiv _ d a b => (okN d.val) && (x.okS a.val) && (x.okS b.val)
  | .fsqrt _ d a => (okN d.val) && (x.okS a.val)
  | .fmin _ d a b => (x.okS d.val) && (x.okS a.val) && (x.okS b.val)
  | .fmax _ d a b => (x.okS d.val) && (x.okS a.val) && (x.okS b.val)
  | .fabs _ d a => (x.okS d.val) && (x.okS a.val)
  | .fneg _ d a => (x.okS d.val) && (x.okS a.val)
  | .fma _ d a b => (x.okS d.val) && (x.okS a.val) && (x.okS b.val)
  | .feq _ _ a b => (x.okS a.val) && (x.okS b.val)
  | .flt _ _ a b => (x.okS a.val) && (x.okS b.val)
  | .fle _ _ a b => (x.okS a.val) && (x.okS b.val)
  | .funord _ _ a b => (x.okS a.val) && (x.okS b.val)
  | .fcvt _ src dst d a => cvtPair src dst && x.okS d.val && x.okS a.val
  | .jmp .. => true
  | .call .. => true
  | .jr _ a => (x.okS a.val)
  | .callr _ a => (x.okS a.val)
  | .loop _ a len => (x.okS a.val) && (len.val != 0 && len.val < 2 ^ 16)
  | .loopi _ _ len => (len.val != 0 && len.val < 2 ^ 15)
  | .chk _ a _ => (x.okS a.val)
  | .chkl .. => true
  | .nop .. => true
  | .yield .. => true
  | .ckpt .. => true
  | .trap .. => true
  | .brk .. => true
  | .tdone .. => true
  | .ld _ _ d a _ sz uns => okN d.val && x.okS a.val && !(sz == .b8 && uns)
  | .ldSync _ d a _ sz uns => okN d.val && x.okS a.val && !(sz == .b8 && uns)
  | .ldTake _ d a _ sz uns => okN d.val && x.okS a.val && !(sz == .b8 && uns)
  | .ldSpec _ _ d a _ sz uns => okN d.val && x.okS a.val && !(sz == .b8 && uns)
  | .st _ _ d a _ _ => x.okS d.val && x.okS a.val
  | .stFill _ d a _ _ => x.okS d.val && x.okS a.val
  | .stXfill _ d a _ _ => x.okS d.val && x.okS a.val
  | .feSet _ a _ => (x.okS a.val)
  | .feClr _ a _ => (x.okS a.val)
  | .feGet _ d a _ => (okN d.val) && (x.okS a.val)
  | .feWait _ a _ => (x.okS a.val)
  | .fenceCore .. => true
  | .fenceDie .. => true
  | .fenceMod .. => true
  | .fenceSys .. => true
  | .fenceEng .. => true
  | .vld _ q _ a _ => (q.wf) && (x.okS a.val)
  | .vst _ q _ a _ => (q.wf) && (x.okS a.val)
  | .vldSync _ p _ a _ => (p.all fun y => y.wf && y.e.isNone) && (x.okS a.val)
  | .vstFill _ p _ a _ => (p.all fun y => y.wf && y.e.isNone) && (x.okS a.val)
  | .amoAdd _ _ _ d a b => (okN d.val) && (x.okS a.val) && (x.okS b.val)
  | .amoAnd _ _ _ d a b => (okN d.val) && (x.okS a.val) && (x.okS b.val)
  | .amoOr _ _ _ d a b => (okN d.val) && (x.okS a.val) && (x.okS b.val)
  | .amoXor _ _ _ d a b => (okN d.val) && (x.okS a.val) && (x.okS b.val)
  | .amoMin _ _ _ d a b => (okN d.val) && (x.okS a.val) && (x.okS b.val)
  | .amoMax _ _ _ d a b => (okN d.val) && (x.okS a.val) && (x.okS b.val)
  | .amoMinn _ _ _ d a b => (okN d.val) && (x.okS a.val) && (x.okS b.val)
  | .amoMaxn _ _ _ d a b => (okN d.val) && (x.okS a.val) && (x.okS b.val)
  | .amoSwap _ _ _ d a b => (okN d.val) && (x.okS a.val) && (x.okS b.val)
  | .amoFadd _ _ d a b => (okN d.val) && (x.okS a.val) && (x.okS b.val)
  | .cas32 _ _ d a b => (okN d.val) && (x.okS a.val) && (x.okS b.val)
  | .cas64 _ _ d a b => (okN d.val) && (x.okS a.val) && (x.okS b.val)
  | .redAdd _ _ _ a b => (x.okS a.val) && (x.okS b.val)
  | .redAnd _ _ _ a b => (x.okS a.val) && (x.okS b.val)
  | .redOr _ _ _ a b => (x.okS a.val) && (x.okS b.val)
  | .redXor _ _ _ a b => (x.okS a.val) && (x.okS b.val)
  | .redMin _ _ _ a b => (x.okS a.val) && (x.okS b.val)
  | .redMax _ _ _ a b => (x.okS a.val) && (x.okS b.val)
  | .redMinn _ _ _ a b => (x.okS a.val) && (x.okS b.val)
  | .redMaxn _ _ _ a b => (x.okS a.val) && (x.okS b.val)
  | .redSwap _ _ _ a b => (x.okS a.val) && (x.okS b.val)
  | .redFadd _ _ a b => (x.okS a.val) && (x.okS b.val)
  | .redArrive _ _ a b => (x.okS a.val) && (x.okS b.val)
  | .casK _ d a b c _ => (okN d.val) && (x.okS a.val) && (x.okS b.val) && (x.okS c.val)
  | .decK _ d a b _ => (okN d.val) && (x.okS a.val) && (x.okS b.val)
  | .spawn _ d a npay _ _ => (x.okS d.val) && (payOk a.val npay.val) && (npay.val != 0 || a.val == 0)
  | .migrate _ a => (x.okS a.val)
  | .rbSend _ d a b c _ _ => (okN d.val) && (x.okS a.val) && (x.okS b.val) && (x.okS c.val)
  | .rbGet _ d _ => (okN d.val)
  | .rbGetNb _ d _ => (okN d.val)
  | .rbFree .. => true
  | .qsendc _ q a => (x.okS (24 + q.val)) && (x.okS a.val)
  | .qstat _ d _ => (x.okS d.val)
  | .qret .. => true
  | .tgLaunch _ d a _ => (okN d.val) && (x.okS a.val)
  | .tgSignal _ a _ => (x.okS a.val)
  | .lroot _ _ a => (x.okS a.val)
  | .lchild _ _ _ b => (x.okS b.val)
  | .lparent .. => true
  | .lanc .. => true
  | .lpanc .. => true
  | .ldepth _ d _ => (x.okS d.val)
  | .lcommon .. => true
  | .ldig _ d _ b => (x.okS d.val) && (x.okS b.val)
  | .lend .. => true
  | .lget _ d _ _ => (x.okS d.val)
  | .lset _ _ a _ => (x.okS a.val)
  | .lmov .. => true
  | .lld _ _ d _ _ _ _ _ => (okN d.val)
  | .lst _ _ d _ _ _ => (x.okS d.val)
  | .lldL .. => true
  | .lstL .. => true
  | .ltree _ _ a b c _ => (x.okS a.val) && (x.okS b.val) && (x.okS c.val)
  | .ltreeV _ _ a _ => (x.okS a.val)
  | .lnew _ _ _ b c => (x.okS b.val) && (x.okS c.val)
  | .lfree .. => true
  | .lmove .. => true
  | .lmoveF .. => true
  | .lrebase .. => true
  | .lxlate _ d _ => (okN d.val)
  | .lxlateT _ d _ => (okN d.val)
  | .lxlateTs _ d _ => (okN d.val)
  | .lxlateOld .. => true
  | .lxlateNew .. => true
  | .teSum _ _ d _ _ => (x.okS d.val)
  | .teCount _ _ d _ _ => (x.okS d.val)
  | .teCopy _ _ d _ b _ _ => (x.okS d.val) && (x.okS b.val)
  | .teFill _ _ d _ b _ => (x.okS d.val) && (x.okS b.val)
  | .teVisit _ _ d _ b c _ _ => (x.okS d.val) && (x.okS b.val) && (x.okS c.val)
  | .vadd _ p _ _ _ ma mb => (p.all fun y => y.wf && y.e.isNone) && (ma.wf) && (mb.wf)
  | .vsub _ p _ _ _ ma mb => (p.all fun y => y.wf && y.e.isNone) && (ma.wf) && (mb.wf)
  | .vmul _ p _ _ _ ma mb => (p.all fun y => y.wf && y.e.isNone) && (ma.wf) && (mb.wf)
  | .vmulh _ p _ _ _ ma mb => (p.all fun y => y.wf && y.e.isNone) && (ma.wf) && (mb.wf)
  | .vmin _ p _ _ _ ma mb => (p.all fun y => y.wf && y.e.isNone) && (ma.wf) && (mb.wf)
  | .vmax _ p _ _ _ ma mb => (p.all fun y => y.wf && y.e.isNone) && (ma.wf) && (mb.wf)
  | .vminn _ p _ _ _ ma mb => (p.all fun y => y.wf && y.e.isNone) && (ma.wf) && (mb.wf)
  | .vmaxn _ p _ _ _ ma mb => (p.all fun y => y.wf && y.e.isNone) && (ma.wf) && (mb.wf)
  | .vand _ p _ _ _ ma mb => (p.all fun y => y.wf && y.e.isNone) && (ma.wf) && (mb.wf)
  | .vor _ p _ _ _ ma mb => (p.all fun y => y.wf && y.e.isNone) && (ma.wf) && (mb.wf)
  | .vxor _ p _ _ _ ma mb => (p.all fun y => y.wf && y.e.isNone) && (ma.wf) && (mb.wf)
  | .vandn _ p _ _ _ ma mb => (p.all fun y => y.wf && y.e.isNone) && (ma.wf) && (mb.wf)
  | .vshl _ p _ _ _ ma mb => (p.all fun y => y.wf && y.e.isNone) && (ma.wf) && (mb.wf)
  | .vshr _ p _ _ _ ma mb => (p.all fun y => y.wf && y.e.isNone) && (ma.wf) && (mb.wf)
  | .vsra _ p _ _ _ ma mb => (p.all fun y => y.wf && y.e.isNone) && (ma.wf) && (mb.wf)
  | .vabs _ p _ _ ma => (p.all fun y => y.wf && y.e.isNone) && (ma.wf)
  | .vneg _ p _ _ ma => (p.all fun y => y.wf && y.e.isNone) && (ma.wf)
  | .vsadd _ p _ _ _ ma mb => (p.all fun y => y.wf && y.e.isNone) && (ma.wf) && (mb.wf)
  | .vssub _ p _ _ _ ma mb => (p.all fun y => y.wf && y.e.isNone) && (ma.wf) && (mb.wf)
  | .vfadd _ p _ _ _ ma mb => (p.all fun y => y.wf && y.e.isNone) && (ma.wf) && (mb.wf)
  | .vfsub _ p _ _ _ ma mb => (p.all fun y => y.wf && y.e.isNone) && (ma.wf) && (mb.wf)
  | .vfmul _ p _ _ _ ma mb => (p.all fun y => y.wf && y.e.isNone) && (ma.wf) && (mb.wf)
  | .vfma _ p _ _ _ ma mb => (p.all fun y => y.wf) && (ma.wf) && (mb.wf)
  | .vfmin _ p _ _ _ ma mb => (p.all fun y => y.wf && y.e.isNone) && (ma.wf) && (mb.wf)
  | .vfmax _ p _ _ _ ma mb => (p.all fun y => y.wf && y.e.isNone) && (ma.wf) && (mb.wf)
  | .vfabs _ p _ _ ma => (p.all fun y => y.wf && y.e.isNone) && (ma.wf)
  | .vfneg _ p _ _ ma => (p.all fun y => y.wf && y.e.isNone) && (ma.wf)
  | .vcmpEq _ p _ _ _ ma mb => (p.all fun y => y.wf && y.e.isNone) && (ma.wf) && (mb.wf)
  | .vcmpNe _ p _ _ _ ma mb => (p.all fun y => y.wf && y.e.isNone) && (ma.wf) && (mb.wf)
  | .vcmpLt _ p _ _ _ ma mb => (p.all fun y => y.wf && y.e.isNone) && (ma.wf) && (mb.wf)
  | .vcmpLe _ p _ _ _ ma mb => (p.all fun y => y.wf && y.e.isNone) && (ma.wf) && (mb.wf)
  | .vcmpLtn _ p _ _ _ ma mb => (p.all fun y => y.wf && y.e.isNone) && (ma.wf) && (mb.wf)
  | .vcmpLen _ p _ _ _ ma mb => (p.all fun y => y.wf && y.e.isNone) && (ma.wf) && (mb.wf)
  | .vfcmpEq _ p _ _ _ ma mb => (p.all fun y => y.wf && y.e.isNone) && (ma.wf) && (mb.wf)
  | .vfcmpLt _ p _ _ _ ma mb => (p.all fun y => y.wf && y.e.isNone) && (ma.wf) && (mb.wf)
  | .vfcmpLe _ p _ _ _ ma mb => (p.all fun y => y.wf && y.e.isNone) && (ma.wf) && (mb.wf)
  | .vfcmpUn _ p _ _ _ ma mb => (p.all fun y => y.wf && y.e.isNone) && (ma.wf) && (mb.wf)
  | .vmov _ p _ _ ma => (p.all fun y => y.wf && y.e.isNone) && (ma.wf)
  | .vsel _ p _ _ _ ma mb => (p.wf && p.e.isNone && !p.z) && (ma.wf) && (mb.wf)
  | .vsplat _ p _ a => (p.all fun y => y.wf && y.e.isNone) && (x.okS a.val)
  | .vext _ d _ b ma => (x.okS d.val) && (x.okS b.val) && (ma.wf)
  | .vins _ _ a b => (x.okS a.val) && (x.okS b.val)
  | .vidx _ p _ a => (p.all fun y => y.wf && y.e.isNone) && (x.okS a.val)
  | .vcvt _ p t _ a part ma => (p.all fun y => y.wf && y.e.isNone) && t.isVcvtTarget && (part.val < vcvtParts x.tiles[a.tile] t) && ma.wf
  | .vexp2 _ p _ _ ma => (p.all fun y => y.wf && y.e.isNone) && (ma.wf)
  | .vlog2 _ p _ _ ma => (p.all fun y => y.wf && y.e.isNone) && (ma.wf)
  | .vrcp _ p _ _ ma => (p.all fun y => y.wf && y.e.isNone) && (ma.wf)
  | .vrsqrt _ p _ _ ma => (p.all fun y => y.wf && y.e.isNone) && (ma.wf)
  | .vtanh _ p _ _ ma => (p.all fun y => y.wf && y.e.isNone) && (ma.wf)
  | .vsigm _ p _ _ ma => (p.all fun y => y.wf && y.e.isNone) && (ma.wf)
  | .vredadd _ p d _ ma => (p.all fun y => y.wf && y.e.isNone && !y.z) && (okN d.val) && (ma.wf)
  | .vredmax _ p d _ ma => (p.all fun y => y.wf && y.e.isNone && !y.z) && (okN d.val) && (ma.wf)
  | .vredmin _ p d _ ma => (p.all fun y => y.wf && y.e.isNone && !y.z) && (okN d.val) && (ma.wf)
  | .vfredadd _ p d _ ma => (p.all fun y => y.wf && y.e.isNone && !y.z) && (okN d.val) && (ma.wf)
  | .vfredmax _ p d _ ma => (p.all fun y => y.wf && y.e.isNone && !y.z) && (okN d.val) && (ma.wf)
  | .vscanAdd _ p _ _ ma => (p.all fun y => y.wf && y.e.isNone) && (ma.wf)
  | .vmergeSm _ p d a b ma mb => (p.all fun y => y.wf && y.e.isNone) && ((d.val % 16 ≤ 13)) && ((a.val % 16 ≤ 13)) && ((b.val % 16 ≤ 13)) && (ma.wf) && (mb.wf)
  | .vcompress _ p _ _ b ma => (p.all fun y => y.wf && y.e.isNone) && (x.okS b.val) && (ma.wf)
  | .vexpand _ p _ _ ma => (p.all fun y => y.wf && y.e.isNone) && (ma.wf)
  | .mpopc _ d _ => (x.okS d.val)
  | .mand .. => true
  | .mor .. => true
  | .mxor .. => true
  | .mnot .. => true
  | .mset _ _ a => (x.okS a.val)
  | .mget _ d _ => (x.okS d.val)
  | .mfirst _ d _ => (x.okS d.val)
  | .tcfg .. => true
  | .tzero .. => true
  | .tfree .. => true
  | .twm .. => true
  | .wload _ _ a b _ _ => (x.okS a.val) && (x.okS b.val)
  | .mma .. => true
  | .mmaZ .. => true
  | .mmaSp .. => true
  | .tstore _ _ d _ b c _ _ _ => (x.okS d.val) && (x.okS b.val) && (x.okS c.val)
  | .tload _ _ _ a _ => (x.okS a.val)
  | .mparam _ _ a => (x.okS a.val)
  | .hmGemv _ _ d a b c _ _ _ => (x.okS d.val) && (x.okS a.val) && (x.okS b.val) && (x.okS c.val) && !x.attn
  | .ieGather _ _ d a b c _ => (x.okS d.val) && (x.okS a.val) && (x.okS b.val) && (x.okS c.val)
  | .ieScatter _ _ d a b c _ _ => (x.okS d.val) && (x.okS a.val) && (x.okS b.val) && (x.okS c.val)
  | .ieCopy _ _ d a b _ => (x.okS d.val) && (x.okS a.val) && (x.okS b.val)
  | .ieFill _ _ d a b _ => (x.okS d.val) && (x.okS a.val) && (x.okS b.val)
  | .ieMcast _ _ d a b c _ _ => (x.okS d.val) && (x.okS a.val) && (x.okS b.val) && (x.okS c.val)
  | .ieCond _ _ d a b c _ _ => (x.okS d.val) && (x.okS a.val) && (x.okS b.val) && (x.okS c.val)
  | .pgLoad _ _ d _ b _ _ => (x.okS d.val) && (x.okS b.val) && x.attn
  | .pgLoadNb _ _ d _ b _ _ => (x.okS d.val) && (x.okS b.val) && x.attn
  | .pgLoadList _ _ d _ b c _ => (x.okS d.val) && (x.okS b.val) && (x.okS c.val) && x.attn
  | .pgLoadNbList _ _ d _ b c _ => (x.okS d.val) && (x.okS b.val) && (x.okS c.val) && x.attn
  | .pgApp _ _ d _ b => (x.okS d.val) && (x.okS b.val) && x.attn
  | .pgFork _ _ d _ _ => (x.okS d.val) && x.attn
  | .pgSel _ _ d _ b c _ _ _ => (x.okS d.val) && (x.okS b.val) && (x.okS c.val) && x.attn
  | .pgSeal _ _ d _ => (x.okS d.val) && x.attn
  | .pgFree _ _ d _ => (x.okS d.val) && x.attn
  | .pgExt _ _ d _ _ _ => (x.okS d.val) && x.attn
  | .pgEvict _ _ d _ b => (x.okS d.val) && (x.okS b.val) && x.attn
  | .cget _ d _ => x.okS d.val
  | .cset _ a r => x.okS a.val && r.general
  | .csetFpmode _ a => x.okS a.val
  | .csetAgemax _ a => x.okS a.val
  | .csetRingcfg _ a _ => x.okS a.val
  | .eret .. => true
  | .pcall _ d a _ => (okN d.val) && (x.okS a.val)
  | .ifl .. => true
  | .lfl .. => true
  | .kswap _ d => (okN d.val)
  | .kld .. => true
  | .kadd .. => true
  | .ksub .. => true
  | .kand .. => true
  | .kor .. => true
  | .kshl .. => true
  | .kshr .. => true
  | .kmin .. => true
  | .kmax .. => true
  | .kceq .. => true
  | .kcgt .. => true
  | .kfirst .. => true
  | .kamax _ _ i => i.val ≤ 24
  | .kpop .. => true
  | .kldi .. => true
  | .klui .. => true
  | .kbz .. => true
  | .kbnz .. => true
  | .ksel .. => true
  | .kstw _ i => 28 ≤ i.val
  | .kemit .. => true
  | .kend => true
  | .continuationAct .. => false
  | .launchWaitReevaluate .. => false
  | .puntyStart .. => false
  | .ringMessagePlace .. => false
  | .linkGrow .. => false
  | .deadlockProbeSend .. => false
  | .deadlockProbeReceive .. => false
  | .sfuResultWrite .. => false
  | .vredResultWrite .. => false
  | .meCommandStart .. => false
  | .meRowWrite .. => false
  | .nmCommandRun .. => false
  | .ieCommandRun .. => false
  | .teCommandRun .. => false
  | .peCommandRun .. => false
  | .pgAppendAct .. => false
  | .nvmeWriteComplete .. => false
  | .nvmeReadComplete .. => false
  | .engineCommandComplete .. => false
  | .longResultWrite .. => false
  | .accessPerform .. => false
  | .accessReply .. => false
  | .requestResend .. => false
  | .extentWalkComplete .. => false
  | .labelWalkComplete .. => false
  | .migrationDepart .. => false
  | .migrationArrival .. => false
  | .replyForward .. => false
  | .spawnArrival .. => false
  | .arrivalSpillStart .. => false
  | .tdoneSlotFree .. => false
  | .taskStart .. => false
  | .taskComplete .. => false
  | .readyAgeExpire .. => false
  | .timeSliceEnd .. => false
  | .kilnDecision .. => false
  | .graphLaunchRequest .. => false
  | .graphSignalReceive .. => false
  | .hostLaunchRequest .. => false
  | .completionReport .. => false
  | .deputyCommit .. => false
  | .deputyCommitAck .. => false
  | .dieFence .. => false
  | .kswapRequest .. => false
  | .kswapPrepare .. => false
  | .kswapCommit .. => false
  | .lttChangeRequest .. => false
  | .lttPrepare .. => false
  | .lttCommit .. => false
  | .preemptRequest .. => false
  | .threadHalt .. => false
  | .coreSave .. => false
  | .coreRestore .. => false
  | .hostRead .. => false
  | .hostWrite .. => false
  | .hostPause .. => false
  | .hostResume .. => false
  | .hostReset .. => false
  | .partitionResetComplete .. => false
  | .partitionAssign .. => false
  | .partitionSplit .. => false
  | .partitionMerge .. => false
  | .partitionRelease .. => false
  | .hostGrantResponse .. => false
  | .serviceMap .. => false
  | .serviceUnmap .. => false
  | .serviceGrant .. => false
  | .serviceKload .. => false
  | .serviceCkpttab .. => false
  | .serviceIntr .. => false
  | .serviceUnknown .. => false
  | .scrubRead .. => false
  | .counterSnapshot .. => false
  | .hostCounterRead .. => false
  | .class3WindowEnd .. => false
  | .flitSend .. => false
  | .flitCrcReplay .. => false
  | .ethernetFrameReceive .. => false
  | .moduleReset => false
  | .firmwareImageReceive .. => false
  | .hostMeasurement .. => false
  | .attestationRequest .. => false
  | .temperatureAlarm .. => false
  | .thermalReset .. => false
  | .hotRemoval .. => false
  | .releaseRequest .. => false

end Sys2Proof
end

