-- ==== Sys2Proof/Machine/State.lean ====
section
/-! DEFINITION. The state of the module: threads, cores, dies, partitions, memory, and everything in flight between them, as plain data. -/

namespace Sys2Proof.Machine

/-- Reasons to stop with a fault. -/
inductive Fault where
  /-- Raised by the meaning of a Gleral or kiln instruction that is executed while no thread (or kiln) is issuing. Safe: `step` sets the issue
  context before every instruction it executes, so no run of the machine meets it. -/
  | noIssue
  deriving DecidableEq, Repr

/-- Reasons to refuse an instruction. -/
inductive Refusal where
  /-- Raised by an arm of `exec` whose instruction has no meaning yet. Safe: the machine stops. -/
  | notModelled (mnemonic : String)
  deriving DecidableEq, Repr

/-! ## Threads (01 R19 to R37, 04 R110 to R127) -/

/-- A guard slot (04 R115). -/
inductive GuardVal where
  | unset | tt | ff
  deriving DecidableEq, Repr

/-- A loop-stack entry (04 R116). -/
structure LoopEntry where
  start : Word
  fin : Word
  count : BitVec 32
  deriving DecidableEq, Repr

/-- One register written by a result that was outstanding: `bits` selects the bits of a row that active lanes cover (06 R154). -/
inductive RegWrite where
  | s (r : SReg) (v : Word) (df : Bool)
  | l (r : LReg) (v : Label) (df : Bool)
  | v (r : VReg) (bits : Row) (val : Row)
  deriving DecidableEq, Repr

/-- Where a long-latency result comes from (01 R24). -/
inductive LongUnit where
  | alu | sfu | vred | access (req : Nat)
  deriving DecidableEq, Repr

/-- An outstanding long-latency result (01 R25); `due` is the cycle of its write, none while a reply is awaited. -/
structure LongResult where
  unit : LongUnit
  due : Option Nat
  writes : List RegWrite
  flags : BitVec 5
  deriving DecidableEq, Repr

/-- A trap to be entered once the thread's long-latency results are written (15 R362). -/
structure TrapInfo where
  cause : Nat
  detail : Nat
  tpc : Word
  tword0 : Word
  tword1 : Word
  taddr : Word
  lfOld : Option Label
  lfNew : Option Label
  isBrk : Bool
  deriving DecidableEq, Repr

/-- An extent map entry; addresses in 2 MiB units (08 R205). -/
structure ExtEntry where
  vbase : Nat
  size : Nat
  pbase : Nat
  x : Bool
  w : Bool
  rd : Bool
  deriving DecidableEq, Repr

/-- What an access asks of an extent's permissions (08 R205); `any` nothing. -/
inductive XKind where
  | read | write | rmw | fetch | any
  deriving DecidableEq, Repr

/-- A label translation table entry (13 R313). -/
structure LttEntry where
  num : Nat
  cur : Label
  birth : Label
  dbase : Nat
  dsize : Nat
  forward : Bool
  view : Bool
  root : Bool
  deriving DecidableEq, Repr

/-- What a walk looks for at the die's map walker (08 R208, 13 R314). -/
inductive WalkFor where
  | extent (va : Nat)
  | label (tid : Nat)
  deriving DecidableEq, Repr

/-- The walks of the instruction that a thread is issuing: the one awaited, addresses that no extent holds, and the entries and sets that earlier
walks have brought (08 R208, 13 R314). -/
structure WalkState where
  waits : Option WalkFor
  missed : List Nat
  exts : List ExtEntry
  sets : List (Nat × List LttEntry)
  deriving DecidableEq, Repr

/-- Who waits for a walk (08 R208, 13 R314): a thread, the running command of an engine, an access at a home slice, a change of the label table at its
master, or the head of a slice's launch queue. -/
inductive WalkWho where
  | thread (thid : Word)
  | engine (e : Engine) (seq : Nat)
  | request (id : Nat)
  | change (id : Nat)
  | launch
  deriving DecidableEq, Repr

/-- No walk. -/
def WalkState.none : WalkState := ⟨Option.none, [], [], []⟩

/-- The parked instruction whose completion is due: its length, its S bit, and the bits fetched at it (01 R28, R29). -/
structure Cont where
  len : Nat
  sw : Bool
  w0 : Word
  w1 : Word
  deriving DecidableEq, Repr

/-- Everything a thread owns, and its slot's trap state. -/
structure Thread where
  part : Nat
  priv : Bool
  roaming : Bool
  inTask : Bool
  thid : Word
  pc : Word
  s : Vector Word 32
  l : Vector Label 8
  p : BitVec 8
  g : Vector GuardVal 4
  loops : List LoopEntry
  sdf : BitVec 32
  ldf : BitVec 8
  spnd : BitVec 32
  lpnd : BitVec 8
  vpnd : BitVec 64
  fpmode : BitVec 8
  qos : BitVec 2
  tvec : Word
  qhvec : Word
  tpra : Word
  ckptid : BitVec 16
  tcause : Word
  tpc : Word
  tword0 : Word
  tword1 : Word
  taddr : Word
  thact : Bool
  lfOld : Label
  lfNew : Label
  lact : Bool
  ldir : BitVec 2
  lret : BitVec 56
  lval : Word
  outs : List LongResult
  walk : WalkState
  cont : Option Cont
  runErr : Option TrapInfo
  pendTrap : Option TrapInfo
  ended : Bool
  deriving DecidableEq, Repr

/-- What a BLOCK slot waits for (01 R20). -/
inductive BlockWhy where
  | queues (needs rooms : List (Fin 4 × Nat))
  | engine (e : Engine)
  | sfu
  | relaxedLimit
  | drain
  | migrate
  | send
  | walk
  | fence (k : Fin 5)
  | twm (t : TReg) (n : Nat)
  | pins (tid : Nat)
  deriving DecidableEq, Repr

/-- What a PARK-MEM slot waits for (01 R20, 15 R372). -/
inductive ParkWhy where
  | access (id : Nat)
  | message (id : Nat)
  deriving DecidableEq, Repr

/-- Slot states (01 R20). -/
inductive SlotState where
  | free
  | run
  | parkSw
  | parkMem (why : ParkWhy)
  | block (why : BlockWhy) (since : Nat)
  | moving (dest : Loc)
  | halt
  deriving DecidableEq, Repr

/-- A thread slot (01 R19 to R21): `halting` the instructions that a pre-emption leaves its thread, `atCkpt` a `ckpt` that the thread has halted at or is to
halt at, and whether that has an entry (05 R151), `tpcHeld` the TPC of the trap handler that a halted thread is in, while TPC names its next
instruction (15 R372). -/
structure Slot where
  st : SlotState
  last : Option Nat
  hold : Nat
  count : Nat
  reserved : Bool
  halting : Option Nat
  atCkpt : Option Bool
  tpcHeld : Option Word
  probeAt : Nat
  th : Thread
  deriving DecidableEq, Repr

/-- A thread on its way into a slot (01 R34, R35): a fresh one or a migrated context; `reservedKind` marks a spawn of the task's own threads
onto their own core. -/
structure Arrival where
  th : Thread
  migrated : Bool
  reservedKind : Bool
  deriving DecidableEq, Repr

/-! ## Engines (07 R181, R191 to R193; 09 R241; 13 R335; 14 R358) -/

/-- A tensor parameter record as read at issue (02 R63), RND resolved. -/
structure Tpr where
  scalep : Nat
  clampb : BitVec 32
  ofmt : Fmt
  wfmt : Fmt
  afmt : Vector Fmt 4
  rnd : Rnd
  epi : Nat
  deriving DecidableEq, Repr

/-- A shape record as read at issue (02 R66). -/
structure Shape where
  base : Nat
  bound : Nat
  fmt : Fmt
  ndim : Nat
  ext : Vector Nat 4
  stride : Vector Nat 4
  deriving DecidableEq, Repr

/-- The mask set of an ME (07 R176, R186). -/
structure MaskSet where
  allow : BitVec 256
  qposv : BitVec 256
  kposv : BitVec 256
  fill : BitVec 32
  pos : Bool
  deriving DecidableEq, Repr

/-- The weights latched in an ME: 16 rows of 64 bytes (07 R183). -/
structure Weights where
  rows : Vector Row 16
  wfmt : Fmt
  sp : Bool
  deriving DecidableEq, Repr

inductive MmaKind where
  | add | zero | sparse
  deriving DecidableEq, Repr

/-- A page that an append holds in reserve, the frame popped for it, and whether it came from RESV (14 R348, R352). -/
structure Spare where
  page : Nat
  frame : Nat
  resv : Bool
  deriving DecidableEq, Repr

/-- What a posted write does at its place: it puts its bytes there, updates one element in the home slice's unit (09 R237), or starts a `te.visit`
thread beside a record (13 R332). -/
inductive PostAct where
  | put
  | update (f : Fmt) (opk : Nat)
  | visit (dest : Loc) (a : Arrival)
  deriving DecidableEq, Repr

/-- A write of a running command that is still to be performed: the physical places and bytes, all in one granule, how many bytes of the command lie
directly below them, and the granules that it sets full (08 R196; 09 R235; 10 R249). -/
structure Post where
  act : PostAct
  at_ : List (Nat × Byte)
  before : Nat
  fills : List Nat
  deriving DecidableEq, Repr

/-- What a tree engine has read of a node: nothing to walk there, as a fault or not; or its record, NEXT, and the value and place of its field
(13 R332). -/
inductive NodeRead where
  | gone (bad : Bool)
  | ok (raddr next value key : Nat)
  deriving DecidableEq, Repr

/-- A node whose reads have begun: its label, its level, what its accesses have given so far, and what they have told (13 R334). -/
structure TeNode where
  x : Label
  k : Nat
  trace : List (List Nat)
  res : Option NodeRead
  deriving DecidableEq, Repr

/-- What a running command has under way: granules still to be read, writes still to be performed, granules written whole in poisoned blocks whose other
half is not, its walks, what the accesses of its present step have given so far, and the nodes read ahead of the walk (07 R181; 10 R249; 13 R334). -/
structure EngIO where
  reads : List Nat
  posts : List Post
  half : List Nat
  walk : WalkState
  trace : List (List Nat)
  nodes : List TeNode
  deriving DecidableEq, Repr

def EngIO.none : EngIO := ⟨[], [], [], .none, [], []⟩

/-- Where a page-engine command stands: not begun, or in what it does first; an append that waits for its act at the page's record since a cycle; an append
after its act, with copy and n; a command that waits for the transfer of a page, and how the transfer ended; a load with a page in hand (its pool's
descriptor, its number and its frame's address; none where its range is zeroed) and the page's status; a command with nothing left to write but its
completion granule, and dword 1 of that (14 R351, R352, R355). -/
inductive PePhase where
  | fresh
  | act (t : Nat) (spare : Option Spare) (since : Nat)
  | acted (t : Nat) (spare : Option Spare) (copy n : Nat)
  | flash (pool page : Nat) (res : Option Nat)
  | page (src : Option (Nat × Nat × Nat)) (status : Nat)
  | over (word : Nat)
  deriving DecidableEq, Repr

/-- A command's operands as its image keeps them. -/
inductive EngBody where
  | wload (src : Nat) (tpr : Tpr) (pitch : Nat) (sp : Bool)
  | mma (k : MmaKind) (d a : TReg) (stream : Fin 4) (pm fp : Bool) (rowp colp : BitVec 16) (wfmt : Fmt) (sp : Bool) (tpr : Tpr)
  | tstore (dst compl : Nat) (tpr : Tpr) (pitch wrow0 rows : Nat) (t : TReg) (fp : Bool)
  | tload (t : TReg) (src pitch : Nat)
  | tzero (t : TReg)
  | tfree (t : TReg)
  | mparam (blk : Nat)
  | gemv (res act wts : Nat) (nv m k : Nat) (tpr : Tpr)
  | gather (dst idx compl : Nat) (sh : Shape) (n moved drops : Nat)
  | scatter (src idx compl : Nat) (sh : Shape) (n opk moved drops : Nat)
  | copy (dst src compl bytes moved : Nat)
  | fill (dst compl bytes : Nat) (pat : Word) (moved : Nat)
  | mcast (off src compl bytes : Nat) (targets : List Nat) (moved : Nat)
  | cond (dst src compl idx n esz moved pos : Nat)
  | te (fn : Fin 5) (root resume : Label) (compl : Nat) (bval : Word) (p : Word) (off : Nat) (fmt : Fmt) (maxd : Nat) (anch : Bool)
      (n visited skipped : Nat) (stack : List (Label × Nat)) (started : Bool)
  | pe (fn seg seg2 addr0 addr1 compl bval imm n done status value : Nat) (root : Label) (ph : PePhase)
  deriving DecidableEq, Repr

/-- An engine command (07 R191): `xl` lists the ranges translated at issue (device address, length, physical address), `decided` the guard
decision, `started` the start cycle, `pend` the rows an ME command holds or the granules an IE command has read, `nextRow` its next row, `bad` that
a data error was met, `finished` that all its effects are performed, `fills` the granules it has written and not yet set full, `io` what is under
way. -/
structure EngCmd where
  seq : Nat
  fn : Nat
  slot : Nat
  thid : Word
  part : Nat
  cls : BitVec 2
  mode : Rnd
  guard : Option GPfx
  decided : Option Bool
  started : Option Nat
  xl : List (Nat × Nat × Nat)
  pend : List Row
  nextRow : Nat
  bad : Bool
  finished : Bool
  fills : List Nat
  io : EngIO
  body : EngBody
  deriving DecidableEq, Repr

/-- TWMk (04 R128). -/
structure Twm where
  seq : BitVec 8
  rows : Nat
  deriving DecidableEq, Repr

/-- TSTATk (04 R129). -/
structure Tstat where
  clamp : Nat
  nancv : Nat
  sat : Bool
  cempty : Bool
  deriving DecidableEq, Repr

/-- RINGCFGk (04 R130): BASE in units of 1 KiB, offsets in bytes. -/
structure Ring where
  en : Bool
  size : BitVec 4
  base : BitVec 9
  head : BitVec 18
  tail : BitVec 18
  deriving DecidableEq, Repr

/-! ## Cores -/

/-- The tile task bound to a core (01 R36): `origin` the age origin of its ready entry, `dispatched` its place in the order of dispatches, `killed` the threads of
an instance that has been killed, whose accesses are awaited before its end is reported (10 R255). -/
structure Task where
  pid : Nat
  attn : Bool
  gslot : Nat
  gen : Nat
  tmpl : Nat
  idx : Nat
  level : Nat
  cls : BitVec 2
  threads : Nat
  lmneed : Nat
  slots : List Nat
  origin : Nat
  dispatched : Nat
  started : Bool
  killed : Option (List Word)
  deriving DecidableEq, Repr

/-- A word of a link queue: its value, its tag and the cycle from which the neighbour may dequeue it (11 R260). -/
structure LinkWord where
  v : Word
  ctl : Bool
  ready : Nat
  deriving DecidableEq, Repr

/-- One outbound direction of a core's link (11 R260 to R262). -/
structure LinkDir where
  words : List LinkWord
  spoiled : List LinkWord
  fullSince : Option Nat
  growing : Bool
  deriving DecidableEq, Repr

/-- A forwarding entry: where the thread has gone, and the results that were outstanding when it left and still are (01 R32). -/
structure FwdEntry where
  part : Nat
  thid : Word
  dest : Loc
  outs : List LongResult
  deriving DecidableEq, Repr

/-- A punty launch-queue entry (11 R280). -/
structure Launch where
  pid : Nat
  cls : BitVec 2
  anch : Bool
  w64 : Bool
  entry : BitVec 54
  old : Word
  arg3 : Word
  ea : Nat
  walk : WalkState
  deriving DecidableEq, Repr

/-- A ring message in a sender's spoil (11 R273). -/
structure RingMsg where
  id : Nat
  pid : Nat
  src : Loc
  slot : Nat
  thid : Word
  dest : Loc
  k : Fin 8
  tag : Word
  payload : List Byte
  deriving DecidableEq, Repr

/-- A pre-emption in progress on a core (15 R371): whether slice-core style halting, victim or pause. -/
structure Preempt where
  pid : Nat
  victim : Bool
  deriving DecidableEq, Repr

/-- A core or a slice core. -/
structure Core where
  rot : Fin 16
  slots : Vector Slot 16
  tiles : Vector Row 64
  types : Vector Fmt 4
  held : BitVec 4
  m : Vector (BitVec 64) 16
  twm : Vector Twm 4
  tstat : Vector Tstat 4
  rings : Vector Ring 8
  pvec : Word
  weights : Option Weights
  shadow : Option (Fmt × Bool)
  maskSet : MaskSet
  meq : List EngCmd
  ieq : List EngCmd
  teq : List EngCmd
  nmq : List EngCmd
  peq : List EngCmd
  engSeq : Vector (BitVec 16) 5
  sfu : List Nat
  sfuFree : Nat
  xcache : List (Nat × ExtEntry)
  lcache : List (Nat × Nat × List LttEntry)
  ifetch : Option (List Host.Cell)
  fwd : List FwdEntry
  spill : List Arrival
  spillSpoil : List Arrival
  links : Vector LinkDir 4
  ringSpoil : List RingMsg
  spoilTold : List Nat
  scrubAt : Nat
  task : Option Task
  preempt : List Preempt
  inbox : List Arrival
  launchq : List Launch
  deriving DecidableEq, Repr

/-! ## Accesses and messages in flight -/

/-- Element-wise and word atomic operations (09 R226, R236). -/
inductive AmoOp where
  | add | and | or | xor | min | max | minn | maxn | swap | fadd
  deriving DecidableEq, Repr

inductive FillKind where
  | plain | fill | xfill
  deriving DecidableEq, Repr

inductive LoadKind where
  | plain | sync | take
  deriving DecidableEq, Repr

/-- What follows a directory lookup (13 R319, R325, R326, R329); `deny` is the detail of the PERMISSION trap that a store meets once its label has been
translated. -/
inductive LAct where
  | load (d : SReg) (sz : Size) (uns : Bool) (off : Nat) (spec : Bool)
  | store (v : Word) (sz : Size) (off : Nat) (deny : Option Nat)
  | loadL (d : LReg) (off : Nat) (spec : Bool)
  | storeL (v : Label) (off : Nat) (deny : Option Nat)
  | xlate (mode1 view : Bool) (d : SReg)
  | new (p : Label) (rva rkey : Nat) (skey : Word) (d : LReg)
  | free (deny : Option (Nat × Nat))
  deriving DecidableEq, Repr

/-- What an access does at its serving point (09 R218 to R231, 13 R319 to R329). A row access keeps the granules still to touch and the bits
read so far. A label access begins with its lookup, slot `i` of the search at a time, and goes on to its record; `lnew` and `lfree` then go through their
acts one by one. `agent` stands for the next access of an engine or a service core, which acts in its turn (08 R202, 11 R259). -/
inductive MemOp where
  | load (k : LoadKind) (d : SReg) (sz : Size) (uns : Bool)
  | store (k : FillKind) (v : Word) (sz : Size)
  | feSet
  | feClr
  | feGet (d : SReg)
  | feWait
  | amo (op : AmoOp) (w64 : Bool) (b : Word) (d : Option SReg)
  | cas (w64 : Bool) (cmp new : Word) (d : SReg)
  | arrive (n : BitVec 32)
  | vload (sync : Bool) (d : VReg) (lanes : Row) (zero : Row) (left : List (Fin 4)) (got : Row)
  | vstore (fill : Bool) (lanes : Row) (data : Row) (left : List (Fin 4))
  | contK (isCas : Bool) (k : Punty) (b c : Word) (d : SReg)
  | ringWait
  | look (b : Label) (dbase dsize i : Nat) (act : LAct)
  | record (b : Label) (dbase dsize raddr slot slotVa : Nat) (act : LAct)
  | loadL (d : LReg)
  | storeL (v : Label)
  | newNext (p pb : Label) (dbase dsize rva rkey : Nat) (skey : Word) (d : LReg)
  | newFind (child k : Label) (dbase dsize i rva rkey : Nat) (skey : Word) (d : LReg)
  | newClaim (child k : Label) (dbase dsize i rva rkey : Nat) (skey : Word) (d : LReg)
  | newHead (slot slotVa rva rkey : Nat) (skey : Word) (child : Label) (d : LReg)
  | newPublish (rva : Nat) (child : Label) (d : LReg)
  | freeRec (b : Label) (slotVa : Nat)
  | freeSlot (b : Label) (rva rkey : Nat)
  | freeLive
  | agent
  deriving DecidableEq, Repr

/-- What a reply carries (01 R29, R32). -/
inductive Reply where
  | ack
  | writes (ws : List RegWrite)
  | retry
  | memerr (va : Nat)
  | trap (cause detail va : Nat)
  | defer (w : RegWrite)
  deriving DecidableEq, Repr

/-- Where a request stands (01 R29, R47, 08 R202, R208, 11 R281): its address still to be translated, or waiting for a walk; on the network, in the
queue of its bank or channel, on a wait list, on a launch waiting list, or performed. -/
inductive ReqState where
  | xlate (k : XKind)
  | walking (k : XKind)
  | sent
  | queued
  | feList (gran : Nat)
  | launchList
  | replied (r : Reply)
  deriving DecidableEq, Repr

/-- An access on its way to its serving point or back: `key` is the flat physical address (see `Mem`), `va` the device address; `refused` how often
queues of banks have refused it and `esc` its place in the order of escalations there, `lrefused` and `lesc` the same of the launch waiting list (01 R47;
09 R232); `fwded` that its reply has been sent on to a thread that moved (01 R32). -/
structure Request where
  id : Nat
  loc : Loc
  slot : Nat
  thid : Word
  part : Nat
  cls : BitVec 2
  relaxed : Bool
  scope : Scope
  key : Nat
  va : Nat
  size : Nat
  write : Bool
  op : MemOp
  refused : Nat
  esc : Option Nat
  lrefused : Nat
  lesc : Option Nat
  fwded : Bool
  walk : WalkState
  st : ReqState
  w0 : Word
  w1 : Word
  deriving DecidableEq, Repr

inductive MsgBody where
  | spawn (dest : Loc) (arr : Arrival)
  | migrate (dest : Loc) (arr : Arrival)
  | ring (m : RingMsg) (d : SReg)
  | launch (attn : Bool) (keys : List Nat) (d : SReg)
  | signal (attn : Bool) (handle : Word) (t : Nat)
  | pcall (sc : Loc) (svc : Nat) (block : Option Nat) (d : SReg)
  deriving DecidableEq, Repr

/-- A message in the send queue of `src` (11 R259). -/
structure Msg where
  id : Nat
  src : Loc
  slot : Nat
  thid : Word
  part : Nat
  cls : BitVec 2
  body : MsgBody
  deriving DecidableEq, Repr

/-- A reply to a thread parked on a message (11 R275, R282, 15 R366, R368). -/
structure MsgReply where
  id : Nat
  loc : Loc
  slot : Nat
  thid : Word
  part : Nat
  ws : List RegWrite
  trap : Option (Nat × Nat × Nat)
  lf : Option (Label × Label)
  deriving DecidableEq, Repr

/-- A deadlock probe (11 R270): the origin's thread, the queue it waits on and the cycle its wait began. -/
structure Probe where
  id : Nat
  part : Nat
  origin : Loc
  oslot : Nat
  othid : Word
  oq : Fin 4
  osince : Nat
  at_ : Loc
  from_ : Loc
  path : List Loc
  deriving DecidableEq, Repr

/-- A kiln swap request (12 R303). -/
structure KswapReq where
  id : Nat
  loc : Loc
  slot : Nat
  thid : Word
  part : Nat
  attn : Bool
  d : SReg
  deriving DecidableEq, Repr

inductive LttKind where
  | tree (tid dbase dsize rec_ : Nat)
  | view (tid : Nat) (b : Label)
  | move (m q : Label) (fwd : Bool)
  deriving DecidableEq, Repr

/-- A change of the label translation table (13 R323). -/
structure LttReq where
  id : Nat
  loc : Loc
  slot : Nat
  thid : Word
  part : Nat
  kind : LttKind
  d : LReg
  a : LReg
  b : LReg
  walk : WalkState
  deriving DecidableEq, Repr

/-- A service request being handled at service core `sc` (15 R366); `phase` counts the steps of 08 R209 done. -/
structure SvcReq where
  id : Nat
  sc : Loc
  loc : Loc
  slot : Nat
  thid : Word
  part : Nat
  svc : Nat
  block : Option Nat
  d : SReg
  stamp : BitVec 16
  phase : Nat
  removed : Option ExtEntry
  deriving DecidableEq, Repr

/-! ## Graphs, distributors and kilns (01 R39 to R42, 12) -/

/-- A template record as `tg.launch` reads it (01 R39), its argument block beside it (12 R285). -/
structure Template where
  entry : Nat
  args : Vector Word 8
  count : Nat
  lmneed : Nat
  threads : Nat
  prio : Nat
  once : Bool
  tclass : BitVec 2
  depn : Nat
  succ : List Nat
  deriving DecidableEq, Repr

inductive InstEnd where
  | complete | killed | lost
  deriving DecidableEq, Repr

/-- A live graph (12 R285): dependence counts, the ranges sent to dies, and the completion record of every finished instance. -/
structure Graph where
  gslot : Nat
  gen : Nat
  tmpls : List Template
  counts : List Nat
  ready : List Bool
  ranges : List (Nat × Nat × Nat × Nat)
  ended : List (Nat × Nat × InstEnd)
  deriving DecidableEq, Repr

/-- A ready entry (12 R286, R296): `origin` is the kiln cycle of its age origin, `saved` names the save area of a returned entry, `ver` is the
graph version whose commit a ONCE instance waits for (12 R285). -/
structure ReadyEntry where
  pid : Nat
  attn : Bool
  gslot : Nat
  gen : Nat
  tmpl : Nat
  level : Nat
  next : Nat
  last : Nat
  origin : Nat
  aged : Bool
  saved : Option Nat
  ver : Nat
  t : Template
  deriving DecidableEq, Repr

inductive KKind where
  | dispatch | preempt | fault
  deriving DecidableEq, Repr

/-- A kiln event (12 R290). -/
structure KEvent where
  kind : KKind
  reason : Nat
  pid : Nat
  level : Nat
  cause : Nat
  detail : Nat
  who : Option (Loc × Nat)
  thid : Word
  arg0 : Nat
  arg1 : Nat
  arg2 : Nat
  launch : Option Launch
  cores : List Loc
  deriving DecidableEq, Repr

/-- A kiln program image (12 R297). -/
structure KImage where
  edisp : Option Nat
  epre : Option Nat
  eflt : Option Nat
  code : List (BitVec 16)
  deriving DecidableEq, Repr

/-- The decision in progress (12 R292, R298, R300). -/
structure KRun where
  ev : KEvent
  img : KImage
  win : Vector (BitVec 32) 32
  k : Vector (BitVec 32) 8
  pc : Nat
  steps : Nat
  word : Option (BitVec 32)
  sw : List (Nat × BitVec 32)
  deriving DecidableEq, Repr

/-- A partition's share of one die's distributor (12 R291, R292, R303; 16 R383): `sliceFrom` is the cycle its time slice began, `snapAt` the cycle
of its next regular snapshot, `pendDispatch` and `pendPreempt` reason and level of the events held while the partition is paused, `snapDue` that one is to begin in this cycle, `snap` the next dword of the one being written, the values it took and
its even SEQ, `prio` the levels at which work has found no able group above lower work that runs (12 R290). -/
structure DiePart where
  pid : Nat
  map : List ExtEntry
  ltt : List LttEntry
  active : Option KImage
  shadow : Option KImage
  sw : Vector (BitVec 32) 4
  holding : Bool
  pendDispatch : Option (Nat × Nat)
  pendPreempt : Option (Nat × Nat)
  cnt : Vector Nat 24
  seq : Nat
  sliceFrom : Nat
  extended : Nat
  snapAt : Nat
  snapDue : Bool
  snap : Option (Nat × Vector Nat 24 × Nat)
  prio : BitVec 8
  deriving DecidableEq, Repr

/-- A walk in progress at a map walker: the copy it began on (08 R208, R209, 13 R314). -/
structure Walk where
  id : Nat
  loc : Loc
  who : WalkWho
  part : Nat
  va : Option Nat
  tid : Nat
  map : List ExtEntry
  ltt : List LttEntry
  deriving DecidableEq, Repr

/-- A flit: its header (class, partition, destination die, kind, CRC-32C), its payload, and whether R372 carries its traffic (16 R387; 00 R13). -/
structure Flit where
  cls : Fin 4
  pid : Nat
  dest : Nat
  kind : Nat
  crc : Nat
  payload : Vector Byte 64
  preempting : Bool
  deriving DecidableEq, Repr

/-- One link port (16 R385 to R388): the class-3 flits of each partition in the present window of 4,096 cycles (00 R13), the flit in the replay
buffer that the far end has not yet accepted, and the flits it has accepted, in order. -/
structure Port where
  queued : List Flit
  waited : Vector Nat 4
  use3 : List (Nat × Nat)
  window : Nat
  cntFlit : Vector Nat 4
  cntReplay : Nat
  cntDemote : Nat
  replay : Option Flit
  arrived : List Flit
  deriving DecidableEq, Repr

/-- A die's distributor, kiln, walker, links and physical counters. -/
structure Die where
  fenced : Bool
  parts : List DiePart
  events : List KEvent
  held : List KEvent
  ready : List ReadyEntry
  run : Option KRun
  walks : List Walk
  ports : Vector Port 7
  phys : Vector Nat 7
  alarmed : Bool
  deriving DecidableEq, Repr

/-! ## Partitions (01 R43 to R46, 15 R377 to R381) -/

inductive PartState where
  | running | descheduled | paused | resetting
  deriving DecidableEq, Repr

/-- What waits at a master for the deputy's acknowledgement (12 R285): a reply, with the request it answers; a signal, which no reply answers; or a
range for another die. -/
inductive Awaiting where
  | reply (r : MsgReply) (m : Msg)
  | signal (handle : Word) (t : Nat)
  | range (die : Nat) (e : ReadyEntry)
  deriving DecidableEq, Repr

/-- A partition's node of one tree: master, deputy, graphs, those that are over by a change which the deputy does not hold, the swap in progress
(12 R284, R285, R287, R303). -/
structure Node where
  node : Nat
  kilnver : BitVec 16
  graphs : List Graph
  ended : List Graph
  gens : List (Nat × Nat)
  version : Nat
  sentVersion : Nat
  acked : Nat
  deputyGraphs : List Graph
  await : List (Nat × Awaiting)
  swap : Option (KswapReq × List Nat)
  swapQ : List KswapReq
  deriving DecidableEq, Repr

/-- A grant and its handle (15 R404). -/
structure GrantRec where
  handle : Word
  g : Grant
  deriving DecidableEq, Repr

/-- The saved state of a core (15 R373 to R376); LM addresses are offsets. -/
structure Save where
  id : Nat
  loc : Loc
  core : Core
  slots : List (Nat × Slot)
  lm : List Host.Cell
  lmEmpty : List Nat
  lmPoison : List Nat
  linkIn : List (Fin 4 × LinkWord)
  inbox : List Arrival
  reserved : List Nat
  victim : Bool
  deriving DecidableEq, Repr

/-- A label-table change in progress: its request, the labels m and q of a move, the entry to write, the cores that PREPARE has reached, whether
the entry is written, the cores that have acknowledged COMMIT, and the reply (13 R323). -/
structure LttRun where
  req : LttReq
  m : Label
  q : Label
  entry : LttEntry
  acks : List Loc
  written : Bool
  commits : List Loc
  out : Label
  deriving DecidableEq, Repr

/-- A record of the fault log or the machine-check log (15 R379, R381). -/
structure LogRec where
  words : List Word
  cycle : Nat
  deriving DecidableEq, Repr

structure Partition where
  pid : Nat
  share : Nat
  st : PartState
  stamp : BitVec 16
  dllimit : BitVec 32
  agemax : BitVec 32
  map : List ExtEntry
  ltt : List LttEntry
  compute : Option Node
  attention : Option Node
  grants : List GrantRec
  quota : Nat
  spoilBase : Nat
  counterArea : Nat
  ckptTable : Nat
  ckptCount : Nat
  irq : List (Nat × BitVec 16)
  faultLog : List LogRec
  mcheckLog : List LogRec
  lttRun : Option LttRun
  saves : List Save
  sliceLen : Nat
  lost : Bool
  deriving DecidableEq, Repr

/-! ## The module -/

/-- Memory as (flat physical address, byte) pairs, addresses rising, no listed byte 0 (08 R195). LM of core i of die d starts at
2^60 + d·2^40 + i·2^20, slice SRAM j of die d at 2·2^60 + d·2^40 + j·2^24, HBM at 3·2^60, flash at 4·2^60. -/
abbrev Mem := List Host.Cell

/-- An unlisted byte reads 0: LM and slices by 08 R215, HBM and flash by log 2. -/
def Mem.unlisted : Byte := 0

/-- The canonical form: addresses strictly rising, no entry equal to what an unlisted address reads as. -/
def Mem.wf : Mem → Bool
  | [] => true
  | (a, v) :: r => (v != Mem.unlisted) && (match r with | [] => true | (b, _) :: _ => decide (a < b)) && Mem.wf r

/-- What goes to the host (15 R379, 16 R392 to R394). -/
inductive HostMsg where
  | interrupt (partid vector : Nat) (stamp : BitVec 16)
  | readData (pid : Nat) (ok : Bool) (data : List Byte)
  | writeDone (pid : Nat) (ok : Bool)
  | status (pid code : Nat)
  | grantRequest (id pid partid log2 : Nat) (stamp : BitVec 16)
  | counters (die : Nat) (vals : List Nat)
  | report (bytes : List Byte)
  | ready
  | alarm (die : Nat)
  | partitionLost (pid : Nat)
  deriving DecidableEq, Repr

/-- A flash transfer: the page and its pool's descriptor, the frame, the drive and slot, and whether a load has cancelled the write
(14 R346, R352, R356); `home` is the home slice of the page's record, whose queue pair for the drive carries it (08 R217). -/
structure Flash where
  id : Nat
  home : Loc
  write : Bool
  pid : Nat
  loc : Loc
  pool : Nat
  page : Nat
  frame : Nat
  drive : Nat
  slot : Nat
  cancel : Bool
  deriving DecidableEq, Repr

/-- A task start message on the distributor tree (12 R289). -/
structure Start where
  id : Nat
  loc : Loc
  entry : ReadyEntry
  idx : Nat
  deriving DecidableEq, Repr

/-- A completion report on its way from a die to the master (12 R285). -/
structure Report where
  id : Nat
  die : Nat
  pid : Nat
  attn : Bool
  gslot : Nat
  gen : Nat
  tmpl : Nat
  idx : Nat
  how : InstEnd
  deriving DecidableEq, Repr

/-- A pre-emption request on its way to a core (15 R371). -/
structure PreReq where
  loc : Loc
  pid : Nat
  victim : Bool
  deriving DecidableEq, Repr

/-- A byte that a thread has written and no `fence.sys` of its has followed: the value before the write, which a host read may still return, and the step
in which it was written (10 R258). -/
structure HostOld where
  key : Nat
  old : Byte
  part : Nat
  thid : Word
  act : Nat
  deriving DecidableEq, Repr

/-- What a host request asks: to read or to write memory, or a launch (10 R258; 11 R283). -/
inductive HostKind where
  | read | write
  | launch (handle : Word) (t : Nat)
  deriving DecidableEq, Repr

/-- A host request at its service core (10 R258; 11 R283): the range and what it writes or has read so far; once it has begun, its translation (device
address, length, physical address) and the bytes done; and for a read the writes that were not fenced when it was received. -/
structure HostReq where
  pid : Nat
  kind : HostKind
  va : Nat
  len : Nat
  data : List Byte
  xl : Option (List (Nat × Nat × Nat))
  done : Nat
  view : List HostOld
  deriving DecidableEq, Repr

/-- A service core's queue of host requests (00 R4, 11 R259). -/
structure SvcCore where
  queue : List HostReq
  deriving DecidableEq, Repr

/-- The parts of a cycle: the cores issue, then come the other acts, then counter snapshots (04 R122, 11 R273, 16 R382; log 3). -/
inductive Phase where
  | issue | acts | close
  deriving DecidableEq, Repr

/-- One act of one agent, or a soft error that an access to a flat address is about to find (08 R212 to R214; log 12). The model's own: the schedule
names the next act (log 3). -/
inductive Turn where
  | core (l : Loc)
  | kiln (die : Nat)
  | svc (n : Fin 64)
  | event (i : Instr)
  | error (key : Nat) (found : SoftError)
  | tick
  deriving DecidableEq, Repr

/-- The issuing thread and the 128 bits fetched at its instruction (03 R95). The model's own. -/
structure Cur where
  loc : Loc
  slot : Fin 16
  w0 : Word
  w1 : Word
  deriving DecidableEq, Repr

/-- Bring-up (16 R393): in step 1 (module reset), in step 3 (awaiting firmware), or past step 6. -/
inductive Boot where
  | reset | awaiting | ready
  deriving DecidableEq, Repr

structure State where
  cycle : Nat
  phase : Phase
  mem : Mem
  hostOld : List HostOld
  feEmpty : List Nat
  poison : List Nat
  poisonings : List (Nat × Nat)
  owner : List (Nat × Nat)
  firmware : List Nat
  retired : List Nat
  cores : List (Loc × Core)
  dies : Vector Die 20
  parts : List Partition
  reqs : List Request
  msgs : List Msg
  msgReplies : List MsgReply
  probes : List Probe
  kswaps : List KswapReq
  ltts : List LttReq
  svcs : List SvcReq
  svcCores : Vector SvcCore 64
  starts : List Start
  reports : List Report
  preReqs : List PreReq
  flash : List Flash
  host : List HostMsg
  frames : List (Fin 16 × List Byte)
  drives : List (Nat × Nat × Nat)
  meas : Vector (List Byte) 4
  stamps : List (Nat × BitVec 16)
  boot : Boot
  fwVersion : Nat
  handles : Nat
  nextId : Nat
  stepNo : Nat
  free : Nat
  turn : Option Turn
  cur : Option Cur
  kcur : Option Nat
  deriving DecidableEq, Repr

/-! ## Reset (01 R20, R34; 04; 08 R215; 16 R392) -/

/-- The registers of a slot before any thread was created in it (01 R34, 04 R110 to R126; log 1 for those without a stated value). -/
def Thread.reset : Thread where
  part := 0
  priv := false
  roaming := false
  inTask := false
  thid := 0
  pc := 0
  s := Vector.replicate 32 0
  l := Vector.replicate 8 0
  p := 1
  g := Vector.replicate 4 .unset
  loops := []
  sdf := 0
  ldf := 0
  spnd := 0
  lpnd := 0
  vpnd := 0
  fpmode := 0x20
  qos := 0
  tvec := 0
  qhvec := 0
  tpra := 0
  ckptid := 0xFFFF
  tcause := 0
  tpc := 0
  tword0 := 0
  tword1 := 0
  taddr := 0
  thact := false
  lfOld := 0
  lfNew := 0
  lact := false
  ldir := 0
  lret := 0
  lval := 0
  outs := []
  walk := .none
  cont := none
  runErr := none
  pendTrap := none
  ended := false

def Slot.reset : Slot := ⟨.free, none, 0, 0, false, none, none, none, 0, Thread.reset⟩

/-- The default mask set (07 R176). -/
def MaskSet.reset : MaskSet := ⟨BitVec.allOnes 256, 0, 0, 0xFF80_0000, false⟩

def Core.reset : Core where
  rot := 0
  slots := Vector.replicate 16 Slot.reset
  tiles := Vector.replicate 64 0
  types := Vector.replicate 4 .fp32
  held := 0
  m := (Vector.replicate 16 0).set 0 (BitVec.allOnes 64)
  twm := Vector.replicate 4 ⟨0, 16⟩
  tstat := Vector.replicate 4 ⟨0, 0, false, false⟩
  rings := Vector.replicate 8 ⟨false, 0, 0, 0, 0⟩
  pvec := 0
  weights := none
  shadow := none
  maskSet := MaskSet.reset
  meq := []
  ieq := []
  teq := []
  nmq := []
  peq := []
  engSeq := Vector.replicate 5 0
  sfu := []
  sfuFree := 0
  xcache := []
  lcache := []
  ifetch := none
  fwd := []
  spill := []
  spillSpoil := []
  links := Vector.replicate 4 ⟨[], [], none, false⟩
  ringSpoil := []
  spoilTold := []
  scrubAt := 0
  task := none
  preempt := []
  inbox := []
  launchq := []

def Port.reset : Port := ⟨[], Vector.replicate 4 0, [], 0, Vector.replicate 4 0, 0, 0, none, []⟩

def Die.reset : Die := ⟨false, [], [], [], [], none, [], Vector.replicate 7 Port.reset, Vector.replicate 7 0, false⟩

/-- The module right after reset: no partition, no thread, bring-up step 1. -/
def State.reset : State where
  cycle := 0
  phase := .issue
  mem := []
  hostOld := []
  feEmpty := []
  poison := []
  poisonings := []
  owner := []
  firmware := Config.firmwareUnits
  retired := []
  cores := []
  dies := Vector.replicate 20 Die.reset
  parts := []
  reqs := []
  msgs := []
  msgReplies := []
  probes := []
  kswaps := []
  ltts := []
  svcs := []
  svcCores := Vector.replicate 64 ⟨[]⟩
  starts := []
  reports := []
  preReqs := []
  flash := []
  host := []
  frames := []
  drives := []
  meas := Vector.replicate 4 (List.replicate 64 0)
  stamps := []
  boot := .reset
  fwVersion := 0
  handles := 1
  nextId := 1
  stepNo := 0
  free := 0
  turn := none
  cur := none
  kcur := none

end Sys2Proof.Machine
end

