-- ==== Sys2Proof/Machine/Ops.lean ====
section
/-! DEFINITION. The named operations over the state: places, memory and full/empty bits, the topology and the device address, translation, kiln events, trap entry and return, and the end of an instruction. -/

namespace Sys2Proof.Machine

/-! ## Places -/

def assocGet {κ α : Type} [DecidableEq κ] (l : List (κ × α)) (k : κ) (d : α) : α :=
  match l.find? fun p => p.1 == k with
  | some p => p.2
  | none => d

def assocSet {κ α : Type} [DecidableEq κ] (l : List (κ × α)) (k : κ) (v : α) : List (κ × α) :=
  match l with
  | [] => [(k, v)]
  | p :: r => if p.1 = k then (k, v) :: r else p :: assocSet r k v

def core (s : State) (l : Loc) : Core := assocGet s.cores l Core.reset
def setCore (s : State) (l : Loc) (c : Core) : State := { s with cores := assocSet s.cores l c }
def modCore (s : State) (l : Loc) (f : Core → Core) : State := setCore s l (f (core s l))

def slotAt (s : State) (l : Loc) (k : Fin 16) : Slot := (core s l).slots[k]
def setSlot (s : State) (l : Loc) (k : Fin 16) (x : Slot) : State := modCore s l fun c => { c with slots := c.slots.set k x }
def modSlot (s : State) (l : Loc) (k : Fin 16) (f : Slot → Slot) : State := setSlot s l k (f (slotAt s l k))
def thread (s : State) (l : Loc) (k : Fin 16) : Thread := (slotAt s l k).th
def modTh (s : State) (l : Loc) (k : Fin 16) (f : Thread → Thread) : State := modSlot s l k fun x => { x with th := f x.th }
def setSt (s : State) (l : Loc) (k : Fin 16) (st : SlotState) : State := modSlot s l k fun x => { x with st := st }

def die (s : State) (d : Nat) : Die := if h : d < 20 then s.dies[d] else Die.reset
def modDie (s : State) (d : Nat) (f : Die → Die) : State :=
  if h : d < 20 then { s with dies := s.dies.set d (f s.dies[d]) } else s

def part? (s : State) (pid : Nat) : Option Partition := s.parts.find? fun p => p.pid == pid
def modPart (s : State) (pid : Nat) (f : Partition → Partition) : State :=
  { s with parts := s.parts.map fun p => if p.pid = pid then f p else p }

def DiePart.fresh (pid : Nat) : DiePart :=
  ⟨pid, [], [], none, none, Vector.replicate 4 0, false, none, none, Vector.replicate 24 0, 0, 0, 0, 0, false, none, 0⟩

def diePart (s : State) (d pid : Nat) : DiePart :=
  match (die s d).parts.find? fun p => p.pid == pid with
  | some p => p
  | none => DiePart.fresh pid
def modDiePart (s : State) (d pid : Nat) (f : DiePart → DiePart) : State :=
  modDie s d fun x => { x with parts := x.parts.map fun p => if p.pid = pid then f p else p }

/-- Adds to counter `k` of a partition's block on a die; counters stop at 2^48 − 1 (16 R382, R383). -/
def count (s : State) (d pid : Nat) (k : Fin 24) (n : Nat) : State :=
  modDiePart s d pid fun p => { p with cnt := p.cnt.set k (min (p.cnt[k] + n) (2 ^ 48 - 1)) }

/-- Adds to physical counter `k` of a die (16 R385). -/
def countPhys (s : State) (d : Nat) (k : Fin 7) (n : Nat) : State :=
  modDie s d fun x => { x with phys := x.phys.set k (min (x.phys[k] + n) (2 ^ 48 - 1)) }

def newId (s : State) : Nat × State := (s.nextId, { s with nextId := s.nextId + 1 })

/-! ## Memory -/

/-- The byte at a flat physical address. -/
def Mem.read : Mem → Nat → Byte
  | [], _ => Mem.unlisted
  | (b, v) :: r, a => if b = a then v else Mem.read r a

/-- Writes a byte, keeping the canonical form. -/
def Mem.write : Mem → Nat → Byte → Mem
  | [], a, v => if v = Mem.unlisted then [] else [(a, v)]
  | (b, w) :: r, a, v =>
    if a < b then (if v = Mem.unlisted then (b, w) :: r else (a, v) :: (b, w) :: r)
    else if a = b then (if v = Mem.unlisted then r else (a, v) :: r)
    else (b, w) :: Mem.write r a v

def Mem.readN (m : Mem) (a : Nat) : Nat → List Byte
  | 0 => []
  | n + 1 => m.read a :: Mem.readN m (a + 1) n

def Mem.writeN (m : Mem) (a : Nat) : List Byte → Mem
  | [] => m
  | v :: r => Mem.writeN (m.write a v) (a + 1) r

/-- Writes bytes at their places for a thread, in one act: what they replace is noted for the reads of the host (10 R258; log 43). -/
def writeAt (s : State) (part : Nat) (thid : Word) (ps : List (Nat × Byte)) : State :=
  { s with
    mem := ps.foldl (fun m p => m.write p.1 p.2) s.mem
    hostOld := s.hostOld ++ ps.map fun p => ⟨p.1, s.mem.read p.1, part, thid, s.stepNo⟩ }

/-- The places of bytes that lie in a row from an address on. -/
def placesFrom (key : Nat) (bs : List Byte) : List (Nat × Byte) := bs.zipIdx.map fun b => (key + b.2, b.1)

/-- The same for bytes in a row. -/
def writeFor (s : State) (part : Nat) (thid : Word) (key : Nat) (bs : List Byte) : State :=
  { s with
    mem := s.mem.writeN key bs
    hostOld := s.hostOld ++ (placesFrom key bs).map fun p => ⟨p.1, s.mem.read p.1, part, thid, s.stepNo⟩ }

/-- Bytes of a partition whose values the reads of the host observe, whatever was there: nothing replaced is kept for them. -/
def forget (s : State) (pid : Nat) (gone : Nat → Bool) : State :=
  let keep (l : List HostOld) : List HostOld := l.filter fun e => !(e.part == pid && gone e.key)
  { s with
    hostOld := keep s.hostOld
    svcCores := s.svcCores.map fun c => ⟨c.queue.map fun r => { r with view := keep r.view }⟩ }

/-- Writes bytes of a partition for the host, firmware or a drive. -/
def writeSeen (s : State) (pid key : Nat) (bs : List Byte) : State :=
  { forget s pid (fun a => key ≤ a && a < key + bs.length) with mem := s.mem.writeN key bs }

/-- Flat physical addresses (see `Mem`). -/
def lmKey (d idx off : Nat) : Nat := 2 ^ 60 + d * 2 ^ 40 + idx * 2 ^ 20 + off
def sliceKey (d sl off : Nat) : Nat := 2 * 2 ^ 60 + d * 2 ^ 40 + sl * 2 ^ 24 + off
def hbmKey (phys : Nat) : Nat := 3 * 2 ^ 60 + phys
def flashKey (d drive slot : Nat) : Nat := 4 * 2 ^ 60 + d * 2 ^ 57 + drive * 2 ^ 50 + slot * 20480

def isLm (key : Nat) : Bool := key / 2 ^ 60 == 1
def isSlice (key : Nat) : Bool := key / 2 ^ 60 == 2
def isHbm (key : Nat) : Bool := key / 2 ^ 60 == 3

/-- The granule of an address. -/
def granule (key : Nat) : Nat := key - key % 16

/-- Insertion into a rising list without repeats, and removal. -/
def insertNat (a : Nat) : List Nat → List Nat
  | [] => [a]
  | b :: r => if a < b then a :: b :: r else if a = b then b :: r else b :: insertNat a r
def removeNat (a : Nat) (l : List Nat) : List Nat := l.filter fun b => b != a

/-- Full/empty bits (08 R196): the list holds the empty granules of LM and slices. -/
def feFull (s : State) (key : Nat) : Bool := !(s.feEmpty.contains (granule key))
def setFull (s : State) (key : Nat) : State := { s with feEmpty := removeNat (granule key) s.feEmpty }
def setEmpty (s : State) (key : Nat) : State := { s with feEmpty := insertNat (granule key) s.feEmpty }

/-- Poison marks (08 R213, R214); an HBM block is two granules. -/
def poisoned (s : State) (key : Nat) : Bool :=
  if isHbm key then s.poison.contains (key - key % 32) else s.poison.contains (granule key)
def clearPoison (s : State) (key : Nat) : State :=
  { s with poison := removeNat (if isHbm key then key - key % 32 else granule key) s.poison }

/-! ## Topology (00 R4; 01 R43; 04 R127; 08 R201) -/

def isAttn (d : Nat) : Bool := 16 ≤ d
/-- Columns of a die's mesh. -/
def meshCols (d : Nat) : Nat := if isAttn d then 32 else 64
def coresOn (d : Nat) : Nat := if isAttn d then 1024 else 4096
def slicesOn (d : Nat) : Nat := if isAttn d then 32 else 64

/-- The die of a location. -/
def dieOf : Loc → Nat
  | .core d _ => d
  | .slice d _ => d
  | .svc d _ => d
def isSliceCore : Loc → Bool
  | .slice _ _ => true
  | _ => false

/-- The 64-core group of a core on its die (01 R43, 12 R292). -/
def groupOf (d idx : Nat) : Nat :=
  let r := idx / meshCols d
  let c := idx % meshCols d
  if isAttn d then r / 8 * 4 + c / 8 else (r / 32 * 2 + c / 32) * 16 + r % 32 / 8 * 4 + c % 32 / 8

/-- The quadrant of a core, for the choice of its service core (01 R43, 15 R366). -/
def quadrantOf (d idx : Nat) : Nat :=
  let h := meshCols d / 2
  idx / meshCols d / h * 2 + idx % meshCols d / h

/-- The service core that serves the requests of a location (15 R366): on an attention die those of the top compute die of its grid column. -/
def svcCoreOf : Loc → Loc
  | .core d i => .svc (if isAttn d then d - 16 else d) (quadrantOf d i)
  | .slice d i => if isAttn d then .svc (d - 16) (i / 8) else .svc d (i / 16)
  | .svc d q => .svc d q

/-- The tree leaf of a group (01 R43). -/
def leafOf (d g : Nat) : Nat := if isAttn d then (d - 16) * 16 + g else d * 64 + g
def treeDepth (attn : Bool) : Nat := if attn then 6 else 10

/-- Whether leaf `leaf` lies under node `n` of a tree with heap numbering (01 R43). -/
def nodeHasLeaf (attn : Bool) (n leaf : Nat) : Bool := (2 ^ treeDepth attn + leaf) / 2 ^ (treeDepth attn - Nat.log2 n) == n

/-- The first leaf of a node, and how many it has. -/
def nodeFirst (attn : Bool) (n : Nat) : Nat := n * 2 ^ (treeDepth attn - Nat.log2 n) - 2 ^ treeDepth attn
def nodeSize (attn : Bool) (n : Nat) : Nat := 2 ^ (treeDepth attn - Nat.log2 n)

def nodeOf (p : Partition) (attn : Bool) : Option Node := if attn then p.attention else p.compute

/-- PARTID in the privileged view (04 R127). -/
def partIdWord (p : Partition) : Nat :=
  p.share % 4 * 2 ^ 18 + (match p.attention with | some n => n.node % 2 ^ 7 * 2 ^ 11 | none => 0)
    + (match p.compute with | some n => n.node % 2 ^ 11 | none => 0)

/-- Whether a core belongs to a partition (01 R44). -/
def ownsCore (p : Partition) (d idx : Nat) : Bool :=
  match nodeOf p (isAttn d) with
  | some n => nodeHasLeaf (isAttn d) n.node (leafOf d (groupOf d idx))
  | none => false

/-- The dies of a partition's node, ascending (04 R127). -/
def nodeDies (p : Partition) (attn : Bool) : List Nat :=
  match nodeOf p attn with
  | none => []
  | some n =>
    let per := if attn then 16 else 64
    let f := nodeFirst attn n.node
    let lo := f / per
    let hi := (f + nodeSize attn n.node - 1) / per
    (List.range (hi + 1 - lo)).map fun i => (if attn then 16 else 0) + lo + i

def dieList (p : Partition) : List Nat := nodeDies p false ++ nodeDies p true

/-- The user-view number of a die (04 R127). -/
def userDie (p : Partition) (d : Nat) : Nat :=
  let l := nodeDies p (isAttn d)
  (if isAttn d then 16 else 0) + l.findIdx (· == d)

/-- The physical die of a user-view number. -/
def physDie (p : Partition) (u : Nat) : Option Nat :=
  if u < 16 then (nodeDies p false)[u]? else (nodeDies p true)[u - 16]?

def coreCount (p : Partition) (attn : Bool) : Nat :=
  match nodeOf p attn with
  | some n => 64 * nodeSize attn n.node
  | none => 0

/-- The partition-relative number of a core (04 R127). -/
def relCore (p : Partition) (d idx : Nat) : Nat :=
  let f := match nodeOf p (isAttn d) with | some n => nodeFirst (isAttn d) n.node | none => 0
  let r := idx / meshCols d
  let c := idx % meshCols d
  (if isAttn d then 0x10000 else 0) + (leafOf d (groupOf d idx) - f) * 64 + r % 8 * 8 + c % 8

/-- The core with a partition-relative number (04 R127). -/
def coreOfRel (p : Partition) (n : Nat) : Option Loc :=
  let attn := 0x10000 ≤ n
  let k := n % 0x10000
  if k < coreCount p attn then
    let leaf := (match nodeOf p attn with | some x => nodeFirst attn x.node | none => 0) + k / 64
    let per := if attn then 16 else 64
    let d := (if attn then 16 else 0) + leaf / per
    let g := leaf % per
    let r := (if attn then g / 4 * 8 else g / 32 * 32 + g % 16 / 4 * 8) + k % 64 / 8
    let c := (if attn then g % 4 * 8 else g / 16 % 2 * 32 + g % 4 * 8) + k % 8
    some (.core d (r * meshCols d + c))
  else none

/-- How a message or an event names a location (11 R281, 12 R292). -/
def whoNum (p : Partition) : Loc → Nat
  | .core d i => relCore p d i
  | .slice d i => userDie p d * 64 + i
  | .svc d q => userDie p d * 4 + q

/-- The neighbour of a core in direction q: 0 north, 1 east, 2 south, 3 west (11 R260). -/
def neighbour (d idx : Nat) (q : Fin 4) : Option Nat :=
  let w := meshCols d
  let r := idx / w
  let c := idx % w
  match q with
  | 0 => if r = 0 then none else some (idx - w)
  | 1 => if c + 1 = w then none else some (idx + 1)
  | 2 => if idx + w < coresOn d then some (idx + w) else none
  | 3 => if c = 0 then none else some (idx - 1)

def opposite (q : Fin 4) : Fin 4 := q + 2

/-- The queue numbers that have a link for a partition's thread on a location (11 R260). -/
def linksOf (p : Partition) : Loc → BitVec 4
  | .slice _ _ => 0
  | .svc _ _ => 0
  | .core d i =>
    let ok (q : Fin 4) : Bool := match neighbour d i q with | some j => ownsCore p d j | none => false
    BitVec.ofNat 4 ((ok 0).toNat + 2 * (ok 1).toNat + 4 * (ok 2).toNat + 8 * (ok 3).toNat)

/-- The home slice of a physical HBM address (08 R201). -/
def homeSlice (phys : Nat) : Loc :=
  let st := phys / 2 ^ 36
  let c := phys / 2 ^ 12 % 32
  if st < 16 then .slice st (2 * c + phys / 2 ^ 17 % 2)
  else .slice (16 + (st - 16) / 4) (8 * ((st - 16) % 4) + c / 4)

/-- Where an address is served (08 R201, R202). -/
def servedAt (key : Nat) : Loc :=
  let k := key % 2 ^ 60
  if isLm key then .core (k / 2 ^ 40) (k % 2 ^ 40 / 2 ^ 20)
  else if isSlice key then .slice (k / 2 ^ 40) (k % 2 ^ 40 / 2 ^ 24)
  else homeSlice k

/-! ## Ownership (08 R210): HBM unit u is key u; slice unit k of slice j of die d is key 2^32 + (d·64 + j)·32 + k -/

def sliceUnit (d sl off : Nat) : Nat := 2 ^ 32 + (d * 64 + sl) * 32 + off / 65536
def ownedBy (s : State) (unit pid : Nat) : Bool := s.owner.contains (unit, pid)
def ownerOf (s : State) (unit : Nat) : Option Nat := (s.owner.find? fun p => p.1 == unit).map Prod.snd

/-! ## The device address (08 R197 to R199) -/

/-- What an address names before translation. -/
inductive Place where
  | mem (key : Nat)
  | hbm
  | fault (cause : Nat)
  deriving DecidableEq, Repr

/-- Decodes the space of a device address for a thread of `p` at `l`, over `n` bytes; `naming` is set where the address only names a place
(11 R278). -/
def place (s : State) (p : Partition) (l : Loc) (va n : Nat) (naming : Bool) : Place :=
  let sp := va / 2 ^ 48
  let lm (d i off : Nat) : Place :=
    if 0x60000 < off + n then .fault 4
    else if 0x5C000 < off + n && !naming then .fault 5
    else .mem (lmKey d i off)
  match sp with
  | 0 =>
    match l with
    | .core d i => lm d i (va % 2 ^ 48)
    | _ => .fault 4
  | 1 =>
    if coreCount p false ≤ va / 2 ^ 32 % 2 ^ 16 then .fault 4
    else match coreOfRel p (va / 2 ^ 32 % 2 ^ 16) with
      | some (.core d i) => lm d i (va % 2 ^ 32)
      | _ => .fault 4
  | 2 =>
    match physDie p (va / 2 ^ 40 % 256) with
    | none => .fault 4
    | some d =>
      let off := va % 2 ^ 26
      if va / 2 ^ 26 % 2 ^ 14 ≠ 0 || 2 ^ 26 < off + n then .fault 4
      else
        let w := if isAttn d then 21 else 20
        let sl := off / 2 ^ w
        let b := off % 2 ^ w
        if ownedBy s (sliceUnit d sl b) p.pid then .mem (sliceKey d sl b) else .fault 5
  | 3 =>
    if coreCount p true ≤ va / 2 ^ 32 % 2 ^ 16 then .fault 4
    else match coreOfRel p (0x10000 + va / 2 ^ 32 % 2 ^ 16) with
      | some (.core d i) => lm d i (va % 2 ^ 32)
      | _ => .fault 4
  | _ => if sp < 16 then .fault 4 else .hbm

/-! ## Translation (08 R205 to R208) -/

/-- The extent that holds an address. -/
def extFind (m : List ExtEntry) (va : Nat) : Option ExtEntry :=
  m.find? fun e => e.vbase ≤ va / 2 ^ 21 && va / 2 ^ 21 < e.vbase + 2 ^ e.size

def permits (e : ExtEntry) : XKind → Bool
  | .read => e.rd
  | .write => e.w
  | .rmw => e.rd && e.w
  | .fetch => e.x
  | .any => true

def extKey (e : ExtEntry) (va : Nat) : Nat := hbmKey (e.pbase * 2 ^ 21 + (va - e.vbase * 2 ^ 21))

/-- The cached entry for an address (08 R208). -/
def cached (c : Core) (pid va : Nat) : Option ExtEntry := extFind ((c.xcache.filter fun p => p.1 == pid).map Prod.snd) va

/-- Puts an entry first in the 16-entry cache (08 R208). -/
def cacheEntry (s : State) (l : Loc) (pid : Nat) (e : ExtEntry) : State :=
  modCore s l fun c => { c with xcache := ((pid, e) :: c.xcache.filter fun p => p != (pid, e)).take 16 }

inductive Xlate where
  | ok (key : Nat)
  | miss
  | fault (cause : Nat)
  deriving DecidableEq, Repr

/-- One address of an aligned access, through the cache only. -/
def xlateCached (s : State) (p : Partition) (l : Loc) (va n : Nat) (k : XKind) : Xlate :=
  match place s p l va n false with
  | .mem key => .ok key
  | .fault c => .fault c
  | .hbm =>
    match cached (core s l) p.pid va with
    | none => .miss
    | some e => if permits e k then .ok (extKey e va) else .fault 5

/-- The same through the cache or the extents that walks have brought; what a walk has not found is a fault (08 R208). -/
def xlateFor (s : State) (p : Partition) (l : Loc) (w : WalkState) (va n : Nat) (k : XKind) (naming : Bool) : Xlate :=
  match place s p l va n naming with
  | .mem key => .ok key
  | .fault c => .fault c
  | .hbm =>
    match cached (core s l) p.pid va |>.or (extFind w.exts va) with
    | some e => if permits e k then .ok (extKey e va) else .fault 5
    | none => if w.missed.contains va then .fault 4 else .miss

/-- A use of a cached extent makes it the most recent (08 R208). -/
def useExtent (s : State) (p : Partition) (l : Loc) (va : Nat) : State :=
  if va / 2 ^ 48 < 16 then s
  else match cached (core s l) p.pid va with
    | some e => cacheEntry s l p.pid e
    | none => s

/-- The same for a range, one extent at a time; at most `fuel` pieces. -/
def useExtents (s : State) (p : Partition) (l : Loc) : Nat → Nat → Nat → State
  | 0, _, _ => s
  | fuel + 1, va, n => if n = 0 then s else useExtents (useExtent s p l va) p l fuel (va - va % 2 ^ 21 + 2 ^ 21) (n - (2 ^ 21 - va % 2 ^ 21))

/-- Whether cores of a partition are still to be restored after a switch, before which none of its threads issues (15 R376). -/
def Partition.restoring (p : Partition) : Bool := p.saves.any fun v => !v.victim
def heldBack (s : State) (pid : Nat) : Bool := match part? s pid with | some p => p.restoring && p.st == .running | none => false

/-- What firmware and a die's own units find in a die's copy of a map. -/
def mapWalk (s : State) (d pid : Nat) : WalkState := { WalkState.none with exts := (diePart s d pid).map }

/-- A range, piece by piece: pieces end at 2 MiB of HBM and at 64 KiB of a slice (08 R199, R207); at most `fuel` pieces. Answers the pieces
(device address, length, physical address), or the first fault. -/
def xlateRange (s : State) (p : Partition) (l : Loc) (w : WalkState) (k : XKind) : Nat → Nat → Nat → Except (Nat × Nat) (List (Nat × Nat × Nat))
  | 0, _, _ => .ok []
  | fuel + 1, va, n =>
    if n = 0 then .ok []
    else if 2 ^ 56 ≤ va then .error (4, va % 2 ^ 56)
    else
      let step := if 16 ≤ va / 2 ^ 48 then 2 ^ 21 else if va / 2 ^ 48 = 2 then 65536 else 2 ^ 40
      let len := min n (step - va % step)
      match xlateFor s p l w va len k false with
      | .ok key => (xlateRange s p l w k fuel (va + len) (n - len)).map fun r => (va, len, key) :: r
      | .fault c => .error (c, va)
      | .miss => .error (4, va)

/-- The physical address of a device address in ranges translated at issue. -/
def xlFind (xl : List (Nat × Nat × Nat)) (va : Nat) : Option Nat :=
  (xl.find? fun t => t.1 ≤ va && va < t.1 + t.2.1).map fun t => t.2.2 + (va - t.1)

/-! ## Kiln events (12 R290, R291) -/

def KEvent.base : KEvent := ⟨.dispatch, 0, 0, 0, 0, 0, none, 0, 0, 0, 0, none, []⟩

/-- An event enters a die's queue, or is held by its source while the queue is full or others are held (12 R291). -/
def queueEvent (s : State) (d : Nat) (e : KEvent) : State :=
  modDie s d fun x => if x.events.length < 64 && x.held.isEmpty then { x with events := x.events ++ [e] } else { x with held := x.held ++ [e] }

/-- A further DISPATCH event of a partition replaces the reason of the one that waits. -/
def newerReason (e : KEvent) (l : List KEvent) : List KEvent :=
  l.map fun y => if y.kind = .dispatch ∧ y.pid = e.pid then { y with reason := e.reason, level := e.level } else y

/-- Raises an event: a paused partition's DISPATCH and PREEMPT events become flags, a further DISPATCH replaces the reason of the one waiting. -/
def raiseEvent (s : State) (d : Nat) (e : KEvent) : State :=
  let paused : Bool := match part? s e.pid with | some p => p.st == .paused | none => false
  match e.kind with
  | .fault => queueEvent s d e
  | .preempt => if paused then modDiePart s d e.pid fun p => { p with pendPreempt := some (e.reason, e.level) } else queueEvent s d e
  | .dispatch =>
    if paused then modDiePart s d e.pid fun p => { p with pendDispatch := some (e.reason, e.level) }
    else if ((die s d).events ++ (die s d).held).any fun y => y.kind == .dispatch && y.pid == e.pid then
      modDie s d fun x => { x with events := newerReason e x.events, held := newerReason e x.held }
    else queueEvent s d e

/-- Sources that hold events enter them, oldest first, as entries of the queue are free (12 R291). -/
def admitHeld (s : State) (d : Nat) : State :=
  modDie s d fun x =>
    let n := 64 - x.events.length
    { x with events := x.events ++ x.held.take n, held := x.held.drop n }

def admitAll (s : State) : State := (List.range 20).foldl admitHeld s

/-- The FAULT event of a thread's trap (12 R290, R292). -/
def threadFault (s : State) (l : Loc) (k : Fin 16) (cause detail : Nat) (taddr : Word) : State :=
  let th := thread s l k
  raiseEvent s (dieOf l) { KEvent.base with
    kind := .fault, reason := 0, pid := th.part, cause := cause, detail := detail, who := some (l, k.val), thid := th.thid,
    arg0 := detail, arg1 := taddr.toNat % 2 ^ 32 }

/-! ## Interrupts, logs and machine checks (15 R379, R381) -/

/-- Sends an interrupt vector, or latches it (15 R379). -/
def setIrq (s : State) (pid vec : Nat) : State :=
  match part? s pid with
  | none => s
  | some p =>
    if 60 ≤ vec || p.st == .running then { s with host := s.host ++ [.interrupt (partIdWord p) vec p.stamp] }
    else modPart s pid fun p => { p with irq := (vec, p.stamp) :: p.irq.filter fun x => x.1 != vec }

/-- The die of the master distributor of a partition's node (12 R284). -/
def liveDies (s : State) (p : Partition) (attn : Bool) : List Nat := (nodeDies p attn).filter fun d => !(die s d).fenced
def masterDie (s : State) (p : Partition) (attn : Bool) : Nat :=
  match liveDies s p attn with
  | d :: _ => d
  | [] => 0
def deputyDie (s : State) (p : Partition) (attn : Bool) : Option Nat := (liveDies s p attn)[1]?

/-- Appends a record to a log of at most 256; a record that finds it full is counted (15 R379, R381). -/
def logRec (s : State) (pid : Nat) (mcheck : Bool) (words : List Word) : State :=
  match part? s pid with
  | none => s
  | some p =>
    let l := if mcheck then p.mcheckLog else p.faultLog
    if l.length < 256 then
      modPart s pid fun p => if mcheck then { p with mcheckLog := p.mcheckLog ++ [⟨words, s.cycle⟩] }
        else { p with faultLog := p.faultLog ++ [⟨words, s.cycle⟩] }
    else count s (masterDie s p false) pid 23 1

/-- A machine check (15 R381). -/
def machineCheck (s : State) (pid : Nat) (words : List Word) : State := setIrq (logRec s pid true words) pid 63

/-! ## Trap entry and return (15 R362 to R365) -/

/-- Cause codes (15 R360). -/
def cILLEGAL : Nat := 1
def cPRIV : Nat := 2
def cMISALIGN : Nat := 3
def cTRANSLATION : Nat := 4
def cPERMISSION : Nat := 5
def cMEMERR : Nat := 6
def cHAZARD : Nat := 7
def cDFUSE : Nat := 8
def cPARAM : Nat := 9
def cSHAPE : Nat := 10
def cELEM : Nat := 11
def cLOOP : Nat := 12
def cLFORMAT : Nat := 13
def cLDEPTH : Nat := 14
def cSTALE : Nat := 15
def cNONODE : Nat := 16
def cLTABLE : Nat := 17
def cDIRFULL : Nat := 18
def cTRAP : Nat := 19
def cBRK : Nat := 20
def cDOUBLE : Nat := 21

/-- Causes routed to the vector; MEMERR, BRK and DOUBLE go to the kiln (15 R360). -/
def routesToVector (c : Nat) : Bool := !(c == cMEMERR || c == cBRK || c == cDOUBLE)

/-- TCAUSE from a cause and a detail (04 R126). -/
def tcauseOf (c d : Nat) : Word := BitVec.ofNat 64 (c % 256 + d % 65536 * 65536)

/-- The DETAIL of a double trap: DETAIL[7:0] is the second trap's cause, the rest its own detail (15 R363). -/
def doubleDetail (t : TrapInfo) : Nat := t.cause % 256 + t.detail % 65536 / 256 * 256

/-- Writes the trap registers and clears the thread's pending marks (15 R362). DESIGN CHOICE: a data error of the run that the trap interrupts is kept
and reported at the thread's next end of a run (01 R28; log 44). -/
def recordTrap (t : TrapInfo) (cause detail : Nat) (th : Thread) : Thread :=
  { th with
    tcause := tcauseOf cause detail, tpc := t.tpc, tword0 := t.tword0, tword1 := t.tword1, taddr := t.taddr
    lfOld := t.lfOld.getD th.lfOld, lfNew := t.lfNew.getD th.lfNew
    spnd := 0, lpnd := 0, vpnd := 0, cont := none, walk := .none, pendTrap := none }

/-- The slot enters HALT with the trap's values, whatever halt was under way for a pre-emption, and a FAULT event goes to the kiln (15 R362, R363,
R372; 05 R150). -/
def haltTrap (s : State) (l : Loc) (k : Fin 16) (t : TrapInfo) (cause detail : Nat) : State :=
  threadFault (modSlot s l k fun x =>
    { x with st := .halt, halting := none, atCkpt := none, th := { recordTrap t cause detail x.th with pc := t.tpc } }) l k cause detail t.taddr

/-- The handler at `pc` is entered with the trap's values. -/
def vectorTrap (s : State) (l : Loc) (k : Fin 16) (t : TrapInfo) (pc : Word) : State :=
  setSt (modTh s l k fun th => { recordTrap t t.cause t.detail th with thact := true, pc := pc }) l k .run

/-- Trap entry, once every long-latency result of the thread is written (15 R362, R363; `brk` by 05 R150). -/
def enterTrap (s : State) (l : Loc) (k : Fin 16) (t : TrapInfo) : State :=
  let th := thread s l k
  if t.isBrk then haltTrap s l k t t.cause t.detail
  else if th.thact then haltTrap s l k t cDOUBLE (doubleDetail t)
  else if th.priv then vectorTrap s l k t (core s l).pvec
  else if routesToVector t.cause && th.tvec != 0 then vectorTrap s l k t th.tvec
  else haltTrap s l k t t.cause t.detail

/-- A trap is raised: it is entered at once, or when the last outstanding result is written. -/
def raiseTrap (s : State) (l : Loc) (k : Fin 16) (t : TrapInfo) : State :=
  if (thread s l k).outs.isEmpty then enterTrap s l k t
  else setSt (modTh s l k fun th => { th with pendTrap := some t }) l k .run

/-- A precise trap at the instruction that is issuing. -/
def trapAt (s : State) (x : Cur) (cause detail : Nat) (taddr : Nat) : State :=
  raiseTrap s x.loc x.slot ⟨cause, detail, (thread s x.loc x.slot).pc, x.w0, x.w1, BitVec.ofNat 64 (taddr % 2 ^ 56), none, none, false⟩

/-- Return from a trap handler (15 R365); THACT is 1. -/
def returnTrap (th : Thread) : Thread := { th with thact := false, pc := th.tpc &&& (~~~ 3#64) }

/-! ## The end of an instruction (01 R24, R25; 05 R145, R147) -/

/-- The next address of an instruction of `len` bytes that took no branch, and the loop stack after it (05 R147). -/
def loopNext (pc : Word) (len : Nat) (loops : List LoopEntry) : Word × List LoopEntry :=
  match loops with
  | [] => (pc + BitVec.ofNat 64 len, [])
  | e :: r =>
    if pc ≤ e.fin && e.fin < pc + BitVec.ofNat 64 len then
      if e.count = 0 then (e.fin + 4, r) else (e.start, { e with count := e.count - 1 } :: r)
    else (pc + BitVec.ofNat 64 len, e :: r)

/-- Whether an address lies in the body of a loop entry (05 R145). -/
def LoopEntry.holds (e : LoopEntry) (a : Word) : Bool := e.start ≤ a && a ≤ e.fin

/-- A taken `jmp` or `jr` out of the innermost bodies pops them (05 R145). -/
def popLoops (pc target : Word) : List LoopEntry → List LoopEntry
  | [] => []
  | e :: r => if e.holds pc && !e.holds target then popLoops pc target r else e :: r

/-- The end of a run (01 R25, R28): with nothing outstanding the marks clear and a data error of the run is reported; otherwise the thread
parks. -/
def endRun (s : State) (l : Loc) (k : Fin 16) : State :=
  let th := thread s l k
  if th.outs.isEmpty then
    let s := modTh s l k fun th => { th with spnd := 0, lpnd := 0, vpnd := 0, runErr := none }
    match th.runErr with
    | some t => raiseTrap s l k { t with tpc := th.pc }
    | none => s
  else setSt s l k .parkSw

/-- Sets the next address and applies the S bit. -/
def goto (s : State) (l : Loc) (k : Fin 16) (next : Word) (loops : List LoopEntry) (sw : Bool) : State :=
  let s := modTh s l k fun th => { th with pc := next, loops := loops, cont := none, walk := .none }
  if sw then endRun s l k else s

/-- The instruction at the program counter, of `len` bytes, completes without a branch. -/
def advance (s : State) (l : Loc) (k : Fin 16) (len : Nat) (sw : Bool) : State :=
  let th := thread s l k
  let n := loopNext th.pc len th.loops
  goto s l k n.1 n.2 sw

/-! ## Registers and results -/

/-- Writes a scalar register and its DF bit; s0 discards (03 R84, 04 R111, R113). -/
def setS (r : SReg) (v : Word) (df : Bool) (th : Thread) : Thread :=
  if r = 0 then th
  else { th with s := th.s.set r v, sdf := if df then th.sdf ||| (1#32 <<< r.val) else th.sdf &&& ~~~ (1#32 <<< r.val) }

/-- Writes a label register and its DF bit. -/
def setL (r : LReg) (v : Label) (df : Bool) (th : Thread) : Thread :=
  { th with l := th.l.set r v, ldf := if df then th.ldf ||| (1#8 <<< r.val) else th.ldf &&& ~~~ (1#8 <<< r.val) }

/-- Sets sticky FPMODE flags (02 R59). -/
def orFlags (f : BitVec 5) (th : Thread) : Thread := { th with fpmode := th.fpmode ||| f.setWidth 8 }

/-- Writes the lanes of a row that `bits` selects. -/
def setRow (c : Core) (r : VReg) (bits val : Row) : Core :=
  { c with tiles := c.tiles.set r ((c.tiles[r] &&& ~~~ bits) ||| (val &&& bits)) }

def applyWrite (s : State) (l : Loc) (k : Fin 16) : RegWrite → State
  | .s r v df => modTh s l k (setS r v df)
  | .l r v df => modTh s l k (setL r v df)
  | .v r bits val => modCore s l fun c => setRow c r bits val

def applyWrites (s : State) (l : Loc) (k : Fin 16) (ws : List RegWrite) : State := ws.foldl (fun s w => applyWrite s l k w) s

/-- Marks the destinations of a long-latency result pending; s0 is not marked (01 R25). -/
def markPending (ws : List RegWrite) (th : Thread) : Thread :=
  ws.foldl (fun th w => match w with
    | .s r _ _ => if r = 0 then th else { th with spnd := th.spnd ||| (1#32 <<< r.val) }
    | .l r _ _ => { th with lpnd := th.lpnd ||| (1#8 <<< r.val) }
    | .v r _ _ => { th with vpnd := th.vpnd ||| (1#64 <<< r.val) }) th

/-- Adds an outstanding result. -/
def addLong (s : State) (l : Loc) (k : Fin 16) (r : LongResult) : State :=
  modTh s l k fun th => { markPending r.writes th with outs := th.outs ++ [r] }

/-- What follows the write of a thread's last outstanding result: a trap that waited is entered, a parked run ends and the slot is a candidate
from the next cycle on (01 R21, R24, R25, R28; 15 R362). -/
def lastResult (s : State) (l : Loc) (k : Fin 16) : State :=
  let x := slotAt s l k
  if x.th.outs.isEmpty then
    match x.th.pendTrap with
    | some t => enterTrap s l k t
    | none => if x.st == .parkSw then endRun (modSlot s l k fun x => { x with st := .run, hold := max x.hold (s.cycle + 1) }) l k else s
  else s

/-- A long-latency result is written to its registers and leaves the outstanding list. -/
def writeLong (s : State) (l : Loc) (k : Fin 16) (r : LongResult) : State :=
  let s := modTh s l k fun th => orFlags r.flags { th with outs := th.outs.erase r }
  lastResult (applyWrites s l k r.writes) l k

end Sys2Proof.Machine
end

