-- ==== Sys2Proof/Machine/LabelOps.lean ====
section
/-! DEFINITION. Path labels, node records, directories and the translation of a label through a set of LTT entries (13 R306 to R316, R327, R328). -/

namespace Sys2Proof.Machine

/-! ## The fields of a label (13 R306) -/

def lTid (x : Label) : Nat := bitsAt x 127 108
def lLen (x : Label) : Nat := bitsAt x 106 100
def lPath (x : Label) : Nat := bitsAt x 99 0
def mkLabel (tid len path : Nat) : Label := BitVec.ofNat 128 (tid % 2 ^ 20 * 2 ^ 108 + len % 2 ^ 7 * 2 ^ 100 + path % 2 ^ 100)

def maxOrd : Nat := 16843018

/-- The digit code of an ordinal: its bits and its value (13 R307). -/
def codeOf (n : Nat) : Nat × Nat :=
  if n < 3 then (2, n)
  else if n ≤ 10 then (6, 0x30 + (n - 3))
  else if n ≤ 266 then (12, 0xE00 + (n - 11))
  else if n ≤ 65802 then (21, 0x1E0000 + (n - 267))
  else (29, 0x1F000000 + (n - 65803))

/-- The digit that begins at bit `pos` of a path: its ordinal and its length in bits (13 R307). -/
def digitAt (path pos : Nat) : Nat × Nat :=
  let y := path * 2 ^ pos % 2 ^ 100
  if y / 2 ^ 98 < 3 then (y / 2 ^ 98, 2)
  else if y / 2 ^ 97 = 6 then (y / 2 ^ 94 % 2 ^ 3 + 3, 6)
  else if y / 2 ^ 96 = 14 then (y / 2 ^ 88 % 2 ^ 8 + 11, 12)
  else if y / 2 ^ 95 = 30 then (y / 2 ^ 79 % 2 ^ 16 + 267, 21)
  else (y / 2 ^ 71 % 2 ^ 24 + 65803, 29)

/-- The digits of a path from `pos` to `len`, each with the bit it begins at; none where the path ends inside a code. -/
def digitsFrom (path len : Nat) : Nat → Nat → Option (List (Nat × Nat))
  | 0, _ => none
  | fuel + 1, pos =>
    if pos = len then some []
    else
      let d := digitAt path pos
      if len < pos + d.2 then none else (digitsFrom path len fuel (pos + d.2)).map fun r => (d.1, pos) :: r

def lDigits (x : Label) : Option (List (Nat × Nat)) := digitsFrom (lPath x) (lLen x) 51 0

/-- The reason a label is not well-formed, if any (13 R308). -/
def lFault (x : Label) : Option Nat :=
  if x.getLsbD 107 then some 1
  else if 100 < lLen x then some 2
  else if lPath x % 2 ^ (100 - lLen x) ≠ 0 then some 3
  else if (lDigits x).isNone then some 4
  else none

/-- a is an ancestor-or-self of b (13 R309). -/
def isAnc (a b : Label) : Bool :=
  lTid a == lTid b && lLen a ≤ lLen b && lPath a / 2 ^ (100 - lLen a) == lPath b / 2 ^ (100 - lLen a)

/-- The order key (13 R309). -/
def okey (x : Label) : Label := BitVec.ofNat 128 (lTid x * 2 ^ 108 + lPath x * 2 ^ 8 + lLen x)

/-- END (13 R309). -/
def endOf (x : Label) : Label := mkLabel (lTid x) 100 (lPath x + (2 ^ (100 - lLen x) - 1))

/-- x followed by a code, if it fits (13 R317). -/
def lAppend (x : Label) (n : Nat) : Option Label :=
  let c := codeOf n
  if lLen x + c.1 ≤ 100 then some (mkLabel (lTid x) (lLen x + c.1) (lPath x + c.2 * 2 ^ (100 - lLen x - c.1))) else none

/-- `base` followed by the bits of x after its first `k`; none beyond 100 bits (13 R315, R328). -/
def graft (base x : Label) (k : Nat) : Option Label :=
  let rem := lLen x - k
  let tot := lLen base + rem
  if 100 < tot then none
  else some (mkLabel (lTid base) tot (lPath base + lPath x % 2 ^ (100 - k) / 2 ^ (100 - lLen x) * 2 ^ (100 - tot)))

/-- x without its last digit. -/
def lParentOf (x : Label) : Label :=
  match (lDigits x).bind List.getLast? with
  | some (_, pos) => mkLabel (lTid x) pos (lPath x / 2 ^ (100 - pos) * 2 ^ (100 - pos))
  | none => x

/-- The deepest common ancestor-or-self of two labels of one tree. -/
def lCommonOf (a b : Label) : Label :=
  let da := (lDigits a).getD []
  let db := (lDigits b).getD []
  let n := ((List.zip da db).takeWhile fun p => p.1.1 == p.2.1).length
  let len := match da[n]? with | some (_, pos) => pos | none => lLen a
  mkLabel (lTid a) len (lPath a / 2 ^ (100 - len) * 2 ^ (100 - len))

/-! ## Translation (13 R314, R315) -/

/-- The entry with the longest prefix that `pre` gives among those that `ok` admits. -/
def longest (set : List LttEntry) (pre : LttEntry → Label) (ok : LttEntry → Bool) : Option LttEntry :=
  set.foldl (fun best e => if ok e then
    match best with
    | none => some e
    | some f => if lLen (pre f) < lLen (pre e) then some e else best
    else best) none

def serving (set : List LttEntry) (x : Label) : Option LttEntry := longest set LttEntry.cur fun e => isAnc e.cur x

/-- Y of R315: an entry that a move has laid over the birth label. -/
def overlaid (set : List LttEntry) (e : LttEntry) (b : Label) : Option LttEntry :=
  longest set LttEntry.birth fun y => !y.view && y.dbase == e.dbase && lLen e.birth < lLen y.birth && isAnc y.birth b

inductive LXlate where
  | ok (e : LttEntry) (b : Label)
  | noNode (detail : Nat)
  | stale (y : LttEntry)
  deriving DecidableEq, Repr

/-- The LTT steps of TRANSLATE for a well-formed label (13 R315). -/
def lTranslate (set : List LttEntry) (strict : Bool) (x : Label) : LXlate :=
  match serving set x with
  | none => .noNode 1
  | some e =>
    match graft e.birth x (lLen e.cur) with
    | none => .noNode 2
    | some b =>
      match overlaid set e b with
      | some y => if strict || !y.forward then .stale y else .ok e b
      | none => .ok e b

/-- The outcome of rebasing: the label, LABEL_DEPTH, or a tree whose set is needed first. -/
inductive Rebased where
  | ok (x : Label)
  | depth
  | need (tid : Nat)
  deriving DecidableEq, Repr

/-- `lrebase`, or with `fwd` the rebasing through FORWARD entries only, over the sets that `get` gives (13 R328, R331). -/
def rebaseLoop (get : Nat → Option (List LttEntry)) (fwd : Bool) : Nat → Label → Rebased
  | 0, x => .ok x
  | fuel + 1, x =>
    match get (lTid x) with
    | none => .need (lTid x)
    | some set =>
      match serving set x with
      | none => .ok x
      | some e =>
        match graft e.birth x (lLen e.cur) with
        | none => .ok x
        | some b =>
          match overlaid set e b with
          | none => .ok x
          | some y =>
            if fwd && !y.forward then .ok x
            else match graft y.cur b (lLen y.birth) with
              | none => .depth
              | some z => rebaseLoop get fwd fuel z

def rebase (get : Nat → Option (List LttEntry)) (fwd : Bool) (x : Label) : Rebased := rebaseLoop get fwd 51 x

/-- The set of a tree: the entries whose CUR names it and the non-VIEW entries that share a directory with one of them (13 R314). -/
def treeSet (ltt : List LttEntry) (tid : Nat) : List LttEntry :=
  let own := ltt.filter fun e => lTid e.cur == tid
  ltt.filter fun e => lTid e.cur == tid || (!e.view && own.any fun f => f.dbase == e.dbase)

/-! ## Directories (13 R311, R312) -/

def dirHash (k : Label) : Nat := Nat.xor (bitsAt k 127 64) (bitsAt k 63 0) * 0x9E3779B97F4A7C15 % 2 ^ 64

/-- The device address of probe `i`. -/
def probeVa (k : Label) (dbase dsize i : Nat) : Nat := dbase + 32 * ((dirHash k / 2 ^ (64 - dsize) + i) % 2 ^ dsize)

/-- KEY, ST and RADDR of a slot at a flat address. -/
def slotKey (m : Mem) (key : Nat) : Label := BitVec.ofNat 128 (ofBytes (m.readN (key + 16) 16))
def slotSt (m : Mem) (key : Nat) : Nat := ofBytes (m.readN (key + 8) 8) / 2 ^ 56 % 4
def slotRaddr (m : Mem) (key : Nat) : Nat := ofBytes (m.readN (key + 8) 8) % 2 ^ 56

/-- What a search of a directory comes to; a search that finds a slot gives the record's address in it, or the slot's own, and the slot's place. -/
inductive LookRes where
  | found (raddr slot : Nat)
  | absent
  | fault (cause va : Nat)
  | miss (va : Nat)
  deriving DecidableEq, Repr

/-- What a search of a directory asks of one slot: nothing further, or the next probe. -/
def lookupAt (m : Mem) (k : Label) (_va key : Nat) : Option LookRes :=
  if slotSt m key = 0 then some .absent
  else if slotSt m key = 1 && slotKey m key == k then some (.found (slotRaddr m key) key)
  else none

def claimAt (m : Mem) (_k : Label) (va key : Nat) : Option LookRes := if slotSt m key = 0 || slotSt m key = 2 then some (.found va key) else none

/-- A slot that cannot be read without a data error: one of its granules is poisoned (08 R213). -/
def slotPoisoned (s : State) (key : Nat) : Bool := poisoned s key || poisoned s (key + 16)

/-- A search of a directory, at most 64 probes, through the cache of `l` and the extents that walks have brought; the extents of the probes are used
(08 R208; 13 R312). -/
def searchFrom (ask : Mem → Label → Nat → Nat → Option LookRes) (p : Partition) (l : Loc) (w : WalkState) (kd : XKind) (k : Label) (dbase dsize : Nat) :
    Nat → State → LookRes × State
  | 0, s => (.absent, s)
  | fuel + 1, s =>
    let va := probeVa k dbase dsize (63 - fuel)
    match xlateFor s p l w va 32 kd false with
    | .ok key =>
      let t := useExtent s p l va
      if slotPoisoned s key then (.fault cMEMERR va, t)
      else match ask s.mem k va key with
        | some r => (r, t)
        | none => searchFrom ask p l w kd k dbase dsize fuel t
    | .fault c => (.fault c va, s)
    | .miss => (.miss va, s)

/-- LOOKUP (13 R312). -/
def lookup (s : State) (p : Partition) (l : Loc) (w : WalkState) (kd : XKind) (k : Label) (dbase dsize : Nat) : LookRes × State :=
  searchFrom lookupAt p l w kd k dbase dsize 64 s

/-- The slot INSERT claims: the first probe that is EMPTY or GONE. -/
def claimSlot (s : State) (p : Partition) (l : Loc) (w : WalkState) (k : Label) (dbase dsize : Nat) : LookRes × State :=
  searchFrom claimAt p l w .rmw k dbase dsize 64 s

/-- What INSERT of `k` would meet: the key, which is found; an error of translation, permission or data, which then changes nothing; an extent still to
be walked for; else the slot that it would claim, or none (13 R312, R321). -/
def insertAt (s : State) (p : Partition) (l : Loc) (w : WalkState) (k : Label) (dbase dsize : Nat) : LookRes × LookRes :=
  let q := lookup s p l w .read k dbase dsize
  (q.1, (claimSlot q.2 p l w k dbase dsize).1)

/-- The error, or the missing extent, that stands before an INSERT whose key is absent. -/
def insertStop (r : LookRes × LookRes) : Option LookRes :=
  match r with
  | (.found _ _, _) => none
  | (.absent, .found _ _) => none
  | (.absent, .absent) => none
  | (.absent, c) => some c
  | (c, _) => some c

/-- ST, with the reserved bits as 0, and RADDR in a slot's second dword (13 R311). -/
def slotWord (st raddr : Nat) : Nat := st * 2 ^ 56 + raddr % 2 ^ 56

/-- A claim of a slot: KEY, ST PENDING, RADDR as it stands, the reserved bits as 0. -/
def claimBytes (m : Mem) (key : Nat) (k : Label) : List Byte := toBytes 8 0 ++ toBytes 8 (slotWord 3 (slotRaddr m key)) ++ toBytes 16 k.toNat

/-- The byte of a slot that holds ST, with ST 2 GONE and the reserved bits as they are. -/
def goneByte (m : Mem) (key : Nat) : Byte := BitVec.ofNat 8 ((m.read (key + 15)).toNat / 4 * 4 + 2)

/-! ## Node record headers (13 R310) -/

def headLive (m : Mem) (key : Nat) : Bool := ofBytes (m.readN key 8) % 2 == 1
def headNext (m : Mem) (key : Nat) : Nat := ofBytes (m.readN key 8) / 2 ^ 32 % 2 ^ 32

/-- A header's first granule: SKEY, NEXT 0, LIVE 1. -/
def headBytes (skey : Word) : List Byte := toBytes 8 1 ++ toBytes 8 skey.toNat

/-- The first byte of a header with LIVE 0. -/
def deadByte (m : Mem) (key : Nat) : Byte := BitVec.ofNat 8 ((m.read key).toNat / 2 * 2)

/-- A record or directory address outside slice memory and HBM (13 R324). -/
def notTableMem (va : Nat) : Bool := let sp := va / 2 ^ 48; (sp < 16 && sp != 2) || 256 ≤ sp

end Sys2Proof.Machine
end

