-- ==== Sys2Proof/Machine/EngineQ.lean ====
section
/-! DEFINITION. The engine queues of a core: two entries each, guard decisions and discards (03 R88; 04 R115; 05 R137, R152; 07 R179, R181, R191; 09 R224). -/

namespace Sys2Proof.Machine

def engQ (c : Core) : Engine → List EngCmd
  | .me => c.meq
  | .ie => c.ieq
  | .te => c.teq
  | .nm => c.nmq
  | .pe => c.peq

def setEngQ (c : Core) (e : Engine) (q : List EngCmd) : Core :=
  match e with
  | .me => { c with meq := q }
  | .ie => { c with ieq := q }
  | .te => { c with teq := q }
  | .nm => { c with nmq := q }
  | .pe => { c with peq := q }

def engines : List Engine := [.me, .ie, .te, .nm, .pe]

def engNum : Engine → Fin 5
  | .me => 0
  | .ie => 1
  | .te => 2
  | .nm => 3
  | .pe => 4

/-- The tile an ME command writes (07 R179). -/
def EngBody.writes : EngBody → Option TReg
  | .mma _ d .. => some d
  | .tload t .. => some t
  | .tzero t => some t
  | _ => none

/-- A writing command that is discarded sets ROWS to 16 if SEQ still names it (07 R179). -/
def discardRows (c : Core) (q : EngCmd) : Core :=
  match q.body.writes with
  | some t => if c.twm[t].seq.toNat = q.seq % 256 then { c with twm := c.twm.set t { c.twm[t] with rows := 16 } } else c
  | none => c

/-- A command leaves its queue without effect and is counted as a guard discard (16 R383 d1). -/
def discardCmd (s : State) (l : Loc) (e : Engine) (q : EngCmd) : State :=
  count (modCore s l fun c => discardRows (setEngQ c e ((engQ c e).filter fun x => x != q)) q) (dieOf l) q.part 1 1

/-- What a slot's value decides for a guarded command: it proceeds or is discarded (03 R88). -/
def decisionOf (g : GPfx) : GuardVal → Option Bool
  | .unset => none
  | .tt => some (!g.gn)
  | .ff => some g.gn

/-- The command at the head of a queue takes its decision when its slot is resolved; a discarded one makes way for the next, which is then at
the head (03 R88, 04 R115). `fuel` is the length of the queue. -/
def settleQ (s : State) (l : Loc) (e : Engine) : Nat → State
  | 0 => s
  | fuel + 1 =>
    match engQ (core s l) e with
    | [] => s
    | q :: r =>
      let d? : Option Bool := match q.guard with
        | none => some true
        | some g => match q.decided with
          | some d => some d
          | none => decisionOf g (thread s l (Fin.ofNat 16 q.slot)).g[g.slot]
      match d? with
      | none => s
      | some true => modCore s l fun c => setEngQ c e ({ q with decided := some true } :: r)
      | some false => settleQ (discardCmd s l e q) l e fuel

def settle (s : State) (l : Loc) : State := engines.foldl (fun s e => settleQ s l e 3) s

/-- Removes a completed command from the head of its queue. -/
def popCmd (s : State) (l : Loc) (e : Engine) : State := settle (modCore s l fun c => setEngQ c e (engQ c e).tail) l

/-- Replaces the command at the head of a queue. -/
def setHead (s : State) (l : Loc) (e : Engine) (q : EngCmd) : State := modCore s l fun c => setEngQ c e (q :: (engQ c e).tail)

/-- Whether a command was issued by a thread. -/
def EngCmd.isOf (th : Thread) (q : EngCmd) : Bool := q.thid == th.thid && q.part == th.part

/-- The guarded commands of a thread whose slot is UNSET are discarded; one whose slot is resolved keeps that value (05 R152, 09 R224). -/
def dropGuards (s : State) (l : Loc) (k : Fin 16) (keep : Bool) : State :=
  let th := thread s l k
  let s := engines.foldl (fun s e => (engQ (core s l) e).foldl (fun s q =>
    if q.slot = k.val ∧ q.isOf th ∧ q.decided = none then
      match q.guard with
      | none => s
      | some g => match decisionOf g th.g[g.slot] with
        | none => discardCmd s l e q
        | some d => if keep then modCore s l fun c => setEngQ c e ((engQ c e).map fun y => if y = q then { y with decided := some d } else y) else s
    else s) s) s
  settle s l

/-- Halted for a pre-emption (15 R372): in HALT, or waiting for the reply to a message. -/
def slotHalted (x : Slot) : Bool :=
  match x.st with
  | .halt => true
  | .parkMem (.message _) => x.halting == some 0
  | _ => false

/-- Every thread of a partition on a core is halted. -/
def allHalted (s : State) (l : Loc) (pid : Nat) : Bool :=
  (List.finRange 16).all fun k => let x := (core s l).slots[k]; x.st == .free || x.th.part != pid || slotHalted x

/-- Whether a core's engines hold at the end of what they have in hand: the threads of the command's partition there are all halted for a pre-emption
(15 R373). -/
def engineHeld (s : State) (l : Loc) (pid : Nat) : Bool := ((core s l).preempt.any fun q => q.pid == pid) && allHalted s l pid

/-- Whether a thread has a command in an engine queue of a core. -/
def hasCmds (c : Core) (th : Thread) : Bool := engines.any fun e => (engQ c e).any (EngCmd.isOf th)

/-- Whether a thread has a command that has not completed, on whatever core it issued it, saved ones included (09 R224). -/
def anyCmds (s : State) (th : Thread) : Bool :=
  (s.cores.any fun c => hasCmds c.2 th) || s.parts.any fun p => p.saves.any fun v => hasCmds v.core th

/-- Whether a command of a thread waits on one of its guard slots (04 R115). -/
def hasWaitingGuard (c : Core) (th : Thread) : Bool :=
  engines.any fun e => (engQ c e).any fun q => q.isOf th && q.guard.isSome && q.decided.isNone

end Sys2Proof.Machine
end

