-- ==== Sys2Proof/Decode.lean ====
section
/-! DEFINITION. The decoder, total on any bits and rejecting with the detail code of 03 R96, and the encoder, both from the encoding tables of 03 and of each family's chapter; the kiln's 16-bit instructions (12 R298, R299). -/

namespace Sys2Proof

/-- Field [lo + w − 1 : lo] of a number read as bits (00 R17). -/
def fld (n lo w : Nat) : Nat := n / 2 ^ lo % 2 ^ w

/-- A word from its fields, lowest first: (width, value). -/
def pack : List (Nat × Nat) → Nat
  | [] => 0
  | (w, v) :: r => v + 2 ^ w * pack r

/-- The fields of a word, lowest first. -/
def unpack : List Nat → Nat → List Nat
  | [], _ => []
  | w :: r, n => n % 2 ^ w :: unpack r (n / 2 ^ w)

/-- A register number from its field; the decoder tests the range beside it. -/
def fin {k : Nat} [NeZero k] (n : Nat) : Fin k := Fin.ofNat k n

/-- A one-bit field. -/
def bit (n : Nat) : Bool := n % 2 == 1

def Size.num : Size → Nat
  | .b1 => 0 | .b2 => 1 | .b4 => 2 | .b8 => 3

def Size.ofNum (n : Nat) : Size :=
  match n % 4 with
  | 0 => .b1 | 1 => .b2 | 2 => .b4 | _ => .b8

def PDst.num : PDst → Nat
  | .p r => r.val
  | .g r => 8 + r.val

def PDst.ofNum (n : Nat) : PDst := if n < 8 then .p (fin n) else .g (fin (n - 8))

def PSrc.num : PSrc → Nat
  | .p r => r.val
  | .unset => 12

def PSrc.ofNum (n : Nat) : PSrc := if n < 8 then .p (fin n) else .unset

/-- Operand A of `pmov` (03 R84, 05 R136). -/
def pmovOk (d a : Nat) : Bool := d < 12 && (a < 8 || (a == 12 && 8 ≤ d))

/-- D of `qsendc` (11 R265). -/
def okQ (x : DecodeCtx) (n : Nat) : Bool := 24 ≤ n && n < 28 && x.okS n

/-- Lane modifier numbers: kind in [7:5], K in [4:0] (03 R90). -/
def LaneMod.num : LaneMod → Nat
  | .none => 0
  | .rot k => k.val + 32
  | .rev => 64
  | .g8 k => k.val + 96
  | .bc k => k.val + 128
  | .xor k => k.val + 160

def laneOf (n : Nat) : LaneMod :=
  match n / 32 with
  | 1 => .rot (fin (n % 32))
  | 2 => .rev
  | 3 => .g8 (fin (n % 32))
  | 4 => .bc (fin (n % 32))
  | 5 => .xor (fin (n % 32))
  | _ => .none

/-- The part of detail 9 that no element type decides (03 R90). -/
def laneOk (n : Nat) : Bool :=
  match n / 32 with
  | 0 => n % 32 == 0
  | 1 => true
  | 2 => n % 32 == 0
  | 3 => true
  | 4 => true
  | 5 => n % 32 == 1 || n % 32 == 2 || n % 32 == 4 || n % 32 == 8 || n % 32 == 16
  | _ => false

def Rnd.num : Rnd → Nat
  | .thread => 0 | .rne => 1 | .rtz => 2 | .rdn => 3 | .rup => 4

def Rnd.ofNum (n : Nat) : Rnd :=
  match n with
  | 1 => .rne | 2 => .rtz | 3 => .rdn | 4 => .rup | _ => .thread

def Scope.num : Scope → Nat
  | .narrowest => 0 | .core => 1 | .die => 2 | .module => 3 | .system => 4

def Scope.ofNum (n : Nat) : Scope :=
  match n with
  | 1 => .core | 2 => .die | 3 => .module | 4 => .system | _ => .narrowest

def Fmt.num : Fmt → Nat
  | .i8 => 0 | .n8 => 1 | .i16 => 2 | .n16 => 3 | .i32 => 4 | .n32 => 5 | .i64 => 6 | .n64 => 7
  | .fp32 => 8 | .bf16 => 9 | .fp16 => 10 | .f8a => 11 | .f8b => 12 | .ds8 => 13 | .e8 => 14

/-- Format codes; 15 is reserved (02 R56). -/
def Fmt.ofNum (n : Nat) : Option Fmt :=
  match n with
  | 0 => some .i8 | 1 => some .n8 | 2 => some .i16 | 3 => some .n16 | 4 => some .i32 | 5 => some .n32 | 6 => some .i64 | 7 => some .n64
  | 8 => some .fp32 | 9 => some .bf16 | 10 => some .fp16 | 11 => some .f8a | 12 => some .f8b | 13 => some .ds8 | 14 => some .e8
  | _ => none

def CvtFmt.num : CvtFmt → Nat
  | .fp32 => 0 | .bf16 => 1 | .fp16 => 2 | .i32 => 3 | .n32 => 4 | .i64 => 5

def CvtFmt.ofNum (n : Nat) : Option CvtFmt :=
  match n with
  | 0 => some .fp32 | 1 => some .bf16 | 2 => some .fp16 | 3 => some .i32 | 4 => some .n32 | 5 => some .i64
  | _ => none

/-- Control register numbers (04 R121). -/
def CReg.num : CReg → Nat
  | .thid => 0 | .coreid => 1 | .dieid => 2 | .partid => 3 | .stamp => 4 | .cycle => 5 | .fpmode => 6 | .qos => 7
  | .tvec => 8 | .tcause => 9 | .tpc => 10 | .tword0 => 11 | .tword1 => 12 | .taddr => 13 | .pvec => 14 | .qhvec => 15
  | .twm k => 16 + k.val | .tstat k => 20 + k.val | .tpra => 24 | .dllimit => 25 | .agemax => 26
  | .ringcfg k => 32 + k.val | .ckptid => 40 | .kilnver => 41

def CReg.ofNum (n : Nat) : Option CReg :=
  match n with
  | 0 => some .thid | 1 => some .coreid | 2 => some .dieid | 3 => some .partid | 4 => some .stamp | 5 => some .cycle
  | 6 => some .fpmode | 7 => some .qos | 8 => some .tvec | 9 => some .tcause | 10 => some .tpc | 11 => some .tword0
  | 12 => some .tword1 | 13 => some .taddr | 14 => some .pvec | 15 => some .qhvec
  | 16 => some (.twm 0) | 17 => some (.twm 1) | 18 => some (.twm 2) | 19 => some (.twm 3)
  | 20 => some (.tstat 0) | 21 => some (.tstat 1) | 22 => some (.tstat 2) | 23 => some (.tstat 3)
  | 24 => some .tpra | 25 => some .dllimit | 26 => some .agemax
  | 32 => some (.ringcfg 0) | 33 => some (.ringcfg 1) | 34 => some (.ringcfg 2) | 35 => some (.ringcfg 3)
  | 36 => some (.ringcfg 4) | 37 => some (.ringcfg 5) | 38 => some (.ringcfg 6) | 39 => some (.ringcfg 7)
  | 40 => some .ckptid | 41 => some .kilnver
  | _ => none

/-! ## Prefix parcels (03 R85 to R89) -/

/-- The parcel of a vector prefix (03 R86). -/
def VPfx.enc (p : VPfx) : Nat :=
  pack [(2, 0), (2, 0), (4, p.mask.val), (1, p.z.toNat), (3, p.rnd.num), (6, match p.e with | some v => v.val | none => 0),
    (1, p.e.isSome.toNat), (13, 0)]

def vpfxOf (n : Nat) : VPfx :=
  ⟨fin (fld n 4 4), bit (fld n 8 1), Rnd.ofNum (fld n 9 3), if fld n 18 1 == 1 then some (fin (fld n 12 6)) else none⟩

/-- The parcel of a memory prefix (03 R87). -/
def MPfx.enc (m : MPfx) : Nat := pack [(2, 0), (2, 1), (1, 1), (3, m.scope.num), (24, 0)]

def mpfxOf (n : Nat) : MPfx := ⟨Scope.ofNum (fld n 5 3)⟩

/-- The parcel of a guard prefix (03 R88). -/
def GPfx.enc (g : GPfx) : Nat := pack [(2, 0), (2, 2), (2, g.slot.val), (1, g.gn.toNat), (25, 0)]

def gpfxOf (n : Nat) : GPfx := ⟨fin (fld n 4 2), bit (fld n 6 1)⟩

def RowPfx.enc : RowPfx → Option Nat
  | .none => .none
  | .vector p => some p.enc
  | .memory m => some m.enc

/-- The prefix parcel read as its instruction's kind; a default without a prefix. -/
def vpfx (p : Option Nat) : VPfx := match p with | some n => vpfxOf n | none => ⟨0, false, .thread, none⟩
def mpfx (p : Option Nat) : MPfx := match p with | some n => mpfxOf n | none => ⟨.narrowest⟩
def gpfx (p : Option Nat) : GPfx := match p with | some n => gpfxOf n | none => ⟨0, false⟩
def rowPfx (p : Option Nat) : RowPfx :=
  match p with
  | none => .none
  | some n => if fld n 2 2 == 0 then .vector (vpfxOf n) else .memory (mpfxOf n)

/-- Row 5 of 03 R96 for a family that takes the vector prefix. -/
def okV (p : Option Nat) : Bool := match p with | none => true | some n => fld n 2 2 == 0 && fld n 9 3 < 5 && fld n 18 1 == 0
def okVE (p : Option Nat) : Bool := match p with | none => true | some n => fld n 2 2 == 0 && fld n 9 3 < 5
def okM (p : Option Nat) : Bool := match p with | none => true | some n => fld n 2 2 == 1 && fld n 4 1 == 1 && fld n 5 3 < 5
def okG (p : Option Nat) : Bool := match p with | none => true | some n => fld n 2 2 == 2
def okRow (p : Option Nat) : Bool := okV p || okM p
/-- Row 3 of 03 R96 for the prefix. -/
def zeroV (p : Option Nat) : Bool :=
  match p with
  | none => true
  | some n => n != 0 && fld n 19 13 == 0 && (fld n 18 1 == 1 || fld n 12 6 == 0)
def zeroM (p : Option Nat) : Bool := match p with | none => true | some n => fld n 8 24 == 0
def zeroG (p : Option Nat) : Bool := match p with | none => true | some n => fld n 7 25 == 0
def zeroRow (p : Option Nat) : Bool := match p with | none => true | some n => if fld n 2 2 == 0 then zeroV p else zeroM p

/-! ## Base words (03 R78, R81) -/

/-- The fields of a base word; a field its format lacks is 0. -/
structure Fields where
  h : Hdr
  fn : Nat
  d : Nat
  a : Nat
  b : Nat
  c : Nat
  ma : Nat
  mb : Nat
  res : Nat
  imm : Nat
  deriving DecidableEq, Repr

def encHdr (h : Hdr) (len op : Nat) : List (Nat × Nat) := [(2, len), (1, h.sw.toNat), (8, op)]
def encPfx (p : Option Nat) : List (Nat × Nat) := match p with | none => [] | some n => [(32, n)]

def encR (p : Option Nat) (h : Hdr) (op fn d a b ma mb : Nat) : List (Nat × Nat) :=
  encPfx p ++ [(64, pack (encHdr h 1 op ++ [(6, d), (6, a), (6, b), (6, fn), (3, h.pg.val), (1, h.pn.toNat), (8, ma), (8, mb), (9, 0)]))]
def encI (p : Option Nat) (h : Hdr) (op fn d a : Nat) (imm : List (Nat × Nat)) : List (Nat × Nat) :=
  encPfx p ++ [(64, pack (encHdr h 1 op ++ [(6, d), (6, a), (6, fn), (3, h.pg.val), (1, h.pn.toNat), (31, pack imm)]))]
def encW (p : Option Nat) (h : Hdr) (op fn d a : Nat) (imm : List (Nat × Nat)) : List (Nat × Nat) :=
  encPfx p ++ [(96, pack (encHdr h 2 op ++ [(6, d), (6, a), (5, fn), (3, h.pg.val), (1, h.pn.toNat), (64, pack imm)]))]
def encE (p : Option Nat) (h : Hdr) (op fn d a b c : Nat) (imm : List (Nat × Nat)) : List (Nat × Nat) :=
  encPfx p ++ [(128, pack (encHdr h 3 op ++ [(6, d), (6, a), (6, b), (6, c), (6, fn), (3, h.pg.val), (1, h.pn.toNat), (19, 0), (64, pack imm)]))]

def fieldsR (w : Nat) : Fields :=
  match unpack [2, 1, 8, 6, 6, 6, 6, 3, 1, 8, 8, 9] w with
  | [_, s, _, d, a, b, fn, pg, pn, ma, mb, r] => ⟨⟨bit s, fin pg, bit pn⟩, fn, d, a, b, 0, ma, mb, r, 0⟩
  | _ => ⟨⟨false, 0, false⟩, 0, 0, 0, 0, 0, 0, 0, 0, 0⟩
def fieldsI (w : Nat) : Fields :=
  match unpack [2, 1, 8, 6, 6, 6, 3, 1, 31] w with
  | [_, s, _, d, a, fn, pg, pn, i] => ⟨⟨bit s, fin pg, bit pn⟩, fn, d, a, 0, 0, 0, 0, 0, i⟩
  | _ => ⟨⟨false, 0, false⟩, 0, 0, 0, 0, 0, 0, 0, 0, 0⟩
def fieldsW (w : Nat) : Fields :=
  match unpack [2, 1, 8, 6, 6, 5, 3, 1, 64] w with
  | [_, s, _, d, a, fn, pg, pn, i] => ⟨⟨bit s, fin pg, bit pn⟩, fn, d, a, 0, 0, 0, 0, 0, i⟩
  | _ => ⟨⟨false, 0, false⟩, 0, 0, 0, 0, 0, 0, 0, 0, 0⟩
def fieldsE (w : Nat) : Fields :=
  match unpack [2, 1, 8, 6, 6, 6, 6, 6, 3, 1, 19, 64] w with
  | [_, s, _, d, a, b, c, fn, pg, pn, r, i] => ⟨⟨bit s, fin pg, bit pn⟩, fn, d, a, b, c, 0, 0, r, i⟩
  | _ => ⟨⟨false, 0, false⟩, 0, 0, 0, 0, 0, 0, 0, 0, 0⟩

/-- Rows 5, 3, 8 and 9 of 03 R96, in that order, for one instruction form. -/
def row (f : Fields) (pfxOk zeroOk regsOk lanesOk : Bool) (i : Instr) : Except Nat Instr :=
  if !pfxOk then .error 5
  else if !(zeroOk && f.res == 0) then .error 3
  else if !regsOk then .error 8
  else if !lanesOk then .error 9
  else .ok i

/-! ## The families with a layout of their own in FN (03 R93) -/

/-- LD: [5] spec, [4:3] qualifier, [2] unsigned, [1:0] size. -/
noncomputable def decodeLd (x : DecodeCtx) (p : Option Nat) (f : Fields) : Except Nat Instr :=
  let sz := Size.ofNum f.fn
  let uns := bit (f.fn / 4)
  let regs := okN f.d && x.okS f.a
  if f.fn % 8 == 7 then .error 2
  else match f.fn / 8 with
  | 0 => row f (okM p) (zeroM p) regs true (.ld f.h (p.map fun _ => mpfx p) (fin f.d) (fin f.a) (BitVec.ofNat 31 f.imm) sz uns)
  | 1 => row f p.isNone true regs true (.ldSync f.h (fin f.d) (fin f.a) (BitVec.ofNat 31 f.imm) sz uns)
  | 2 => row f p.isNone true regs true (.ldTake f.h (fin f.d) (fin f.a) (BitVec.ofNat 31 f.imm) sz uns)
  | 4 => row f (okM p) (zeroM p) regs true (.ldSpec f.h (p.map fun _ => mpfx p) (fin f.d) (fin f.a) (BitVec.ofNat 31 f.imm) sz uns)
  | _ => .error 2

/-- ST: [3:2] qualifier, [1:0] size. -/
noncomputable def decodeSt (x : DecodeCtx) (p : Option Nat) (f : Fields) : Except Nat Instr :=
  let sz := Size.ofNum f.fn
  let regs := x.okS f.d && x.okS f.a
  match f.fn / 4 with
  | 0 => row f (okM p) (zeroM p) regs true (.st f.h (p.map fun _ => mpfx p) (fin f.d) (fin f.a) (BitVec.ofNat 31 f.imm) sz)
  | 1 => row f p.isNone true regs true (.stFill f.h (fin f.d) (fin f.a) (BitVec.ofNat 31 f.imm) sz)
  | 2 => row f p.isNone true regs true (.stXfill f.h (fin f.d) (fin f.a) (BitVec.ofNat 31 f.imm) sz)
  | _ => .error 2

/-- FCVT: [5:3] source, [2:0] target. -/
noncomputable def decodeFcvt (x : DecodeCtx) (p : Option Nat) (f : Fields) : Except Nat Instr :=
  match CvtFmt.ofNum (f.fn / 8), CvtFmt.ofNum (f.fn % 8) with
  | some src, some dst =>
    if cvtPair src dst then
      row f p.isNone (f.b == 0 && f.ma == 0 && f.mb == 0) (x.okS f.d && x.okS f.a) true (.fcvt f.h src dst (fin f.d) (fin f.a))
    else .error 2
  | _, _ => .error 2

/-- VCVT: FN is the target format; B is the part (06 R163). -/
noncomputable def decodeVcvt (x : DecodeCtx) (p : Option Nat) (f : Fields) : Except Nat Instr :=
  match Fmt.ofNum f.fn with
  | some t =>
    if t.isVcvtTarget then
      let a : VReg := fin f.a
      row f (okV p) (zeroV p && f.mb == 0 && f.b < vcvtParts x.tiles[a.tile] t) true (laneOk f.ma)
        (.vcvt f.h (p.map fun _ => vpfx p) t (fin f.d) a (fin f.b) (laneOf f.ma))
    else .error 2
  | none => .error 2

/-- `cget` (15 R364): an IMM that is no register number is detail 3. -/
noncomputable def decodeCget (x : DecodeCtx) (p : Option Nat) (f : Fields) : Except Nat Instr :=
  match CReg.ofNum f.imm with
  | some r => row f p.isNone (f.a == 0) (x.okS f.d) true (.cget f.h (fin f.d) r)
  | none => row f p.isNone false true true (.eret f.h)

/-- `cset` (15 R364): FPMODE, AGEMAX and RINGCFG are rows of their own in the opcode table. -/
noncomputable def decodeCset (x : DecodeCtx) (p : Option Nat) (f : Fields) : Except Nat Instr :=
  match CReg.ofNum f.imm with
  | some .fpmode => row f p.isNone (f.d == 0) (x.okS f.a) true (.csetFpmode f.h (fin f.a))
  | some .agemax => row f p.isNone (f.d == 0) (x.okS f.a) true (.csetAgemax f.h (fin f.a))
  | some (.ringcfg k) => row f p.isNone (f.d == 0) (x.okS f.a) true (.csetRingcfg f.h (fin f.a) k)
  | some r => row f p.isNone (f.d == 0) (x.okS f.a) true (.cset f.h (fin f.a) r)
  | none => row f p.isNone false true true (.eret f.h)

/-! ## The families (03 R92) -/

/-- ALU (03 R92, OP 0x01). -/
noncomputable def decodeAlu (x : DecodeCtx) (p : Option Nat) (f : Fields) : Except Nat Instr :=
  match f.fn with
  | 0 => row f (p.isNone) ((f.ma == 0) && (f.mb == 0)) (x.okS f.d && x.okS f.a && x.okS f.b) (true) (.add f.h (fin f.d) (fin f.a) (fin f.b))
  | 1 => row f (p.isNone) ((f.ma == 0) && (f.mb == 0)) (x.okS f.d && x.okS f.a && x.okS f.b) (true) (.sub f.h (fin f.d) (fin f.a) (fin f.b))
  | 2 => row f (p.isNone) ((f.ma == 0) && (f.mb == 0)) (x.okS f.d && x.okS f.a && x.okS f.b) (true) (.and f.h (fin f.d) (fin f.a) (fin f.b))
  | 3 => row f (p.isNone) ((f.ma == 0) && (f.mb == 0)) (x.okS f.d && x.okS f.a && x.okS f.b) (true) (.or f.h (fin f.d) (fin f.a) (fin f.b))
  | 4 => row f (p.isNone) ((f.ma == 0) && (f.mb == 0)) (x.okS f.d && x.okS f.a && x.okS f.b) (true) (.xor f.h (fin f.d) (fin f.a) (fin f.b))
  | 5 => row f (p.isNone) ((f.ma == 0) && (f.mb == 0)) (x.okS f.d && x.okS f.a && x.okS f.b) (true) (.andn f.h (fin f.d) (fin f.a) (fin f.b))
  | 6 => row f (p.isNone) ((f.ma == 0) && (f.mb == 0)) (x.okS f.d && x.okS f.a && x.okS f.b) (true) (.shl f.h (fin f.d) (fin f.a) (fin f.b))
  | 7 => row f (p.isNone) ((f.ma == 0) && (f.mb == 0)) (x.okS f.d && x.okS f.a && x.okS f.b) (true) (.shr f.h (fin f.d) (fin f.a) (fin f.b))
  | 8 => row f (p.isNone) ((f.ma == 0) && (f.mb == 0)) (x.okS f.d && x.okS f.a && x.okS f.b) (true) (.sra f.h (fin f.d) (fin f.a) (fin f.b))
  | 9 => row f (p.isNone) ((f.ma == 0) && (f.mb == 0)) (x.okS f.d && x.okS f.a && x.okS f.b) (true) (.rol f.h (fin f.d) (fin f.a) (fin f.b))
  | 10 => row f (p.isNone) ((f.ma == 0) && (f.mb == 0)) (x.okS f.d && x.okS f.a && x.okS f.b) (true) (.min f.h (fin f.d) (fin f.a) (fin f.b))
  | 11 => row f (p.isNone) ((f.ma == 0) && (f.mb == 0)) (x.okS f.d && x.okS f.a && x.okS f.b) (true) (.max f.h (fin f.d) (fin f.a) (fin f.b))
  | 12 => row f (p.isNone) ((f.ma == 0) && (f.mb == 0)) (x.okS f.d && x.okS f.a && x.okS f.b) (true) (.minn f.h (fin f.d) (fin f.a) (fin f.b))
  | 13 => row f (p.isNone) ((f.ma == 0) && (f.mb == 0)) (x.okS f.d && x.okS f.a && x.okS f.b) (true) (.maxn f.h (fin f.d) (fin f.a) (fin f.b))
  | 14 => row f (p.isNone) ((f.ma == 0) && (f.mb == 0)) (x.okS f.d && x.okS f.a && x.okS f.b) (true) (.mul f.h (fin f.d) (fin f.a) (fin f.b))
  | 15 => row f (p.isNone) ((f.ma == 0) && (f.mb == 0)) (x.okS f.d && x.okS f.a && x.okS f.b) (true) (.mulh f.h (fin f.d) (fin f.a) (fin f.b))
  | 16 => row f (p.isNone) ((f.ma == 0) && (f.mb == 0)) (x.okS f.d && x.okS f.a && x.okS f.b) (true) (.mulhn f.h (fin f.d) (fin f.a) (fin f.b))
  | 17 => row f (p.isNone) ((f.ma == 0) && (f.mb == 0)) (okN f.d && x.okS f.a && x.okS f.b) (true) (.div f.h (fin f.d) (fin f.a) (fin f.b))
  | 18 => row f (p.isNone) ((f.ma == 0) && (f.mb == 0)) (okN f.d && x.okS f.a && x.okS f.b) (true) (.divn f.h (fin f.d) (fin f.a) (fin f.b))
  | 19 => row f (p.isNone) ((f.ma == 0) && (f.mb == 0)) (okN f.d && x.okS f.a && x.okS f.b) (true) (.rem f.h (fin f.d) (fin f.a) (fin f.b))
  | 20 => row f (p.isNone) ((f.ma == 0) && (f.mb == 0)) (okN f.d && x.okS f.a && x.okS f.b) (true) (.remn f.h (fin f.d) (fin f.a) (fin f.b))
  | 21 => row f (p.isNone) ((f.b == 0) && (f.ma == 0) && (f.mb == 0)) (x.okS f.d && x.okS f.a) (true) (.clz f.h (fin f.d) (fin f.a))
  | 22 => row f (p.isNone) ((f.b == 0) && (f.ma == 0) && (f.mb == 0)) (x.okS f.d && x.okS f.a) (true) (.ctz f.h (fin f.d) (fin f.a))
  | 23 => row f (p.isNone) ((f.b == 0) && (f.ma == 0) && (f.mb == 0)) (x.okS f.d && x.okS f.a) (true) (.popc f.h (fin f.d) (fin f.a))
  | 24 => row f (p.isNone) ((f.b == 0) && (f.ma == 0) && (f.mb == 0)) (x.okS f.d && x.okS f.a) (true) (.bswap f.h (fin f.d) (fin f.a))
  | _ => .error 2

/-- ALUI (03 R92, OP 0x02). -/
noncomputable def decodeAlui (x : DecodeCtx) (p : Option Nat) (f : Fields) : Except Nat Instr :=
  match f.fn with
  | 0 => row f (p.isNone) (true) (x.okS f.d && x.okS f.a) (true) (.addi f.h (fin f.d) (fin f.a) (BitVec.ofNat 31 (fld f.imm 0 31)))
  | 2 => row f (p.isNone) (true) (x.okS f.d && x.okS f.a) (true) (.andi f.h (fin f.d) (fin f.a) (BitVec.ofNat 31 (fld f.imm 0 31)))
  | 3 => row f (p.isNone) (true) (x.okS f.d && x.okS f.a) (true) (.ori f.h (fin f.d) (fin f.a) (BitVec.ofNat 31 (fld f.imm 0 31)))
  | 4 => row f (p.isNone) (true) (x.okS f.d && x.okS f.a) (true) (.xori f.h (fin f.d) (fin f.a) (BitVec.ofNat 31 (fld f.imm 0 31)))
  | 10 => row f (p.isNone) (true) (x.okS f.d && x.okS f.a) (true) (.mini f.h (fin f.d) (fin f.a) (BitVec.ofNat 31 (fld f.imm 0 31)))
  | 11 => row f (p.isNone) (true) (x.okS f.d && x.okS f.a) (true) (.maxi f.h (fin f.d) (fin f.a) (BitVec.ofNat 31 (fld f.imm 0 31)))
  | 14 => row f (p.isNone) (true) (x.okS f.d && x.okS f.a) (true) (.muli f.h (fin f.d) (fin f.a) (BitVec.ofNat 31 (fld f.imm 0 31)))
  | 6 => row f (p.isNone) ((fld f.imm 6 25 == 0)) (x.okS f.d && x.okS f.a) (true) (.shli f.h (fin f.d) (fin f.a) (fin (fld f.imm 0 6)))
  | 7 => row f (p.isNone) ((fld f.imm 6 25 == 0)) (x.okS f.d && x.okS f.a) (true) (.shri f.h (fin f.d) (fin f.a) (fin (fld f.imm 0 6)))
  | 8 => row f (p.isNone) ((fld f.imm 6 25 == 0)) (x.okS f.d && x.okS f.a) (true) (.srai f.h (fin f.d) (fin f.a) (fin (fld f.imm 0 6)))
  | 9 => row f (p.isNone) ((fld f.imm 6 25 == 0)) (x.okS f.d && x.okS f.a) (true) (.roli f.h (fin f.d) (fin f.a) (fin (fld f.imm 0 6)))
  | _ => .error 2

/-- CMP (03 R92, OP 0x03). -/
noncomputable def decodeCmp (x : DecodeCtx) (p : Option Nat) (f : Fields) : Except Nat Instr :=
  match f.fn with
  | 0 => row f (p.isNone) ((f.ma == 0) && (f.mb == 0)) ((f.d < 12) && x.okS f.a && x.okS f.b) (true) (.eq f.h (PDst.ofNum f.d) (fin f.a) (fin f.b))
  | 1 => row f (p.isNone) ((f.ma == 0) && (f.mb == 0)) ((f.d < 12) && x.okS f.a && x.okS f.b) (true) (.ne f.h (PDst.ofNum f.d) (fin f.a) (fin f.b))
  | 2 => row f (p.isNone) ((f.ma == 0) && (f.mb == 0)) ((f.d < 12) && x.okS f.a && x.okS f.b) (true) (.lt f.h (PDst.ofNum f.d) (fin f.a) (fin f.b))
  | 3 => row f (p.isNone) ((f.ma == 0) && (f.mb == 0)) ((f.d < 12) && x.okS f.a && x.okS f.b) (true) (.le f.h (PDst.ofNum f.d) (fin f.a) (fin f.b))
  | 4 => row f (p.isNone) ((f.ma == 0) && (f.mb == 0)) ((f.d < 12) && x.okS f.a && x.okS f.b) (true) (.ltn f.h (PDst.ofNum f.d) (fin f.a) (fin f.b))
  | 5 => row f (p.isNone) ((f.ma == 0) && (f.mb == 0)) ((f.d < 12) && x.okS f.a && x.okS f.b) (true) (.len f.h (PDst.ofNum f.d) (fin f.a) (fin f.b))
  | _ => .error 2

/-- CMPI (03 R92, OP 0x04). -/
noncomputable def decodeCmpi (x : DecodeCtx) (p : Option Nat) (f : Fields) : Except Nat Instr :=
  match f.fn with
  | 0 => row f (p.isNone) (true) ((f.d < 12) && x.okS f.a) (true) (.eqi f.h (PDst.ofNum f.d) (fin f.a) (BitVec.ofNat 31 (fld f.imm 0 31)))
  | 1 => row f (p.isNone) (true) ((f.d < 12) && x.okS f.a) (true) (.nei f.h (PDst.ofNum f.d) (fin f.a) (BitVec.ofNat 31 (fld f.imm 0 31)))
  | 2 => row f (p.isNone) (true) ((f.d < 12) && x.okS f.a) (true) (.lti f.h (PDst.ofNum f.d) (fin f.a) (BitVec.ofNat 31 (fld f.imm 0 31)))
  | 3 => row f (p.isNone) (true) ((f.d < 12) && x.okS f.a) (true) (.lei f.h (PDst.ofNum f.d) (fin f.a) (BitVec.ofNat 31 (fld f.imm 0 31)))
  | 4 => row f (p.isNone) (true) ((f.d < 12) && x.okS f.a) (true) (.ltni f.h (PDst.ofNum f.d) (fin f.a) (BitVec.ofNat 31 (fld f.imm 0 31)))
  | 5 => row f (p.isNone) (true) ((f.d < 12) && x.okS f.a) (true) (.leni f.h (PDst.ofNum f.d) (fin f.a) (BitVec.ofNat 31 (fld f.imm 0 31)))
  | _ => .error 2

/-- PRED (03 R92, OP 0x05). -/
noncomputable def decodePred (x : DecodeCtx) (p : Option Nat) (f : Fields) : Except Nat Instr :=
  match f.fn with
  | 0 => row f (p.isNone) ((f.ma == 0) && (f.mb == 0)) ((f.d < 12) && (f.a < 8) && (f.b < 8)) (true) (.pand f.h (PDst.ofNum f.d) (fin f.a) (fin f.b))
  | 1 => row f (p.isNone) ((f.ma == 0) && (f.mb == 0)) ((f.d < 12) && (f.a < 8) && (f.b < 8)) (true) (.por f.h (PDst.ofNum f.d) (fin f.a) (fin f.b))
  | 2 => row f (p.isNone) ((f.ma == 0) && (f.mb == 0)) ((f.d < 12) && (f.a < 8) && (f.b < 8)) (true) (.pxor f.h (PDst.ofNum f.d) (fin f.a) (fin f.b))
  | 3 => row f (p.isNone) ((f.ma == 0) && (f.mb == 0)) ((f.d < 12) && (f.a < 8) && (f.b < 8)) (true) (.pandn f.h (PDst.ofNum f.d) (fin f.a) (fin f.b))
  | 4 => row f (p.isNone) ((f.b == 0) && (f.ma == 0) && (f.mb == 0)) ((f.d < 12) && (f.a < 8)) (true) (.pnot f.h (PDst.ofNum f.d) (fin f.a))
  | 5 => row f (p.isNone) ((f.b == 0) && (f.ma == 0) && (f.mb == 0)) ((f.d < 12) && pmovOk f.d f.a) (true) (.pmov f.h (PDst.ofNum f.d) (PSrc.ofNum f.a))
  | 6 => row f (p.isNone) ((f.ma < 8) && (f.mb == 0)) (x.okS f.d && x.okS f.a && x.okS f.b) (true) (.sel f.h (fin f.d) (fin f.a) (fin f.b) (fin f.ma))
  | _ => .error 2

/-- LI (03 R92, OP 0x06). -/
noncomputable def decodeLi (x : DecodeCtx) (p : Option Nat) (f : Fields) : Except Nat Instr :=
  match f.fn with
  | 0 => row f (p.isNone) ((f.a == 0)) (x.okS f.d) (true) (.li f.h (fin f.d) (BitVec.ofNat 64 (fld f.imm 0 64)))
  | 1 => row f (p.isNone) ((f.a == 0)) (x.okS f.d) (true) (.lipc f.h (fin f.d) (BitVec.ofNat 64 (fld f.imm 0 64)))
  | _ => .error 2

/-- BITS (03 R92, OP 0x07). -/
noncomputable def decodeBits (x : DecodeCtx) (p : Option Nat) (f : Fields) : Except Nat Instr :=
  match f.fn with
  | 0 => row f (p.isNone) ((fld f.imm 0 6 == 0) && (fld f.imm 12 19 == 0)) (x.okS f.d && x.okS f.a) (true) (.sext f.h (fin f.d) (fin f.a) (fin (fld f.imm 6 6)))
  | 1 => row f (p.isNone) ((fld f.imm 0 6 == 0) && (fld f.imm 12 19 == 0)) (x.okS f.d && x.okS f.a) (true) (.zext f.h (fin f.d) (fin f.a) (fin (fld f.imm 6 6)))
  | 2 => row f (p.isNone) ((fld f.imm 13 18 == 0)) (x.okS f.d && x.okS f.a) (true) (.bfx f.h (fin f.d) (fin f.a) (bit (fld f.imm 12 1)) (fin (fld f.imm 0 6)) (fin (fld f.imm 6 6)))
  | 3 => row f (p.isNone) ((fld f.imm 12 19 == 0)) (x.okS f.d && x.okS f.a) (true) (.bfi f.h (fin f.d) (fin f.a) (fin (fld f.imm 0 6)) (fin (fld f.imm 6 6)))
  | _ => .error 2

/-- FALU (03 R92, OP 0x10). -/
noncomputable def decodeFalu (x : DecodeCtx) (p : Option Nat) (f : Fields) : Except Nat Instr :=
  match f.fn with
  | 0 => row f (p.isNone) ((f.ma == 0) && (f.mb == 0)) (x.okS f.d && x.okS f.a && x.okS f.b) (true) (.fadd f.h (fin f.d) (fin f.a) (fin f.b))
  | 1 => row f (p.isNone) ((f.ma == 0) && (f.mb == 0)) (x.okS f.d && x.okS f.a && x.okS f.b) (true) (.fsub f.h (fin f.d) (fin f.a) (fin f.b))
  | 2 => row f (p.isNone) ((f.ma == 0) && (f.mb == 0)) (x.okS f.d && x.okS f.a && x.okS f.b) (true) (.fmul f.h (fin f.d) (fin f.a) (fin f.b))
  | 3 => row f (p.isNone) ((f.ma == 0) && (f.mb == 0)) (okN f.d && x.okS f.a && x.okS f.b) (true) (.fdiv f.h (fin f.d) (fin f.a) (fin f.b))
  | 4 => row f (p.isNone) ((f.b == 0) && (f.ma == 0) && (f.mb == 0)) (okN f.d && x.okS f.a) (true) (.fsqrt f.h (fin f.d) (fin f.a))
  | 5 => row f (p.isNone) ((f.ma == 0) && (f.mb == 0)) (x.okS f.d && x.okS f.a && x.okS f.b) (true) (.fmin f.h (fin f.d) (fin f.a) (fin f.b))
  | 6 => row f (p.isNone) ((f.ma == 0) && (f.mb == 0)) (x.okS f.d && x.okS f.a && x.okS f.b) (true) (.fmax f.h (fin f.d) (fin f.a) (fin f.b))
  | 7 => row f (p.isNone) ((f.b == 0) && (f.ma == 0) && (f.mb == 0)) (x.okS f.d && x.okS f.a) (true) (.fabs f.h (fin f.d) (fin f.a))
  | 8 => row f (p.isNone) ((f.b == 0) && (f.ma == 0) && (f.mb == 0)) (x.okS f.d && x.okS f.a) (true) (.fneg f.h (fin f.d) (fin f.a))
  | 9 => row f (p.isNone) ((f.ma == 0) && (f.mb == 0)) (x.okS f.d && x.okS f.a && x.okS f.b) (true) (.fma f.h (fin f.d) (fin f.a) (fin f.b))
  | _ => .error 2

/-- FCMP (03 R92, OP 0x11). -/
noncomputable def decodeFcmp (x : DecodeCtx) (p : Option Nat) (f : Fields) : Except Nat Instr :=
  match f.fn with
  | 0 => row f (p.isNone) ((f.ma == 0) && (f.mb == 0)) ((f.d < 12) && x.okS f.a && x.okS f.b) (true) (.feq f.h (PDst.ofNum f.d) (fin f.a) (fin f.b))
  | 1 => row f (p.isNone) ((f.ma == 0) && (f.mb == 0)) ((f.d < 12) && x.okS f.a && x.okS f.b) (true) (.flt f.h (PDst.ofNum f.d) (fin f.a) (fin f.b))
  | 2 => row f (p.isNone) ((f.ma == 0) && (f.mb == 0)) ((f.d < 12) && x.okS f.a && x.okS f.b) (true) (.fle f.h (PDst.ofNum f.d) (fin f.a) (fin f.b))
  | 3 => row f (p.isNone) ((f.ma == 0) && (f.mb == 0)) ((f.d < 12) && x.okS f.a && x.okS f.b) (true) (.funord f.h (PDst.ofNum f.d) (fin f.a) (fin f.b))
  | _ => .error 2

/-- BR (03 R92, OP 0x18). -/
noncomputable def decodeBr (x : DecodeCtx) (p : Option Nat) (f : Fields) : Except Nat Instr :=
  match f.fn with
  | 0 => row f (p.isNone) ((f.d == 0) && (f.a == 0)) (true) (true) (.jmp f.h (BitVec.ofNat 31 (fld f.imm 0 31)))
  | 1 => row f (p.isNone) ((f.d == 0) && (f.a == 0)) (true) (true) (.call f.h (BitVec.ofNat 31 (fld f.imm 0 31)))
  | 2 => row f (p.isNone) ((f.d == 0) && (f.imm == 0)) (x.okS f.a) (true) (.jr f.h (fin f.a))
  | 3 => row f (p.isNone) ((f.d == 0) && (f.imm == 0)) (x.okS f.a) (true) (.callr f.h (fin f.a))
  | _ => .error 2

/-- LOOP (03 R92, OP 0x19). -/
noncomputable def decodeLoop (x : DecodeCtx) (p : Option Nat) (f : Fields) : Except Nat Instr :=
  match f.fn with
  | 0 => row f (p.isNone) ((f.d == 0) && (fld f.imm 0 16 != 0) && (fld f.imm 16 15 == 0)) (x.okS f.a) (true) (.loop f.h (fin f.a) (fin (fld f.imm 0 16)))
  | 1 => row f (p.isNone) ((f.d == 0) && (f.a == 0) && (fld f.imm 0 15 != 0)) (true) (true) (.loopi f.h (fin (fld f.imm 15 16)) (fin (fld f.imm 0 15)))
  | _ => .error 2

/-- CHK (03 R92, OP 0x1A). -/
noncomputable def decodeChk (x : DecodeCtx) (p : Option Nat) (f : Fields) : Except Nat Instr :=
  match f.fn with
  | 0 => row f (p.isNone) ((f.d == 0)) (x.okS f.a) (true) (.chk f.h (fin f.a) (BitVec.ofNat 31 (fld f.imm 0 31)))
  | 1 => row f (p.isNone) ((f.d == 0)) ((f.a < 8)) (true) (.chkl f.h (fin f.a) (BitVec.ofNat 31 (fld f.imm 0 31)))
  | _ => .error 2

/-- MISC (03 R92, OP 0x1B). -/
noncomputable def decodeMisc (_x : DecodeCtx) (p : Option Nat) (f : Fields) : Except Nat Instr :=
  match f.fn with
  | 0 => row f (p.isNone) ((f.d == 0) && (f.a == 0) && (f.imm == 0)) (true) (true) (.nop f.h)
  | 1 => row f (p.isNone) ((f.d == 0) && (f.a == 0) && (f.imm == 0)) (true) (true) (.yield f.h)
  | 2 => row f (p.isNone) ((f.d == 0) && (f.a == 0) && (fld f.imm 16 15 == 0)) (true) (true) (.ckpt f.h (BitVec.ofNat 16 (fld f.imm 0 16)))
  | 3 => row f (p.isNone) ((f.d == 0) && (f.a == 0) && (fld f.imm 16 15 == 0)) (true) (true) (.trap f.h (BitVec.ofNat 16 (fld f.imm 0 16)))
  | 4 => row f (p.isNone) ((f.d == 0) && (f.a == 0) && (fld f.imm 16 15 == 0)) (true) (true) (.brk f.h (BitVec.ofNat 16 (fld f.imm 0 16)))
  | 5 => row f (p.isNone) ((f.d == 0) && (f.a == 0) && (f.imm == 0)) (true) (true) (.tdone f.h)
  | _ => .error 2

/-- FE (03 R92, OP 0x22). -/
noncomputable def decodeFe (x : DecodeCtx) (p : Option Nat) (f : Fields) : Except Nat Instr :=
  match f.fn with
  | 0 => row f (p.isNone) ((f.d == 0)) (x.okS f.a) (true) (.feSet f.h (fin f.a) (BitVec.ofNat 31 (fld f.imm 0 31)))
  | 1 => row f (p.isNone) ((f.d == 0)) (x.okS f.a) (true) (.feClr f.h (fin f.a) (BitVec.ofNat 31 (fld f.imm 0 31)))
  | 3 => row f (p.isNone) ((f.d == 0)) (x.okS f.a) (true) (.feWait f.h (fin f.a) (BitVec.ofNat 31 (fld f.imm 0 31)))
  | 2 => row f (p.isNone) (true) (okN f.d && x.okS f.a) (true) (.feGet f.h (fin f.d) (fin f.a) (BitVec.ofNat 31 (fld f.imm 0 31)))
  | _ => .error 2

/-- FENCE (03 R92, OP 0x23). -/
noncomputable def decodeFence (_x : DecodeCtx) (p : Option Nat) (f : Fields) : Except Nat Instr :=
  match f.fn with
  | 0 => row f (p.isNone) ((f.d == 0) && (f.a == 0) && (f.imm == 0)) (true) (true) (.fenceCore f.h)
  | 1 => row f (p.isNone) ((f.d == 0) && (f.a == 0) && (f.imm == 0)) (true) (true) (.fenceDie f.h)
  | 2 => row f (p.isNone) ((f.d == 0) && (f.a == 0) && (f.imm == 0)) (true) (true) (.fenceMod f.h)
  | 3 => row f (p.isNone) ((f.d == 0) && (f.a == 0) && (f.imm == 0)) (true) (true) (.fenceSys f.h)
  | 4 => row f (p.isNone) ((f.d == 0) && (f.a == 0) && (f.imm == 0)) (true) (true) (.fenceEng f.h)
  | _ => .error 2

/-- VMEM (03 R92, OP 0x24). -/
noncomputable def decodeVmem (x : DecodeCtx) (p : Option Nat) (f : Fields) : Except Nat Instr :=
  match f.fn with
  | 0 => row f (okRow p) (zeroRow p) (x.okS f.a) (true) (.vld f.h (rowPfx p) (fin f.d) (fin f.a) (BitVec.ofNat 31 (fld f.imm 0 31)))
  | 1 => row f (okRow p) (zeroRow p) (x.okS f.a) (true) (.vst f.h (rowPfx p) (fin f.d) (fin f.a) (BitVec.ofNat 31 (fld f.imm 0 31)))
  | 2 => row f (okV p) (zeroV p) (x.okS f.a) (true) (.vldSync f.h (p.map (fun _ => vpfx p)) (fin f.d) (fin f.a) (BitVec.ofNat 31 (fld f.imm 0 31)))
  | 3 => row f (okV p) (zeroV p) (x.okS f.a) (true) (.vstFill f.h (p.map (fun _ => vpfx p)) (fin f.d) (fin f.a) (BitVec.ofNat 31 (fld f.imm 0 31)))
  | _ => .error 2

/-- AMO (03 R92, OP 0x30). -/
noncomputable def decodeAmo (x : DecodeCtx) (p : Option Nat) (f : Fields) : Except Nat Instr :=
  if ¬ (f.fn < 32) then .error 2 else
  match f.fn % 16 with
  | 0 => row f (okM p) (zeroM p && (f.ma == 0) && (f.mb == 0)) (okN f.d && x.okS f.a && x.okS f.b) (true) (.amoAdd f.h (p.map (fun _ => mpfx p)) (bit (f.fn / 16)) (fin f.d) (fin f.a) (fin f.b))
  | 1 => row f (okM p) (zeroM p && (f.ma == 0) && (f.mb == 0)) (okN f.d && x.okS f.a && x.okS f.b) (true) (.amoAnd f.h (p.map (fun _ => mpfx p)) (bit (f.fn / 16)) (fin f.d) (fin f.a) (fin f.b))
  | 2 => row f (okM p) (zeroM p && (f.ma == 0) && (f.mb == 0)) (okN f.d && x.okS f.a && x.okS f.b) (true) (.amoOr f.h (p.map (fun _ => mpfx p)) (bit (f.fn / 16)) (fin f.d) (fin f.a) (fin f.b))
  | 3 => row f (okM p) (zeroM p && (f.ma == 0) && (f.mb == 0)) (okN f.d && x.okS f.a && x.okS f.b) (true) (.amoXor f.h (p.map (fun _ => mpfx p)) (bit (f.fn / 16)) (fin f.d) (fin f.a) (fin f.b))
  | 4 => row f (okM p) (zeroM p && (f.ma == 0) && (f.mb == 0)) (okN f.d && x.okS f.a && x.okS f.b) (true) (.amoMin f.h (p.map (fun _ => mpfx p)) (bit (f.fn / 16)) (fin f.d) (fin f.a) (fin f.b))
  | 5 => row f (okM p) (zeroM p && (f.ma == 0) && (f.mb == 0)) (okN f.d && x.okS f.a && x.okS f.b) (true) (.amoMax f.h (p.map (fun _ => mpfx p)) (bit (f.fn / 16)) (fin f.d) (fin f.a) (fin f.b))
  | 6 => row f (okM p) (zeroM p && (f.ma == 0) && (f.mb == 0)) (okN f.d && x.okS f.a && x.okS f.b) (true) (.amoMinn f.h (p.map (fun _ => mpfx p)) (bit (f.fn / 16)) (fin f.d) (fin f.a) (fin f.b))
  | 7 => row f (okM p) (zeroM p && (f.ma == 0) && (f.mb == 0)) (okN f.d && x.okS f.a && x.okS f.b) (true) (.amoMaxn f.h (p.map (fun _ => mpfx p)) (bit (f.fn / 16)) (fin f.d) (fin f.a) (fin f.b))
  | 8 => row f (okM p) (zeroM p && (f.ma == 0) && (f.mb == 0)) (okN f.d && x.okS f.a && x.okS f.b) (true) (.amoSwap f.h (p.map (fun _ => mpfx p)) (bit (f.fn / 16)) (fin f.d) (fin f.a) (fin f.b))
  | 9 => if f.fn ≥ 16 then .error 2 else row f (okM p) (zeroM p && (f.ma == 0) && (f.mb == 0)) (okN f.d && x.okS f.a && x.okS f.b) (true) (.amoFadd f.h (p.map (fun _ => mpfx p)) (fin f.d) (fin f.a) (fin f.b))
  | _ => .error 2

/-- RED (03 R92, OP 0x33). -/
noncomputable def decodeRed (x : DecodeCtx) (p : Option Nat) (f : Fields) : Except Nat Instr :=
  if ¬ (f.fn < 32) then .error 2 else
  match f.fn % 16 with
  | 0 => row f (okM p) (zeroM p && (f.d == 0) && (f.ma == 0) && (f.mb == 0)) (x.okS f.a && x.okS f.b) (true) (.redAdd f.h (p.map (fun _ => mpfx p)) (bit (f.fn / 16)) (fin f.a) (fin f.b))
  | 1 => row f (okM p) (zeroM p && (f.d == 0) && (f.ma == 0) && (f.mb == 0)) (x.okS f.a && x.okS f.b) (true) (.redAnd f.h (p.map (fun _ => mpfx p)) (bit (f.fn / 16)) (fin f.a) (fin f.b))
  | 2 => row f (okM p) (zeroM p && (f.d == 0) && (f.ma == 0) && (f.mb == 0)) (x.okS f.a && x.okS f.b) (true) (.redOr f.h (p.map (fun _ => mpfx p)) (bit (f.fn / 16)) (fin f.a) (fin f.b))
  | 3 => row f (okM p) (zeroM p && (f.d == 0) && (f.ma == 0) && (f.mb == 0)) (x.okS f.a && x.okS f.b) (true) (.redXor f.h (p.map (fun _ => mpfx p)) (bit (f.fn / 16)) (fin f.a) (fin f.b))
  | 4 => row f (okM p) (zeroM p && (f.d == 0) && (f.ma == 0) && (f.mb == 0)) (x.okS f.a && x.okS f.b) (true) (.redMin f.h (p.map (fun _ => mpfx p)) (bit (f.fn / 16)) (fin f.a) (fin f.b))
  | 5 => row f (okM p) (zeroM p && (f.d == 0) && (f.ma == 0) && (f.mb == 0)) (x.okS f.a && x.okS f.b) (true) (.redMax f.h (p.map (fun _ => mpfx p)) (bit (f.fn / 16)) (fin f.a) (fin f.b))
  | 6 => row f (okM p) (zeroM p && (f.d == 0) && (f.ma == 0) && (f.mb == 0)) (x.okS f.a && x.okS f.b) (true) (.redMinn f.h (p.map (fun _ => mpfx p)) (bit (f.fn / 16)) (fin f.a) (fin f.b))
  | 7 => row f (okM p) (zeroM p && (f.d == 0) && (f.ma == 0) && (f.mb == 0)) (x.okS f.a && x.okS f.b) (true) (.redMaxn f.h (p.map (fun _ => mpfx p)) (bit (f.fn / 16)) (fin f.a) (fin f.b))
  | 8 => row f (okM p) (zeroM p && (f.d == 0) && (f.ma == 0) && (f.mb == 0)) (x.okS f.a && x.okS f.b) (true) (.redSwap f.h (p.map (fun _ => mpfx p)) (bit (f.fn / 16)) (fin f.a) (fin f.b))
  | 9 => if f.fn ≥ 16 then .error 2 else row f (okM p) (zeroM p && (f.d == 0) && (f.ma == 0) && (f.mb == 0)) (x.okS f.a && x.okS f.b) (true) (.redFadd f.h (p.map (fun _ => mpfx p)) (fin f.a) (fin f.b))
  | 10 => if f.fn ≥ 16 then .error 2 else row f (okM p) (zeroM p && (f.d == 0) && (f.ma == 0) && (f.mb == 0)) (x.okS f.a && x.okS f.b) (true) (.redArrive f.h (p.map (fun _ => mpfx p)) (fin f.a) (fin f.b))
  | _ => .error 2

/-- CAS (03 R92, OP 0x31). -/
noncomputable def decodeCas (x : DecodeCtx) (p : Option Nat) (f : Fields) : Except Nat Instr :=
  match f.fn with
  | 0 => row f (okM p) (zeroM p && (f.ma == 0) && (f.mb == 0)) (okN f.d && x.okS f.a && x.okS f.b) (true) (.cas32 f.h (p.map (fun _ => mpfx p)) (fin f.d) (fin f.a) (fin f.b))
  | 1 => row f (okM p) (zeroM p && (f.ma == 0) && (f.mb == 0)) (okN f.d && x.okS f.a && x.okS f.b) (true) (.cas64 f.h (p.map (fun _ => mpfx p)) (fin f.d) (fin f.a) (fin f.b))
  | _ => .error 2

/-- AMOK (03 R92, OP 0x32). -/
noncomputable def decodeAmok (x : DecodeCtx) (p : Option Nat) (f : Fields) : Except Nat Instr :=
  match f.fn with
  | 0 => row f (p.isNone) ((fld f.imm 0 2 == 0) && (fld f.imm 57 2 == 0) && (fld f.imm 60 4 == 0)) (okN f.d && x.okS f.a && x.okS f.b && x.okS f.c) (true) (.casK f.h (fin f.d) (fin f.a) (fin f.b) (fin f.c) ⟨(bit (fld f.imm 59 1)), (bit (fld f.imm 56 1)), (BitVec.ofNat 54 (fld f.imm 2 54))⟩)
  | 1 => row f (p.isNone) ((f.c == 0) && (fld f.imm 0 2 == 0) && (fld f.imm 57 2 == 0) && (fld f.imm 60 4 == 0)) (okN f.d && x.okS f.a && x.okS f.b) (true) (.decK f.h (fin f.d) (fin f.a) (fin f.b) ⟨(bit (fld f.imm 59 1)), (bit (fld f.imm 56 1)), (BitVec.ofNat 54 (fld f.imm 2 54))⟩)
  | _ => .error 2

/-- SPAWN (03 R92, OP 0x38). -/
noncomputable def decodeSpawn (x : DecodeCtx) (p : Option Nat) (f : Fields) : Except Nat Instr :=
  match f.fn with
  | 0 => row f (p.isNone) ((fld f.imm 60 4 != 0 || f.a == 0) && (f.b == 0) && (f.c == 0) && (fld f.imm 0 2 == 0) && (fld f.imm 56 3 == 0) && (fld f.imm 60 4 < 9)) (x.okS f.d && payOk f.a (fld f.imm 60 4)) (true) (.spawn f.h (fin f.d) (fin f.a) (fin (fld f.imm 60 4)) (bit (fld f.imm 59 1)) (BitVec.ofNat 54 (fld f.imm 2 54)))
  | 1 => row f (p.isNone) ((f.d == 0) && (f.b == 0) && (f.c == 0) && (f.imm == 0)) (x.okS f.a) (true) (.migrate f.h (fin f.a))
  | _ => .error 2

/-- RING (03 R92, OP 0x39). -/
noncomputable def decodeRing (x : DecodeCtx) (p : Option Nat) (f : Fields) : Except Nat Instr :=
  match f.fn with
  | 0 => row f (p.isNone) (true) (okN f.d && x.okS f.a && x.okS f.b && x.okS f.c) (true) (.rbSend f.h (fin f.d) (fin f.a) (fin f.b) (fin f.c) (BitVec.ofNat 18 (fld f.imm 16 18)) ⟨fin (fld f.imm 0 3), BitVec.ofNat 13 (fld f.imm 3 13), BitVec.ofNat 30 (fld f.imm 34 30)⟩)
  | 1 =>
    if fld f.imm 3 1 == 0 then
      row f (p.isNone) ((f.a == 0) && (f.b == 0) && (f.c == 0) && (fld f.imm 4 60 == 0)) (okN f.d) (true) (.rbGet f.h (fin f.d) (fin (fld f.imm 0 3)))
    else
      row f (p.isNone) ((f.a == 0) && (f.b == 0) && (f.c == 0) && (fld f.imm 4 60 == 0)) (okN f.d) (true) (.rbGetNb f.h (fin f.d) (fin (fld f.imm 0 3)))
  | 2 => row f (p.isNone) ((f.d == 0) && (f.a == 0) && (f.b == 0) && (f.c == 0) && (fld f.imm 3 61 == 0)) (true) (true) (.rbFree f.h (fin (fld f.imm 0 3)))
  | _ => .error 2

/-- QCTL (03 R92, OP 0x3A). -/
noncomputable def decodeQctl (x : DecodeCtx) (p : Option Nat) (f : Fields) : Except Nat Instr :=
  match f.fn with
  | 0 => row f (p.isNone) ((f.b == 0) && (f.ma == 0) && (f.mb == 0)) (okQ x f.d && x.okS f.a) (true) (.qsendc f.h (fin (f.d - 24)) (fin f.a))
  | 1 => row f (p.isNone) ((f.a == 0) && (f.b < 3) && (f.ma == 0) && (f.mb == 0)) (x.okS f.d) (true) (.qstat f.h (fin f.d) (fin f.b))
  | 2 => row f (p.isNone) ((f.d == 0) && (f.a == 0) && (f.b == 0) && (f.ma == 0) && (f.mb == 0)) (true) (true) (.qret f.h)
  | _ => .error 2

/-- GRAPH (03 R92, OP 0x3B). -/
noncomputable def decodeGraph (x : DecodeCtx) (p : Option Nat) (f : Fields) : Except Nat Instr :=
  match f.fn with
  | 0 => row f (p.isNone) ((f.b == 0) && (f.c == 0) && (fld f.imm 9 55 == 0)) (okN f.d && x.okS f.a) (true) (.tgLaunch f.h (fin f.d) (fin f.a) (BitVec.ofNat 9 (fld f.imm 0 9)))
  | 1 => row f (p.isNone) ((f.d == 0) && (f.b == 0) && (f.c == 0) && (fld f.imm 8 56 == 0)) (x.okS f.a) (true) (.tgSignal f.h (fin f.a) (BitVec.ofNat 8 (fld f.imm 0 8)))
  | _ => .error 2

/-- LALU (03 R92, OP 0x40). -/
noncomputable def decodeLalu (x : DecodeCtx) (p : Option Nat) (f : Fields) : Except Nat Instr :=
  match f.fn with
  | 0 => row f (p.isNone) ((f.b == 0) && (f.ma == 0) && (f.mb == 0)) ((f.d < 8) && x.okS f.a) (true) (.lroot f.h (fin f.d) (fin f.a))
  | 1 => row f (p.isNone) ((f.ma == 0) && (f.mb == 0)) ((f.d < 8) && (f.a < 8) && x.okS f.b) (true) (.lchild f.h (fin f.d) (fin f.a) (fin f.b))
  | 2 => row f (p.isNone) ((f.b == 0) && (f.ma == 0) && (f.mb == 0)) ((f.d < 8) && (f.a < 8)) (true) (.lparent f.h (fin f.d) (fin f.a))
  | 3 => row f (p.isNone) ((f.ma == 0) && (f.mb == 0)) ((f.d < 8) && (f.a < 8) && (f.b < 8)) (true) (.lanc f.h (fin f.d) (fin f.a) (fin f.b))
  | 4 => row f (p.isNone) ((f.ma == 0) && (f.mb == 0)) ((f.d < 8) && (f.a < 8) && (f.b < 8)) (true) (.lpanc f.h (fin f.d) (fin f.a) (fin f.b))
  | 5 => row f (p.isNone) ((f.b == 0) && (f.ma == 0) && (f.mb == 0)) (x.okS f.d && (f.a < 8)) (true) (.ldepth f.h (fin f.d) (fin f.a))
  | 6 => row f (p.isNone) ((f.ma == 0) && (f.mb == 0)) ((f.d < 8) && (f.a < 8) && (f.b < 8)) (true) (.lcommon f.h (fin f.d) (fin f.a) (fin f.b))
  | 7 => row f (p.isNone) ((f.ma == 0) && (f.mb == 0)) (x.okS f.d && (f.a < 8) && x.okS f.b) (true) (.ldig f.h (fin f.d) (fin f.a) (fin f.b))
  | 8 => row f (p.isNone) ((f.b == 0) && (f.ma == 0) && (f.mb == 0)) ((f.d < 8) && (f.a < 8)) (true) (.lend f.h (fin f.d) (fin f.a))
  | 9 => row f (p.isNone) ((f.b < 4) && (f.ma == 0) && (f.mb == 0)) (x.okS f.d && (f.a < 8)) (true) (.lget f.h (fin f.d) (fin f.a) (fin f.b))
  | 10 => row f (p.isNone) ((f.b < 2) && (f.ma == 0) && (f.mb == 0)) ((f.d < 8) && x.okS f.a) (true) (.lset f.h (fin f.d) (fin f.a) (fin f.b))
  | 11 => row f (p.isNone) ((f.b == 0) && (f.ma == 0) && (f.mb == 0)) ((f.d < 8) && (f.a < 8)) (true) (.lmov f.h (fin f.d) (fin f.a))
  | _ => .error 2

/-- LMEM (03 R92, OP 0x41). DESIGN CHOICE: `lld` of 64 bits is decoded with UNS 1 too, which has no effect there, since R319 gives that form no rule for
UNS (log 47). -/
noncomputable def decodeLmem (x : DecodeCtx) (p : Option Nat) (f : Fields) : Except Nat Instr :=
  match f.fn with
  | 0 => row f (okM p) (zeroM p && (fld f.imm 20 11 == 0)) (okN f.d && (f.a < 8)) (true) (.lld f.h (p.map (fun _ => mpfx p)) (fin f.d) (fin f.a) (BitVec.ofNat 16 (fld f.imm 0 16)) (Size.ofNum (fld f.imm 16 2)) (bit (fld f.imm 18 1)) (bit (fld f.imm 19 1)))
  | 1 => row f (okM p) (zeroM p && (fld f.imm 18 13 == 0)) (x.okS f.d && (f.a < 8)) (true) (.lst f.h (p.map (fun _ => mpfx p)) (fin f.d) (fin f.a) (BitVec.ofNat 16 (fld f.imm 0 16)) (Size.ofNum (fld f.imm 16 2)))
  | 2 => row f (okM p) (zeroM p && (fld f.imm 16 3 == 0) && (fld f.imm 20 11 == 0)) ((f.d < 8) && (f.a < 8)) (true) (.lldL f.h (p.map (fun _ => mpfx p)) (fin f.d) (fin f.a) (BitVec.ofNat 16 (fld f.imm 0 16)) (bit (fld f.imm 19 1)))
  | 3 => row f (okM p) (zeroM p && (fld f.imm 16 15 == 0)) ((f.d < 8) && (f.a < 8)) (true) (.lstL f.h (p.map (fun _ => mpfx p)) (fin f.d) (fin f.a) (BitVec.ofNat 16 (fld f.imm 0 16)))
  | _ => .error 2

/-- LTAB (03 R92, OP 0x42). -/
noncomputable def decodeLtab (x : DecodeCtx) (p : Option Nat) (f : Fields) : Except Nat Instr :=
  match f.fn with
  | 0 =>
    if fld f.imm 5 1 == 0 then
      row f (p.isNone) ((fld f.imm 6 58 == 0)) ((f.d < 8) && x.okS f.a && x.okS f.b && x.okS f.c) (true) (.ltree f.h (fin f.d) (fin f.a) (fin f.b) (fin f.c) (fin (fld f.imm 0 5)))
    else
      row f (p.isNone) ((f.c == 0) && (fld f.imm 0 5 == 0) && (fld f.imm 6 58 == 0)) ((f.d < 8) && x.okS f.a && (f.b < 8)) (true) (.ltreeV f.h (fin f.d) (fin f.a) (fin f.b))
  | 1 => row f (p.isNone) ((f.imm == 0)) ((f.d < 8) && (f.a < 8) && x.okS f.b && x.okS f.c) (true) (.lnew f.h (fin f.d) (fin f.a) (fin f.b) (fin f.c))
  | 2 => row f (p.isNone) ((f.d == 0) && (f.b == 0) && (f.c == 0) && (f.imm == 0)) ((f.a < 8)) (true) (.lfree f.h (fin f.a))
  | 3 => row f (p.isNone) ((f.c == 0) && (f.imm == 0)) ((f.d < 8) && (f.a < 8) && (f.b < 8)) (true) (.lmove f.h (fin f.d) (fin f.a) (fin f.b))
  | 4 => row f (p.isNone) ((f.c == 0) && (f.imm == 0)) ((f.d < 8) && (f.a < 8) && (f.b < 8)) (true) (.lmoveF f.h (fin f.d) (fin f.a) (fin f.b))
  | 5 => row f (p.isNone) ((f.b == 0) && (f.c == 0) && (f.imm == 0)) ((f.d < 8) && (f.a < 8)) (true) (.lrebase f.h (fin f.d) (fin f.a))
  | 6 =>
    if fld f.imm 0 2 == 0 then
      row f (p.isNone) ((f.b == 0) && (f.c == 0) && (fld f.imm 2 62 == 0)) (okN f.d && (f.a < 8)) (true) (.lxlate f.h (fin f.d) (fin f.a))
    else if fld f.imm 0 2 == 1 && fld f.imm 2 1 == 0 then
      row f (p.isNone) ((f.b == 0) && (f.c == 0) && (fld f.imm 3 61 == 0)) (okN f.d && (f.a < 8)) (true) (.lxlateT f.h (fin f.d) (fin f.a))
    else if fld f.imm 0 2 == 1 then
      row f (p.isNone) ((f.b == 0) && (f.c == 0) && (fld f.imm 3 61 == 0)) (okN f.d && (f.a < 8)) (true) (.lxlateTs f.h (fin f.d) (fin f.a))
    else if fld f.imm 0 2 == 2 then
      row f (p.isNone) ((f.a == 0) && (f.b == 0) && (f.c == 0) && (fld f.imm 2 62 == 0)) ((f.d < 8)) (true) (.lxlateOld f.h (fin f.d))
    else
      row f (p.isNone) ((f.a == 0) && (f.b == 0) && (f.c == 0) && (fld f.imm 2 62 == 0)) ((f.d < 8)) (true) (.lxlateNew f.h (fin f.d))
  | _ => .error 2

/-- TE (03 R92, OP 0x43). -/
noncomputable def decodeTe (x : DecodeCtx) (p : Option Nat) (f : Fields) : Except Nat Instr :=
  match f.fn with
  | 0 => row f (okG p) (zeroG p && (f.b == 0) && (f.c == 0) && (fld f.imm 26 38 == 0)) (x.okS f.d && (f.a < 8)) (true) (.teSum f.h (p.map (fun _ => gpfx p)) (fin f.d) (fin f.a) ⟨(BitVec.ofNat 16 (fld f.imm 0 16)), (fin (fld f.imm 16 4)), (fin (fld f.imm 20 6))⟩)
  | 1 => row f (okG p) (zeroG p && (f.b == 0) && (f.c == 0) && (fld f.imm 0 20 == 0) && (fld f.imm 26 38 == 0)) (x.okS f.d && (f.a < 8)) (true) (.teCount f.h (p.map (fun _ => gpfx p)) (fin f.d) (fin f.a) (fin (fld f.imm 20 6)))
  | 2 => row f (okG p) (zeroG p && (f.c == 0) && (fld f.imm 26 6 == 0)) (x.okS f.d && (f.a < 8) && x.okS f.b) (true) (.teCopy f.h (p.map (fun _ => gpfx p)) (fin f.d) (fin f.a) (fin f.b) ⟨(BitVec.ofNat 16 (fld f.imm 0 16)), (fin (fld f.imm 16 4)), (fin (fld f.imm 20 6))⟩ (BitVec.ofNat 32 (fld f.imm 32 32)))
  | 3 => row f (okG p) (zeroG p && (f.c == 0) && (fld f.imm 26 38 == 0)) (x.okS f.d && (f.a < 8) && x.okS f.b) (true) (.teFill f.h (p.map (fun _ => gpfx p)) (fin f.d) (fin f.a) (fin f.b) ⟨(BitVec.ofNat 16 (fld f.imm 0 16)), (fin (fld f.imm 16 4)), (fin (fld f.imm 20 6))⟩)
  | 4 => row f (okG p) (zeroG p && (fld f.imm 0 20 == 0) && (fld f.imm 27 37 == 0)) (x.okS f.d && (f.a < 8) && x.okS f.b && x.okS f.c) (true) (.teVisit f.h (p.map (fun _ => gpfx p)) (fin f.d) (fin f.a) (fin f.b) (fin f.c) (fin (fld f.imm 20 6)) (bit (fld f.imm 26 1)))
  | _ => .error 2

/-- VINT (03 R92, OP 0x50). -/
noncomputable def decodeVint (_x : DecodeCtx) (p : Option Nat) (f : Fields) : Except Nat Instr :=
  match f.fn with
  | 0 => row f (okV p) (zeroV p) (true) (laneOk f.ma && laneOk f.mb) (.vadd f.h (p.map (fun _ => vpfx p)) (fin f.d) (fin f.a) (fin f.b) (laneOf f.ma) (laneOf f.mb))
  | 1 => row f (okV p) (zeroV p) (true) (laneOk f.ma && laneOk f.mb) (.vsub f.h (p.map (fun _ => vpfx p)) (fin f.d) (fin f.a) (fin f.b) (laneOf f.ma) (laneOf f.mb))
  | 2 => row f (okV p) (zeroV p) (true) (laneOk f.ma && laneOk f.mb) (.vmul f.h (p.map (fun _ => vpfx p)) (fin f.d) (fin f.a) (fin f.b) (laneOf f.ma) (laneOf f.mb))
  | 3 => row f (okV p) (zeroV p) (true) (laneOk f.ma && laneOk f.mb) (.vmulh f.h (p.map (fun _ => vpfx p)) (fin f.d) (fin f.a) (fin f.b) (laneOf f.ma) (laneOf f.mb))
  | 4 => row f (okV p) (zeroV p) (true) (laneOk f.ma && laneOk f.mb) (.vmin f.h (p.map (fun _ => vpfx p)) (fin f.d) (fin f.a) (fin f.b) (laneOf f.ma) (laneOf f.mb))
  | 5 => row f (okV p) (zeroV p) (true) (laneOk f.ma && laneOk f.mb) (.vmax f.h (p.map (fun _ => vpfx p)) (fin f.d) (fin f.a) (fin f.b) (laneOf f.ma) (laneOf f.mb))
  | 6 => row f (okV p) (zeroV p) (true) (laneOk f.ma && laneOk f.mb) (.vminn f.h (p.map (fun _ => vpfx p)) (fin f.d) (fin f.a) (fin f.b) (laneOf f.ma) (laneOf f.mb))
  | 7 => row f (okV p) (zeroV p) (true) (laneOk f.ma && laneOk f.mb) (.vmaxn f.h (p.map (fun _ => vpfx p)) (fin f.d) (fin f.a) (fin f.b) (laneOf f.ma) (laneOf f.mb))
  | 8 => row f (okV p) (zeroV p) (true) (laneOk f.ma && laneOk f.mb) (.vand f.h (p.map (fun _ => vpfx p)) (fin f.d) (fin f.a) (fin f.b) (laneOf f.ma) (laneOf f.mb))
  | 9 => row f (okV p) (zeroV p) (true) (laneOk f.ma && laneOk f.mb) (.vor f.h (p.map (fun _ => vpfx p)) (fin f.d) (fin f.a) (fin f.b) (laneOf f.ma) (laneOf f.mb))
  | 10 => row f (okV p) (zeroV p) (true) (laneOk f.ma && laneOk f.mb) (.vxor f.h (p.map (fun _ => vpfx p)) (fin f.d) (fin f.a) (fin f.b) (laneOf f.ma) (laneOf f.mb))
  | 11 => row f (okV p) (zeroV p) (true) (laneOk f.ma && laneOk f.mb) (.vandn f.h (p.map (fun _ => vpfx p)) (fin f.d) (fin f.a) (fin f.b) (laneOf f.ma) (laneOf f.mb))
  | 12 => row f (okV p) (zeroV p) (true) (laneOk f.ma && laneOk f.mb) (.vshl f.h (p.map (fun _ => vpfx p)) (fin f.d) (fin f.a) (fin f.b) (laneOf f.ma) (laneOf f.mb))
  | 13 => row f (okV p) (zeroV p) (true) (laneOk f.ma && laneOk f.mb) (.vshr f.h (p.map (fun _ => vpfx p)) (fin f.d) (fin f.a) (fin f.b) (laneOf f.ma) (laneOf f.mb))
  | 14 => row f (okV p) (zeroV p) (true) (laneOk f.ma && laneOk f.mb) (.vsra f.h (p.map (fun _ => vpfx p)) (fin f.d) (fin f.a) (fin f.b) (laneOf f.ma) (laneOf f.mb))
  | 15 => row f (okV p) (zeroV p && (f.b == 0) && (f.mb == 0)) (true) (laneOk f.ma) (.vabs f.h (p.map (fun _ => vpfx p)) (fin f.d) (fin f.a) (laneOf f.ma))
  | 16 => row f (okV p) (zeroV p && (f.b == 0) && (f.mb == 0)) (true) (laneOk f.ma) (.vneg f.h (p.map (fun _ => vpfx p)) (fin f.d) (fin f.a) (laneOf f.ma))
  | 17 => row f (okV p) (zeroV p) (true) (laneOk f.ma && laneOk f.mb) (.vsadd f.h (p.map (fun _ => vpfx p)) (fin f.d) (fin f.a) (fin f.b) (laneOf f.ma) (laneOf f.mb))
  | 18 => row f (okV p) (zeroV p) (true) (laneOk f.ma && laneOk f.mb) (.vssub f.h (p.map (fun _ => vpfx p)) (fin f.d) (fin f.a) (fin f.b) (laneOf f.ma) (laneOf f.mb))
  | _ => .error 2

/-- VFLT (03 R92, OP 0x51). -/
noncomputable def decodeVflt (_x : DecodeCtx) (p : Option Nat) (f : Fields) : Except Nat Instr :=
  match f.fn with
  | 0 => row f (okV p) (zeroV p) (true) (laneOk f.ma && laneOk f.mb) (.vfadd f.h (p.map (fun _ => vpfx p)) (fin f.d) (fin f.a) (fin f.b) (laneOf f.ma) (laneOf f.mb))
  | 1 => row f (okV p) (zeroV p) (true) (laneOk f.ma && laneOk f.mb) (.vfsub f.h (p.map (fun _ => vpfx p)) (fin f.d) (fin f.a) (fin f.b) (laneOf f.ma) (laneOf f.mb))
  | 2 => row f (okV p) (zeroV p) (true) (laneOk f.ma && laneOk f.mb) (.vfmul f.h (p.map (fun _ => vpfx p)) (fin f.d) (fin f.a) (fin f.b) (laneOf f.ma) (laneOf f.mb))
  | 4 => row f (okV p) (zeroV p) (true) (laneOk f.ma && laneOk f.mb) (.vfmin f.h (p.map (fun _ => vpfx p)) (fin f.d) (fin f.a) (fin f.b) (laneOf f.ma) (laneOf f.mb))
  | 5 => row f (okV p) (zeroV p) (true) (laneOk f.ma && laneOk f.mb) (.vfmax f.h (p.map (fun _ => vpfx p)) (fin f.d) (fin f.a) (fin f.b) (laneOf f.ma) (laneOf f.mb))
  | 3 => row f (okVE p) (zeroV p) (true) (laneOk f.ma && laneOk f.mb) (.vfma f.h (p.map (fun _ => vpfx p)) (fin f.d) (fin f.a) (fin f.b) (laneOf f.ma) (laneOf f.mb))
  | 6 => row f (okV p) (zeroV p && (f.b == 0) && (f.mb == 0)) (true) (laneOk f.ma) (.vfabs f.h (p.map (fun _ => vpfx p)) (fin f.d) (fin f.a) (laneOf f.ma))
  | 7 => row f (okV p) (zeroV p && (f.b == 0) && (f.mb == 0)) (true) (laneOk f.ma) (.vfneg f.h (p.map (fun _ => vpfx p)) (fin f.d) (fin f.a) (laneOf f.ma))
  | _ => .error 2

/-- VCMP (03 R92, OP 0x52). -/
noncomputable def decodeVcmp (_x : DecodeCtx) (p : Option Nat) (f : Fields) : Except Nat Instr :=
  match f.fn with
  | 0 => row f (okV p) (zeroV p) ((f.d < 16)) (laneOk f.ma && laneOk f.mb) (.vcmpEq f.h (p.map (fun _ => vpfx p)) (fin f.d) (fin f.a) (fin f.b) (laneOf f.ma) (laneOf f.mb))
  | 1 => row f (okV p) (zeroV p) ((f.d < 16)) (laneOk f.ma && laneOk f.mb) (.vcmpNe f.h (p.map (fun _ => vpfx p)) (fin f.d) (fin f.a) (fin f.b) (laneOf f.ma) (laneOf f.mb))
  | 2 => row f (okV p) (zeroV p) ((f.d < 16)) (laneOk f.ma && laneOk f.mb) (.vcmpLt f.h (p.map (fun _ => vpfx p)) (fin f.d) (fin f.a) (fin f.b) (laneOf f.ma) (laneOf f.mb))
  | 3 => row f (okV p) (zeroV p) ((f.d < 16)) (laneOk f.ma && laneOk f.mb) (.vcmpLe f.h (p.map (fun _ => vpfx p)) (fin f.d) (fin f.a) (fin f.b) (laneOf f.ma) (laneOf f.mb))
  | 4 => row f (okV p) (zeroV p) ((f.d < 16)) (laneOk f.ma && laneOk f.mb) (.vcmpLtn f.h (p.map (fun _ => vpfx p)) (fin f.d) (fin f.a) (fin f.b) (laneOf f.ma) (laneOf f.mb))
  | 5 => row f (okV p) (zeroV p) ((f.d < 16)) (laneOk f.ma && laneOk f.mb) (.vcmpLen f.h (p.map (fun _ => vpfx p)) (fin f.d) (fin f.a) (fin f.b) (laneOf f.ma) (laneOf f.mb))
  | 6 => row f (okV p) (zeroV p) ((f.d < 16)) (laneOk f.ma && laneOk f.mb) (.vfcmpEq f.h (p.map (fun _ => vpfx p)) (fin f.d) (fin f.a) (fin f.b) (laneOf f.ma) (laneOf f.mb))
  | 7 => row f (okV p) (zeroV p) ((f.d < 16)) (laneOk f.ma && laneOk f.mb) (.vfcmpLt f.h (p.map (fun _ => vpfx p)) (fin f.d) (fin f.a) (fin f.b) (laneOf f.ma) (laneOf f.mb))
  | 8 => row f (okV p) (zeroV p) ((f.d < 16)) (laneOk f.ma && laneOk f.mb) (.vfcmpLe f.h (p.map (fun _ => vpfx p)) (fin f.d) (fin f.a) (fin f.b) (laneOf f.ma) (laneOf f.mb))
  | 9 => row f (okV p) (zeroV p) ((f.d < 16)) (laneOk f.ma && laneOk f.mb) (.vfcmpUn f.h (p.map (fun _ => vpfx p)) (fin f.d) (fin f.a) (fin f.b) (laneOf f.ma) (laneOf f.mb))
  | _ => .error 2

/-- VMOV (03 R92, OP 0x53). -/
noncomputable def decodeVmov (x : DecodeCtx) (p : Option Nat) (f : Fields) : Except Nat Instr :=
  match f.fn with
  | 0 => row f (okV p) (zeroV p && (f.b == 0) && (f.mb == 0)) (true) (laneOk f.ma) (.vmov f.h (p.map (fun _ => vpfx p)) (fin f.d) (fin f.a) (laneOf f.ma))
  | 1 => row f (okV p) (zeroV p && p.isSome && !(vpfx p).z) (true) (laneOk f.ma && laneOk f.mb) (.vsel f.h (vpfx p) (fin f.d) (fin f.a) (fin f.b) (laneOf f.ma) (laneOf f.mb))
  | 2 => row f (okV p) (zeroV p && (f.b == 0) && (f.ma == 0) && (f.mb == 0)) (x.okS f.a) (true) (.vsplat f.h (p.map (fun _ => vpfx p)) (fin f.d) (fin f.a))
  | 3 => row f (okV p) (p.isNone && (f.mb == 0)) (x.okS f.d && x.okS f.b) (laneOk f.ma) (.vext f.h (fin f.d) (fin f.a) (fin f.b) (laneOf f.ma))
  | 4 => row f (okV p) (p.isNone && (f.ma == 0) && (f.mb == 0)) (x.okS f.a && x.okS f.b) (true) (.vins f.h (fin f.d) (fin f.a) (fin f.b))
  | 5 => row f (okV p) (zeroV p && (f.b == 0) && (f.ma == 0) && (f.mb == 0)) (x.okS f.a) (true) (.vidx f.h (p.map (fun _ => vpfx p)) (fin f.d) (fin f.a))
  | _ => .error 2

/-- SFU (03 R92, OP 0x55). -/
noncomputable def decodeSfu (_x : DecodeCtx) (p : Option Nat) (f : Fields) : Except Nat Instr :=
  match f.fn with
  | 0 => row f (okV p) (zeroV p && (f.b == 0) && (f.mb == 0)) (true) (laneOk f.ma) (.vexp2 f.h (p.map (fun _ => vpfx p)) (fin f.d) (fin f.a) (laneOf f.ma))
  | 1 => row f (okV p) (zeroV p && (f.b == 0) && (f.mb == 0)) (true) (laneOk f.ma) (.vlog2 f.h (p.map (fun _ => vpfx p)) (fin f.d) (fin f.a) (laneOf f.ma))
  | 2 => row f (okV p) (zeroV p && (f.b == 0) && (f.mb == 0)) (true) (laneOk f.ma) (.vrcp f.h (p.map (fun _ => vpfx p)) (fin f.d) (fin f.a) (laneOf f.ma))
  | 3 => row f (okV p) (zeroV p && (f.b == 0) && (f.mb == 0)) (true) (laneOk f.ma) (.vrsqrt f.h (p.map (fun _ => vpfx p)) (fin f.d) (fin f.a) (laneOf f.ma))
  | 4 => row f (okV p) (zeroV p && (f.b == 0) && (f.mb == 0)) (true) (laneOk f.ma) (.vtanh f.h (p.map (fun _ => vpfx p)) (fin f.d) (fin f.a) (laneOf f.ma))
  | 5 => row f (okV p) (zeroV p && (f.b == 0) && (f.mb == 0)) (true) (laneOk f.ma) (.vsigm f.h (p.map (fun _ => vpfx p)) (fin f.d) (fin f.a) (laneOf f.ma))
  | _ => .error 2

/-- VRED (03 R92, OP 0x56). -/
noncomputable def decodeVred (_x : DecodeCtx) (p : Option Nat) (f : Fields) : Except Nat Instr :=
  match f.fn with
  | 0 => row f (okV p) (zeroV p && (p.isNone || !(vpfx p).z) && (f.b == 0) && (f.mb == 0)) (okN f.d) (laneOk f.ma) (.vredadd f.h (p.map (fun _ => vpfx p)) (fin f.d) (fin f.a) (laneOf f.ma))
  | 1 => row f (okV p) (zeroV p && (p.isNone || !(vpfx p).z) && (f.b == 0) && (f.mb == 0)) (okN f.d) (laneOk f.ma) (.vredmax f.h (p.map (fun _ => vpfx p)) (fin f.d) (fin f.a) (laneOf f.ma))
  | 2 => row f (okV p) (zeroV p && (p.isNone || !(vpfx p).z) && (f.b == 0) && (f.mb == 0)) (okN f.d) (laneOk f.ma) (.vredmin f.h (p.map (fun _ => vpfx p)) (fin f.d) (fin f.a) (laneOf f.ma))
  | 3 => row f (okV p) (zeroV p && (p.isNone || !(vpfx p).z) && (f.b == 0) && (f.mb == 0)) (okN f.d) (laneOk f.ma) (.vfredadd f.h (p.map (fun _ => vpfx p)) (fin f.d) (fin f.a) (laneOf f.ma))
  | 4 => row f (okV p) (zeroV p && (p.isNone || !(vpfx p).z) && (f.b == 0) && (f.mb == 0)) (okN f.d) (laneOk f.ma) (.vfredmax f.h (p.map (fun _ => vpfx p)) (fin f.d) (fin f.a) (laneOf f.ma))
  | 5 => row f (okV p) (zeroV p && (f.b == 0) && (f.mb == 0)) (true) (laneOk f.ma) (.vscanAdd f.h (p.map (fun _ => vpfx p)) (fin f.d) (fin f.a) (laneOf f.ma))
  | 6 => row f (okV p) (zeroV p) ((f.d % 16 ≤ 13) && (f.a % 16 ≤ 13) && (f.b % 16 ≤ 13)) (laneOk f.ma && laneOk f.mb) (.vmergeSm f.h (p.map (fun _ => vpfx p)) (fin f.d) (fin f.a) (fin f.b) (laneOf f.ma) (laneOf f.mb))
  | _ => .error 2

/-- VMASK (03 R92, OP 0x57). -/
noncomputable def decodeVmask (x : DecodeCtx) (p : Option Nat) (f : Fields) : Except Nat Instr :=
  match f.fn with
  | 0 => row f (okV p) (zeroV p && (f.mb == 0)) (x.okS f.b) (laneOk f.ma) (.vcompress f.h (p.map (fun _ => vpfx p)) (fin f.d) (fin f.a) (fin f.b) (laneOf f.ma))
  | 1 => row f (okV p) (zeroV p && (f.b == 0) && (f.mb == 0)) (true) (laneOk f.ma) (.vexpand f.h (p.map (fun _ => vpfx p)) (fin f.d) (fin f.a) (laneOf f.ma))
  | 2 => row f (okV p) (p.isNone && (f.b == 0) && (f.ma == 0) && (f.mb == 0)) (x.okS f.d && (f.a < 16)) (true) (.mpopc f.h (fin f.d) (fin f.a))
  | 3 => row f (okV p) (p.isNone && (f.ma == 0) && (f.mb == 0)) ((f.d < 16) && (f.a < 16) && (f.b < 16)) (true) (.mand f.h (fin f.d) (fin f.a) (fin f.b))
  | 4 => row f (okV p) (p.isNone && (f.ma == 0) && (f.mb == 0)) ((f.d < 16) && (f.a < 16) && (f.b < 16)) (true) (.mor f.h (fin f.d) (fin f.a) (fin f.b))
  | 5 => row f (okV p) (p.isNone && (f.ma == 0) && (f.mb == 0)) ((f.d < 16) && (f.a < 16) && (f.b < 16)) (true) (.mxor f.h (fin f.d) (fin f.a) (fin f.b))
  | 6 => row f (okV p) (p.isNone && (f.b == 0) && (f.ma == 0) && (f.mb == 0)) ((f.d < 16) && (f.a < 16)) (true) (.mnot f.h (fin f.d) (fin f.a))
  | 7 => row f (okV p) (p.isNone && (f.b == 0) && (f.ma == 0) && (f.mb == 0)) ((f.d < 16) && x.okS f.a) (true) (.mset f.h (fin f.d) (fin f.a))
  | 8 => row f (okV p) (p.isNone && (f.b == 0) && (f.ma == 0) && (f.mb == 0)) (x.okS f.d && (f.a < 16)) (true) (.mget f.h (fin f.d) (fin f.a))
  | 9 => row f (okV p) (p.isNone && (f.b == 0) && (f.ma == 0) && (f.mb == 0)) (x.okS f.d && (f.a < 16)) (true) (.mfirst f.h (fin f.d) (fin f.a))
  | _ => .error 2

/-- TILE (03 R92, OP 0x70). -/
noncomputable def decodeTile (_x : DecodeCtx) (p : Option Nat) (f : Fields) : Except Nat Instr :=
  match f.fn with
  | 0 => row f (p.isNone) ((f.a == 0) && (fld f.imm 4 27 == 0)) ((f.d < 4)) (true) (.tcfg f.h (fin f.d) (fin (fld f.imm 0 4)))
  | 1 => row f (p.isNone) ((f.a == 0) && (f.imm == 0)) ((f.d < 4)) (true) (.tzero f.h (fin f.d))
  | 2 => row f (p.isNone) ((f.a == 0) && (f.imm == 0)) ((f.d < 4)) (true) (.tfree f.h (fin f.d))
  | 3 => row f (p.isNone) ((f.a == 0) && (fld f.imm 5 26 == 0)) ((f.d < 4)) (true) (.twm f.h (fin f.d) (fin (fld f.imm 0 5)))
  | _ => .error 2

/-- MATRIX (03 R92, OP 0x71). -/
noncomputable def decodeMatrix (x : DecodeCtx) (p : Option Nat) (f : Fields) : Except Nat Instr :=
  match f.fn with
  | 0 => row f (okG p) (zeroG p && (f.d == 0) && (f.c == 0) && (fld f.imm 25 39 == 0)) (x.okS f.a && x.okS f.b) (true) (.wload f.h (p.map (fun _ => gpfx p)) (fin f.a) (fin f.b) (BitVec.ofNat 24 (fld f.imm 0 24)) (bit (fld f.imm 24 1)))
  | 1 => row f (okG p) (zeroG p && (fld f.imm 3 61 == 0)) ((f.d < 4) && (f.a < 4) && (f.b < 16) && (f.c < 16)) (true) (.mma f.h (p.map (fun _ => gpfx p)) (fin f.d) (fin f.a) (fin f.b) (fin f.c) (fin (fld f.imm 0 2)) (bit (fld f.imm 2 1)))
  | 2 => row f (okG p) (zeroG p && (fld f.imm 3 61 == 0)) ((f.d < 4) && (f.a < 4) && (f.b < 16) && (f.c < 16)) (true) (.mmaZ f.h (p.map (fun _ => gpfx p)) (fin f.d) (fin f.a) (fin f.b) (fin f.c) (fin (fld f.imm 0 2)) (bit (fld f.imm 2 1)))
  | 3 => row f (okG p) (zeroG p && (fld f.imm 3 61 == 0)) ((f.d < 4) && (f.a < 4) && (f.b < 16) && (f.c < 16)) (true) (.mmaSp f.h (p.map (fun _ => gpfx p)) (fin f.d) (fin f.a) (fin f.b) (fin f.c) (fin (fld f.imm 0 2)) (bit (fld f.imm 2 1)))
  | 4 => row f (okG p) (zeroG p && (fld f.imm 56 8 == 0)) (x.okS f.d && (f.a < 4) && x.okS f.b && x.okS f.c) (true) (.tstore f.h (p.map (fun _ => gpfx p)) (fin f.d) (fin f.a) (fin f.b) (fin f.c) (BitVec.ofNat 24 (fld f.imm 0 24)) (BitVec.ofNat 16 (fld f.imm 24 16)) (BitVec.ofNat 16 (fld f.imm 40 16)))
  | 5 => row f (okG p) (zeroG p && (f.b == 0) && (f.c == 0) && (fld f.imm 24 40 == 0)) ((f.d < 4) && x.okS f.a) (true) (.tload f.h (p.map (fun _ => gpfx p)) (fin f.d) (fin f.a) (BitVec.ofNat 24 (fld f.imm 0 24)))
  | 6 => row f (okG p) (zeroG p && (f.d == 0) && (f.b == 0) && (f.c == 0) && (f.imm == 0)) (x.okS f.a) (true) (.mparam f.h (p.map (fun _ => gpfx p)) (fin f.a))
  | _ => .error 2

/-- IE (03 R92, OP 0x80). -/
noncomputable def decodeIe (x : DecodeCtx) (p : Option Nat) (f : Fields) : Except Nat Instr :=
  match f.fn with
  | 0 => row f (okG p) (zeroG p && (fld f.imm 32 32 == 0)) (x.okS f.d && x.okS f.a && x.okS f.b && x.okS f.c) (true) (.ieGather f.h (p.map (fun _ => gpfx p)) (fin f.d) (fin f.a) (fin f.b) (fin f.c) (BitVec.ofNat 32 (fld f.imm 0 32)))
  | 1 => row f (okG p) (zeroG p && (fld f.imm 34 30 == 0)) (x.okS f.d && x.okS f.a && x.okS f.b && x.okS f.c) (true) (.ieScatter f.h (p.map (fun _ => gpfx p)) (fin f.d) (fin f.a) (fin f.b) (fin f.c) (BitVec.ofNat 32 (fld f.imm 0 32)) (fin (fld f.imm 32 2)))
  | 2 => row f (okG p) (zeroG p && (f.c == 0) && (fld f.imm 32 32 == 0)) (x.okS f.d && x.okS f.a && x.okS f.b) (true) (.ieCopy f.h (p.map (fun _ => gpfx p)) (fin f.d) (fin f.a) (fin f.b) (BitVec.ofNat 32 (fld f.imm 0 32)))
  | 3 => row f (okG p) (zeroG p && (f.c == 0) && (fld f.imm 32 32 == 0)) (x.okS f.d && x.okS f.a && x.okS f.b) (true) (.ieFill f.h (p.map (fun _ => gpfx p)) (fin f.d) (fin f.a) (fin f.b) (BitVec.ofNat 32 (fld f.imm 0 32)))
  | 4 => row f (okG p) (zeroG p && (fld f.imm 34 30 == 0)) (x.okS f.d && x.okS f.a && x.okS f.b && x.okS f.c) (true) (.ieMcast f.h (p.map (fun _ => gpfx p)) (fin f.d) (fin f.a) (fin f.b) (fin f.c) (BitVec.ofNat 32 (fld f.imm 0 32)) (fin (fld f.imm 32 2)))
  | 5 => row f (okG p) (zeroG p && (fld f.imm 34 30 == 0)) (x.okS f.d && x.okS f.a && x.okS f.b && x.okS f.c) (true) (.ieCond f.h (p.map (fun _ => gpfx p)) (fin f.d) (fin f.a) (fin f.b) (fin f.c) (BitVec.ofNat 32 (fld f.imm 0 32)) (fin (fld f.imm 32 2)))
  | _ => .error 2

/-- PG (03 R92, OP 0x88). -/
noncomputable def decodePg (x : DecodeCtx) (p : Option Nat) (f : Fields) : Except Nat Instr :=
  match f.fn with
  | 0 =>
    if fld f.imm 24 1 == 0 then
      row f (okG p) (zeroG p && (f.c == 0) && (fld f.imm 21 3 == 0) && (fld f.imm 25 39 == 0)) (x.okS f.d && (f.a < 8) && x.okS f.b) (true) (.pgLoad f.h (p.map (fun _ => gpfx p)) (fin f.d) (fin f.a) (fin f.b) (BitVec.ofNat 16 (fld f.imm 0 16)) (fin (fld f.imm 16 5)))
    else
      row f (okG p) (zeroG p && (fld f.imm 0 16 == 0) && (fld f.imm 21 3 == 0) && (fld f.imm 25 39 == 0)) (x.okS f.d && (f.a < 8) && x.okS f.b && x.okS f.c) (true) (.pgLoadList f.h (p.map (fun _ => gpfx p)) (fin f.d) (fin f.a) (fin f.b) (fin f.c) (fin (fld f.imm 16 5)))
  | 8 =>
    if fld f.imm 24 1 == 0 then
      row f (okG p) (zeroG p && (f.c == 0) && (fld f.imm 21 3 == 0) && (fld f.imm 25 39 == 0)) (x.okS f.d && (f.a < 8) && x.okS f.b) (true) (.pgLoadNb f.h (p.map (fun _ => gpfx p)) (fin f.d) (fin f.a) (fin f.b) (BitVec.ofNat 16 (fld f.imm 0 16)) (fin (fld f.imm 16 5)))
    else
      row f (okG p) (zeroG p && (fld f.imm 0 16 == 0) && (fld f.imm 21 3 == 0) && (fld f.imm 25 39 == 0)) (x.okS f.d && (f.a < 8) && x.okS f.b && x.okS f.c) (true) (.pgLoadNbList f.h (p.map (fun _ => gpfx p)) (fin f.d) (fin f.a) (fin f.b) (fin f.c) (fin (fld f.imm 16 5)))
  | 1 => row f (okG p) (zeroG p && (f.c == 0) && (f.imm == 0)) (x.okS f.d && (f.a < 8) && x.okS f.b) (true) (.pgApp f.h (p.map (fun _ => gpfx p)) (fin f.d) (fin f.a) (fin f.b))
  | 2 => row f (okG p) (zeroG p && (f.c == 0) && (f.imm == 0)) (x.okS f.d && (f.a < 8) && (f.b < 8)) (true) (.pgFork f.h (p.map (fun _ => gpfx p)) (fin f.d) (fin f.a) (fin f.b))
  | 3 => row f (okG p) (zeroG p && (fld f.imm 7 1 == 0) && (fld f.imm 10 54 == 0)) (x.okS f.d && (f.a < 8) && x.okS f.b && x.okS f.c) (true) (.pgSel f.h (p.map (fun _ => gpfx p)) (fin f.d) (fin f.a) (fin f.b) (fin f.c) (BitVec.ofNat 7 (fld f.imm 0 7)) (bit (fld f.imm 8 1)) (bit (fld f.imm 9 1)))
  | 4 => row f (okG p) (zeroG p && (f.b == 0) && (f.c == 0) && (f.imm == 0)) (x.okS f.d && (f.a < 8)) (true) (.pgSeal f.h (p.map (fun _ => gpfx p)) (fin f.d) (fin f.a))
  | 5 => row f (okG p) (zeroG p && (f.b == 0) && (f.c == 0) && (f.imm == 0)) (x.okS f.d && (f.a < 8)) (true) (.pgFree f.h (p.map (fun _ => gpfx p)) (fin f.d) (fin f.a))
  | 6 => row f (okG p) (zeroG p && (f.b == 0) && (f.c == 0) && (fld f.imm 6 58 == 0)) (x.okS f.d && (f.a < 8)) (true) (.pgExt f.h (p.map (fun _ => gpfx p)) (fin f.d) (fin f.a) (fin (fld f.imm 0 4)) (fin (fld f.imm 4 2)))
  | 7 => row f (okG p) (zeroG p && (f.c == 0) && (f.imm == 0)) (x.okS f.d && (f.a < 8) && x.okS f.b) (true) (.pgEvict f.h (p.map (fun _ => gpfx p)) (fin f.d) (fin f.a) (fin f.b))
  | _ => .error 2

/-- HM (03 R92, OP 0x90). -/
noncomputable def decodeHm (x : DecodeCtx) (p : Option Nat) (f : Fields) : Except Nat Instr :=
  match f.fn with
  | 0 => row f (okG p) (zeroG p && (fld f.imm 4 4 == 0) && (fld f.imm 40 24 == 0)) (x.okS f.d && x.okS f.a && x.okS f.b && x.okS f.c) (true) (.hmGemv f.h (p.map (fun _ => gpfx p)) (fin f.d) (fin f.a) (fin f.b) (fin f.c) (fin (fld f.imm 0 4)) (BitVec.ofNat 16 (fld f.imm 8 16)) (BitVec.ofNat 16 (fld f.imm 24 16)))
  | _ => .error 2

/-- SYS (03 R92, OP 0x98). -/
noncomputable def decodeSys (x : DecodeCtx) (p : Option Nat) (f : Fields) : Except Nat Instr :=
  match f.fn with
  | 0 => decodeCget x p f
  | 1 => decodeCset x p f
  | 2 => row f (p.isNone) ((f.d == 0) && (f.a == 0) && (f.imm == 0)) (true) (true) (.eret f.h)
  | 3 => row f (p.isNone) ((fld f.imm 16 15 == 0)) (okN f.d && x.okS f.a) (true) (.pcall f.h (fin f.d) (fin f.a) (BitVec.ofNat 16 (fld f.imm 0 16)))
  | 4 => row f (p.isNone) ((f.d == 0) && (f.a == 0) && (f.imm == 0)) (true) (true) (.ifl f.h)
  | 5 => row f (p.isNone) ((f.d == 0) && (f.a == 0) && (f.imm == 0)) (true) (true) (.lfl f.h)
  | 6 => row f (p.isNone) ((f.a == 0) && (f.imm == 0)) (okN f.d) (true) (.kswap f.h (fin f.d))
  | _ => .error 2

/-! ## The opcode map -/

/-- The length code that a major opcode's format needs (03 R77, R92); none for a reserved OP. -/
def opLen (op : Nat) : Option Nat :=
  match op with
  | 1 => some 1
  | 2 => some 1
  | 3 => some 1
  | 4 => some 1
  | 5 => some 1
  | 6 => some 2
  | 7 => some 1
  | 16 => some 1
  | 17 => some 1
  | 18 => some 1
  | 24 => some 1
  | 25 => some 1
  | 26 => some 1
  | 27 => some 1
  | 32 => some 1
  | 33 => some 1
  | 34 => some 1
  | 35 => some 1
  | 36 => some 1
  | 48 => some 1
  | 51 => some 1
  | 49 => some 1
  | 50 => some 3
  | 56 => some 3
  | 57 => some 3
  | 58 => some 1
  | 59 => some 3
  | 64 => some 1
  | 65 => some 1
  | 66 => some 3
  | 67 => some 3
  | 80 => some 1
  | 81 => some 1
  | 82 => some 1
  | 83 => some 1
  | 84 => some 1
  | 85 => some 1
  | 86 => some 1
  | 87 => some 1
  | 112 => some 1
  | 113 => some 3
  | 128 => some 3
  | 136 => some 3
  | 144 => some 3
  | 152 => some 1
  | _ => none

/-- The base word `w` with major opcode `op` and the prefix parcel `p`. -/
noncomputable def decodeOp (x : DecodeCtx) (op : Nat) (p : Option Nat) (w : Nat) : Except Nat Instr :=
  match op with
  | 1 => decodeAlu x p (fieldsR w)
  | 2 => decodeAlui x p (fieldsI w)
  | 3 => decodeCmp x p (fieldsR w)
  | 4 => decodeCmpi x p (fieldsI w)
  | 5 => decodePred x p (fieldsR w)
  | 6 => decodeLi x p (fieldsW w)
  | 7 => decodeBits x p (fieldsI w)
  | 16 => decodeFalu x p (fieldsR w)
  | 17 => decodeFcmp x p (fieldsR w)
  | 18 => decodeFcvt x p (fieldsR w)
  | 24 => decodeBr x p (fieldsI w)
  | 25 => decodeLoop x p (fieldsI w)
  | 26 => decodeChk x p (fieldsI w)
  | 27 => decodeMisc x p (fieldsI w)
  | 32 => decodeLd x p (fieldsI w)
  | 33 => decodeSt x p (fieldsI w)
  | 34 => decodeFe x p (fieldsI w)
  | 35 => decodeFence x p (fieldsI w)
  | 36 => decodeVmem x p (fieldsI w)
  | 48 => decodeAmo x p (fieldsR w)
  | 51 => decodeRed x p (fieldsR w)
  | 49 => decodeCas x p (fieldsR w)
  | 50 => decodeAmok x p (fieldsE w)
  | 56 => decodeSpawn x p (fieldsE w)
  | 57 => decodeRing x p (fieldsE w)
  | 58 => decodeQctl x p (fieldsR w)
  | 59 => decodeGraph x p (fieldsE w)
  | 64 => decodeLalu x p (fieldsR w)
  | 65 => decodeLmem x p (fieldsI w)
  | 66 => decodeLtab x p (fieldsE w)
  | 67 => decodeTe x p (fieldsE w)
  | 80 => decodeVint x p (fieldsR w)
  | 81 => decodeVflt x p (fieldsR w)
  | 82 => decodeVcmp x p (fieldsR w)
  | 83 => decodeVmov x p (fieldsR w)
  | 84 => decodeVcvt x p (fieldsR w)
  | 85 => decodeSfu x p (fieldsR w)
  | 86 => decodeVred x p (fieldsR w)
  | 87 => decodeVmask x p (fieldsR w)
  | 112 => decodeTile x p (fieldsI w)
  | 113 => decodeMatrix x p (fieldsE w)
  | 128 => decodeIe x p (fieldsE w)
  | 136 => decodePg x p (fieldsE w)
  | 144 => decodeHm x p (fieldsE w)
  | 152 => decodeSys x p (fieldsI w)
  | _ => .error 1

/-- Bytes of a base word by its length code (03 R77). -/
def baseBytes (code : Nat) : Nat :=
  match code % 4 with
  | 1 => 8 | 2 => 12 | 3 => 16 | _ => 4

/-- Decodes the instruction whose first parcel stands in the low bits of `w`, at offset `off` of its fetch block: the instruction and its
length in bytes, or the detail code of the first row of 03 R96 that applies. DESIGN CHOICE: the parcel 0x0000_0004 after a prefix counts as a second
prefix (row 4), not as a pad parcel out of place (row 6), since it is no instruction of its own there (log 14). -/
noncomputable def decode (x : DecodeCtx) (off : Nat) (w : Nat) : Except Nat (Instr × Nat) :=
  let pfx := w % 4 == 0
  let p : Option Nat := if pfx then some (w % 2 ^ 32) else none
  let base := if pfx then w / 2 ^ 32 else w
  let plen := if pfx then 4 else 0
  let len := plen + baseBytes base
  let op := fld base 3 8
  if w % 2 ^ 32 == 4 then .error 6
  else if off + plen + 4 > 32 || off + len > 32 then .error 6
  else if pfx && base % 4 == 0 then .error 4
  else if w % 2 ^ 32 == 0 || opLen op != some (base % 4) then .error 1
  else if (op == 0x88 && !x.attn) || (op == 0x90 && x.attn) then .error 7
  else match decodeOp x op p (base % 2 ^ (8 * baseBytes base)) with
    | .ok i => .ok (i, len)
    | .error d => .error d

/-! ## Kiln instructions (12 R298, R299) -/

/-- Decodes one half; none where a load of the image is refused for it (12 R298). -/
noncomputable def decodeKiln (w : Nat) : Option Instr :=
  match unpack [5, 3, 3, 5] w with
  | [i, s, d, op] =>
    let kd : KReg := fin d
    let ks : KReg := fin s
    let ki : Fin 32 := fin i
    match op with
    | 1 => some (.kld kd ks ki)
    | 2 => if s == 0 then some (.kldi kd ki) else none
    | 3 => if s == 0 then some (.klui kd ki) else none
    | 4 => some (.kadd kd ks ki)
    | 5 => some (.ksub kd ks ki)
    | 6 => some (.kand kd ks ki)
    | 7 => some (.kor kd ks ki)
    | 8 => some (.kshl kd ks ki)
    | 9 => some (.kshr kd ks ki)
    | 10 => some (.kmin kd ks ki)
    | 11 => some (.kmax kd ks ki)
    | 12 => some (.kceq kd ks ki)
    | 13 => some (.kcgt kd ks ki)
    | 14 => if s == 0 then some (.kbz kd ki) else none
    | 15 => if s == 0 then some (.kbnz kd ki) else none
    | 16 => if i < 8 then some (.ksel kd ks (fin i)) else none
    | 17 => some (.kfirst kd ks ki)
    | 18 => if i ≤ 24 then some (.kamax kd ks ki) else none
    | 19 => some (.kpop kd ks ki)
    | 20 => if d == 0 && 28 ≤ i then some (.kstw ks ki) else none
    | 21 => if d == 0 then some (.kemit ks ki) else none
    | 22 => if d == 0 && s == 0 && i == 0 then some .kend else none
    | _ => none
  | _ => none

/-- The half of a kiln instruction from its fields. -/
def encK (op d s i : Nat) : List (Nat × Nat) := [(16, pack [(5, i), (3, s), (3, d), (5, op)])]

/-- The words of an instruction as fields, lowest first; events have none. -/
def encodeFields : Instr → List (Nat × Nat)
  | .add h d a b => encR none h 1 0 d.val a.val b.val 0 0
  | .sub h d a b => encR none h 1 1 d.val a.val b.val 0 0
  | .and h d a b => encR none h 1 2 d.val a.val b.val 0 0
  | .or h d a b => encR none h 1 3 d.val a.val b.val 0 0
  | .xor h d a b => encR none h 1 4 d.val a.val b.val 0 0
  | .andn h d a b => encR none h 1 5 d.val a.val b.val 0 0
  | .shl h d a b => encR none h 1 6 d.val a.val b.val 0 0
  | .shr h d a b => encR none h 1 7 d.val a.val b.val 0 0
  | .sra h d a b => encR none h 1 8 d.val a.val b.val 0 0
  | .rol h d a b => encR none h 1 9 d.val a.val b.val 0 0
  | .min h d a b => encR none h 1 10 d.val a.val b.val 0 0
  | .max h d a b => encR none h 1 11 d.val a.val b.val 0 0
  | .minn h d a b => encR none h 1 12 d.val a.val b.val 0 0
  | .maxn h d a b => encR none h 1 13 d.val a.val b.val 0 0
  | .mul h d a b => encR none h 1 14 d.val a.val b.val 0 0
  | .mulh h d a b => encR none h 1 15 d.val a.val b.val 0 0
  | .mulhn h d a b => encR none h 1 16 d.val a.val b.val 0 0
  | .div h d a b => encR none h 1 17 d.val a.val b.val 0 0
  | .divn h d a b => encR none h 1 18 d.val a.val b.val 0 0
  | .rem h d a b => encR none h 1 19 d.val a.val b.val 0 0
  | .remn h d a b => encR none h 1 20 d.val a.val b.val 0 0
  | .clz h d a => encR none h 1 21 d.val a.val 0 0 0
  | .ctz h d a => encR none h 1 22 d.val a.val 0 0 0
  | .popc h d a => encR none h 1 23 d.val a.val 0 0 0
  | .bswap h d a => encR none h 1 24 d.val a.val 0 0 0
  | .addi h d a imm => encI none h 2 0 d.val a.val [(31, imm.toNat)]
  | .andi h d a imm => encI none h 2 2 d.val a.val [(31, imm.toNat)]
  | .ori h d a imm => encI none h 2 3 d.val a.val [(31, imm.toNat)]
  | .xori h d a imm => encI none h 2 4 d.val a.val [(31, imm.toNat)]
  | .mini h d a imm => encI none h 2 10 d.val a.val [(31, imm.toNat)]
  | .maxi h d a imm => encI none h 2 11 d.val a.val [(31, imm.toNat)]
  | .muli h d a imm => encI none h 2 14 d.val a.val [(31, imm.toNat)]
  | .shli h d a k => encI none h 2 6 d.val a.val [(6, k.val), (25, 0)]
  | .shri h d a k => encI none h 2 7 d.val a.val [(6, k.val), (25, 0)]
  | .srai h d a k => encI none h 2 8 d.val a.val [(6, k.val), (25, 0)]
  | .roli h d a k => encI none h 2 9 d.val a.val [(6, k.val), (25, 0)]
  | .eq h d a b => encR none h 3 0 d.num a.val b.val 0 0
  | .ne h d a b => encR none h 3 1 d.num a.val b.val 0 0
  | .lt h d a b => encR none h 3 2 d.num a.val b.val 0 0
  | .le h d a b => encR none h 3 3 d.num a.val b.val 0 0
  | .ltn h d a b => encR none h 3 4 d.num a.val b.val 0 0
  | .len h d a b => encR none h 3 5 d.num a.val b.val 0 0
  | .eqi h d a imm => encI none h 4 0 d.num a.val [(31, imm.toNat)]
  | .nei h d a imm => encI none h 4 1 d.num a.val [(31, imm.toNat)]
  | .lti h d a imm => encI none h 4 2 d.num a.val [(31, imm.toNat)]
  | .lei h d a imm => encI none h 4 3 d.num a.val [(31, imm.toNat)]
  | .ltni h d a imm => encI none h 4 4 d.num a.val [(31, imm.toNat)]
  | .leni h d a imm => encI none h 4 5 d.num a.val [(31, imm.toNat)]
  | .pand h d a b => encR none h 5 0 d.num a.val b.val 0 0
  | .por h d a b => encR none h 5 1 d.num a.val b.val 0 0
  | .pxor h d a b => encR none h 5 2 d.num a.val b.val 0 0
  | .pandn h d a b => encR none h 5 3 d.num a.val b.val 0 0
  | .pnot h d a => encR none h 5 4 d.num a.val 0 0 0
  | .pmov h d a => encR none h 5 5 d.num a.num 0 0 0
  | .sel h d a b p => encR none h 5 6 d.val a.val b.val p.val 0
  | .li h d imm => encW none h 6 0 d.val 0 [(64, imm.toNat)]
  | .lipc h d imm => encW none h 6 1 d.val 0 [(64, imm.toNat)]
  | .sext h d a wm1 => encI none h 7 0 d.val a.val [(6, 0), (6, wm1.val), (19, 0)]
  | .zext h d a wm1 => encI none h 7 1 d.val a.val [(6, 0), (6, wm1.val), (19, 0)]
  | .bfx h d a signed lsb wm1 => encI none h 7 2 d.val a.val [(6, lsb.val), (6, wm1.val), (1, signed.toNat), (18, 0)]
  | .bfi h d a lsb wm1 => encI none h 7 3 d.val a.val [(6, lsb.val), (6, wm1.val), (19, 0)]
  | .fadd h d a b => encR none h 16 0 d.val a.val b.val 0 0
  | .fsub h d a b => encR none h 16 1 d.val a.val b.val 0 0
  | .fmul h d a b => encR none h 16 2 d.val a.val b.val 0 0
  | .fdiv h d a b => encR none h 16 3 d.val a.val b.val 0 0
  | .fsqrt h d a => encR none h 16 4 d.val a.val 0 0 0
  | .fmin h d a b => encR none h 16 5 d.val a.val b.val 0 0
  | .fmax h d a b => encR none h 16 6 d.val a.val b.val 0 0
  | .fabs h d a => encR none h 16 7 d.val a.val 0 0 0
  | .fneg h d a => encR none h 16 8 d.val a.val 0 0 0
  | .fma h d a b => encR none h 16 9 d.val a.val b.val 0 0
  | .feq h d a b => encR none h 17 0 d.num a.val b.val 0 0
  | .flt h d a b => encR none h 17 1 d.num a.val b.val 0 0
  | .fle h d a b => encR none h 17 2 d.num a.val b.val 0 0
  | .funord h d a b => encR none h 17 3 d.num a.val b.val 0 0
  | .jmp h imm => encI none h 24 0 0 0 [(31, imm.toNat)]
  | .call h imm => encI none h 24 1 0 0 [(31, imm.toNat)]
  | .jr h a => encI none h 24 2 0 a.val [(31, 0)]
  | .callr h a => encI none h 24 3 0 a.val [(31, 0)]
  | .loop h a len => encI none h 25 0 0 a.val [(16, len.val), (15, 0)]
  | .loopi h n len => encI none h 25 1 0 0 [(15, len.val), (16, n.val)]
  | .chk h a imm => encI none h 26 0 0 a.val [(31, imm.toNat)]
  | .chkl h a imm => encI none h 26 1 0 a.val [(31, imm.toNat)]
  | .nop h => encI none h 27 0 0 0 [(31, 0)]
  | .yield h => encI none h 27 1 0 0 [(31, 0)]
  | .ckpt h code => encI none h 27 2 0 0 [(16, code.toNat), (15, 0)]
  | .trap h code => encI none h 27 3 0 0 [(16, code.toNat), (15, 0)]
  | .brk h code => encI none h 27 4 0 0 [(16, code.toNat), (15, 0)]
  | .tdone h => encI none h 27 5 0 0 [(31, 0)]
  | .feSet h a imm => encI none h 34 0 0 a.val [(31, imm.toNat)]
  | .feClr h a imm => encI none h 34 1 0 a.val [(31, imm.toNat)]
  | .feWait h a imm => encI none h 34 3 0 a.val [(31, imm.toNat)]
  | .feGet h d a imm => encI none h 34 2 d.val a.val [(31, imm.toNat)]
  | .fenceCore h => encI none h 35 0 0 0 [(31, 0)]
  | .fenceDie h => encI none h 35 1 0 0 [(31, 0)]
  | .fenceMod h => encI none h 35 2 0 0 [(31, 0)]
  | .fenceSys h => encI none h 35 3 0 0 [(31, 0)]
  | .fenceEng h => encI none h 35 4 0 0 [(31, 0)]
  | .vld h q d a imm => encI q.enc h 36 0 d.val a.val [(31, imm.toNat)]
  | .vst h q d a imm => encI q.enc h 36 1 d.val a.val [(31, imm.toNat)]
  | .vldSync h p d a imm => encI (p.map VPfx.enc) h 36 2 d.val a.val [(31, imm.toNat)]
  | .vstFill h p d a imm => encI (p.map VPfx.enc) h 36 3 d.val a.val [(31, imm.toNat)]
  | .amoAdd h m w64 d a b => encR (m.map MPfx.enc) h 48 (0 + 16 * w64.toNat) d.val a.val b.val 0 0
  | .amoAnd h m w64 d a b => encR (m.map MPfx.enc) h 48 (1 + 16 * w64.toNat) d.val a.val b.val 0 0
  | .amoOr h m w64 d a b => encR (m.map MPfx.enc) h 48 (2 + 16 * w64.toNat) d.val a.val b.val 0 0
  | .amoXor h m w64 d a b => encR (m.map MPfx.enc) h 48 (3 + 16 * w64.toNat) d.val a.val b.val 0 0
  | .amoMin h m w64 d a b => encR (m.map MPfx.enc) h 48 (4 + 16 * w64.toNat) d.val a.val b.val 0 0
  | .amoMax h m w64 d a b => encR (m.map MPfx.enc) h 48 (5 + 16 * w64.toNat) d.val a.val b.val 0 0
  | .amoMinn h m w64 d a b => encR (m.map MPfx.enc) h 48 (6 + 16 * w64.toNat) d.val a.val b.val 0 0
  | .amoMaxn h m w64 d a b => encR (m.map MPfx.enc) h 48 (7 + 16 * w64.toNat) d.val a.val b.val 0 0
  | .amoSwap h m w64 d a b => encR (m.map MPfx.enc) h 48 (8 + 16 * w64.toNat) d.val a.val b.val 0 0
  | .amoFadd h m d a b => encR (m.map MPfx.enc) h 48 9 d.val a.val b.val 0 0
  | .redAdd h m w64 a b => encR (m.map MPfx.enc) h 51 (0 + 16 * w64.toNat) 0 a.val b.val 0 0
  | .redAnd h m w64 a b => encR (m.map MPfx.enc) h 51 (1 + 16 * w64.toNat) 0 a.val b.val 0 0
  | .redOr h m w64 a b => encR (m.map MPfx.enc) h 51 (2 + 16 * w64.toNat) 0 a.val b.val 0 0
  | .redXor h m w64 a b => encR (m.map MPfx.enc) h 51 (3 + 16 * w64.toNat) 0 a.val b.val 0 0
  | .redMin h m w64 a b => encR (m.map MPfx.enc) h 51 (4 + 16 * w64.toNat) 0 a.val b.val 0 0
  | .redMax h m w64 a b => encR (m.map MPfx.enc) h 51 (5 + 16 * w64.toNat) 0 a.val b.val 0 0
  | .redMinn h m w64 a b => encR (m.map MPfx.enc) h 51 (6 + 16 * w64.toNat) 0 a.val b.val 0 0
  | .redMaxn h m w64 a b => encR (m.map MPfx.enc) h 51 (7 + 16 * w64.toNat) 0 a.val b.val 0 0
  | .redSwap h m w64 a b => encR (m.map MPfx.enc) h 51 (8 + 16 * w64.toNat) 0 a.val b.val 0 0
  | .redFadd h m a b => encR (m.map MPfx.enc) h 51 9 0 a.val b.val 0 0
  | .redArrive h m a b => encR (m.map MPfx.enc) h 51 10 0 a.val b.val 0 0
  | .cas32 h m d a b => encR (m.map MPfx.enc) h 49 0 d.val a.val b.val 0 0
  | .cas64 h m d a b => encR (m.map MPfx.enc) h 49 1 d.val a.val b.val 0 0
  | .casK h d a b c k => encE none h 50 0 d.val a.val b.val c.val [(2, 0), (54, k.entry.toNat), (1, k.w64.toNat), (2, 0), (1, k.anch.toNat), (4, 0)]
  | .decK h d a b k => encE none h 50 1 d.val a.val b.val 0 [(2, 0), (54, k.entry.toNat), (1, k.w64.toNat), (2, 0), (1, k.anch.toNat), (4, 0)]
  | .spawn h d a npay anch entry => encE none h 56 0 d.val a.val 0 0 [(2, 0), (54, entry.toNat), (3, 0), (1, anch.toNat), (4, npay.val)]
  | .migrate h a => encE none h 56 1 0 a.val 0 0 [(64, 0)]
  | .rbSend h d a b c len k => encE none h 57 0 d.val a.val b.val c.val [(3, k.k.val), (13, k.lo.toNat), (18, len.toNat), (30, k.hi.toNat)]
  | .rbGet h d k => encE none h 57 1 d.val 0 0 0 [(3, k.val), (1, 0), (60, 0)]
  | .rbGetNb h d k => encE none h 57 1 d.val 0 0 0 [(3, k.val), (1, 1), (60, 0)]
  | .rbFree h k => encE none h 57 2 0 0 0 0 [(3, k.val), (61, 0)]
  | .qsendc h q a => encR none h 58 0 (24 + q.val) a.val 0 0 0
  | .qstat h d sel => encR none h 58 1 d.val 0 sel.val 0 0
  | .qret h => encR none h 58 2 0 0 0 0 0
  | .tgLaunch h d a n => encE none h 59 0 d.val a.val 0 0 [(9, n.toNat), (55, 0)]
  | .tgSignal h a t => encE none h 59 1 0 a.val 0 0 [(8, t.toNat), (56, 0)]
  | .lroot h d a => encR none h 64 0 d.val a.val 0 0 0
  | .lchild h d a b => encR none h 64 1 d.val a.val b.val 0 0
  | .lparent h d a => encR none h 64 2 d.val a.val 0 0 0
  | .lanc h d a b => encR none h 64 3 d.val a.val b.val 0 0
  | .lpanc h d a b => encR none h 64 4 d.val a.val b.val 0 0
  | .ldepth h d a => encR none h 64 5 d.val a.val 0 0 0
  | .lcommon h d a b => encR none h 64 6 d.val a.val b.val 0 0
  | .ldig h d a b => encR none h 64 7 d.val a.val b.val 0 0
  | .lend h d a => encR none h 64 8 d.val a.val 0 0 0
  | .lget h d a k => encR none h 64 9 d.val a.val k.val 0 0
  | .lset h d a k => encR none h 64 10 d.val a.val k.val 0 0
  | .lmov h d a => encR none h 64 11 d.val a.val 0 0 0
  | .lld h m d a off sz uns spec => encI (m.map MPfx.enc) h 65 0 d.val a.val [(16, off.toNat), (2, sz.num), (1, uns.toNat), (1, spec.toNat), (11, 0)]
  | .lst h m d a off sz => encI (m.map MPfx.enc) h 65 1 d.val a.val [(16, off.toNat), (2, sz.num), (13, 0)]
  | .lldL h m d a off spec => encI (m.map MPfx.enc) h 65 2 d.val a.val [(16, off.toNat), (3, 0), (1, spec.toNat), (11, 0)]
  | .lstL h m d a off => encI (m.map MPfx.enc) h 65 3 d.val a.val [(16, off.toNat), (15, 0)]
  | .ltree h d a b c dsize => encE none h 66 0 d.val a.val b.val c.val [(5, dsize.val), (1, 0), (58, 0)]
  | .ltreeV h d a b => encE none h 66 0 d.val a.val b.val 0 [(5, 0), (1, 1), (58, 0)]
  | .lnew h d a b c => encE none h 66 1 d.val a.val b.val c.val [(64, 0)]
  | .lfree h a => encE none h 66 2 0 a.val 0 0 [(64, 0)]
  | .lmove h d a b => encE none h 66 3 d.val a.val b.val 0 [(64, 0)]
  | .lmoveF h d a b => encE none h 66 4 d.val a.val b.val 0 [(64, 0)]
  | .lrebase h d a => encE none h 66 5 d.val a.val 0 0 [(64, 0)]
  | .lxlate h d a => encE none h 66 6 d.val a.val 0 0 [(2, 0), (1, 0), (61, 0)]
  | .lxlateT h d a => encE none h 66 6 d.val a.val 0 0 [(2, 1), (1, 0), (61, 0)]
  | .lxlateTs h d a => encE none h 66 6 d.val a.val 0 0 [(2, 1), (1, 1), (61, 0)]
  | .lxlateOld h d => encE none h 66 6 d.val 0 0 0 [(2, 2), (62, 0)]
  | .lxlateNew h d => encE none h 66 6 d.val 0 0 0 [(2, 3), (62, 0)]
  | .teSum h g d a f => encE (g.map GPfx.enc) h 67 0 d.val a.val 0 0 [(16, f.off.toNat), (4, f.fmt.val), (6, f.maxd.val), (38, 0)]
  | .teCount h g d a maxd => encE (g.map GPfx.enc) h 67 1 d.val a.val 0 0 [(20, 0), (6, maxd.val), (38, 0)]
  | .teCopy h g d a b f n => encE (g.map GPfx.enc) h 67 2 d.val a.val b.val 0 [(16, f.off.toNat), (4, f.fmt.val), (6, f.maxd.val), (6, 0), (32, n.toNat)]
  | .teFill h g d a b f => encE (g.map GPfx.enc) h 67 3 d.val a.val b.val 0 [(16, f.off.toNat), (4, f.fmt.val), (6, f.maxd.val), (38, 0)]
  | .teVisit h g d a b c maxd anch => encE (g.map GPfx.enc) h 67 4 d.val a.val b.val c.val [(20, 0), (6, maxd.val), (1, anch.toNat), (37, 0)]
  | .vadd h p d a b ma mb => encR (p.map VPfx.enc) h 80 0 d.val a.val b.val ma.num mb.num
  | .vsub h p d a b ma mb => encR (p.map VPfx.enc) h 80 1 d.val a.val b.val ma.num mb.num
  | .vmul h p d a b ma mb => encR (p.map VPfx.enc) h 80 2 d.val a.val b.val ma.num mb.num
  | .vmulh h p d a b ma mb => encR (p.map VPfx.enc) h 80 3 d.val a.val b.val ma.num mb.num
  | .vmin h p d a b ma mb => encR (p.map VPfx.enc) h 80 4 d.val a.val b.val ma.num mb.num
  | .vmax h p d a b ma mb => encR (p.map VPfx.enc) h 80 5 d.val a.val b.val ma.num mb.num
  | .vminn h p d a b ma mb => encR (p.map VPfx.enc) h 80 6 d.val a.val b.val ma.num mb.num
  | .vmaxn h p d a b ma mb => encR (p.map VPfx.enc) h 80 7 d.val a.val b.val ma.num mb.num
  | .vand h p d a b ma mb => encR (p.map VPfx.enc) h 80 8 d.val a.val b.val ma.num mb.num
  | .vor h p d a b ma mb => encR (p.map VPfx.enc) h 80 9 d.val a.val b.val ma.num mb.num
  | .vxor h p d a b ma mb => encR (p.map VPfx.enc) h 80 10 d.val a.val b.val ma.num mb.num
  | .vandn h p d a b ma mb => encR (p.map VPfx.enc) h 80 11 d.val a.val b.val ma.num mb.num
  | .vshl h p d a b ma mb => encR (p.map VPfx.enc) h 80 12 d.val a.val b.val ma.num mb.num
  | .vshr h p d a b ma mb => encR (p.map VPfx.enc) h 80 13 d.val a.val b.val ma.num mb.num
  | .vsra h p d a b ma mb => encR (p.map VPfx.enc) h 80 14 d.val a.val b.val ma.num mb.num
  | .vabs h p d a ma => encR (p.map VPfx.enc) h 80 15 d.val a.val 0 ma.num 0
  | .vneg h p d a ma => encR (p.map VPfx.enc) h 80 16 d.val a.val 0 ma.num 0
  | .vsadd h p d a b ma mb => encR (p.map VPfx.enc) h 80 17 d.val a.val b.val ma.num mb.num
  | .vssub h p d a b ma mb => encR (p.map VPfx.enc) h 80 18 d.val a.val b.val ma.num mb.num
  | .vfadd h p d a b ma mb => encR (p.map VPfx.enc) h 81 0 d.val a.val b.val ma.num mb.num
  | .vfsub h p d a b ma mb => encR (p.map VPfx.enc) h 81 1 d.val a.val b.val ma.num mb.num
  | .vfmul h p d a b ma mb => encR (p.map VPfx.enc) h 81 2 d.val a.val b.val ma.num mb.num
  | .vfmin h p d a b ma mb => encR (p.map VPfx.enc) h 81 4 d.val a.val b.val ma.num mb.num
  | .vfmax h p d a b ma mb => encR (p.map VPfx.enc) h 81 5 d.val a.val b.val ma.num mb.num
  | .vfma h p d a b ma mb => encR (p.map VPfx.enc) h 81 3 d.val a.val b.val ma.num mb.num
  | .vfabs h p d a ma => encR (p.map VPfx.enc) h 81 6 d.val a.val 0 ma.num 0
  | .vfneg h p d a ma => encR (p.map VPfx.enc) h 81 7 d.val a.val 0 ma.num 0
  | .vcmpEq h p d a b ma mb => encR (p.map VPfx.enc) h 82 0 d.val a.val b.val ma.num mb.num
  | .vcmpNe h p d a b ma mb => encR (p.map VPfx.enc) h 82 1 d.val a.val b.val ma.num mb.num
  | .vcmpLt h p d a b ma mb => encR (p.map VPfx.enc) h 82 2 d.val a.val b.val ma.num mb.num
  | .vcmpLe h p d a b ma mb => encR (p.map VPfx.enc) h 82 3 d.val a.val b.val ma.num mb.num
  | .vcmpLtn h p d a b ma mb => encR (p.map VPfx.enc) h 82 4 d.val a.val b.val ma.num mb.num
  | .vcmpLen h p d a b ma mb => encR (p.map VPfx.enc) h 82 5 d.val a.val b.val ma.num mb.num
  | .vfcmpEq h p d a b ma mb => encR (p.map VPfx.enc) h 82 6 d.val a.val b.val ma.num mb.num
  | .vfcmpLt h p d a b ma mb => encR (p.map VPfx.enc) h 82 7 d.val a.val b.val ma.num mb.num
  | .vfcmpLe h p d a b ma mb => encR (p.map VPfx.enc) h 82 8 d.val a.val b.val ma.num mb.num
  | .vfcmpUn h p d a b ma mb => encR (p.map VPfx.enc) h 82 9 d.val a.val b.val ma.num mb.num
  | .vmov h p d a ma => encR (p.map VPfx.enc) h 83 0 d.val a.val 0 ma.num 0
  | .vsel h p d a b ma mb => encR (some p.enc) h 83 1 d.val a.val b.val ma.num mb.num
  | .vsplat h p d a => encR (p.map VPfx.enc) h 83 2 d.val a.val 0 0 0
  | .vext h d a b ma => encR none h 83 3 d.val a.val b.val ma.num 0
  | .vins h d a b => encR none h 83 4 d.val a.val b.val 0 0
  | .vidx h p d a => encR (p.map VPfx.enc) h 83 5 d.val a.val 0 0 0
  | .vexp2 h p d a ma => encR (p.map VPfx.enc) h 85 0 d.val a.val 0 ma.num 0
  | .vlog2 h p d a ma => encR (p.map VPfx.enc) h 85 1 d.val a.val 0 ma.num 0
  | .vrcp h p d a ma => encR (p.map VPfx.enc) h 85 2 d.val a.val 0 ma.num 0
  | .vrsqrt h p d a ma => encR (p.map VPfx.enc) h 85 3 d.val a.val 0 ma.num 0
  | .vtanh h p d a ma => encR (p.map VPfx.enc) h 85 4 d.val a.val 0 ma.num 0
  | .vsigm h p d a ma => encR (p.map VPfx.enc) h 85 5 d.val a.val 0 ma.num 0
  | .vredadd h p d a ma => encR (p.map VPfx.enc) h 86 0 d.val a.val 0 ma.num 0
  | .vredmax h p d a ma => encR (p.map VPfx.enc) h 86 1 d.val a.val 0 ma.num 0
  | .vredmin h p d a ma => encR (p.map VPfx.enc) h 86 2 d.val a.val 0 ma.num 0
  | .vfredadd h p d a ma => encR (p.map VPfx.enc) h 86 3 d.val a.val 0 ma.num 0
  | .vfredmax h p d a ma => encR (p.map VPfx.enc) h 86 4 d.val a.val 0 ma.num 0
  | .vscanAdd h p d a ma => encR (p.map VPfx.enc) h 86 5 d.val a.val 0 ma.num 0
  | .vmergeSm h p d a b ma mb => encR (p.map VPfx.enc) h 86 6 d.val a.val b.val ma.num mb.num
  | .vcompress h p d a b ma => encR (p.map VPfx.enc) h 87 0 d.val a.val b.val ma.num 0
  | .vexpand h p d a ma => encR (p.map VPfx.enc) h 87 1 d.val a.val 0 ma.num 0
  | .mpopc h d a => encR none h 87 2 d.val a.val 0 0 0
  | .mand h d a b => encR none h 87 3 d.val a.val b.val 0 0
  | .mor h d a b => encR none h 87 4 d.val a.val b.val 0 0
  | .mxor h d a b => encR none h 87 5 d.val a.val b.val 0 0
  | .mnot h d a => encR none h 87 6 d.val a.val 0 0 0
  | .mset h d a => encR none h 87 7 d.val a.val 0 0 0
  | .mget h d a => encR none h 87 8 d.val a.val 0 0 0
  | .mfirst h d a => encR none h 87 9 d.val a.val 0 0 0
  | .tcfg h d fmt => encI none h 112 0 d.val 0 [(4, fmt.val), (27, 0)]
  | .tzero h d => encI none h 112 1 d.val 0 [(31, 0)]
  | .tfree h d => encI none h 112 2 d.val 0 [(31, 0)]
  | .twm h d n => encI none h 112 3 d.val 0 [(5, n.val), (26, 0)]
  | .wload h g a b pitch sp => encE (g.map GPfx.enc) h 113 0 0 a.val b.val 0 [(24, pitch.toNat), (1, sp.toNat), (39, 0)]
  | .mma h g d a b c stream pm => encE (g.map GPfx.enc) h 113 1 d.val a.val b.val c.val [(2, stream.val), (1, pm.toNat), (61, 0)]
  | .mmaZ h g d a b c stream pm => encE (g.map GPfx.enc) h 113 2 d.val a.val b.val c.val [(2, stream.val), (1, pm.toNat), (61, 0)]
  | .mmaSp h g d a b c stream pm => encE (g.map GPfx.enc) h 113 3 d.val a.val b.val c.val [(2, stream.val), (1, pm.toNat), (61, 0)]
  | .tstore h g d a b c pitch wrow0 rows => encE (g.map GPfx.enc) h 113 4 d.val a.val b.val c.val [(24, pitch.toNat), (16, wrow0.toNat), (16, rows.toNat), (8, 0)]
  | .tload h g d a pitch => encE (g.map GPfx.enc) h 113 5 d.val a.val 0 0 [(24, pitch.toNat), (40, 0)]
  | .mparam h g a => encE (g.map GPfx.enc) h 113 6 0 a.val 0 0 [(64, 0)]
  | .ieGather h g d a b c n => encE (g.map GPfx.enc) h 128 0 d.val a.val b.val c.val [(32, n.toNat), (32, 0)]
  | .ieScatter h g d a b c n opk => encE (g.map GPfx.enc) h 128 1 d.val a.val b.val c.val [(32, n.toNat), (2, opk.val), (30, 0)]
  | .ieCopy h g d a b bytes => encE (g.map GPfx.enc) h 128 2 d.val a.val b.val 0 [(32, bytes.toNat), (32, 0)]
  | .ieFill h g d a b bytes => encE (g.map GPfx.enc) h 128 3 d.val a.val b.val 0 [(32, bytes.toNat), (32, 0)]
  | .ieMcast h g d a b c bytes ntm1 => encE (g.map GPfx.enc) h 128 4 d.val a.val b.val c.val [(32, bytes.toNat), (2, ntm1.val), (30, 0)]
  | .ieCond h g d a b c n esz => encE (g.map GPfx.enc) h 128 5 d.val a.val b.val c.val [(32, n.toNat), (2, esz.val), (30, 0)]
  | .pgLoad h g d a b first nm1 => encE (g.map GPfx.enc) h 136 0 d.val a.val b.val 0 [(16, first.toNat), (5, nm1.val), (3, 0), (1, 0), (39, 0)]
  | .pgLoadList h g d a b c nm1 => encE (g.map GPfx.enc) h 136 0 d.val a.val b.val c.val [(16, 0), (5, nm1.val), (3, 0), (1, 1), (39, 0)]
  | .pgLoadNb h g d a b first nm1 => encE (g.map GPfx.enc) h 136 8 d.val a.val b.val 0 [(16, first.toNat), (5, nm1.val), (3, 0), (1, 0), (39, 0)]
  | .pgLoadNbList h g d a b c nm1 => encE (g.map GPfx.enc) h 136 8 d.val a.val b.val c.val [(16, 0), (5, nm1.val), (3, 0), (1, 1), (39, 0)]
  | .pgApp h g d a b => encE (g.map GPfx.enc) h 136 1 d.val a.val b.val 0 [(64, 0)]
  | .pgFork h g d a b => encE (g.map GPfx.enc) h 136 2 d.val a.val b.val 0 [(64, 0)]
  | .pgSel h g d a b c k kf kt => encE (g.map GPfx.enc) h 136 3 d.val a.val b.val c.val [(7, k.toNat), (1, 0), (1, kf.toNat), (1, kt.toNat), (54, 0)]
  | .pgSeal h g d a => encE (g.map GPfx.enc) h 136 4 d.val a.val 0 0 [(64, 0)]
  | .pgFree h g d a => encE (g.map GPfx.enc) h 136 5 d.val a.val 0 0 [(64, 0)]
  | .pgExt h g d a order lns => encE (g.map GPfx.enc) h 136 6 d.val a.val 0 0 [(4, order.val), (2, lns.val), (58, 0)]
  | .pgEvict h g d a b => encE (g.map GPfx.enc) h 136 7 d.val a.val b.val 0 [(64, 0)]
  | .hmGemv h g d a b c nv mm1 km1 => encE (g.map GPfx.enc) h 144 0 d.val a.val b.val c.val [(4, nv.val), (4, 0), (16, mm1.toNat), (16, km1.toNat), (24, 0)]
  | .eret h => encI none h 152 2 0 0 [(31, 0)]
  | .pcall h d a svc => encI none h 152 3 d.val a.val [(16, svc.toNat), (15, 0)]
  | .ifl h => encI none h 152 4 0 0 [(31, 0)]
  | .lfl h => encI none h 152 5 0 0 [(31, 0)]
  | .kswap h d => encI none h 152 6 d.val 0 [(31, 0)]
  | .fcvt h src dst d a => encR none h 18 (src.num * 8 + dst.num) d.val a.val 0 0 0
  | .ld h m d a imm sz uns => encI (m.map MPfx.enc) h 32 (sz.num + 4 * uns.toNat) d.val a.val [(31, imm.toNat)]
  | .ldSync h d a imm sz uns => encI none h 32 (8 + sz.num + 4 * uns.toNat) d.val a.val [(31, imm.toNat)]
  | .ldTake h d a imm sz uns => encI none h 32 (16 + sz.num + 4 * uns.toNat) d.val a.val [(31, imm.toNat)]
  | .ldSpec h m d a imm sz uns => encI (m.map MPfx.enc) h 32 (32 + sz.num + 4 * uns.toNat) d.val a.val [(31, imm.toNat)]
  | .st h m d a imm sz => encI (m.map MPfx.enc) h 33 sz.num d.val a.val [(31, imm.toNat)]
  | .stFill h d a imm sz => encI none h 33 (4 + sz.num) d.val a.val [(31, imm.toNat)]
  | .stXfill h d a imm sz => encI none h 33 (8 + sz.num) d.val a.val [(31, imm.toNat)]
  | .vcvt h p t d a part ma => encR (p.map VPfx.enc) h 84 t.num d.val a.val part.val ma.num 0
  | .cget h d r => encI none h 152 0 d.val 0 [(31, r.num)]
  | .cset h a r => encI none h 152 1 0 a.val [(31, r.num)]
  | .csetFpmode h a => encI none h 152 1 0 a.val [(31, 6)]
  | .csetAgemax h a => encI none h 152 1 0 a.val [(31, 26)]
  | .csetRingcfg h a k => encI none h 152 1 0 a.val [(31, 32 + k.val)]
  | .kld d s i => encK 1 d.val s.val i.val
  | .kldi d i => encK 2 d.val 0 i.val
  | .klui d i => encK 3 d.val 0 i.val
  | .kadd d s i => encK 4 d.val s.val i.val
  | .ksub d s i => encK 5 d.val s.val i.val
  | .kand d s i => encK 6 d.val s.val i.val
  | .kor d s i => encK 7 d.val s.val i.val
  | .kshl d s i => encK 8 d.val s.val i.val
  | .kshr d s i => encK 9 d.val s.val i.val
  | .kmin d s i => encK 10 d.val s.val i.val
  | .kmax d s i => encK 11 d.val s.val i.val
  | .kceq d s i => encK 12 d.val s.val i.val
  | .kcgt d s i => encK 13 d.val s.val i.val
  | .kbz d i => encK 14 d.val 0 i.val
  | .kbnz d i => encK 15 d.val 0 i.val
  | .ksel d s c => encK 16 d.val s.val c.val
  | .kfirst d s i => encK 17 d.val s.val i.val
  | .kamax d s i => encK 18 d.val s.val i.val
  | .kpop d s i => encK 19 d.val s.val i.val
  | .kstw s i => encK 20 0 s.val i.val
  | .kemit s i => encK 21 0 s.val i.val
  | .kend => encK 22 0 0 0
  | .continuationAct .. => []
  | .launchWaitReevaluate .. => []
  | .puntyStart .. => []
  | .ringMessagePlace .. => []
  | .linkGrow .. => []
  | .deadlockProbeSend .. => []
  | .deadlockProbeReceive .. => []
  | .sfuResultWrite .. => []
  | .vredResultWrite .. => []
  | .meCommandStart .. => []
  | .meRowWrite .. => []
  | .nmCommandRun .. => []
  | .ieCommandRun .. => []
  | .teCommandRun .. => []
  | .peCommandRun .. => []
  | .pgAppendAct .. => []
  | .nvmeWriteComplete .. => []
  | .nvmeReadComplete .. => []
  | .engineCommandComplete .. => []
  | .longResultWrite .. => []
  | .accessPerform .. => []
  | .accessReply .. => []
  | .requestResend .. => []
  | .extentWalkComplete .. => []
  | .labelWalkComplete .. => []
  | .migrationDepart .. => []
  | .migrationArrival .. => []
  | .replyForward .. => []
  | .spawnArrival .. => []
  | .arrivalSpillStart .. => []
  | .tdoneSlotFree .. => []
  | .taskStart .. => []
  | .taskComplete .. => []
  | .readyAgeExpire .. => []
  | .timeSliceEnd .. => []
  | .kilnDecision .. => []
  | .graphLaunchRequest .. => []
  | .graphSignalReceive .. => []
  | .hostLaunchRequest .. => []
  | .completionReport .. => []
  | .deputyCommit .. => []
  | .deputyCommitAck .. => []
  | .dieFence .. => []
  | .kswapRequest .. => []
  | .kswapPrepare .. => []
  | .kswapCommit .. => []
  | .lttChangeRequest .. => []
  | .lttPrepare .. => []
  | .lttCommit .. => []
  | .preemptRequest .. => []
  | .threadHalt .. => []
  | .coreSave .. => []
  | .coreRestore .. => []
  | .hostRead .. => []
  | .hostWrite .. => []
  | .hostPause .. => []
  | .hostResume .. => []
  | .hostReset .. => []
  | .partitionResetComplete .. => []
  | .partitionAssign .. => []
  | .partitionSplit .. => []
  | .partitionMerge .. => []
  | .partitionRelease .. => []
  | .hostGrantResponse .. => []
  | .serviceMap .. => []
  | .serviceUnmap .. => []
  | .serviceGrant .. => []
  | .serviceKload .. => []
  | .serviceCkpttab .. => []
  | .serviceIntr .. => []
  | .serviceUnknown .. => []
  | .scrubRead .. => []
  | .counterSnapshot .. => []
  | .hostCounterRead .. => []
  | .class3WindowEnd .. => []
  | .flitSend .. => []
  | .flitCrcReplay .. => []
  | .ethernetFrameReceive .. => []
  | .moduleReset => []
  | .firmwareImageReceive .. => []
  | .hostMeasurement .. => []
  | .attestationRequest .. => []
  | .temperatureAlarm .. => []
  | .thermalReset .. => []
  | .hotRemoval .. => []
  | .releaseRequest .. => []

/-- The bits of an instruction as one number, bit 0 of the first parcel lowest. -/
def encode (i : Instr) : Nat := pack (encodeFields i)

/-- Bytes of an encoded instruction; 0 for an event. -/
def encodeBytes (i : Instr) : Nat := ((encodeFields i).map Prod.fst).sum / 8

/-- The context in which the opcode table's words are read: every queue has a link, the tiles are FP32, and the profile is the one that has
the opcode (03 R94). -/
def tableCtx (w : Nat) : DecodeCtx := ⟨fld w 3 8 == 0x88 || (w % 4 == 0 && fld w 35 8 == 0x88), 0xF#4, Vector.replicate 4 .fp32⟩

/-- The instruction the decoder reads from an instruction whose bits are `w`: a kiln half for 16 bits, else a Gleral word. -/
noncomputable def decodeTableWord (nbits w : Nat) : Option Instr :=
  if nbits ≤ 16 then decodeKiln w
  else match decode (tableCtx w) 0 w with
    | .ok (i, _) => some i
    | .error _ => none

end Sys2Proof
end

