-- ==== Sys2Proof/Machine/Flags.lean ====
section
/-! DEFINITION. Number formats, exact arithmetic, rounding and the FPMODE flags (02 R49 to R62, 05 R140 to R143). -/

namespace Sys2Proof.Machine

/-! ## Flags: FPMODE[4:0] is NX, UF, OF, DZ, NV (04 R124) -/

def fNV : BitVec 5 := 1
def fDZ : BitVec 5 := 2
def fOF : BitVec 5 := 4
def fUF : BitVec 5 := 8
def fNX : BitVec 5 := 16

/-! ## Floating-point values -/

/-- The exact value of a floating-point number: a finite value is (−1)^neg · m · 2^e (02 R50). -/
inductive FpVal where
  | nan
  | inf (neg : Bool)
  | fin (neg : Bool) (m : Nat) (e : Int)
  deriving DecidableEq, Repr

/-- The parameters of a floating-point format (02 R51): exponent and mantissa bits, bias, the largest finite pattern, whether it has infinities,
and the canonical NaN. -/
structure FpFmt where
  eb : Nat
  mb : Nat
  bias : Nat
  maxPat : Nat
  hasInf : Bool
  nanPat : Nat
  deriving DecidableEq, Repr

def fp32 : FpFmt := ⟨8, 23, 127, 0x7F7FFFFF, true, 0x7FC00000⟩
def bf16 : FpFmt := ⟨8, 7, 127, 0x7F7F, true, 0x7FC0⟩
def fp16 : FpFmt := ⟨5, 10, 15, 0x7BFF, true, 0x7E00⟩
def f8a : FpFmt := ⟨4, 3, 8, 0x7E, false, 0x7F⟩
def f8b : FpFmt := ⟨5, 2, 15, 0x7B, true, 0x7E⟩

def Fmt.fp? : Fmt → Option FpFmt
  | .fp32 => some fp32
  | .bf16 => some bf16
  | .fp16 => some fp16
  | .f8a => some f8a
  | .f8b => some f8b
  | _ => none

/-- Integer formats that are signed (02 R49). -/
def Fmt.signed : Fmt → Bool
  | .i8 | .i16 | .i32 | .i64 => true
  | _ => false

def Fmt.isInt : Fmt → Bool
  | .i8 | .n8 | .i16 | .n16 | .i32 | .n32 | .i64 | .n64 => true
  | _ => false

def FpFmt.signBit (f : FpFmt) : Nat := 2 ^ (f.eb + f.mb)

/-- The exponent of the least significant bit of a subnormal. -/
def FpFmt.emin (f : FpFmt) : Int := 1 - (f.bias : Int) - (f.mb : Int)

/-- The value of a pattern (02 R50, R51). -/
def FpFmt.val (f : FpFmt) (n : Nat) : FpVal :=
  let neg := n / f.signBit % 2 == 1
  let mag := n % f.signBit
  let ex := mag / 2 ^ f.mb
  let m := mag % 2 ^ f.mb
  if mag ≤ f.maxPat then
    if ex = 0 then .fin neg m f.emin else .fin neg (2 ^ f.mb + m) (f.emin + (ex : Int) - 1)
  else if f.hasInf && m == 0 then .inf neg
  else .nan

/-- A pattern with its sign. -/
def FpFmt.sgn (f : FpFmt) (neg : Bool) (mag : Nat) : Nat := mag + (if neg then f.signBit else 0)

/-- The result an infinite value gives: the infinity, or the clamped value of a format that has none (02 R52). -/
def FpFmt.infPat (f : FpFmt) (neg : Bool) : Nat := f.sgn neg (if f.hasInf then f.maxPat + 1 else f.maxPat)

/-- Number of bits of a number. -/
def bitLen (n : Nat) : Nat := if n = 0 then 0 else Nat.log2 n + 1

/-- Whether a mode rounds the magnitude away from zero, given the parity of the kept part and the discarded remainder against its half. -/
def roundsUp (mode : Rnd) (neg odd : Bool) (rem half : Nat) : Bool :=
  match mode with
  | .rtz => false
  | .rdn => neg && rem != 0
  | .rup => !neg && rem != 0
  | _ => decide (half < rem) || (rem == half && odd)

/-- m · 2^e rounded to a multiple of 2^q: the multiple, and whether it is inexact (02 R58). -/
def roundAt (mode : Rnd) (neg : Bool) (m : Nat) (e q : Int) : Nat × Bool :=
  if q ≤ e then (m * 2 ^ (e - q).toNat, false)
  else
    let s := (q - e).toNat
    let k := m / 2 ^ s
    let rem := m % 2 ^ s
    (if roundsUp mode neg (k % 2 == 1) (2 * rem) (2 ^ s) then k + 1 else k, rem != 0)

/-- A finite value rounded to a format, with IEEE 754 overflow and tininess after rounding (02 R58, R59). -/
def roundFin (f : FpFmt) (mode : Rnd) (neg : Bool) (m : Nat) (e : Int) : Nat × BitVec 5 :=
  if m = 0 then (f.sgn neg 0, 0)
  else
    let p := f.mb + 1
    let top := (bitLen m : Int) + e
    let q := max (top - p) f.emin
    let (k, inexact) := roundAt mode neg m e q
    let (k, q) := if k = 2 ^ p then (2 ^ f.mb, q + 1) else (k, q)
    let mag := if k < 2 ^ f.mb then k else ((q - f.emin).toNat + 1) * 2 ^ f.mb + (k - 2 ^ f.mb)
    if f.maxPat < mag then
      let toInf := match mode with | .rtz => false | .rdn => neg | .rup => !neg | _ => true
      (if toInf then f.infPat neg else f.sgn neg f.maxPat, fOF ||| fNX)
    else
      let (ku, _) := roundAt mode neg m e (top - p)
      let tiny := bitLen ku + (top - p) ≤ f.emin + f.mb
      (f.sgn neg mag, (if inexact then fNX else 0) ||| (if inexact && tiny then fUF else 0))

/-- A value rounded to a format; a NaN gives the canonical NaN. -/
def roundVal (f : FpFmt) (mode : Rnd) (v : FpVal) : Nat × BitVec 5 :=
  match v with
  | .nan => (f.nanPat, 0)
  | .inf n => (f.infPat n, 0)
  | .fin n m e => roundFin f mode n m e

/-! ## Exact operations (05 R140, R141) -/

def FpVal.neg : FpVal → FpVal
  | .nan => .nan
  | .inf n => .inf !n
  | .fin n m e => .fin (!n) m e

/-- The exact sum of finite values as a signed integer over the smaller exponent. -/
def addInt (n1 : Bool) (m1 : Nat) (e1 : Int) (n2 : Bool) (m2 : Nat) (e2 : Int) : Int × Int :=
  let e := min e1 e2
  let a : Int := (m1 * 2 ^ (e1 - e).toNat : Nat)
  let b : Int := (m2 * 2 ^ (e2 - e).toNat : Nat)
  ((if n1 then -a else a) + (if n2 then -b else b), e)

/-- Exact addition; the sign of an exact zero depends on the mode (IEEE 754). -/
def FpVal.add (mode : Rnd) : FpVal → FpVal → FpVal
  | .nan, _ => .nan
  | _, .nan => .nan
  | .inf a, .inf b => if a == b then .inf a else .nan
  | .inf a, _ => .inf a
  | _, .inf b => .inf b
  | .fin n1 m1 e1, .fin n2 m2 e2 =>
    let (i, e) := addInt n1 m1 e1 n2 m2 e2
    if i = 0 then .fin (if n1 == n2 then n1 else mode == .rdn) 0 0 else .fin (decide (i < 0)) i.natAbs e

/-- Exact multiplication. -/
def FpVal.mul : FpVal → FpVal → FpVal
  | .nan, _ => .nan
  | _, .nan => .nan
  | .inf a, .inf b => .inf (a != b)
  | .inf a, .fin n m _ => if m = 0 then .nan else .inf (a != n)
  | .fin n m _, .inf b => if m = 0 then .nan else .inf (n != b)
  | .fin n1 m1 e1, .fin n2 m2 e2 => .fin (n1 != n2) (m1 * m2) (e1 + e2)

/-- Rounds an arithmetic result; a NaN result of arithmetic sets NV (05 R141). -/
def roundArith (f : FpFmt) (mode : Rnd) (v : FpVal) : Nat × BitVec 5 :=
  match v with
  | .nan => (f.nanPat, fNV)
  | _ => roundVal f mode v

def fpAdd (f : FpFmt) (mode : Rnd) (a b : Nat) : Nat × BitVec 5 := roundArith f mode ((f.val a).add mode (f.val b))
def fpSub (f : FpFmt) (mode : Rnd) (a b : Nat) : Nat × BitVec 5 := roundArith f mode ((f.val a).add mode (f.val b).neg)
def fpMul (f : FpFmt) (mode : Rnd) (a b : Nat) : Nat × BitVec 5 := roundArith f mode ((f.val a).mul (f.val b))
def fpFma (f : FpFmt) (mode : Rnd) (a b c : Nat) : Nat × BitVec 5 :=
  roundArith f mode (((f.val a).mul (f.val b)).add mode (f.val c))

/-- A quotient of positive integers scaled so that the remainder shows in the lowest bit. -/
def quotSticky (f : FpFmt) (m1 m2 : Nat) : Nat × Int :=
  let k := f.mb + 4 + bitLen m2
  let n := m1 * 2 ^ k
  (2 * (n / m2) + (if n % m2 = 0 then 0 else 1), -(k : Int) - 1)

def fpDiv (f : FpFmt) (mode : Rnd) (a b : Nat) : Nat × BitVec 5 :=
  match f.val a, f.val b with
  | .nan, _ => (f.nanPat, fNV)
  | _, .nan => (f.nanPat, fNV)
  | .inf _, .inf _ => (f.nanPat, fNV)
  | .inf x, .fin y _ _ => (f.infPat (x != y), 0)
  | .fin x _ _, .inf y => (f.sgn (x != y) 0, 0)
  | .fin x m1 e1, .fin y m2 e2 =>
    if m2 = 0 then (if m1 = 0 then (f.nanPat, fNV) else (f.infPat (x != y), fDZ))
    else
      let (q, k) := quotSticky f m1 m2
      roundFin f mode (x != y) q (e1 - e2 + k)

/-- Integer square root, from bit `k` down. -/
def isqrtFrom : Nat → Nat → Nat → Nat
  | 0, _, r => r
  | k + 1, n, r => isqrtFrom k n (if (r + 2 ^ k) * (r + 2 ^ k) ≤ n then r + 2 ^ k else r)

def isqrt (n : Nat) : Nat := isqrtFrom (bitLen n / 2 + 1) n 0

def fpSqrt (f : FpFmt) (mode : Rnd) (a : Nat) : Nat × BitVec 5 :=
  match f.val a with
  | .nan => (f.nanPat, fNV)
  | .inf n => if n then (f.nanPat, fNV) else (f.infPat false, 0)
  | .fin n m e =>
    if m = 0 then (f.sgn n 0, 0)
    else if n then (f.nanPat, fNV)
    else
      let (m, e) := if e % 2 = 0 then (m, e) else (2 * m, e - 1)
      let k := f.mb + 4
      let s := isqrt (m * 2 ^ (2 * k))
      roundFin f mode false (2 * s + (if s * s = m * 2 ^ (2 * k) then 0 else 1)) (e / 2 - (k : Int) - 1)

/-- −1, 0 or 1 as two values that are no NaN compare; −0 equals +0 (05 R142). -/
def FpVal.cmp : FpVal → FpVal → Int
  | .inf a, .inf b => if a == b then 0 else if a then -1 else 1
  | .inf a, _ => if a then -1 else 1
  | _, .inf b => if b then 1 else -1
  | .fin n1 m1 e1, .fin n2 m2 e2 => let i := (addInt n1 m1 e1 (!n2) m2 e2).1; if i = 0 then 0 else if i < 0 then -1 else 1
  | _, _ => 0

def FpVal.isNan : FpVal → Bool
  | .nan => true
  | _ => false

def FpVal.isNeg : FpVal → Bool
  | .inf n => n
  | .fin n _ _ => n
  | .nan => false

/-- Minimum or maximum of two patterns; −0 below +0; one NaN gives the other operand (05 R141). -/
def fpMinMax (f : FpFmt) (isMax : Bool) (a b : Nat) : Nat :=
  let x := f.val a
  let y := f.val b
  if x.isNan && y.isNan then f.nanPat
  else if x.isNan then b
  else if y.isNan then a
  else
    let c := x.cmp y
    let aLess := c < 0 || (c = 0 && x.isNeg && !y.isNeg)
    if aLess == isMax then b else a

def fpAbs (f : FpFmt) (a : Nat) : Nat := if (f.val a).isNan then f.nanPat else a % f.signBit
def fpNeg (f : FpFmt) (a : Nat) : Nat := if (f.val a).isNan then f.nanPat else (a + f.signBit) % (2 * f.signBit)

inductive FpCmp where
  | eq | lt | le | un
  deriving DecidableEq, Repr

/-- FCMP and `vfcmp`: the answer and NV (05 R142). -/
def fpCompare (f : FpFmt) (k : FpCmp) (a b : Nat) : Bool × BitVec 5 :=
  let x := f.val a
  let y := f.val b
  let nan := x.isNan || y.isNan
  match k with
  | .eq => (!nan && x.cmp y == 0, 0)
  | .lt => (!nan && x.cmp y < 0, if nan then fNV else 0)
  | .le => (!nan && x.cmp y ≤ 0, if nan then fNV else 0)
  | .un => (nan, 0)

/-! ## Conversions (02 R60, R61; 05 R143) -/

def intMin (w : Nat) (signed : Bool) : Int := if signed then -((2 ^ (w - 1) : Nat) : Int) else 0
def intMax (w : Nat) (signed : Bool) : Int := if signed then ((2 ^ (w - 1) : Nat) : Int) - 1 else ((2 ^ w : Nat) : Int) - 1

/-- A finite value rounded to an integer, and whether that is inexact. -/
def roundInt (mode : Rnd) (neg : Bool) (m : Nat) (e : Int) : Int × Bool :=
  let (k, i) := roundAt mode neg m e 0
  (if neg then -(k : Int) else k, i)

/-- FCVT to an integer (05 R143). -/
def fpToInt (mode : Rnd) (w : Nat) (signed : Bool) (v : FpVal) : Int × BitVec 5 :=
  match v with
  | .nan => (0, fNV)
  | .inf n => (if n then intMin w signed else intMax w signed, fNV)
  | .fin n m e =>
    let (i, inexact) := roundInt mode n m e
    if i < intMin w signed then (intMin w signed, fNV)
    else if intMax w signed < i then (intMax w signed, fNV)
    else (i, if inexact then fNX else 0)

/-- An integer as an exact value. -/
def ofInt (i : Int) : FpVal := .fin (decide (i < 0)) i.natAbs 0

/-- The value of a DS8 byte (02 R53). -/
def ds8Val (n : Nat) : FpVal :=
  let term (k : Nat) : Int := let s := k % 8; if s = 7 then 0 else (if 8 ≤ k % 16 then -1 else 1) * ((2 ^ (6 - s) : Nat) : Int)
  let t := term (n / 16) + term n
  .fin (decide (t < 0)) t.natAbs (-6)

/-- The value of an E8 scale (02 R55). -/
def e8Val (n : Nat) : FpVal := if n % 256 = 255 then .nan else .fin false 1 ((n % 256 : Nat) - 127)

/-- An element's value by its format. -/
def elemVal (f : Fmt) (n : Nat) : FpVal :=
  match Fmt.fp? f with
  | some p => p.val n
  | none =>
    match f with
    | .ds8 => ds8Val n
    | .e8 => e8Val n
    | _ => ofInt (if Fmt.signed f then sintOf f.bits n else (n % 2 ^ f.bits : Nat))

/-- What a conversion delivers (02 R61, R62). -/
structure Narrow where
  pat : Nat
  flags : BitVec 5
  clamps : Nat
  nans : Nat
  deriving DecidableEq, Repr

/-- The finite value of an FP32 clamp bound. -/
def boundVal (b : BitVec 32) : Nat × Int :=
  match fp32.val b.toNat with
  | .fin _ m e => (m, e)
  | _ => (0, 0)

/-- An integer clamp bound: B as an integer. -/
def boundInt (b : BitVec 32) : Int := (roundInt .rtz false (boundVal b).1 (boundVal b).2).1

/-- A narrowing conversion with clamping (02 R61): `b` is the clamp bound when one is known. NX and UF are as 06 R163 gives them. -/
def narrow (mode : Rnd) (b : Option (BitVec 32)) (t : Fmt) (v : FpVal) : Narrow :=
  match Fmt.fp? t with
  | some f =>
    match v with
    | .nan => ⟨f.nanPat, 0, 0, 1⟩
    | _ =>
      let lim := match b with | some x => (roundVal f .rtz (fp32.val x.toNat)).1 | none => f.maxPat
      match v with
      | .inf n => ⟨f.sgn n lim, 0, 1, 0⟩
      | .fin n m e =>
        let wide : FpFmt := ⟨f.eb + 8, f.mb, f.bias, 2 ^ (f.eb + 8 + f.mb) - 1, false, 0⟩
        let (r, fl) := roundFin wide mode n m e
        let past := lim < r % wide.signBit
        ⟨if past then f.sgn n lim else f.sgn n (r % wide.signBit), fl &&& (fNX ||| fUF), if past then 1 else 0, 0⟩
      | .nan => ⟨f.nanPat, 0, 0, 1⟩
  | none =>
    let w := t.bits
    let s := Fmt.signed t
    let hi := match b with | some x => min (boundInt x) (intMax w s) | none => intMax w s
    let lo := match b with | some x => if s then max (-(boundInt x)) (intMin w s) else 0 | none => intMin w s
    match v with
    | .nan => ⟨0, fNV, 0, 1⟩
    | .inf n => ⟨patOf w (if n then lo else hi), 0, 1, 0⟩
    | .fin n m e =>
      let (i, inexact) := roundInt mode n m e
      let fl := if inexact then fNX else 0
      if i < lo then ⟨patOf w lo, fl, 1, 0⟩
      else if hi < i then ⟨patOf w hi, fl, 1, 0⟩
      else ⟨patOf w i, fl, 0, 0⟩

/-- Every value of `src` is a value of `dst`, and the formats differ (02 R60). -/
def holdsAll (src dst : Fmt) : Bool :=
  src != dst &&
  match src, dst with
  | .ds8, .fp32 => true
  | .e8, .fp32 => true
  | .bf16, .fp32 => true
  | .fp16, .fp32 => true
  | .f8a, .fp32 => true
  | .f8b, .fp32 => true
  | .f8a, .bf16 => true
  | .f8a, .fp16 => true
  | .f8b, .bf16 => true
  | .f8b, .fp16 => true
  | .i8, .fp32 | .i8, .bf16 | .i8, .fp16 | .n8, .fp32 | .n8, .bf16 | .n8, .fp16 | .i16, .fp32 | .n16, .fp32 => true
  | _, _ => Fmt.isInt src && Fmt.isInt dst && (if Fmt.signed src == Fmt.signed dst then decide (src.bits < dst.bits)
      else Fmt.signed dst && decide (src.bits < dst.bits))

/-- One lane of `vcvt` (06 R163): exact under 02 R60, else the procedure of 02 R61. -/
def convert (mode : Rnd) (b : Option (BitVec 32)) (src dst : Fmt) (n : Nat) : Narrow :=
  let v := elemVal src n
  if holdsAll src dst then
    match Fmt.fp? dst with
    | some f => ⟨(roundVal f .rne v).1, 0, 0, 0⟩
    | none => narrow mode none dst v
  else narrow mode b dst v

/-! ## Sums (02 R69 to R75) -/

/-- The exact sum of products within a chunk (02 R70, R71). DESIGN CHOICE: R70's EXACT_SUM names no rounding mode, so the sign of a sum that is
exactly zero is + in every mode, RDN too, unless every product is −0 (log 51). -/
def exactSum (ps : List FpVal) : FpVal :=
  if ps.any FpVal.isNan then .nan
  else
    let pos := ps.any fun p => p == .inf false
    let neg := ps.any fun p => p == .inf true
    if pos && neg then .nan
    else if pos then .inf false
    else if neg then .inf true
    else
      let allNeg := !ps.isEmpty && ps.all fun p => match p with | .fin n 0 _ => n | _ => false
      let r := ps.foldl (fun (acc : Int × Int) p => match p with
        | .fin n m e =>
          let q := min acc.2 e
          let a : Int := (m * 2 ^ (e - q).toNat : Nat)
          (acc.1 * ((2 ^ (acc.2 - q).toNat : Nat) : Int) + (if n then -a else a), q)
        | _ => acc) ((0, 0) : Int × Int)
      if r.1 = 0 then .fin allNeg 0 0 else .fin (decide (r.1 < 0)) r.1.natAbs r.2

/-- The list cut into chunks of 16 (02 R70); `fuel` bounds their number. -/
def chunks16 {α : Type} : Nat → List α → List (List α)
  | 0, _ => []
  | _, [] => []
  | k + 1, l => l.take 16 :: chunks16 k (l.drop 16)

/-- FP32 accumulation of products over chunks (02 R70, R71). -/
def accFp (mode : Rnd) (acc : Nat) (ps : List FpVal) : Nat :=
  (chunks16 (ps.length / 16 + 1) ps).foldl (fun a c => (roundVal fp32 mode ((fp32.val a).add mode (exactSum c))).1) acc

/-- INT32 accumulation with saturation, and whether it saturated (02 R70, R72). -/
def accInt (acc : Int) (ps : List Int) : Int × Bool :=
  (chunks16 (ps.length / 16 + 1) ps).foldl (fun (a : Int × Bool) c =>
    let s := a.1 + c.foldl (· + ·) 0
    if s < intMin 32 true then (intMin 32 true, true)
    else if intMax 32 true < s then (intMax 32 true, true)
    else (s, a.2)) (acc, false)

/-- One level of a pairwise tree. -/
def pairUp {α : Type} (op : α → α → α) : List α → List α
  | a :: b :: r => op a b :: pairUp op r
  | l => l

/-- The pairwise tree of 02 R74 over 2^k lanes. -/
def treeFold {α : Type} (op : α → α → α) : Nat → List α → List α
  | 0, l => l
  | k + 1, l => treeFold op k (pairUp op l)

/-! ## Functions that are not exact: values to 320 bits after the binary point (02 R65, R76; 06 R165) -/

/-- ln 2 · 2^320. -/
def ln2Fix : Nat := 1480553391661173448385607439722553250922680800745876974795605978609098082859138712941075737848984

def fixOne : Nat := 2 ^ 320

/-- Σ y^k / k! to `n` further terms, from the term `t` of index `k`. -/
def expTerms : Nat → Nat → Nat → Nat → Nat
  | 0, _, _, _ => 0
  | n + 1, k, y, t => t + expTerms n (k + 1) y (t * y / fixOne / (k + 1))

/-- 2^f for f = `x` / 2^320 in [0, 1), times 2^320. -/
def exp2Fix (x : Nat) : Nat := expTerms 90 0 (x * ln2Fix / fixOne) fixOne

/-- m · 2^e as an integer part and a fraction times 2^320, rounded down. -/
def splitFix (neg : Bool) (m : Nat) (e : Int) : Int × Nat :=
  let i : Int := if 0 ≤ e + 320 then ((m * 2 ^ (e + 320).toNat : Nat) : Int) else ((m / 2 ^ (-(e + 320)).toNat : Nat) : Int)
  let v := if neg then -i else i
  (v.fdiv (fixOne : Int), (v.fmod (fixOne : Int)).toNat)

/-- log2 of `x` / 2^320 in [1, 2), `n` bits, by repeated squaring. -/
def log2Bits : Nat → Nat → Nat → Nat
  | 0, _, acc => acc
  | n + 1, x, acc =>
    let y := x * x / fixOne
    if 2 * fixOne ≤ y then log2Bits n (y / 2) (2 * acc + 1) else log2Bits n y (2 * acc)

/-- EXP2 of 02 R76: correctly rounded to FP32 under RNE, with the flags of that rounding. -/
def exp2Rne (a : Nat) : Nat × BitVec 5 :=
  match fp32.val a with
  | .nan => (fp32.nanPat, 0)
  | .inf n => (if n then 0 else fp32.infPat false, 0)
  | .fin n m e =>
    if m = 0 then (0x3F800000, 0)
    else if 9 < (bitLen m : Int) + e then (if n then (0, fUF ||| fNX) else (fp32.infPat false, fOF ||| fNX))
    else
      let (i, f) := splitFix n m e
      let s := exp2Fix f
      roundFin fp32 .rne false (2 * s + (if f = 0 then 0 else 1)) (i - 321)

/-! ## The special functions (06 R165, R166) -/

/-- A positive real as m · 2^e: exact, or with the lowest bit of `m` standing for a remainder below it. -/
structure Approx where
  m : Nat
  e : Int
  exact : Bool
  deriving DecidableEq, Repr

/-- A quotient of positive integers to at least 400 bits. -/
def quotApprox (num den : Nat) : Approx := ⟨2 * (num * 2 ^ 400 / den) + 1, -401, false⟩

/-- 2^x for a real x given as an integer part and a fraction times 2^320. -/
def exp2Approx (i : Int) (f : Nat) : Approx :=
  if f = 0 then ⟨1, i, true⟩ else ⟨2 * exp2Fix f + 1, i - 321, false⟩

/-- x / ln 2 as an integer part and a fraction times 2^320, for x = ±m · 2^e. -/
def overLn2 (neg : Bool) (m : Nat) (e : Int) : Int × Nat :=
  let s := if 0 ≤ e + 640 then m * 2 ^ (e + 640).toNat else m / 2 ^ (-(e + 640)).toNat
  let i : Int := ((s / ln2Fix : Nat) : Int)
  let v := if neg then -i else i
  (v.fdiv (fixOne : Int), (v.fmod (fixOne : Int)).toNat)

/-- 1 / (1 + 2^t) for t = i + f / 2^320 and |i| at most 400. -/
def sigmApprox (i : Int) (f : Nat) : Approx :=
  let g := exp2Fix f
  if 0 ≤ i then quotApprox fixOne (fixOne + g * 2 ^ i.toNat)
  else quotApprox (2 ^ (320 + (-i).toNat)) (2 ^ (320 + (-i).toNat) + g)

/-- 1 − 2 / (2^t + 1) for t as above and positive. -/
def tanhApprox (i : Int) (f : Nat) : Approx :=
  let g := exp2Fix f * 2 ^ i.toNat
  quotApprox (g - fixOne) (g + fixOne)

/-- The admitted results around an exact value, within `ulps` units in the last place, and the one `pick` selects; its flags; `neg` is the
value's sign. An infinity is admitted only where the exact value passes the largest finite one (02 R58). DESIGN CHOICE: which unit in the last
place counts at a binade boundary is open; 1 unit admits the two values that bracket the exact one, and 2 units one more on each side (log 52). -/
def pickNear (f : FpFmt) (ulps : Nat) (neg : Bool) (a : Approx) (pick : Nat) : Nat × BitVec 5 :=
  let lo := (roundFin f .rtz false a.m a.e).1
  let hi := (roundFin f .rup false a.m a.e).1
  let near := if lo == hi then [lo, lo + 1] ++ (if 0 < lo then [lo - 1] else []) else [lo, hi]
  let far := if ulps < 2 then []
    else if lo == hi then [lo + 2] ++ (if 1 < lo then [lo - 2] else []) else [hi + 1] ++ (if 0 < lo then [lo - 1] else [])
  let all := (near ++ far).filter fun r => r ≤ max f.maxPat hi
  let r := all.getD (pick % all.length) lo
  let inexact := !(a.exact && r == lo && lo == hi)
  (f.sgn neg r, (if inexact then fNX else 0) ||| (if r == f.maxPat + 1 then fOF else 0)
    ||| (if inexact && r < 2 ^ f.mb then fUF else 0))

/-- A result the spec gives exactly. -/
def exactRes (f : FpFmt) (neg : Bool) (m : Nat) (e : Int) : Nat × BitVec 5 := roundFin f .rne neg m e

/-- A magnitude far below every format's least value. -/
def tinyApprox : Approx := ⟨1, -600, false⟩

/-- A value just below 1. -/
def belowOne : Approx := ⟨2 ^ 400 - 1, -400, false⟩

/-- `vexp2`. -/
def sfuExp2 (f : FpFmt) (pick a : Nat) : Nat × BitVec 5 :=
  match f.val a with
  | .nan => (f.nanPat, fNV)
  | .inf n => (if n then 0 else f.infPat false, 0)
  | .fin n m e =>
    if 12 < (bitLen m : Int) + e then (if n then pickNear f 1 false tinyApprox pick else (f.infPat false, fOF ||| fNX))
    else
      let (i, fr) := splitFix n m e
      if (f.bias : Int) < i then (f.infPat false, fOF ||| fNX)
      else if fr = 0 && f.emin ≤ i then exactRes f false 1 i
      else pickNear f 1 false (exp2Approx i fr) pick

/-- `vlog2`. -/
def sfuLog2 (f : FpFmt) (pick a : Nat) : Nat × BitVec 5 :=
  match f.val a with
  | .nan => (f.nanPat, fNV)
  | .inf n => if n then (f.nanPat, fNV) else (f.infPat false, 0)
  | .fin n m e =>
    if m = 0 then (f.infPat true, fDZ)
    else if n then (f.nanPat, fNV)
    else
      let k := Nat.log2 m
      let i : Int := e + (k : Int)
      if m = 2 ^ k then exactRes f (decide (i < 0)) i.natAbs 0
      else
        let v : Int := i * ((2 ^ 150 : Nat) : Int) + (log2Bits 150 (m * 2 ^ (320 - k)) 0 : Nat)
        if 0 ≤ v then pickNear f 1 false ⟨2 * v.toNat + 1, -151, false⟩ pick
        else pickNear f 1 true ⟨2 * (-v).toNat - 1, -151, false⟩ pick

/-- `vrsqrt`. -/
def sfuRsqrt (f : FpFmt) (pick a : Nat) : Nat × BitVec 5 :=
  match f.val a with
  | .nan => (f.nanPat, fNV)
  | .inf n => if n then (f.nanPat, fNV) else (0, 0)
  | .fin n m e =>
    if m = 0 then (f.infPat n, fDZ)
    else if n then (f.nanPat, fNV)
    else
      let (m, e) := if e % 2 = 0 then (m, e) else (2 * m, e - 1)
      let q := 2 ^ 160 / m
      let r := isqrt q
      let ex := decide (r * r * m = 2 ^ 160)
      pickNear f 1 false (if ex then ⟨r, -80 - e / 2, true⟩ else ⟨2 * r + 1, -81 - e / 2, false⟩) pick

/-- `vtanh`. -/
def sfuTanh (f : FpFmt) (pick a : Nat) : Nat × BitVec 5 :=
  match f.val a with
  | .nan => (f.nanPat, fNV)
  | .inf n => (f.sgn n (f.bias * 2 ^ f.mb), 0)
  | .fin n m e =>
    if m = 0 then pickNear f 2 n ⟨0, 0, true⟩ pick
    else if (bitLen m : Int) + e < -20 then pickNear f 2 n ⟨m * 2 ^ 60 - 1, e - 60, false⟩ pick
    else if 7 < (bitLen m : Int) + e then pickNear f 2 n belowOne pick
    else let t := overLn2 false (2 * m) e; pickNear f 2 n (tanhApprox t.1 t.2) pick

/-- `vsigm`. -/
def sfuSigm (f : FpFmt) (pick a : Nat) : Nat × BitVec 5 :=
  match f.val a with
  | .nan => (f.nanPat, fNV)
  | .inf n => (if n then 0 else f.bias * 2 ^ f.mb, 0)
  | .fin n m e =>
    if m = 0 then pickNear f 2 false ⟨1, -1, true⟩ pick
    else if 8 < (bitLen m : Int) + e then pickNear f 2 false (if n then tinyApprox else belowOne) pick
    else let t := overLn2 (!n) m e; pickNear f 2 false (sigmApprox t.1 t.2) pick

/-- Step 4 of the epilogue (02 R65): v / (1 + 2^(−c·v)), within 2 units in the last place. -/
def gelu2 (pick a : Nat) : Nat :=
  match fp32.val a, fp32.val 0x401D265F with
  | .nan, _ => fp32.nanPat
  | .inf n, _ => if n then fp32.signBit else fp32.infPat false
  | .fin n m e, .fin _ mc ec =>
    if m = 0 then a
    else if 9 < (bitLen m : Int) + e then
      (if n then (pickNear fp32 2 true tinyApprox pick).1 else (pickNear fp32 2 false ⟨m * 2 ^ 60 - 1, e - 60, false⟩ pick).1)
    else
      let t := splitFix (!n) (m * mc) (e + ec)
      let q := sigmApprox t.1 t.2
      (pickNear fp32 2 n ⟨2 * (m * q.m) + 1, e + q.e - 1, false⟩ pick).1
  | _, _ => a

end Sys2Proof.Machine
end

