-- ==== Sys2Proof/Machine/Operands.lean ====
section
/-! DEFINITION. How an instruction issues: its guard, its queue operands, light handlers, the HAZARD and DF-use traps, its operands as read, its effect, and its end. Lane modifiers and lane masks of vector operands. -/

namespace Sys2Proof.Machine

/-! ## Queue numbers (04 R112, 11 R260 to R263) -/

def isQueue (r : SReg) : Bool := 24 ≤ r.val && r.val ≤ 27
def qOf (r : SReg) : Fin 4 := Fin.ofNat 4 (r.val - 24)

/-- The core and direction whose outbound words are inbound on queue `q` of a location. -/
def inboundOf (l : Loc) (q : Fin 4) : Option (Loc × Fin 4) :=
  match l with
  | .core d i => (neighbour d i q).map fun j => (.core d j, opposite q)
  | _ => none

/-- The words that can be dequeued now, oldest first: the link's, then the spoiled ones (11 R262). -/
def inWords (s : State) (l : Loc) (q : Fin 4) : List LinkWord :=
  match inboundOf l q with
  | none => []
  | some (m, e) =>
    let d := (core s m).links[e]
    (d.words ++ d.spoiled).takeWhile fun w => w.ready ≤ s.cycle

def modLink (s : State) (l : Loc) (q : Fin 4) (f : LinkDir → LinkDir) : State :=
  modCore s l fun c => { c with links := c.links.set q (f c.links[q]) }

/-- A link direction after its oldest word is taken: it stops growing once no spoiled word is left (11 R262). -/
def LinkDir.pop (d : LinkDir) : LinkDir :=
  match d.words with
  | _ :: r => { d with words := r, fullSince := none, growing := d.growing && !d.spoiled.isEmpty }
  | [] => { d with spoiled := d.spoiled.tail, fullSince := none, growing := d.growing && !d.spoiled.tail.isEmpty }

/-- Bytes of spoil in use at a location for a partition (11 R268). -/
def feListAt (s : State) (l : Loc) : List Request := s.reqs.filter fun r => (match r.st with | .feList _ => true | _ => false) && servedAt r.key == l
def feListDepth (l : Loc) : Nat := if isSliceCore l then 64 else 16

def ringBytes (m : RingMsg) : Nat := 16 + 16 * ((m.payload.length + 15) / 16)

def spoilUse (s : State) (l : Loc) (pid : Nat) : Nat :=
  let c := core s l
  16 * ((List.finRange 4).foldl (fun n q => n + c.links[q].spoiled.length) 0)
    + 16 * (((feListAt s l).drop (feListDepth l)).filter fun r => r.part == pid).length
    + ((c.ringSpoil.filter fun m => m.pid == pid).map fun m => 16 + ringBytes m).sum
    + 512 * (c.spillSpoil.filter fun a => a.th.part == pid).length

def quotaOf (s : State) (pid : Nat) : Nat := match part? s pid with | some p => p.quota | none => 0

/-- Whether an item of `n` bytes fits the spoil quota (11 R269). -/
def spoilFits (s : State) (l : Loc) (pid n : Nat) : Bool := spoilUse s l pid + n ≤ quotaOf s pid

/-- An item found a partition's quota used up: the SPOIL_FULL event, unless the partition has been told already (11 R269; user kinds of 15 R360). -/
def spoilFull (s : State) (l : Loc) (pid kind : Nat) : State :=
  if (core s l).spoilTold.contains pid then s
  else raiseEvent (modCore s l fun c => { c with spoilTold := pid :: c.spoilTold }) (dieOf l) { KEvent.base with
    kind := .fault, reason := 1, pid := pid, cause := 33, detail := kind, cores := [l] }

/-- The partition is told again once its use has fallen below half its quota (11 R269). -/
def rearm (s : State) (l : Loc) (pid : Nat) : State :=
  if 2 * spoilUse s l pid < quotaOf s pid then modCore s l fun c => { c with spoilTold := c.spoilTold.filter fun p => p != pid } else s

/-- Takes the oldest word of an inbound queue for a thread of a partition; that may free spoil at the neighbour. -/
def dequeue (s : State) (l : Loc) (pid : Nat) (q : Fin 4) : State :=
  match inboundOf l q with
  | none => s
  | some (m, e) => rearm (modLink s m e LinkDir.pop) m pid

/-- Room for one word toward `q`, and whether the lack of it is the quota's. -/
def hasRoom (s : State) (l : Loc) (pid : Nat) (q : Fin 4) : Bool :=
  let d := (core s l).links[q]
  if d.growing then spoilFits s l pid 16 else d.words.length < 8

/-- Writes a word toward `q` (11 R260 to R262). -/
def enqueue (s : State) (l : Loc) (q : Fin 4) (v : Word) (ctl : Bool) : State :=
  let w : LinkWord := ⟨v, ctl, s.cycle + 2⟩
  modLink s l q fun d =>
    if d.growing then { d with spoiled := d.spoiled ++ [w] }
    else { d with words := d.words ++ [w], fullSince := if d.words.length = 7 then some s.cycle else d.fullSince }

/-! ## Lanes (03 R86, R90; 04 R120) -/

/-- The element type of the tile that holds a vector register (07 R176). -/
def typeOf (c : Core) (v : VReg) : Fmt := c.types[v.tile]

/-- Lanes of a row of format `f`. -/
def laneCount (f : Fmt) : Nat := 512 / f.bits

/-- The source lane that lane `i` reads (03 R90). -/
def srcLane (n : Nat) (m : LaneMod) (i : Nat) : Nat :=
  let bk := min 32 n
  let j := i % bk
  let b := i - j
  match m with
  | .none => i
  | .rot k => b + (j + k.val) % bk
  | .rev => b + bk - 1 - j
  | .g8 k => (i - i % 8) + ((Nat.xor (i % 8) (k.val % 8)) + 2 * (k.val / 8)) % 8
  | .bc k => b + k.val
  | .xor k => b + Nat.xor j k.val

/-- The checks on a modifier that depend on the lane count (03 R90, R91). -/
def modOk (n : Nat) : LaneMod → Bool
  | .bc k => decide (k.val < min 32 n)
  | .xor k => decide (k.val < min 32 n)
  | _ => true

/-- A row as an operand, read through its modifier. -/
def readLanes (c : Core) (v : VReg) (m : LaneMod) : List Nat :=
  let f := typeOf c v
  let n := laneCount f
  (List.range n).map fun i => lane c.tiles[v] f.bits (srcLane n m i)

/-- m0 reads as all ones (04 R120). -/
def readM (c : Core) (m : MReg) : BitVec 64 := if m = 0 then BitVec.allOnes 64 else c.m[m]
def writeM (c : Core) (m : MReg) (v : BitVec 64) : Core := if m = 0 then c else { c with m := c.m.set m v }

/-- The active lanes of a vector instruction (03 R86). -/
def activeMask (c : Core) (p : Option VPfx) : BitVec 64 := match p with | some q => readM c q.mask | none => BitVec.allOnes 64

/-- The bits of a row that lanes `act` of width `w` cover. -/
def laneBits (w : Nat) (act : Nat → Bool) : Row :=
  rowOf w ((List.range (512 / w)).map fun i => if act i then 2 ^ w - 1 else 0)

/-- A row result under the prefix: active lanes take the result, the others keep the destination or become zero (03 R86). Answers the bits
written and their value. -/
def maskedRow (c : Core) (p : Option VPfx) (w : Nat) (vals : List Nat) : Row × Row :=
  let act := laneBits w fun i => (activeMask c p).getLsbD i
  match p with
  | some q => if q.z then (BitVec.allOnes 512, rowOf w vals &&& act) else (act, rowOf w vals)
  | none => (BitVec.allOnes 512, rowOf w vals)

/-- Writes a row result. -/
def putRow (s : State) (x : Cur) (d : VReg) (p : Option VPfx) (w : Nat) (vals : List Nat) : State :=
  let r := maskedRow (core s x.loc) p w vals
  modCore s x.loc fun c => setRow c d r.1 r.2

/-- The vector registers a prefix names. -/
def pfxRegs (p : Option VPfx) : List VReg := match p with | some q => q.e.toList | none => []

/-! ## What an instruction names -/

/-- The registers an instruction names: scalar sources in field order, the destination where it is a source too, the destinations, the label
and vector registers, the lane modifiers with their registers, whether it is tile-bound (01 R33), the sources that may not have DF set (04 R113),
and further register sources (`spawn`'s payload). -/
structure Uses where
  a : Option SReg := none
  b : Option SReg := none
  c : Option SReg := none
  d : Option SReg := none
  rd : Option SReg := none
  ls : List LReg := []
  ld : Option LReg := none
  vs : List VReg := []
  lm : List (VReg × LaneMod) := []
  tile : Bool := false
  dfu : List SReg := []
  dfl : List LReg := []
  xs : List SReg := []
  deriving DecidableEq, Repr

/-- The operands as read. `df` is the OR of the DF bits of the register sources (04 R113). -/
structure Args where
  a : Word
  b : Word
  c : Word
  d : Word
  df : Bool
  deriving DecidableEq, Repr

/-- What an instruction's own rule makes of a state. -/
inductive Eff where
  /-- A precise trap; the instruction has no effect. -/
  | trap (cause detail addr : Nat)
  /-- A precise trap that writes the label fault record (13 R316). -/
  | trapL (cause detail addr : Nat) (old new : Label)
  /-- The instruction waits for a resource and issues again. -/
  | block (why : BlockWhy)
  /-- The same, with a request to a unit made on the state before the operands were read. -/
  | wait (f : State → State)
  /-- The instruction has its effect and completes. -/
  | go (t : State)
  /-- The same with a taken branch; `pops` where 05 R145 applies. -/
  | jump (t : State) (target : Word) (pops : Bool)
  /-- The thread waits for a reply, which completes the instruction. -/
  | park (t : State)
  /-- The instruction has arranged the slot's next state itself. -/
  | stay (t : State)
  /-- The same on the state before the operands were read: no queue has given up a word. -/
  | undo (f : State → State)

def Uses.srcs (u : Uses) : List SReg := [u.a, u.b, u.c, u.d].filterMap id ++ u.xs

/-- How many words an instruction needs from queue `q`. -/
def Uses.needs (u : Uses) (q : Fin 4) : Nat := (u.srcs.filter fun r => isQueue r && qOf r == q).length

/-- The queue the instruction writes. -/
def Uses.outQ (u : Uses) : Option (Fin 4) :=
  match u.rd with
  | some r => if isQueue r then some (qOf r) else none
  | none => none

/-- Whether every source queue holds the words needed and the destination queue has room (04 R112). -/
def queuesReady (s : State) (l : Loc) (pid : Nat) (u : Uses) : Bool :=
  ((List.finRange 4).all fun q => u.needs q ≤ (inWords s l q).length)
    && (match u.outQ with | some q => hasRoom s l pid q | none => true)

def queueNeeds (u : Uses) : List (Fin 4 × Nat) := ((List.finRange 4).map fun q => (q, u.needs q)).filter fun p => p.2 != 0
def queueRooms (u : Uses) : List (Fin 4 × Nat) := match u.outQ with | some q => [(q, 1)] | none => []

/-- The first source queue, in field order, whose head word is a control value (11 R263). -/
def ctlHead (s : State) (l : Loc) : List SReg → Option (Fin 4 × Word)
  | [] => none
  | r :: rest =>
    if isQueue r then
      match inWords s l (qOf r) with
      | w :: _ => if w.ctl then some (qOf r, w.v) else ctlHead s l rest
      | [] => ctlHead s l rest
    else ctlHead s l rest

/-- Entry to the light handler (11 R263). -/
def lightEnter (s : State) (x : Cur) (q : Fin 4) (v : Word) : State :=
  modTh (dequeue s x.loc (thread s x.loc x.slot).part q) x.loc x.slot fun th =>
    { th with lval := v, ldir := BitVec.ofNat 2 q.val, lret := th.pc.setWidth 56, lact := true, pc := th.qhvec, walk := .none }

/-- Reads one scalar source; a queue gives up its oldest word, its tag dropped and counted (11 R261, R263). -/
def readSrc (s : State) (x : Cur) (r : Option SReg) : Word × State :=
  match r with
  | none => (0, s)
  | some r =>
    if isQueue r then
      match inWords s x.loc (qOf r) with
      | w :: _ =>
        let s := dequeue s x.loc (thread s x.loc x.slot).part (qOf r)
        (w.v, if w.ctl then count s (dieOf x.loc) (thread s x.loc x.slot).part 6 1 else s)
      | [] => (0, s)
    else (if r = 0 then 0 else (thread s x.loc x.slot).s[r], s)

def dfOf (th : Thread) (r : SReg) : Bool := !(isQueue r) && r != 0 && th.sdf.getLsbD r.val

/-- Reads the operands in field order A, B, C, then a destination that is a source (04 R112). -/
def readArgs (s : State) (x : Cur) (u : Uses) : Args × State :=
  let th := thread s x.loc x.slot
  let a := readSrc s x u.a
  let b := readSrc a.2 x u.b
  let c := readSrc b.2 x u.c
  let d := readSrc c.2 x u.d
  (⟨a.1, b.1, c.1, d.1, u.srcs.any (dfOf th) || u.ls.any fun r => th.ldf.getLsbD r.val⟩, d.2)

/-- Whether the instruction names a register marked pending (01 R26). -/
def hazard (th : Thread) (u : Uses) : Bool :=
  (u.srcs ++ u.rd.toList).any (fun r => r != 0 && th.spnd.getLsbD r.val)
    || (u.ls ++ u.ld.toList).any (fun r => th.lpnd.getLsbD r.val)
    || u.vs.any fun r => th.vpnd.getLsbD r.val

/-- Whether the instruction uses a DF-set register where that traps, or would write a DF-set value to a queue (04 R112, R113). -/
def dfUse (th : Thread) (u : Uses) : Bool :=
  u.dfu.any (dfOf th) || (u.dfl.any fun r => th.ldf.getLsbD r.val)
    || (u.outQ.isSome && (u.srcs.any (dfOf th) || u.ls.any fun r => th.ldf.getLsbD r.val))

/-- p[PG] XOR PN (03 R83); p0 reads as true. -/
def executes (th : Thread) (h : Hdr) : Bool := ((h.pg == 0 || th.p.getLsbD h.pg.val) ^^ h.pn)

/-! ## Issue -/

/-- What follows an instruction's own rule. Under a pre-emption request an instruction that would wait halts the thread before it
(15 R372). -/
def finish (s : State) (x : Cur) (len : Nat) (sw : Bool) : Eff → State
  | .trap c d a => trapAt s x c d a
  | .trapL c d a o n =>
    raiseTrap s x.loc x.slot ⟨c, d, (thread s x.loc x.slot).pc, x.w0, x.w1, BitVec.ofNat 64 (a % 2 ^ 56), some o, some n, false⟩
  | .block w =>
    if (slotAt s x.loc x.slot).halting.isSome then modSlot s x.loc x.slot fun y => { y with halting := some 0 }
    else setSt s x.loc x.slot (.block w s.cycle)
  | .wait f =>
    if (slotAt s x.loc x.slot).halting.isSome then modSlot s x.loc x.slot fun y => { y with halting := some 0 } else f s
  | .go t => advance t x.loc x.slot len sw
  | .jump t target pops =>
    let th := thread t x.loc x.slot
    goto t x.loc x.slot target (if pops then popLoops th.pc target th.loops else th.loops) sw
  | .park t =>
    if (slotAt s x.loc x.slot).halting.isSome then modSlot s x.loc x.slot fun y => { y with halting := some 0 }
    else modTh t x.loc x.slot fun th => { th with cont := some ⟨len, sw, x.w0, x.w1⟩ }
  | .stay t => t
  | .undo f => f s

/-- The checks between decoding and an instruction's own rule, in this order: lane modifiers and use of tile state (03 R96 rows 9 and 10), the guard (03 R83), the
queues (04 R112), the light handler (11 R263), HAZARD (01 R26), DF-use (04 R113). -/
def issueAt (s : State) (x : Cur) (len : Nat) (h : Hdr) (u : Uses) (body : Args → State → Eff) : State :=
  let th := thread s x.loc x.slot
  if !(u.lm.all fun q => modOk (laneCount (typeOf (core s x.loc) q.1)) q.2) then trapAt s x cILLEGAL 9 0
  else if u.tile && !th.inTask then trapAt s x cILLEGAL 10 0
  else if !executes th h then advance s x.loc x.slot len h.sw
  else if !queuesReady s x.loc th.part u then
    finish (match u.outQ with
      | some q => if (core s x.loc).links[q].growing && !hasRoom s x.loc th.part q then spoilFull s x.loc th.part 0 else s
      | none => s) x len h.sw (.block (.queues (queueNeeds u) (queueRooms u)))
  else
    match (if th.qhvec != 0 && !th.lact && !th.priv then ctlHead s x.loc u.srcs else none) with
    | some (q, v) => lightEnter s x q v
    | none =>
      if hazard th u then trapAt s x cHAZARD 0 0
      else if dfUse th u then trapAt s x cDFUSE 0 0
      else
        let r := readArgs s x u
        finish s x len h.sw (body r.1 r.2)

/-- The meaning of a Gleral instruction: it issues in the thread that the step chose. -/
def issue (s : State) (len : Nat) (h : Hdr) (u : Uses) (body : Cur → Args → State → Eff) : Host.Outcome State Fault Refusal :=
  match s.cur with
  | none => .fault .noIssue
  | some x => .next (issueAt s x len h u (body x))

/-- The same for a form that is illegal with detail 2 outside a handler: that trap comes before the guard (03 R83; 11 R265; 15 R365). -/
def issueIf (s : State) (len : Nat) (h : Hdr) (legal : Thread → Bool) (body : Cur → Args → State → Eff) : Host.Outcome State Fault Refusal :=
  match s.cur with
  | none => .fault .noIssue
  | some x => .next (if legal (thread s x.loc x.slot) then issueAt s x len h {} (body x) else trapAt s x cILLEGAL 2 0)

/-- Writes a scalar destination, or a word of the queue it names. -/
def putS (s : State) (x : Cur) (r : SReg) (v : Word) (df : Bool) : State :=
  if isQueue r then enqueue s x.loc (qOf r) v false else modTh s x.loc x.slot (setS r v df)

/-- Writes a label destination. -/
def putL (s : State) (x : Cur) (r : LReg) (v : Label) (df : Bool) : State := modTh s x.loc x.slot (setL r v df)

/-- Writes a predicate or resolves a guard slot; p0 discards (03 R84, 05 R137). -/
def setP (d : PDst) (v : Bool) (th : Thread) : Thread :=
  match d with
  | .p r => if r = 0 then th else { th with p := if v then th.p ||| (1#8 <<< r.val) else th.p &&& ~~~ (1#8 <<< r.val) }
  | .g r => { th with g := th.g.set r (if v then .tt else .ff) }

def readP (th : Thread) (r : PReg) : Bool := r == 0 || th.p.getLsbD r.val

/-- Writes a predicate or guard slot; a command held on the slot takes its decision (05 R137). -/
def putP (s : State) (x : Cur) (d : PDst) (v : Bool) : State :=
  match d with
  | .p _ => modTh s x.loc x.slot (setP d v)
  | .g _ => settle (modTh s x.loc x.slot (setP d v)) x.loc

/-- The issuing thread. -/
def me (s : State) (x : Cur) : Thread := thread s x.loc x.slot

/-- Issues a long-latency result of a fixed latency (01 R24, 05 R131). -/
def goLong (s : State) (x : Cur) (u : LongUnit) (due : Nat) (ws : List RegWrite) (flags : BitVec 5) : Eff :=
  .go (addLong s x.loc x.slot ⟨u, some due, ws, flags⟩)

/-- The rounding mode in force for a scalar instruction (02 R57). -/
def modeOf (th : Thread) : Rnd :=
  match (th.fpmode >>> 5).toNat with
  | 2 => .rtz
  | 3 => .rdn
  | 4 => .rup
  | _ => .rne

def rndOf (th : Thread) (r : Rnd) : Rnd := if r = .thread then modeOf th else r

def vlen (p : Option VPfx) : Nat := if p.isSome then 12 else 8
def mlen (p : Option MPfx) : Nat := if p.isSome then 12 else 8
def glen (p : Option GPfx) : Nat := if p.isSome then 20 else 16

end Sys2Proof.Machine
end

