-- ==== Sys2Proof/Machine/MemAct.lean ====
section
/-! DEFINITION. What an access does at its serving point, wait lists and the waking of waiters (08 R196, R202, R213, R214; 09 R220 to R228; 10 R243; 11 R281). -/

namespace Sys2Proof.Machine

/-- What performing (a part of) an access gives: the whole access done with its reply, a wait on an own granule, a part done with the rest to do, the
access on its way to another address, which is still to be translated, or a walk that it needs first. -/
inductive Perf where
  | done (s : State) (r : Reply)
  | wait (gran : Nat)
  | more (s : State) (op : MemOp)
  | away (s : State) (op : MemOp) (va size : Nat) (k : XKind)
  | walk (s : State) (va : Nat)

/-! ## Requests -/

/-- A label access whose lookup has not returned: its record has no physical address yet. -/
def MemOp.isLook : MemOp → Bool
  | .look .. => true
  | .record .. => true
  | _ => false
def MemOp.isAgent : MemOp → Bool
  | .agent => true
  | _ => false
def MemOp.isRow : MemOp → Bool
  | .vload .. => true
  | .vstore .. => true
  | _ => false
def MemOp.isCont : MemOp → Bool
  | .contK .. => true
  | _ => false

def isMine (th : Thread) (r : Request) : Bool := r.thid == th.thid && r.part == th.part

/-- Not yet performed. -/
def Request.undone (r : Request) : Bool := match r.st with | .replied _ => false | _ => true

def setReq (s : State) (id : Nat) (f : Request → Request) : State := { s with reqs := s.reqs.map fun r => if r.id = id then f r else r }
def dropReq (s : State) (id : Nat) : State := { s with reqs := s.reqs.filter fun r => r.id != id }
def req? (s : State) (id : Nat) : Option Request := s.reqs.find? fun r => r.id == id

/-- Moves a request behind all others: the list order is the order of arrival on wait lists and in queues. -/
def moveLast (s : State) (id : Nat) : State :=
  { s with reqs := (s.reqs.filter fun r => r.id != id) ++ s.reqs.filter fun r => r.id == id }

/-- Enters a request on a granule's wait list, in spoil beyond its depth; with the quota used up it is re-presented (08 R196, 11 R269). -/
def enterList (s : State) (r : Request) (g : Nat) : State :=
  let l := servedAt r.key
  if (feListAt s l).length < feListDepth l || spoilFits s l r.part 16 then moveLast (setReq s r.id fun q => { q with st := .feList g }) r.id
  else spoilFull (setReq s r.id fun q => { q with st := .sent }) l r.part 1

/-! ## Scopes (09 R224) -/

def Scope.rank : Scope → Nat
  | .narrowest => 0
  | .core => 1
  | .die => 2
  | .module => 3
  | .system => 4

/-- SCOPE widened to the narrowest that holds both core and address. -/
def scopeOf (l : Loc) (key : Nat) (e : Scope) : Scope :=
  let n : Scope := if isLm key && servedAt key == l then .core else if dieOf (servedAt key) = dieOf l then .die else .module
  if Scope.rank e < Scope.rank n then n else e

/-- The scope of a label access whose record is not known yet: no record is in LM, so at least its die (13 R320, R324; DESIGN CHOICE, log 45: a fence
of the die waits for the lookup, which tells the address). -/
def lookScope (e : Scope) : Scope := if Scope.rank e < Scope.rank .die then .die else e

/-! ## Bank and channel queues (01 R47; 08 R202; 11 R259) -/

/-- The bank of a slice, or the channel at its home slice, that serves an address: its place, its number and its depth. -/
structure Bank where
  at_ : Loc
  num : Nat
  depth : Nat
  deriving DecidableEq, Repr

def bankOf (key : Nat) : Option Bank :=
  if isSlice key then some ⟨servedAt key, key / 16 % 8, 16⟩
  else if isHbm key then some ⟨servedAt key, 8 + key / 4096 % 32, 32⟩
  else none

/-- The addresses that a request has still to touch, a row one for each granule. -/
def Request.keys (r : Request) : List Nat :=
  match r.op with
  | .vload _ _ _ _ left _ => left.map fun i => r.key + 16 * i.val
  | .vstore _ _ _ left => left.map fun i => r.key + 16 * i.val
  | _ => [r.key]

/-- The queues a request stands in: a row stands in those of all its granules (DESIGN CHOICE, log 46). -/
def Request.banks (r : Request) : List Bank := (r.keys.filterMap bankOf).eraseDups

/-- The entries of a queue, in the order of their arrival. -/
def inBank (s : State) (b : Bank) : List Request := s.reqs.filter fun r => r.st == .queued && r.banks.contains b

/-- Whether an escalation comes before a request that is not escalated, or escalated later (01 R47). -/
def before (a b : Option Nat) : Bool :=
  match a, b with
  | some m, some n => m < n
  | some _, none => true
  | none, _ => false

/-- The requests for which a queue reserves an entry ahead of `r` (01 R47). -/
def bankReserved (s : State) (r : Request) (b : Bank) : List Request :=
  s.reqs.filter fun q => q.st == .sent && q.id != r.id && q.banks.contains b && before q.esc r.esc

/-- Whether a queue has an entry for a request: a free one that is not reserved for a request ahead of it (01 R47). -/
def bankAdmits (s : State) (r : Request) (b : Bank) : Bool := (inBank s b).length + (bankReserved s r b).length < b.depth

/-- Whether a request is the first in a queue. -/
def firstIn (s : State) (r : Request) (b : Bank) : Bool := ((inBank s b).head?.map Request.id).getD r.id == r.id

/-- Whether a request may touch an address now: it stands in no queue, or is the first there (08 R202). -/
def granReady (s : State) (r : Request) (key : Nat) : Bool :=
  r.st != .queued || match bankOf key with | some b => firstIn s r b | none => true

/-- A request enters the queues of its banks (01 R47). -/
def enterBanks (s : State) (r : Request) : State :=
  moveLast (setReq s r.id fun q => { q with st := .queued, refused := 0, esc := none }) r.id

/-- The place in the order of escalations that a request has after one more refusal: its own, or at the 64th a new one, behind all others (01 R47). -/
def escalate (s : State) (refused : Nat) (esc : Option Nat) : Option Nat × State :=
  if esc.isSome || refused < 63 then (esc, s) else (some s.nextId, (newId s).2)

/-- A full bank or channel queue refuses a request; the 64th refusal escalates it there (01 R47; 08 R202; 16 R383 d21). -/
def refuseReq (s : State) (r : Request) : State :=
  let e := escalate s r.refused r.esc
  let t := setReq e.2 r.id fun q => { q with refused := r.refused + 1, esc := e.1 }
  if e.1 = r.esc then t else count t (dieOf (servedAt r.key)) r.part 21 1

/-- A full launch waiting list refuses a request, which is sent again; the 64th refusal escalates it there (01 R47; 09 R232; 16 R383 d21). -/
def refuseLaunch (s : State) (r : Request) : State :=
  let e := escalate s r.lrefused r.lesc
  let t := setReq e.2 r.id fun q => { q with st := .sent, lrefused := r.lrefused + 1, lesc := e.1 }
  if e.1 = r.lesc then t else count t (dieOf (servedAt r.key)) r.part 21 1

/-! ## The accesses of engines and service cores in the queues (08 R202; 11 R259) -/

/-- Whose access a ticket stands for: the location and a number there, an engine's or a service core's. -/
structure Agent where
  loc : Loc
  num : Nat
  part : Nat
  cls : BitVec 2

def Agent.owns (a : Agent) (r : Request) : Bool := r.op.isAgent && r.loc == a.loc && r.slot == 16 + a.num

/-- The access that an agent has under way. -/
def ticket? (s : State) (a : Agent) : Option Request := s.reqs.find? a.owns

def dropTickets (s : State) (f : Request → Bool) : State := { s with reqs := s.reqs.filter fun r => !(r.op.isAgent && f r) }

/-- The access of an agent to an address: sent. -/
def agentReq (s : State) (a : Agent) (key : Nat) : Request :=
  ⟨s.nextId, a.loc, 16 + a.num, BitVec.allOnes 64, a.part, a.cls, false, .narrowest, key, 0, 16, false, .agent, 0, none, 0, none, false, .none, .sent, 0, 0⟩

/-- An agent's access goes on: whether it acts now, as the first of its queue or coming to an empty one; else it is sent, enters its queue or is refused,
and waits there (01 R47, 08 R202). -/
def agentTurn (s : State) (a : Agent) (key : Nat) : Bool × State :=
  match bankOf key with
  | none => (true, s)
  | some b =>
    let go (r : Request) (s : State) : Bool × State :=
      if r.st == .queued then (if firstIn s r b then (true, dropTickets s a.owns) else (false, s))
      else if !bankAdmits s r b then (false, refuseReq s r)
      else if (inBank s b).isEmpty then (true, dropTickets s a.owns)
      else (false, enterBanks s r)
    match ticket? s a with
    | some r => if r.key = key then go r s else go (agentReq s a key) { (newId (dropTickets s a.owns)).2 with reqs := (dropTickets s a.owns).reqs ++ [agentReq s a key] }
    | none => go (agentReq s a key) { (newId s).2 with reqs := s.reqs ++ [agentReq s a key] }

/-! ## Values -/

def Size.bytes : Size → Nat
  | .b1 => 1
  | .b2 => 2
  | .b4 => 4
  | .b8 => 8

/-- A loaded value, sign- or zero-extended (09 R220). -/
def loadVal (sz : Size) (uns : Bool) (n : Nat) : Word :=
  if uns then BitVec.ofNat 64 n else sextTo (8 * Size.bytes sz) (BitVec.ofNat 64 n)

/-- The new value of an atomic of `w` bits (09 R226). -/
def amoNew (op : AmoOp) (w o b : Nat) : Nat :=
  let b := b % 2 ^ w
  match op with
  | .add => (o + b) % 2 ^ w
  | .and => Nat.land o b
  | .or => Nat.lor o b
  | .xor => Nat.xor o b
  | .min => if sintOf w o < sintOf w b then o else b
  | .max => if sintOf w o < sintOf w b then b else o
  | .minn => min o b
  | .maxn => max o b
  | .swap => b
  | .fadd => (fpAdd fp32 .rne o b).1

/-- The old value as an atomic returns it (09 R226). -/
def amoOld (op : AmoOp) (w64 : Bool) (o : Nat) : Word :=
  if w64 || op == .fadd then BitVec.ofNat 64 o else sextTo 32 (BitVec.ofNat 64 o)

/-! ## Row accesses (09 R225) -/

/-- The bits of granule `i` of a row. -/
def granBits (r : Row) (i : Nat) : Nat := bitsAt r (128 * i + 127) (128 * i)

/-- The granules of a row that hold a bit of `lanes`. -/
def granulesOf (lanes : Row) : List (Fin 4) := (List.finRange 4).filter fun i => granBits lanes i.val != 0

/-- The granules whose every bit is in `lanes`. -/
def wholeGran (lanes : Row) (i : Nat) : Bool := granBits lanes i == 2 ^ 128 - 1

/-- The places and bytes of granule `i` of a row that `lanes` covers. -/
def granPlaces (key : Nat) (lanes data : Row) (i : Nat) : List (Nat × Byte) :=
  ((List.range 16).filter fun j => granBits lanes i / 2 ^ (8 * j) % 256 != 0).map fun j =>
    (key + 16 * i + j, BitVec.ofNat 8 (granBits data i / 2 ^ (8 * j)))

/-- Whether granule `i`'s poison is cleared by the row's write of it: the granule is replaced whole, and on HBM its 32-byte block with it, once
both granules are written (08 R213, R214). -/
def clears (key : Nat) (lanes : Row) (left : List (Fin 4)) (i : Fin 4) : Bool :=
  wholeGran lanes i.val && (!isHbm key || (wholeGran lanes (i.val ^^^ 1) && !(left.any fun j => j.val == i.val ^^^ 1)))

/-- The granule that a row touches next, one of those it may touch now (10 R243; log 3). -/
def pickGran (s : State) (r : Request) (left : List (Fin 4)) : Option (Fin 4) :=
  let l := left.filter fun i => granReady s r (r.key + 16 * i.val)
  l[Config.rowPick s.free % l.length]?

/-! ## The acts -/

/-- One act of an access at its serving point. -/
def memAct (s : State) (r : Request) : Perf :=
  let key := r.key
  let err : Perf := .done s (.memerr r.va)
  let put (s : State) (n v : Nat) : State := writeFor s r.part r.thid key (toBytes n v)
  match r.op with
  | .load k d sz uns =>
    if poisoned s key then err
    else if k ≠ .plain ∧ !feFull s key then .wait (granule key)
    else
      let v := loadVal sz uns (ofBytes (s.mem.readN key (Size.bytes sz)))
      .done (if k = .take then setEmpty s key else s) (.writes [.s d v false])
  | .store k v sz =>
    if poisoned s key then err
    else if k = .xfill ∧ feFull s key then .wait (granule key)
    else
      let t := put s (Size.bytes sz) v.toNat
      .done (if k = .plain then t else setFull t key) .ack
  | .feSet => if poisoned s key then err else .done (setFull s key) .ack
  | .feClr => if poisoned s key then err else .done (setEmpty s key) .ack
  | .feGet d => if poisoned s key then err else .done s (.writes [.s d (if feFull s key then 1 else 0) false])
  | .feWait => if poisoned s key then err else if feFull s key then .done s .ack else .wait (granule key)
  | .amo op w64 b d =>
    if poisoned s key then err
    else
      let n := if w64 then 8 else 4
      let o := ofBytes (s.mem.readN key n)
      .done (put s n (amoNew op (8 * n) o b.toNat)) (match d with | some d => .writes [.s d (amoOld op w64 o) false] | none => .ack)
  | .cas w64 cmp new d =>
    if poisoned s key then err
    else
      let n := if w64 then 8 else 4
      let o := ofBytes (s.mem.readN key n)
      .done (if o = cmp.toNat % 2 ^ (8 * n) then put s n new.toNat else s) (.writes [.s d (amoOld .swap w64 o) false])
  | .arrive n =>
    if poisoned s key then err
    else
      let w := (ofBytes (s.mem.readN key 4) + 1) % 2 ^ 32
      if w = n.toNat then .done (setFull (put s 4 0) key) .ack else .done (put s 4 w) .ack
  | .vload sync d lanes zero left got =>
    if left.any fun i => poisoned s (key + 16 * i.val) then err
    else
      match (if sync then left.find? fun i => !feFull s (key + 16 * i.val) else none) with
      | some i => .wait (key + 16 * i.val)
      | none =>
        match pickGran s r left with
        | none => if left.isEmpty then .done s (.writes [.v d (lanes ||| zero) (got &&& lanes)]) else .more s r.op
        | some i =>
          let g := BitVec.ofNat 512 (ofBytes (s.mem.readN (key + 16 * i.val) 16) * 2 ^ (128 * i.val))
          let rest := left.filter fun j => j != i
          let s := { s with free := s.free + 1 }
          if rest.isEmpty then .done s (.writes [.v d (lanes ||| zero) ((got ||| g) &&& lanes)])
          else .more s (.vload false d lanes zero rest (got ||| g))
  | .vstore fill lanes data left =>
    if left.any fun i => poisoned s (key + 16 * i.val) && !wholeGran lanes i.val then err
    else
      match pickGran s r left with
      | none => if left.isEmpty then .done s .ack else .more s r.op
      | some i =>
        let rest := left.filter fun j => j != i
        let t := writeAt { s with free := s.free + 1 } r.part r.thid (granPlaces key lanes data i.val)
        let t := if clears key lanes rest i then clearPoison t (key + 16 * i.val) else t
        let t := if fill then setFull t (key + 16 * i.val) else t
        if rest.isEmpty then .done t .ack else .more t (.vstore fill lanes data rest)
  | .ringWait => if poisoned s key then err else if feFull s key then .done s .retry else .wait (granule key)
  | _ => .done s .ack

/-- Serves the waiters of a granule in list order, as long as one of them can act (08 R196). `fuel` bounds the acts. -/
def serveLoop : Nat → State → Nat → State
  | 0, s, _ => s
  | n + 1, s, g =>
    let next := s.reqs.findSome? fun r =>
      if r.st = .feList g then
        match memAct s r with
        | .wait g' => if g' = g then none else some (r, Perf.wait g')
        | p => some (r, p)
      else none
    match next with
    | none => s
    | some (r, .wait g') => serveLoop n (enterList s r g') g
    | some (r, .done t rep) => serveLoop n (rearm (setReq t r.id fun q => { q with st := .replied rep }) (servedAt r.key) r.part) g
    | some (r, .more t op) => serveLoop n (setReq t r.id fun q => { q with st := .sent, op := op }) g
    | some _ => s

def serve (s : State) (g : Nat) : State := serveLoop (s.reqs.length + 1) s g

/-- Serves the four granules of a row, or the one of a scalar access. -/
def serveAll (s : State) (key size : Nat) : State :=
  (List.range ((size + 15) / 16)).foldl (fun s i => serve s (granule key + 16 * i)) s

/-- Sets a granule full, or empty, and serves its waiters. -/
def fillGran (s : State) (key : Nat) : State := serve (setFull s key) (granule key)
def emptyGran (s : State) (key : Nat) : State := serve (setEmpty s key) (granule key)

end Sys2Proof.Machine
end

