-- ==== Sys2Proof/Machine/LabelAct.lean ====
section
/-! DEFINITION. The acts of label accesses at the home slices: lookup, record access, `lnew` and `lfree` (13 R312, R315, R319, R320, R325, R326, R329). -/

namespace Sys2Proof.Machine

/-- Every access of a record checks its alignment and its place before its translation (13 R320, R324; 08 R207). -/
def recordBad (va size : Nat) : Option (Nat × Nat) :=
  if va % size ≠ 0 then some (cMISALIGN, 0) else if notTableMem va then some (cPERMISSION, 4) else none

/-- The address of a record's access, or the trap; a missing extent is a translation fault only for one that has walked for it. -/
inductive RecordKey where
  | ok (key : Nat)
  | trap (cause detail : Nat)
  | miss
  deriving DecidableEq, Repr

def recordKey (s : State) (p : Partition) (l : Loc) (w : WalkState) (va size : Nat) (k : XKind) : RecordKey :=
  match recordBad va size with
  | some e => .trap e.1 e.2
  | none => match xlateFor s p l w va size k false with
    | .ok key => .ok key
    | .fault c => .trap c 0
    | .miss => .miss

/-- A fault of a lookup or of a record's translation: a speculative load defers it into DF (13 R319). -/
def lookFault (a : LAct) (cause detail va : Nat) : Reply :=
  match a with
  | .load d _ _ _ true => .defer (.s d 0 true)
  | .loadL d _ true => .defer (.l d 0 true)
  | _ => .trap cause detail va

/-- The status word of `lxlate` mode 1 (13 R329). -/
def xlWord (status addr : Nat) : Word := BitVec.ofNat 64 (status * 2 ^ 56 + addr % 2 ^ 56)

/-- The trap or data error that a fault of a directory or record becomes. -/
def actFault (c d va : Nat) : Reply := if c = cMEMERR then .memerr va else .trap c d va

/-- A lookup that finds no LIVE slot of its key (13 R315, R329). -/
def lookAbsent (a : LAct) : Reply :=
  match a with
  | .xlate true _ d => .writes [.s d (xlWord 2 0) false]
  | _ => lookFault a cNONODE 2 0

/-- A lookup that meets a translation, permission or data error at a slot; `lxlate` mode 1 answers a status, beside the machine check of a data error
(13 R319, R329). -/
def lookError (s : State) (r : Request) (a : LAct) (c va : Nat) : Perf :=
  match a with
  | .xlate true _ d => .done (if c = cMEMERR then machineCheck s r.part [BitVec.ofNat 64 va] else s) (.writes [.s d (xlWord 5 0) false])
  | _ => .done s (if c = cMEMERR then .memerr va else lookFault a c 0 va)

/-- What follows a lookup that found the record at `raddr` in the slot at `slot`: the label access goes on to its record, or ends. -/
def lookFound (s : State) (r : Request) (b : Label) (dbase dsize raddr slot : Nat) (a : LAct) : Perf :=
  let go (off size : Nat) (k : XKind) : Perf :=
    let ea := (raddr + off) % 2 ^ 56
    match recordBad ea size with
    | some e => .done s (lookFault a e.1 e.2 ea)
    | none => .away s (.record b dbase dsize raddr slot r.va a) ea size k
  match a with
  | .load _ sz _ off _ => go off (Size.bytes sz) .read
  | .store _ _ _ (some k) => .done s (.trap cPERMISSION k 0)
  | .storeL _ _ (some k) => .done s (.trap cPERMISSION k 0)
  | .store _ sz off none => go off (Size.bytes sz) .write
  | .loadL _ off _ => go off 16 .read
  | .storeL _ off none => go off 16 .write
  | .xlate mode1 view d =>
    .done s (.writes [.s d (if mode1 then (if view then xlWord 4 0 else xlWord 0 raddr) else BitVec.ofNat 64 raddr) false])
  | .new _ _ _ _ _ => go 0 16 .rmw
  | .free (some e) => .done s (.trap e.1 e.2 0)
  | .free none => go 0 16 .write

/-- The access of a record whose place is known (13 R319, R325, R326). -/
def recordOp (b : Label) (dbase dsize slotVa : Nat) (a : LAct) : MemOp :=
  match a with
  | .load d sz uns _ _ => .load .plain d sz uns
  | .store v sz _ _ => .store .plain v sz
  | .loadL d _ _ => .loadL d
  | .storeL v _ _ => .storeL v
  | .xlate _ _ d => .load .plain d .b8 false
  | .new c rva rkey skey d => .newNext c b dbase dsize rva rkey skey d
  | .free _ => .freeRec b slotVa

/-- One probe of a label access's lookup (13 R312). -/
def lookAct (s : State) (r : Request) (b : Label) (dbase dsize i : Nat) (a : LAct) : Perf :=
  if slotPoisoned s r.key then lookError s r a cMEMERR r.va
  else match lookupAt s.mem b r.va r.key with
    | some (.found raddr slot) => lookFound s r b dbase dsize raddr slot a
    | some _ => .done s (lookAbsent a)
    | none => if 63 ≤ i then .done s (lookAbsent a) else .away s (.look b dbase dsize (i + 1) a) (probeVa b dbase dsize (i + 1)) 32 .read

/-- `lnew` at the home slice of the parent's header: LIVE, NEXT and the code's length are checked and NEXT advances, as one act, once it is known that
the directory of the child's key gives no fault, since a fault changes nothing (13 R321, R325). -/
def newNextAct (s : State) (p : Partition) (r : Request) (c pb : Label) (dbase dsize rva rkey : Nat) (skey : Word) (d : LReg) : Perf :=
  let key := r.key
  if poisoned s key then .done s (.memerr r.va)
  else if !headLive s.mem key then .done s (.trap cNONODE 3 0)
  else
    let n := headNext s.mem key
    if maxOrd < n then .done s (.trap cLDEPTH 2 0)
    else match lAppend c n, lAppend pb n with
      | some child, some k =>
        match insertStop (insertAt s p r.loc r.walk k dbase dsize) with
        | some (.miss va) => .walk s va
        | some (.fault e va) => .done s (actFault e 0 va)
        | _ =>
          .away (writeFor s r.part r.thid (key + 4) (toBytes 4 (n + 1))) (.newFind child k dbase dsize 0 rva rkey skey d) (probeVa k dbase dsize 0) 32 .read
      | _, _ => .done s (.trap cLDEPTH 1 0)

/-- One probe of INSERT's LOOKUP: the key must be absent (13 R312). -/
def newFindAct (s : State) (r : Request) (child k : Label) (dbase dsize i rva rkey : Nat) (skey : Word) (d : LReg) : Perf :=
  let claim : Perf := .away s (.newClaim child k dbase dsize 0 rva rkey skey d) (probeVa k dbase dsize 0) 32 .rmw
  if slotPoisoned s r.key then .done s (.memerr r.va)
  else match lookupAt s.mem k r.va r.key with
    | some (.found _ _) => .done s (.trap cLTABLE 8 0)
    | some _ => claim
    | none => if 63 ≤ i then claim else .away s (.newFind child k dbase dsize (i + 1) rva rkey skey d) (probeVa k dbase dsize (i + 1)) 32 .read

/-- One probe of INSERT's claim: a slot EMPTY or GONE becomes PENDING with the key, as one act (13 R312); the header is written next. -/
def newClaimAct (s : State) (r : Request) (child k : Label) (dbase dsize i rva rkey : Nat) (skey : Word) (d : LReg) : Perf :=
  if slotPoisoned s r.key then .done s (.memerr r.va)
  else match claimAt s.mem k r.va r.key with
    | some _ =>
      .more (setReq (writeFor s r.part r.thid r.key (claimBytes s.mem r.key k)) r.id fun q => { q with key := rkey, va := rva, size := 16 })
        (.newHead r.key r.va rva rkey skey child d)
    | none => if 63 ≤ i then .done s (.trap cDIRFULL 0 0) else .away s (.newClaim child k dbase dsize (i + 1) rva rkey skey d) (probeVa k dbase dsize (i + 1)) 32 .rmw

/-- A granule is written whole; on a slice that clears its poison (08 R213). -/
def granWrite (s : State) (part : Nat) (thid : Word) (key : Nat) (bs : List Byte) : State :=
  writeFor (if isSlice key then clearPoison s key else s) part thid key bs

def headWrite (s : State) (part : Nat) (thid : Word) (key : Nat) (skey : Word) : State := granWrite s part thid key (headBytes skey)

/-- The header of a new node, and its slot next, which is published by one write (13 R312, R325). -/
def newHeadAct (s : State) (r : Request) (slot slotVa rva : Nat) (skey : Word) (child : Label) (d : LReg) : Perf :=
  .more (setReq (headWrite s r.part r.thid r.key skey) r.id fun q => { q with key := slot, va := slotVa, size := 32 }) (.newPublish rva child d)

/-- `lfree` at the record, whose own access is known not to fault: its slot is next (13 R326). -/
def freeRecAct (s : State) (r : Request) (b : Label) (slotVa : Nat) : Perf :=
  if poisoned s r.key then .done s (.memerr r.va) else .away s (.freeSlot b r.va r.key) slotVa 32 .rmw

/-- The slot becomes GONE, as long as it still holds the key LIVE; LIVE of the record is cleared after that (13 R311, R326). -/
def freeSlotAct (s : State) (r : Request) (b : Label) (rva rkey : Nat) : Perf :=
  if slotPoisoned s r.key then .done s (.memerr r.va)
  else match lookupAt s.mem b r.va r.key with
    | some (.found _ _) =>
      .more (setReq (writeFor s r.part r.thid (r.key + 15) [goneByte s.mem r.key]) r.id fun q => { q with key := rkey, va := rva, size := 16 }) .freeLive
    | _ => .done s (.trap cNONODE 2 0)

/-- One act of any access at its serving point. -/
def actOf (s : State) (r : Request) : Perf :=
  match part? s r.part with
  | none => .done s .ack
  | some p =>
    match r.op with
    | .look b dbase dsize i a => lookAct s r b dbase dsize i a
    | .loadL d =>
      if poisoned s r.key then .done s (.memerr r.va) else .done s (.writes [.l d (BitVec.ofNat 128 (ofBytes (s.mem.readN r.key 16))) false])
    | .storeL v => .done (granWrite s r.part r.thid r.key (toBytes 16 v.toNat)) .ack
    | .newNext c pb dbase dsize rva rkey skey d => newNextAct s p r c pb dbase dsize rva rkey skey d
    | .newFind child k dbase dsize i rva rkey skey d => newFindAct s r child k dbase dsize i rva rkey skey d
    | .newClaim child k dbase dsize i rva rkey skey d => newClaimAct s r child k dbase dsize i rva rkey skey d
    | .newHead slot slotVa rva _ skey child d => newHeadAct s r slot slotVa rva skey child d
    | .newPublish rva child d => .done (granWrite s r.part r.thid r.key (toBytes 8 0 ++ toBytes 8 (slotWord 1 rva))) (.writes [.l d child false])
    | .freeRec b slotVa => freeRecAct s r b slotVa
    | .freeSlot b rva rkey => freeSlotAct s r b rva rkey
    | .freeLive => if poisoned s r.key then .done s (.memerr r.va) else .done (writeFor s r.part r.thid r.key [deadByte s.mem r.key]) .ack
    | _ => memAct s r

/-- A label access whose next address does not translate (13 R312, R319, R329). -/
def awayFault (s : State) (r : Request) (c : Nat) : Perf :=
  match r.op with
  | .look _ _ _ _ a => lookError s r a c r.va
  | .record _ _ _ _ _ _ a => .done s (lookFault a c 0 r.va)
  | _ => .done s (.trap c 0 r.va)

/-- The places that an access will still touch through translations that it has made already (08 R209, R211): device and physical address. -/
def MemOp.held : MemOp → List (Nat × Nat)
  | .look _ _ _ _ (.new _ rva rkey _ _) => [(rva, rkey)]
  | .record _ _ _ _ _ _ (.new _ rva rkey _ _) => [(rva, rkey)]
  | .newNext _ _ _ _ rva rkey _ _ => [(rva, rkey)]
  | .newFind _ _ _ _ _ rva rkey _ _ => [(rva, rkey)]
  | .newClaim _ _ _ _ _ rva rkey _ _ => [(rva, rkey)]
  | .newHead slot slotVa rva rkey _ _ _ => [(rva, rkey), (slotVa, slot)]
  | .freeSlot _ rva rkey => [(rva, rkey)]
  | _ => []

end Sys2Proof.Machine
end

