-- ==== Sys2Proof/Machine/Scalar.lean ====
section
/-! DEFINITION. The meanings of ALU, ALUI, CMP, CMPI, PRED, LI and BITS (05 R132 to R139). -/

namespace Sys2Proof.Machine

abbrev Out := Host.Outcome State Fault Refusal

/-! ## Shared forms -/

/-- d := f a b (05 R131). -/
def alu2 (s : State) (h : Hdr) (d a b : SReg) (f : Word → Word → Word) : Out :=
  issue s 8 h { a := some a, b := some b, rd := some d } fun x v s => .go (putS s x d (f v.a v.b) v.df)

/-- d := f a. -/
def alu1 (s : State) (h : Hdr) (d a : SReg) (f : Word → Word) : Out :=
  issue s 8 h { a := some a, rd := some d } fun x v s => .go (putS s x d (f v.a) v.df)

/-- d := f a imm, the immediate sign-extended (03 R82, 05 R134). -/
def aluImm (s : State) (h : Hdr) (d a : SReg) (imm : Imm31) (f : Word → Word → Word) : Out :=
  alu1 s h d a fun x => f x (imm.signExtend 64)

/-- A long division: the result is written 28 cycles after issue; division by zero sets DZ (05 R131, R133). -/
def aluDiv (s : State) (h : Hdr) (d a b : SReg) (f : Word → Word → Word) : Out :=
  issue s 8 h { a := some a, b := some b, rd := some d } fun x v s =>
    goLong s x .alu (s.cycle + 28) [.s d (f v.a v.b) v.df] (if v.b = 0 then fDZ else 0)

/-- Writes a comparison to a predicate or guard slot; DF-set sources trap (05 R135). -/
def cmp2 (s : State) (h : Hdr) (d : PDst) (a b : SReg) (f : Word → Word → Bool) : Out :=
  issue s 8 h { a := some a, b := some b, dfu := [a, b] } fun x v s => .go (putP s x d (f v.a v.b))

def cmpImm (s : State) (h : Hdr) (d : PDst) (a : SReg) (imm : Imm31) (f : Word → Word → Bool) : Out :=
  issue s 8 h { a := some a, dfu := [a] } fun x v s => .go (putP s x d (f v.a (imm.signExtend 64)))

/-- A predicate function (05 R136). -/
def pred2 (s : State) (h : Hdr) (d : PDst) (a b : PReg) (f : Bool → Bool → Bool) : Out :=
  issue s 8 h {} fun x _ s => .go (putP s x d (f (readP (me s x) a) (readP (me s x) b)))

/-! ## Arithmetic (05 R132, R133) -/

/-- The shift count b[5:0]. -/
def sh (b : Word) : Nat := b.toNat % 64

def mulHighS (a b : Word) : Word := BitVec.ofInt 64 (a.toInt * b.toInt / ((2 ^ 64 : Nat) : Int))
def mulHighU (a b : Word) : Word := BitVec.ofNat 64 (a.toNat * b.toNat / 2 ^ 64)

def divS (a b : Word) : Word := if b = 0 then BitVec.allOnes 64 else BitVec.ofInt 64 (a.toInt.tdiv b.toInt)
def divU (a b : Word) : Word := if b = 0 then BitVec.allOnes 64 else BitVec.ofNat 64 (a.toNat / b.toNat)
def remS (a b : Word) : Word := if b = 0 then a else BitVec.ofInt 64 (a.toInt.tmod b.toInt)
def remU (a b : Word) : Word := if b = 0 then a else BitVec.ofNat 64 (a.toNat % b.toNat)

def clzW (a : Word) : Word := match highBit a with | some i => BitVec.ofNat 64 (63 - i) | none => 64
def ctzW (a : Word) : Word := match lowBit a with | some i => BitVec.ofNat 64 i | none => 64
def bswapW (a : Word) : Word := BitVec.ofNat 64 (ofBytes (toBytes 8 a.toNat).reverse)

def minS (a b : Word) : Word := if a.slt b then a else b
def maxS (a b : Word) : Word := if a.slt b then b else a
def minU (a b : Word) : Word := if a.ult b then a else b
def maxU (a b : Word) : Word := if a.ult b then b else a

def execAdd (h : Hdr) (d a b : SReg) (s : State) : Out := alu2 s h d a b fun x y => x + y
def execSub (h : Hdr) (d a b : SReg) (s : State) : Out := alu2 s h d a b fun x y => x - y
def execAnd (h : Hdr) (d a b : SReg) (s : State) : Out := alu2 s h d a b fun x y => x &&& y
def execOr (h : Hdr) (d a b : SReg) (s : State) : Out := alu2 s h d a b fun x y => x ||| y
def execXor (h : Hdr) (d a b : SReg) (s : State) : Out := alu2 s h d a b fun x y => x ^^^ y
def execAndn (h : Hdr) (d a b : SReg) (s : State) : Out := alu2 s h d a b fun x y => x &&& ~~~ y
def execShl (h : Hdr) (d a b : SReg) (s : State) : Out := alu2 s h d a b fun x y => x <<< sh y
def execShr (h : Hdr) (d a b : SReg) (s : State) : Out := alu2 s h d a b fun x y => x >>> sh y
def execSra (h : Hdr) (d a b : SReg) (s : State) : Out := alu2 s h d a b fun x y => x.sshiftRight (sh y)
def execRol (h : Hdr) (d a b : SReg) (s : State) : Out := alu2 s h d a b fun x y => x.rotateLeft (sh y)
def execMin (h : Hdr) (d a b : SReg) (s : State) : Out := alu2 s h d a b minS
def execMax (h : Hdr) (d a b : SReg) (s : State) : Out := alu2 s h d a b maxS
def execMinn (h : Hdr) (d a b : SReg) (s : State) : Out := alu2 s h d a b minU
def execMaxn (h : Hdr) (d a b : SReg) (s : State) : Out := alu2 s h d a b maxU
def execMul (h : Hdr) (d a b : SReg) (s : State) : Out := alu2 s h d a b fun x y => x * y
def execMulh (h : Hdr) (d a b : SReg) (s : State) : Out := alu2 s h d a b mulHighS
def execMulhn (h : Hdr) (d a b : SReg) (s : State) : Out := alu2 s h d a b mulHighU
def execDiv (h : Hdr) (d a b : SReg) (s : State) : Out := aluDiv s h d a b divS
def execDivn (h : Hdr) (d a b : SReg) (s : State) : Out := aluDiv s h d a b divU
def execRem (h : Hdr) (d a b : SReg) (s : State) : Out := aluDiv s h d a b remS
def execRemn (h : Hdr) (d a b : SReg) (s : State) : Out := aluDiv s h d a b remU
def execClz (h : Hdr) (d a : SReg) (s : State) : Out := alu1 s h d a clzW
def execCtz (h : Hdr) (d a : SReg) (s : State) : Out := alu1 s h d a ctzW
def execPopc (h : Hdr) (d a : SReg) (s : State) : Out := alu1 s h d a fun x => BitVec.ofNat 64 (popCount x)
def execBswap (h : Hdr) (d a : SReg) (s : State) : Out := alu1 s h d a bswapW

/-! ## Immediate forms (05 R134) -/

def execAddi (h : Hdr) (d a : SReg) (imm : Imm31) (s : State) : Out := aluImm s h d a imm fun x y => x + y
def execAndi (h : Hdr) (d a : SReg) (imm : Imm31) (s : State) : Out := aluImm s h d a imm fun x y => x &&& y
def execOri (h : Hdr) (d a : SReg) (imm : Imm31) (s : State) : Out := aluImm s h d a imm fun x y => x ||| y
def execXori (h : Hdr) (d a : SReg) (imm : Imm31) (s : State) : Out := aluImm s h d a imm fun x y => x ^^^ y
def execShli (h : Hdr) (d a : SReg) (k : Fin 64) (s : State) : Out := alu1 s h d a fun x => x <<< k.val
def execShri (h : Hdr) (d a : SReg) (k : Fin 64) (s : State) : Out := alu1 s h d a fun x => x >>> k.val
def execSrai (h : Hdr) (d a : SReg) (k : Fin 64) (s : State) : Out := alu1 s h d a fun x => x.sshiftRight k.val
def execRoli (h : Hdr) (d a : SReg) (k : Fin 64) (s : State) : Out := alu1 s h d a fun x => x.rotateLeft k.val
def execMini (h : Hdr) (d a : SReg) (imm : Imm31) (s : State) : Out := aluImm s h d a imm minS
def execMaxi (h : Hdr) (d a : SReg) (imm : Imm31) (s : State) : Out := aluImm s h d a imm maxS
def execMuli (h : Hdr) (d a : SReg) (imm : Imm31) (s : State) : Out := aluImm s h d a imm fun x y => x * y

/-! ## Comparisons (05 R135) -/

def execEq (h : Hdr) (d : PDst) (a b : SReg) (s : State) : Out := cmp2 s h d a b fun x y => x == y
def execNe (h : Hdr) (d : PDst) (a b : SReg) (s : State) : Out := cmp2 s h d a b fun x y => x != y
def execLt (h : Hdr) (d : PDst) (a b : SReg) (s : State) : Out := cmp2 s h d a b fun x y => x.slt y
def execLe (h : Hdr) (d : PDst) (a b : SReg) (s : State) : Out := cmp2 s h d a b fun x y => x.sle y
def execLtn (h : Hdr) (d : PDst) (a b : SReg) (s : State) : Out := cmp2 s h d a b fun x y => x.ult y
def execLen (h : Hdr) (d : PDst) (a b : SReg) (s : State) : Out := cmp2 s h d a b fun x y => x.ule y
def execEqi (h : Hdr) (d : PDst) (a : SReg) (imm : Imm31) (s : State) : Out := cmpImm s h d a imm fun x y => x == y
def execNei (h : Hdr) (d : PDst) (a : SReg) (imm : Imm31) (s : State) : Out := cmpImm s h d a imm fun x y => x != y
def execLti (h : Hdr) (d : PDst) (a : SReg) (imm : Imm31) (s : State) : Out := cmpImm s h d a imm fun x y => x.slt y
def execLei (h : Hdr) (d : PDst) (a : SReg) (imm : Imm31) (s : State) : Out := cmpImm s h d a imm fun x y => x.sle y
def execLtni (h : Hdr) (d : PDst) (a : SReg) (imm : Imm31) (s : State) : Out := cmpImm s h d a imm fun x y => x.ult y
def execLeni (h : Hdr) (d : PDst) (a : SReg) (imm : Imm31) (s : State) : Out := cmpImm s h d a imm fun x y => x.ule y

/-! ## Predicates and selection (05 R136, R137) -/

def execPand (h : Hdr) (d : PDst) (a b : PReg) (s : State) : Out := pred2 s h d a b fun x y => x && y
def execPor (h : Hdr) (d : PDst) (a b : PReg) (s : State) : Out := pred2 s h d a b fun x y => x || y
def execPxor (h : Hdr) (d : PDst) (a b : PReg) (s : State) : Out := pred2 s h d a b fun x y => x ^^ y
def execPandn (h : Hdr) (d : PDst) (a b : PReg) (s : State) : Out := pred2 s h d a b fun x y => x && !y
def execPnot (h : Hdr) (d : PDst) (a : PReg) (s : State) : Out := pred2 s h d a a fun x _ => !x

/-- `pmov` from `U` makes a guard slot UNSET; its other forms copy a predicate. -/
def execPmov (h : Hdr) (d : PDst) (a : PSrc) (s : State) : Out :=
  issue s 8 h {} fun x _ s =>
    match a, d with
    | .p r, _ => .go (putP s x d (readP (me s x) r))
    | .unset, .g k => .go (modTh s x.loc x.slot fun th => { th with g := th.g.set k .unset })
    | .unset, .p _ => .trap cILLEGAL 8 0

/-- The DF bit of the result is DF(a) OR DF(b) whichever is selected. -/
def execSel (h : Hdr) (d a b : SReg) (p : PReg) (s : State) : Out :=
  issue s 8 h { a := some a, b := some b, rd := some d } fun x v s => .go (putS s x d (if readP (me s x) p then v.a else v.b) v.df)

/-! ## Immediates and bit fields (05 R138, R139) -/

def execLi (h : Hdr) (d : SReg) (imm : Word) (s : State) : Out :=
  issue s 12 h { rd := some d } fun x _ s => .go (putS s x d imm false)
def execLipc (h : Hdr) (d : SReg) (imm : Word) (s : State) : Out :=
  issue s 12 h { rd := some d } fun x _ s => .go (putS s x d ((me s x).pc + imm) false)

def execSext (h : Hdr) (d a : SReg) (wm1 : Fin 64) (s : State) : Out := alu1 s h d a fun x => sextTo (wm1.val + 1) x
def execZext (h : Hdr) (d a : SReg) (wm1 : Fin 64) (s : State) : Out := alu1 s h d a fun x => zextTo (wm1.val + 1) x

/-- The field of `w` bits at `lsb`; bits above 63 read as zero. -/
def bitField (signed : Bool) (lsb w : Nat) (a : Word) : Word := if signed then sextTo w (a >>> lsb) else zextTo w (a >>> lsb)

def execBfx (h : Hdr) (d a : SReg) (signed : Bool) (lsb wm1 : Fin 64) (s : State) : Out :=
  alu1 s h d a (bitField signed lsb.val (wm1.val + 1))

/-- Inserts the low `w` bits of `a` into `old` at `lsb`; the part above bit 63 is discarded. -/
def bitInsert (lsb w : Nat) (a old : Word) : Word :=
  let m : Word := BitVec.ofNat 64 (2 ^ w - 1) <<< lsb
  (old &&& ~~~ m) ||| ((a <<< lsb) &&& m)

def execBfi (h : Hdr) (d a : SReg) (lsb wm1 : Fin 64) (s : State) : Out :=
  issue s 8 h { a := some a, d := some d, rd := some d } fun x v s => .go (putS s x d (bitInsert lsb.val (wm1.val + 1) v.a v.d) v.df)

end Sys2Proof.Machine
end

