-- ==== Sys2Proof/Machine/Access.lean ====
section
/-! DEFINITION. How an access issues: its checks, own LM at issue, relaxed and parking requests, migration (01 R29 to R31; 09 R218, R219; 10 R246, R247). -/

namespace Sys2Proof.Machine

/-! ## Checks of the address (09 R218, R219) -/

inductive AddrRes where
  | fault (cause : Nat)
  | walk
  | ok (key : Nat)
  deriving DecidableEq, Repr

/-- Misalignment, then translation and permission through the extent cache; a miss goes to the walker. -/
def addrCheck (s : State) (x : Cur) (va : Word) (n : Nat) (k : XKind) : AddrRes :=
  if va.toNat % n ≠ 0 then .fault cMISALIGN
  else if 2 ^ 56 ≤ va.toNat then .fault cTRANSLATION
  else match part? s (me s x).part with
    | none => .fault cTRANSLATION
    | some p => match xlateCached s p x.loc va.toNat n k with
      | .ok key => .ok key
      | .fault c => .fault c
      | .miss => if (me s x).walk.missed.contains va.toNat then .fault cTRANSLATION else .walk

/-- A use of a cached extent makes it the most recent (08 R208). -/
def touch (s : State) (x : Cur) (va : Nat) : State :=
  match cached (core s x.loc) (me s x).part va with
  | some e => if 16 ≤ va / 2 ^ 48 then cacheEntry s x.loc (me s x).part e else s
  | none => s

/-- A walk for `who` at a location enters its die's walker queue, on the copies as they stand if it is among the first 512 (08 R208, 13 R314). -/
def addWalk (s : State) (l : Loc) (who : WalkWho) (pid : Nat) (w : WalkFor) : State :=
  let dp := diePart s (dieOf l) pid
  let k : Walk := match w with
    | .extent va => ⟨s.nextId, l, who, pid, some va, 0, dp.map, dp.ltt⟩
    | .label tid => ⟨s.nextId, l, who, pid, none, tid, dp.map, dp.ltt⟩
  modDie (newId s).2 (dieOf l) fun y => { y with walks := y.walks ++ [k] }

/-- Who awaits a walk, and for what. -/
def WalkState.await (w : WalkState) (f : WalkFor) : WalkState := { w with waits := some f }

/-- The issuing thread waits for a walk. -/
def threadWalk (x : Cur) (w : WalkFor) (s : State) : State :=
  setSt (modTh (addWalk s x.loc (.thread (me s x).thid) (me s x).part w) x.loc x.slot fun th => { th with walk := th.walk.await w }) x.loc x.slot
    (.block .walk s.cycle)

def startWalk (x : Cur) (va : Nat) : State → State := threadWalk x (.extent va)
def startLabelWalk (x : Cur) (tid : Nat) : State → State := threadWalk x (.label tid)

/-- Whether the issuing instruction has the extent of an HBM address: cached, brought by a walk of its own, or known to be absent. -/
def hasExtent (s : State) (x : Cur) (va : Nat) : Bool :=
  (cached (core s x.loc) (me s x).part va).isSome || (extFind (me s x).walk.exts va).isSome || (me s x).walk.missed.contains va

/-- The first 2 MiB piece of a range for which a walk is still needed; at most `fuel` pieces. -/
def rangeWalk (s : State) (x : Cur) : Nat → Nat → Nat → Option Nat
  | 0, _, _ => none
  | fuel + 1, va, n =>
    if n = 0 || va / 2 ^ 48 < 16 || 2 ^ 56 ≤ va then none
    else if hasExtent s x va then
      let len := min n (2 ^ 21 - va % 2 ^ 21)
      rangeWalk s x fuel (va + len) (n - len)
    else some va

/-- The first address of some ranges (device address, length) for which a walk is still needed. -/
def firstWalk (s : State) (x : Cur) (rs : List (Nat × Nat)) : Option Nat := rs.findSome? fun r => rangeWalk s x (r.2 / 2 ^ 21 + 2) r.1 r.2

/-- The extents of the ranges an instruction names come before it goes on (08 R208). -/
def withExtents (s : State) (x : Cur) (rs : List (Nat × Nat)) (e : Eff) : Eff :=
  match firstWalk s x rs with
  | some va => .wait (startWalk x va)
  | none => e

/-! ## Outstanding accesses (01 R29, 10 R247) -/

def relaxedOpen (s : State) (th : Thread) : List Request := s.reqs.filter fun r => isMine th r && r.relaxed && r.undone
def storesOpen (s : State) (th : Thread) : Bool := s.reqs.any fun r => isMine th r && r.write
def drained (s : State) (x : Cur) : Bool := (relaxedOpen s (me s x)).isEmpty

/-! ## Migration (01 R30, R31; 04 R118, R119; 11 R264) -/

/-- A thread that acts as roaming now. -/
def roams (th : Thread) : Bool := th.roaming && !th.thact && !th.lact

def packable (pc : Word) (e : LoopEntry) : Bool :=
  let d := (e.start - pc).toInt / 4
  decide (-2147483648 ≤ d ∧ d < 2147483648)

/-- The conditions of step 1 of R31. -/
def mayLeave (s : State) (l : Loc) (th : Thread) : Bool :=
  !storesOpen s th && decide ((core s l).fwd.length < 16) && !hasWaitingGuard (core s l) th

/-- The slot enters MOVING, or BLOCK until it may leave. -/
def leave (x : Cur) (dest : Loc) (s : State) : State :=
  if mayLeave s x.loc (me s x) then setSt s x.loc x.slot (.moving dest) else setSt s x.loc x.slot (.block .migrate s.cycle)

/-! ## The access -/

/-- What an instruction asks of memory: its address, size and permission, whether it needs a full/empty bit, whether it is relaxed, whether
its acknowledgement counts as a store's, the act, and the destination a relaxed reply will write. -/
structure Acc where
  va : Word
  size : Nat
  kind : XKind
  fe : Bool := false
  relaxed : Bool := false
  scope : Scope := .narrowest
  write : Bool := false
  op : MemOp
  ws : List RegWrite := []

/-- The request of an access; that of a label access has its first address still to be translated (13 R320). -/
def mkReq (s : State) (x : Cur) (a : Acc) (key : Nat) : Request :=
  let th := me s x
  ⟨s.nextId, x.loc, x.slot.val, th.thid, th.part, th.qos, a.relaxed, if a.op.isLook then lookScope a.scope else scopeOf x.loc key a.scope, key,
    a.va.toNat, a.size, a.write, a.op, 0, none, 0, none, false, .none, if a.op.isLook then .xlate a.kind else .sent, x.w0, x.w1⟩

def addReq (s : State) (r : Request) : State := { (newId s).2 with reqs := s.reqs ++ [r] }

/-- The thread parks until the reply of request `s.nextId` (01 R29). -/
def parkOn (s : State) (x : Cur) (r : Request) : State := setSt (addReq s r) x.loc x.slot (.parkMem (.access r.id))

/-- The registers a reply writes (01 R29; 09 R220). -/
def replyNow (s : State) (x : Cur) (va : Nat) : Reply → Eff
  | .ack => .go s
  | .writes ws => .go (applyWrites s x.loc x.slot ws)
  | .retry => .stay s
  | .memerr a => .trap cMEMERR 0 (if a = 0 then va else a)
  | .trap c d a => .trap c d a
  | .defer w => .go (applyWrite s x.loc x.slot w)

/-- An own-LM access, performed at issue with all its parts, or entered on a wait list (01 R24, 10 R246). -/
def ownAct (x : Cur) : Nat → State → Request → Eff
  | 0, s, _ => .go s
  | n + 1, s, r =>
    match memAct s r with
    | .done t rep => replyNow (serveAll t r.key r.size) x r.va rep
    | .more t op => ownAct x n t { r with op := op }
    | .wait g => let t := parkOn s x r; .park (enterList t r g)
    | _ => .go s

/-- An access with a physical address (01 R24, R29, R30; 10 R246, R247). -/
def accessAt (s : State) (x : Cur) (a : Acc) (key : Nat) (inPlace : Bool) : Eff :=
  let th := me s x
  let own := isLm key && servedAt key == x.loc
  if !a.relaxed && !drained s x then .block .drain
  else if own then ownAct x 5 s (mkReq s x a key)
  else if a.relaxed then
    if 8 ≤ (relaxedOpen s th).length then .block .relaxedLimit
    else
      let t := addReq s (mkReq s x a key)
      .go (if a.ws.isEmpty && !a.op.isLook then t else addLong t x.loc x.slot ⟨.access s.nextId, none, a.ws, 0⟩)
  else if roams th && !inPlace && servedAt key != x.loc && th.loops.all (packable th.pc) then .wait (leave x (servedAt key))
  else .park (parkOn s x (mkReq s x a key))

/-- The checks of R219 from step 4 on, then the access. -/
def access (s : State) (x : Cur) (a : Acc) : Eff :=
  match addrCheck s x a.va a.size a.kind with
  | .fault c => .trap c 0 a.va.toNat
  | .walk => .wait (startWalk x a.va.toNat)
  | .ok key =>
    if a.fe && isHbm key then .trap cPERMISSION 1 a.va.toNat
    else accessAt (touch s x a.va.toNat) x a key false

/-- The base and displacement of LD, ST, FE and VMEM (09 R218). -/
def eaOf (base : Word) (imm : Imm31) : Word := base + imm.signExtend 64

/-- A release: it issues only after the thread's relaxed accesses are performed (10 R249, R254). -/
def release (s : State) (x : Cur) (e : Eff) : Eff := if drained s x then e else .block .drain

def rxOf (m : Option MPfx) : Bool := m.isSome
def scopeArg (m : Option MPfx) : Scope := match m with | some q => q.scope | none => .narrowest

end Sys2Proof.Machine
end

