-- ==== Sys2Proof/Machine/Records.lean ====
section
/-! DEFINITION. Records that instructions read at issue: the tensor parameter record and the shape record (02 R56, R63 to R68). -/

namespace Sys2Proof.Machine

/-- Bytes of a record at a device address, or the fault of reading them, with the extents that the issuer's walks have brought (08 R197 to R199, R207,
R208, R213). -/
def readRec (s : State) (l : Loc) (pid : Nat) (wk : WalkState) (va n : Nat) : Except (Nat × Nat) (List Byte) :=
  match part? s pid with
  | none => .error (cTRANSLATION, va)
  | some p =>
    match xlateFor s p l wk va n .read false with
    | .ok key =>
      if (List.range ((n + 15) / 16)).any fun i => poisoned s (key + 16 * i) then .error (cMEMERR, va) else .ok (s.mem.readN key n)
    | .fault c => .error (c, va)
    | .miss => .error (cTRANSLATION, va)

/-- The roles of 02 R56. -/
def Fmt.isAct : Fmt → Bool
  | .i8 | .n8 | .bf16 | .fp16 | .f8a | .f8b => true
  | _ => false
def Fmt.isWt (f : Fmt) : Bool := Fmt.isAct f || f == .ds8
def Fmt.isOut : Fmt → Bool
  | .i64 | .n64 | .ds8 | .e8 => false
  | _ => true
/-- The 16-bit class of 02 R64. -/
def Fmt.is16 (f : Fmt) : Bool := f == .bf16 || f == .fp16

/-- CLAMPB of 02 R64: positive, finite, representable in OFMT, not above its largest finite value, and an integer for an integer OFMT. -/
def clampOk (o : Fmt) (b : Nat) : Bool :=
  match fp32.val b with
  | .fin false m e =>
    m != 0 && (match Fmt.fp? o with
      | some f => let r := roundFin f .rtz false m e; r.2 == 0 && r.1 ≤ f.maxPat && (f.val r.1).cmp (fp32.val b) == 0
      | none => let i := roundInt .rtz false m e; !i.2 && i.1 ≤ intMax o.bits (Fmt.signed o))
  | _ => false

/-- A tensor parameter record from its 32 bytes, RND resolved against the thread's mode; none where 02 R64 rejects it. -/
def parseTpr (mode : Rnd) (l : List Byte) : Option Tpr :=
  let n := ofBytes l
  let f (hi lo : Nat) : Nat := n / 2 ^ lo % 2 ^ (hi + 1 - lo)
  match Fmt.ofNum (f 159 156), Fmt.ofNum (f 155 152), Fmt.ofNum (f 139 136), Fmt.ofNum (f 143 140), Fmt.ofNum (f 147 144), Fmt.ofNum (f 151 148) with
  | some o, some w, some a0, some a1, some a2, some a3 =>
    if f 130 0 == 0 && f 199 192 == 0 && f 135 133 < 5 && f 132 131 < 3 && Fmt.isOut o && Fmt.isWt w && Fmt.isAct a0 && Fmt.isAct a1
        && Fmt.isAct a2 && Fmt.isAct a3 && f 255 200 % 2 == 0 && clampOk o (f 191 160) then
      some ⟨f 255 200, BitVec.ofNat 32 (f 191 160), o, w, #v[a0, a1, a2, a3], if f 135 133 = 0 then mode else Rnd.ofNum (f 135 133), f 132 131⟩
    else none
  | _, _, _, _, _, _ => none

/-- Reads the record at an address: a misaligned or rejected one is PARAM_FORMAT (02 R64). -/
def readTpr (s : State) (l : Loc) (pid : Nat) (wk : WalkState) (mode : Rnd) (va : Nat) : Except (Nat × Nat) Tpr :=
  if va % 32 ≠ 0 then .error (cPARAM, 0)
  else match readRec s l pid wk va 32 with
    | .error e => .error e
    | .ok b => match parseTpr mode b with
      | some t => .ok t
      | none => .error (cPARAM, 0)

/-- Bytes of one element (02 R67). -/
def Fmt.size (f : Fmt) : Nat := f.bits / 8

/-- A shape record from its 32 bytes; none where 02 R68 rejects it. -/
def parseShape (l : List Byte) : Option Shape :=
  let n := ofBytes l
  let f (hi lo : Nat) : Nat := n / 2 ^ lo % 2 ^ (hi + 1 - lo)
  let nd := f 3 2
  let ext (d : Nat) : Nat := f (111 + 16 * d) (96 + 16 * d)
  let str (d : Nat) : Nat := f (183 + 24 * d) (160 + 24 * d)
  match Fmt.ofNum (f 7 4) with
  | none => none
  | some k =>
    if f 1 0 == 0 && f 95 92 == 0 && f 91 64 != 0 && (List.range 4).all (fun d => if d ≤ nd then ext d != 0 else ext d == 0 && str d == 0)
        && f 63 8 % Fmt.size k == 0 then
      some ⟨f 63 8, f 91 64, k, nd, #v[ext 0, ext 1, ext 2, ext 3], #v[str 0, str 1, str 2, str 3]⟩
    else none

/-- The address of an element, and whether it is in bounds (02 R67). -/
def Shape.addr (h : Shape) (i0 i1 : Nat) : Nat := h.base + Fmt.size h.fmt * (i0 * h.stride[0] + i1 * h.stride[1])
def Shape.inb (h : Shape) (i0 i1 : Nat) : Bool :=
  i0 < h.ext[0] && (if h.ndim = 0 then i1 == 0 else i1 < h.ext[1])
    && h.addr i0 i1 + Fmt.size h.fmt ≤ h.base + h.bound * 4096

end Sys2Proof.Machine
end

