-- ==== Sys2Proof/Machine/Engines.lean ====
section
/-! DEFINITION. What the engines share: command images, issue of a command, and its reads, writes and completion granule (07 R181, R191 to R194; 08 R213; 09 R238 to R241; 13 R335; 14 R358). -/

namespace Sys2Proof.Machine

/-! ## Command images (07 R191 to R193; 09 R241; 13 R335; 14 R358) -/

/-- A field of a record as part of its number. -/
def fieldAt (hi lo v : Nat) : Nat := v % 2 ^ (hi + 1 - lo) * 2 ^ lo

/-- Bits [255:131] of the record, RND resolved (07 R192). -/
def Tpr.tprc (t : Tpr) : Nat :=
  t.epi + t.rnd.num * 2 ^ 2 + (Fmt.num t.afmt[0]) * 2 ^ 5 + (Fmt.num t.afmt[1]) * 2 ^ 9 + (Fmt.num t.afmt[2]) * 2 ^ 13 + (Fmt.num t.afmt[3]) * 2 ^ 17
    + (Fmt.num t.wfmt) * 2 ^ 21 + (Fmt.num t.ofmt) * 2 ^ 25 + t.clampb.toNat * 2 ^ 29 + t.scalep * 2 ^ 69

def meImage (a0 a1 a2 param tprc : Nat) : Nat :=
  fieldAt 511 387 tprc + fieldAt 383 328 a0 + fieldAt 319 264 a1 + fieldAt 255 200 a2 + fieldAt 191 64 param

def ieImage (a0 a1 a2 a3 count hi aux : Nat) : Nat :=
  fieldAt 511 456 a0 + fieldAt 455 400 a1 + fieldAt 399 344 a2 + fieldAt 343 288 a3 + fieldAt 287 256 count + hi + fieldAt 127 64 aux

def shapeImage (h : Shape) : Nat :=
  fieldAt 255 228 h.bound + fieldAt 227 204 h.stride[1] + fieldAt 203 180 h.stride[0] + fieldAt 179 164 h.ext[1] + fieldAt 163 148 h.ext[0]
    + fieldAt 147 144 (Fmt.num h.fmt) + fieldAt 143 142 h.ndim

/-- The next label a TE command examines (13 R335). -/
def resumeOf (root resume : Label) (stack : List (Label × Nat)) : Label :=
  match stack with
  | (x, _) :: _ => x
  | [] => if resume = 0 then root else resume

def EngBody.image : EngBody → Nat
  | .wload src t pitch sp => meImage src 0 0 (fieldAt 23 0 pitch + fieldAt 24 24 sp.toNat) t.tprc
  | .mma _ d a st pm fp rp cp wf sp t =>
    meImage 0 0 0 (fieldAt 1 0 d.val + fieldAt 3 2 a.val + fieldAt 5 4 st.val + fieldAt 6 6 pm.toNat + fieldAt 7 7 fp.toNat + fieldAt 23 8 rp.toNat
      + fieldAt 39 24 cp.toNat + fieldAt 43 40 (Fmt.num wf) + fieldAt 44 44 sp.toNat) t.tprc
  | .tstore dst compl t pitch w0 rows k fp =>
    meImage dst compl 0 (fieldAt 23 0 pitch + fieldAt 39 24 w0 + fieldAt 55 40 rows + fieldAt 57 56 k.val + fieldAt 58 58 fp.toNat) t.tprc
  | .tload k src pitch => meImage src 0 0 (fieldAt 23 0 pitch + fieldAt 57 56 k.val) 0
  | .tzero k => meImage 0 0 0 (fieldAt 57 56 k.val) 0
  | .tfree k => meImage 0 0 0 (fieldAt 57 56 k.val) 0
  | .mparam blk => meImage blk 0 0 0 0
  | .gemv res act wts nv m k t => meImage res act wts (fieldAt 3 0 nv + fieldAt 23 8 (m - 1) + fieldAt 39 24 (k - 1)) t.tprc
  | .gather dst idx compl sh n moved drops => ieImage dst idx compl sh.base n (shapeImage sh) (moved * 2 ^ 32 + drops)
  | .scatter src idx compl sh n opk moved drops =>
    ieImage src idx compl sh.base n (shapeImage sh + fieldAt 141 140 opk) (moved * 2 ^ 32 + drops)
  | .copy dst src compl bytes moved => ieImage dst src compl 0 bytes 0 (moved * 2 ^ 32)
  | .fill dst compl bytes pat moved => ieImage dst 0 compl 0 bytes (fieldAt 255 224 moved) pat.toNat
  | .mcast off src compl bytes ts moved =>
    ieImage off src compl 0 bytes (fieldAt 255 224 moved + fieldAt 137 136 (ts.length - 1)) ((ts.mapIdx fun i t => fieldAt (16 * i + 15) (16 * i) t).sum)
  | .cond dst src compl idx n esz moved _ => ieImage dst src compl idx n (fieldAt 139 138 esz) (moved * 2 ^ 32)
  | .te _ root resume compl bval p off fmt maxd anch n visited skipped stack _ =>
    fieldAt 511 384 (resumeOf root resume stack).toNat + fieldAt 383 377 (bitsAt root 106 100) + fieldAt 376 371 maxd + fieldAt 370 370 anch.toNat
      + fieldAt 369 366 (Fmt.num fmt) + fieldAt 365 350 off + fieldAt 349 299 (compl / 32) + fieldAt 298 235 bval.toNat + fieldAt 234 171 p.toNat
      + fieldAt 170 139 visited + fieldAt 138 107 skipped + fieldAt 106 75 n
  | .pe fn seg seg2 a0 a1 compl bval imm n done .. =>
    let imm := if fn = 0 ∨ fn = 8 then imm + fieldAt 20 16 (n - 1) else imm
    fieldAt 511 456 seg + fieldAt 455 400 seg2 + fieldAt 399 344 a0 + fieldAt 343 288 a1 + fieldAt 287 232 compl + fieldAt 223 160 bval
      + fieldAt 159 96 imm + fieldAt 95 64 done

/-- The 64-byte image of a command as eight words. -/
def imageWords (s : State) (e : Engine) (q : EngCmd) : List Word :=
  let pw := match part? s q.part with | some p => partIdWord p | none => 0
  let g := match q.guard with | some g => fieldAt 53 53 1 + fieldAt 52 52 g.gn.toNat + fieldAt 51 50 g.slot.val | none => 0
  let h := fieldAt 63 60 (engNum e).val + fieldAt 59 54 q.fn + g + fieldAt 49 46 q.slot + fieldAt 45 30 q.seq + fieldAt 19 0 pw
  BitVec.ofNat 64 h :: (List.range 7).map fun i => BitVec.ofNat 64 (q.body.image / 2 ^ (64 * (i + 1)))

/-- A machine check that carries a command's image (07 R194; 15 R381). -/
def imageCheck (s : State) (e : Engine) (q : EngCmd) : State := machineCheck s q.part (imageWords s e q)

/-- The same where `bad` holds. -/
def checkIf (bad : Bool) (s : State) (e : Engine) (q : EngCmd) : State := if bad then imageCheck s e q else s

/-! ## Issue of a command (07 R181) -/

def ecap : Nat := 2

/-- A range to translate at issue: address, bytes, permission. -/
abbrev Need := Nat × Nat × XKind

/-- Translates every range, in order; the pieces, or the first fault (07 R181 step 7). -/
def xlAll (s : State) (p : Partition) (l : Loc) (w : WalkState) : List Need → Except (Nat × Nat) (List (Nat × Nat × Nat))
  | [] => .ok []
  | (va, n, k) :: r =>
    match xlateRange s p l w k (n / 65536 + 3) va n with
    | .error e => .error e
    | .ok a => (xlAll s p l w r).map fun b => a ++ b

/-- A row of addresses `pitch` apart: one range for each row of `n` bytes. -/
def rowNeeds (va pitch n rows : Nat) (k : XKind) : List Need := (List.range rows).map fun i => (va + i * pitch, n, k)

/-- What a command's own rule answers at issue: the ranges to translate and the body, or the trap. -/
abbrev CmdPlan := Except (Nat × Nat × Nat) (List Need × EngBody)

/-- What an ME command does to the tile state when it issues: TWM of the tile it writes (07 R179), held (R178), the latch shadow (R183). -/
def issueMarks (c : Core) (q : EngCmd) : Core :=
  match q.body with
  | .wload _ t _ sp => { c with shadow := some (t.wfmt, sp) }
  | b =>
    match b.writes with
    | some t => { c with twm := c.twm.set t ⟨BitVec.ofNat 8 q.seq, 0⟩, held := c.held ||| (1#4 <<< t.val) }
    | none => c

/-- Queues a command that has passed every check; the guard takes its decision if it is at the head and its slot is resolved (03 R88). -/
def queueCmd (s : State) (x : Cur) (e : Engine) (fn : Nat) (g : Option GPfx) (xl : List (Nat × Nat × Nat)) (b : EngBody) : State :=
  let th := me s x
  let n := engNum e
  settle (modCore s x.loc fun c =>
    let q : EngCmd := ⟨c.engSeq[n].toNat, fn, x.slot.val, th.thid, th.part, th.qos, modeOf th, g, none, none, xl, [], 0, false, false, [], .none, b⟩
    issueMarks { setEngQ c e (engQ c e ++ [q]) with engSeq := c.engSeq.set n (c.engSeq[n] + 1) } q) x.loc

/-- The extents of a command's records and ranges are used (08 R208). -/
def useNeeds (s : State) (p : Partition) (l : Loc) (rs : List (Nat × Nat)) : State :=
  rs.foldl (fun s r => useExtents s p l (r.2 / 2 ^ 21 + 2) r.1 r.2) s

/-- The addresses and lengths of the ranges to translate. -/
def needRanges (needs : List Need) : List (Nat × Nat) := needs.map fun n => (n.1, n.2.1)

/-- The issue of a command: the release first, so that its records are read after the thread's earlier accesses, then the checks of its plan, the
translation of its ranges, and room in the queue (07 R181; 10 R249). `recs` are the ranges of its records, `prep` is what the form does at issue
beside. -/
def commandWith (s : State) (x : Cur) (e : Engine) (fn : Nat) (g : Option GPfx) (recs : List (Nat × Nat)) (plan : CmdPlan) (prep : State → State) : Eff :=
  release s x (withExtents s x recs (match plan with
  | .error t => .trap t.1 t.2.1 t.2.2
  | .ok (needs, b) =>
    withExtents s x (needRanges needs) (match part? s (me s x).part with
    | none => .trap cTRANSLATION 0 0
    | some p =>
      match xlAll s p x.loc (me s x).walk needs with
      | .error t => .trap t.1 0 t.2
      | .ok xl =>
        if (engQ (core s x.loc) e).length < ecap then .go (prep (queueCmd (useNeeds s p x.loc (recs ++ needRanges needs)) x e fn g xl b))
        else .block (.engine e))))

def command (s : State) (x : Cur) (e : Engine) (fn : Nat) (g : Option GPfx) (recs : List (Nat × Nat)) (plan : CmdPlan) : Eff :=
  commandWith s x e fn g recs plan id

def badParam : CmdPlan := .error (cPARAM, 0, 0)

/-- A record as step 5 finds it: rejected, not to be read (a fault of step 7), or read (07 R181). -/
inductive RecRes (α : Type) where
  | bad (cause : Nat)
  | fault (cause addr : Nat)
  | ok (r : α)

/-- The order of R181 for a command with a record: PARAM_FORMAT, the record's own rejection included, misalignment, then the fault of a record that
cannot be read. Checks that depend on the record get `none` where there is none. -/
def recordPlan {α : Type} (r : RecRes α) (bad : Option α → Bool) (mis : Option α → Option Nat) (f : α → List Need × EngBody) : CmdPlan :=
  let rest (o : Option α) (last : CmdPlan) : CmdPlan :=
    if bad o then badParam else match mis o with | some va => .error (cMISALIGN, 0, va) | none => last
  match r with
  | .bad c => .error (c, 0, 0)
  | .fault c va => rest none (.error (c, 0, va))
  | .ok t => rest (some t) (.ok (f t))

/-- Whether an address lies in LM or slice memory by its space bits (07 R181, R188). -/
def lowSpace (va : Nat) : Bool := va / 2 ^ 48 % 256 < 4

/-- A completion granule, or an output that need not be there: address 0 names none (07 R193; 09 R236, R241). -/
def complNeed (va n : Nat) : List Need := if va = 0 then [] else [(va, n, .write)]

/-- Own LM below the reserved region, by the space bits and the offset alone (07 R181, R190; 14 R350). -/
def ownLm (va n : Nat) : Bool := va / 2 ^ 48 % 256 == 0 && va % 2 ^ 48 + n ≤ 0x5C000

/-! ## Reads of a running command (07 R194; 08 R213, R214) -/

/-- The bytes of a range, zero in poisoned granules, and whether one was poisoned. -/
def engRead (s : State) (xl : List (Nat × Nat × Nat)) (va n : Nat) : List Byte × Bool :=
  (List.range n).foldr (fun i (r : List Byte × Bool) =>
    match xlFind xl (va + i) with
    | none => (0 :: r.1, r.2)
    | some k => if poisoned s k then (0 :: r.1, true) else (s.mem.read k :: r.1, r.2)) ([], false)

/-- The physical address of a byte that a command has translated. -/
def xlKey (xl : List (Nat × Nat × Nat)) (va : Nat) : Nat := (xlFind xl va).getD 0

/-- A number list without repeats, in the order of first mention. -/
def nubNat (l : List Nat) : List Nat := l.foldl (fun r a => if r.contains a then r else r ++ [a]) []

/-- The poison unit of an address. -/
def poisonUnit (k : Nat) : Nat := if isHbm k then k - k % 32 else granule k

/-- The granules of a range, as addresses. -/
def granAddrs (va n : Nat) : List Nat := if n = 0 then [] else (List.range ((va + n - 1) / 16 + 1 - va / 16)).map fun i => 16 * (va / 16 + i)

/-- The part of a granule that lies in a range: its address and length. -/
def partIn (va n g : Nat) : Nat × Nat := (max va g, min (va + n) (g + 16) - max va g)

/-! ## Writes of a running command: posted, each in one granule, and performed in an order that is free between granules (07 R190; 08 R196, R213, R214;
09 R235; 10 R243, R249) -/

/-- The physical addresses and values of the bytes of a write. -/
def bytePlaces (xl : List (Nat × Nat × Nat)) : Nat → List Byte → List (Nat × Byte)
  | _, [] => []
  | va, b :: r => match xlFind xl va with | some k => (k, b) :: bytePlaces xl (va + 1) r | none => bytePlaces xl (va + 1) r

/-- The LM and slice granules of a range. -/
def feGranules (xl : List (Nat × Nat × Nat)) (va n : Nat) : List Nat :=
  nubNat (((List.range n).filterMap fun i => xlFind xl (va + i)).filterMap fun k => if isHbm k then none else some (granule k))

def fillAll (s : State) (gs : List Nat) : State := gs.foldl fillGran s

def Post.key (p : Post) : Nat := (p.at_.head?.map Prod.fst).getD 0
def Post.gran (p : Post) : Nat := granule p.key

/-- Whether a post's bytes, with those of the command below them, reach over the whole granule. -/
def Post.whole (p : Post) : Bool := p.key - p.gran ≤ p.before && p.key + p.at_.length == p.gran + 16

/-- Bytes of one granule as a post. -/
def putOf (xl : List (Nat × Nat × Nat)) (va before : Nat) (l : List Byte) (fills : List Nat) : Post := ⟨.put, bytePlaces xl va l, before, fills⟩

/-- The writes of a command, in order, as posts: the last to a granule sets it full, and covers it whole where the command's bytes do. -/
def postsOf (xl : List (Nat × Nat × Nat)) : List (Nat × List Byte) → List Post
  | [] => []
  | (va, l) :: r =>
    let p := putOf xl va 0 l []
    let later := r.any fun q => granule (xlKey xl q.1) == p.gran
    (if later then p else { p with fills := feGranules xl va l.length }) :: postsOf xl r

/-- The same where earlier writes of the list may lie below a post's bytes. -/
def coverPosts (ps : List Post) : List Post :=
  ps.mapIdx fun i p =>
    let mine := ((ps.take i).filter fun o => o.gran == p.gran).flatMap fun o => o.at_.map Prod.fst
    { p with before := if (List.range (p.key - p.gran)).all fun j => mine.contains (p.gran + j) then p.key - p.gran else 0 }

/-- The places in a list of posts of those that may be performed now: no earlier one goes to the same granule. -/
def readyPosts (ps : List Post) : List Nat :=
  (List.range ps.length).filter fun i => match ps[i]? with
    | some p => !((ps.take i).any fun o => o.gran == p.gran)
    | none => false

/-- A post is performed: its bytes are written and its granules set full. A poisoned granule that the command has now written whole is clean again, on HBM
with the other granule of its block; a write of part of one leaves the poison, which is answered. -/
def putPost (s : State) (q : EngCmd) (p : Post) : State × EngCmd × Bool :=
  let t := writeAt s q.part q.thid p.at_
  let other := Nat.xor p.gran 16
  if !poisoned s p.key then (fillAll t p.fills, q, false)
  else if !p.whole then (fillAll t p.fills, q, true)
  else if isHbm p.key && !q.io.half.contains other then (t, { q with io := { q.io with half := p.gran :: q.io.half } }, false)
  else (fillAll (clearPoison t p.key) p.fills, { q with io := { q.io with half := q.io.half.filter fun g => g != other } }, false)

/-- The access that an engine's command makes next, in the queue of its bank. -/
def agentOf (l : Loc) (e : Engine) (q : EngCmd) : Agent := ⟨l, (engNum e).val, q.part, q.cls⟩

/-- Which of some accesses comes next: the one that is under way, else a free one of them (10 R243, R249; log 22). -/
def pickTurn (s : State) (a : Agent) (keys : List Nat) : Nat × State :=
  match (ticket? s a).bind fun r => keys.findIdx? (· == r.key) with
  | some i => (i, s)
  | none => if keys.length ≤ 1 then (0, s) else (Config.rowPick s.free % keys.length, { s with free := s.free + 1 })

/-- An access is made if its bank lets it act now. -/
def whenTurn (s : State) (l : Loc) (e : Engine) (q : EngCmd) (key : Nat) (f : State → State) : State :=
  let r := agentTurn s (agentOf l e q) key
  if r.1 then f r.2 else r.2

/-- The completion granule: written whole and set full; 0 names none (07 R188; 09 R240). -/
def complete (s : State) (q : EngCmd) (va : Nat) (d0 d1 : Nat) : State :=
  if va = 0 then s else (putPost s q (putOf q.xl va 0 (toBytes 8 d0 ++ toBytes 8 d1) (feGranules q.xl va 16))).1

/-- A command's own-LM translations on the core it is restored to: the offsets stay (15 R376). -/
def rebaseXl (l : Loc) (xl : List (Nat × Nat × Nat)) : List (Nat × Nat × Nat) :=
  xl.map fun t => match l with
    | .core d i => if t.1 / 2 ^ 48 = 0 then (t.1, t.2.1, lmKey d i (t.1 % 2 ^ 48)) else t
    | _ => t

/-- Its granules to be set full there. -/
def rebaseFills (old new : List (Nat × Nat × Nat)) (gs : List Nat) : List Nat :=
  gs.map fun g => match (old.zip new).find? fun t => decide (t.1.2.2 < g + 16) && decide (g < t.1.2.2 + t.1.2.1) with
    | some t => g + t.2.2.2 - t.1.2.2
    | none => g

/-- Changes what a command has under way. -/
def EngCmd.modIO (q : EngCmd) (f : EngIO → EngIO) : EngCmd := { q with io := f q.io }
def EngIO.addPosts (ps : List Post) (io : EngIO) : EngIO := { io with posts := io.posts ++ ps }
def EngIO.dropPost (i : Nat) (io : EngIO) : EngIO := { io with posts := io.posts.eraseIdx i }

/-- The command at the head of a queue that is running. -/
def headCmd (c : Core) (e : Engine) : Option EngCmd := (engQ c e).head?

/-- The command at the head may run: its guard has let it proceed (03 R88), a pre-emption holds back its start (15 R373), and a restore all of it (15 R376). -/
def runnable (s : State) (l : Loc) (e : Engine) : Option EngCmd :=
  match headCmd (core s l) e with
  | some q => if q.decided == some true && !q.finished && !heldBack s q.part && !(q.started.isNone && engineHeld s l q.part) then some q else none
  | none => none

end Sys2Proof.Machine
end

