-- ==== Sys2Proof/Machine/Matrix.lean ====
section
/-! DEFINITION. Tiles, the matrix engine and the near-memory port: TILE, MATRIX and HM, and the acts of the two engines (07 R176 to R194; 02 R54, R60 to R65, R69 to R72). -/

namespace Sys2Proof.Machine

/-! ## TILE (07 R177 to R179) -/

/-- The rows of a tile (04 R120). -/
def tileRows (t : TReg) : List VReg := (List.range 16).map fun i => Fin.ofNat 64 (16 * t.val + i)
def rowReg (t : TReg) (i : Nat) : VReg := Fin.ofNat 64 (16 * t.val + i % 16)

/-- Codes 0 to 5 and 8 to 12 (07 R177). -/
def tileFmt (n : Nat) : Option Fmt := if n ≤ 5 || (8 ≤ n && n ≤ 12) then Fmt.ofNum n else none

def execTcfg (h : Hdr) (d : TReg) (fmt : Fin 16) (s : State) : Out :=
  issue s 8 h { tile := true } fun x _ s =>
    match tileFmt fmt.val with
    | none => .trap cPARAM 0 0
    | some f => .go (modCore s x.loc fun c => { c with types := c.types.set d f })

def execTzero (h : Hdr) (d : TReg) (s : State) : Out :=
  issue s 8 h { vs := tileRows d, tile := true } fun x _ s => command s x .me 1 none [] (.ok ([], .tzero d))

def execTfree (h : Hdr) (d : TReg) (s : State) : Out :=
  issue s 8 h { vs := tileRows d, tile := true } fun x _ s => command s x .me 2 none [] (.ok ([], .tfree d))

def execTwm (h : Hdr) (d : TReg) (n : Fin 32) (s : State) : Out :=
  issue s 8 h { tile := true } fun x _ s =>
    if n.val = 0 ∨ 16 < n.val then .trap cPARAM 0 0
    else if n.val ≤ (core s x.loc).twm[d].rows then .go s
    else .block (.twm d n.val)

/-! ## MATRIX and HM at issue (07 R182, R184, R186, R188 to R190) -/

/-- The address of a command's record: s[r], or TPRA when the field is 0 (07 R182, R188, R190). -/
def tprVa (s : State) (x : Cur) (r : SReg) (v : Word) : Nat := if r = 0 then (me s x).tpra.toNat else v.toNat

/-- The record of a command; with the field and TPRA both 0 it is rejected. -/
def commandTpr (s : State) (x : Cur) (r : SReg) (v : Word) : RecRes Tpr :=
  let th := me s x
  let va := tprVa s x r v
  if r = 0 ∧ va = 0 then .bad cPARAM
  else if va % 32 ≠ 0 then .bad cPARAM
  else match readRec s x.loc th.part th.walk va 32 with
    | .error e => .fault e.1 e.2
    | .ok b => match parseTpr (modeOf th) b with
      | some t => .ok t
      | none => .bad cPARAM

def tprRange (s : State) (x : Cur) (r : SReg) (v : Word) : List (Nat × Nat) := if tprVa s x r v % 32 = 0 then [(tprVa s x r v, 32)] else []

/-- The first address that does not keep its alignment. -/
def unaligned (l : List (Nat × Nat)) : Option Nat := (l.find? fun p => p.1 % p.2 != 0).map Prod.fst

def execWload (h : Hdr) (g : Option GPfx) (a b : SReg) (pitch : BitVec 24) (sp : Bool) (s : State) : Out :=
  issue s (glen g) h { a := some a, b := some b, tile := true, dfu := [a, b] } fun x v s =>
    command s x .me 0 g (tprRange s x b v.b) (recordPlan (commandTpr s x b v.b) (fun _ => pitch.toNat % 64 != 0) (fun _ => unaligned [(v.a.toNat, 64)])
      fun t => (rowNeeds v.a.toNat pitch.toNat 64 16 .read, .wload v.a.toNat t pitch.toNat sp))

/-- The accumulator is FP32 unless both operands are i8 or n8 (02 R69). -/
def accIsFp (a w : Fmt) : Bool := !((a == .i8 || a == .n8) && (w == .i8 || w == .n8))

/-- AFMT[stream] as it stands in the record at TPRA, which ELEM_TYPE is checked against before the record is (07 R181, R184); none where the code is
reserved, which no tile's type is, and where the record cannot be read. -/
def recordAfmt (s : State) (x : Cur) (stream : Fin 4) : Option (Option Fmt) :=
  match readRec s x.loc (me s x).part (me s x).walk (me s x).tpra.toNat 32 with
  | .error _ => none
  | .ok b => some (Fmt.ofNum (ofBytes b / 2 ^ (136 + 4 * stream.val) % 16))

/-- The checks of R184 in the order of R181: the types of both tiles come before the record's own rejection, and PARAM_FORMAT that needs no record before
the fault of one that cannot be read. DESIGN CHOICE: with a latch shadow of none no accumulator type is known, so PARAM_FORMAT is answered without a check
of tile D's type (log 48). -/
def mmaPlan (s : State) (x : Cur) (k : MmaKind) (d a : TReg) (rowp colp : BitVec 16) (stream : Fin 4) (pm : Bool) : CmdPlan :=
  let c := core s x.loc
  let typed (f : Option Fmt) : Bool := f == some c.types[a] && match f, c.shadow with
    | some f, some (wf, _) => c.types[d] == (if accIsFp f wf then .fp32 else .i32)
    | _, _ => true
  let elem : Bool := (me s x).tpra != 0 && (me s x).tpra.toNat % 32 == 0 && match recordAfmt s x stream with
    | some f => !typed f
    | none => false
  let bad (o : Option Tpr) : Bool := d == a || match c.shadow with
    | none => true
    | some (wf, sp) => sp != (k == .sparse) || match o with
      | some t => Fmt.is16 t.afmt[stream] != Fmt.is16 wf || (pm && !accIsFp t.afmt[stream] wf)
      | none => false
  if elem then .error (cELEM, 0, 0)
  else recordPlan (commandTpr s x 0 0) bad (fun _ => none) fun t =>
    let w := c.shadow.getD (.i8, false)
    ([], .mma k d a stream pm (accIsFp t.afmt[stream] w.1) rowp colp w.1 w.2 t)

def mma (s : State) (h : Hdr) (g : Option GPfx) (fn : Nat) (k : MmaKind) (d a : TReg) (b c : MReg) (stream : Fin 4) (pm : Bool) : Out :=
  issue s (glen g) h { vs := tileRows d ++ tileRows a, tile := true } fun x _ s =>
    let q := core s x.loc
    command s x .me fn g (tprRange s x 0 0) (mmaPlan s x k d a ((readM q b).setWidth 16) ((readM q c).setWidth 16) stream pm)

def execMma (h : Hdr) (g : Option GPfx) (d a : TReg) (b c : MReg) (stream : Fin 4) (pm : Bool) (s : State) : Out := mma s h g 1 .add d a b c stream pm
def execMmaZ (h : Hdr) (g : Option GPfx) (d a : TReg) (b c : MReg) (stream : Fin 4) (pm : Bool) (s : State) : Out := mma s h g 2 .zero d a b c stream pm
def execMmaSp (h : Hdr) (g : Option GPfx) (d a : TReg) (b c : MReg) (stream : Fin 4) (pm : Bool) (s : State) : Out :=
  mma s h g 3 .sparse d a b c stream pm

/-- The rows of a 16-bit row predicate. -/
def predRows (rows : Nat) : List Nat := (List.range 16).filter fun i => rows.testBit i

/-- The scales of `n` weight rows from row `n0` (02 R65). -/
def scaleNeed (t : Tpr) (n0 n : Nat) : List Need := if t.scalep = 0 then [] else [(t.scalep + 2 * n0, 2 * n, .read)]

def execTstore (h : Hdr) (g : Option GPfx) (d : SReg) (a : TReg) (b c : SReg) (pitch : BitVec 24) (wrow0 rows : BitVec 16) (s : State) : Out :=
  issue s (glen g) h { b := some b, c := some c, d := some d, vs := tileRows a, tile := true, dfu := [d, b, c] } fun x v s =>
    let ty := (core s x.loc).types[a]
    let size (o : Option Tpr) : Nat := match o with | some t => Fmt.size t.ofmt | none => 1
    command s x .me 4 g (tprRange s x b v.b) (
      if ty ≠ .i32 ∧ ty ≠ .fp32 then .error (cELEM, 0, 0)
      else recordPlan (commandTpr s x b v.b) (fun o => pitch.toNat % size o != 0 || !lowSpace v.c.toNat)
        (fun o => unaligned [(v.d.toNat, size o), (v.c.toNat, 16)])
        fun t =>
          ((predRows rows.toNat).map (fun i => (v.d.toNat + i * pitch.toNat, 16 * Fmt.size t.ofmt, .write)) ++ complNeed v.c.toNat 16
              ++ scaleNeed t wrow0.toNat 16,
            .tstore v.d.toNat v.c.toNat t pitch.toNat wrow0.toNat rows.toNat a (ty == .fp32)))

def execTload (h : Hdr) (g : Option GPfx) (d : TReg) (a : SReg) (pitch : BitVec 24) (s : State) : Out :=
  issue s (glen g) h { a := some a, vs := tileRows d, tile := true, dfu := [a] } fun x v s =>
    command s x .me 5 g [] (
      if pitch.toNat % 64 ≠ 0 then badParam
      else if v.a.toNat % 64 ≠ 0 then .error (cMISALIGN, 0, v.a.toNat)
      else .ok (rowNeeds v.a.toNat pitch.toNat 64 16 .read, .tload d v.a.toNat pitch.toNat))

def execMparam (h : Hdr) (g : Option GPfx) (a : SReg) (s : State) : Out :=
  issue s (glen g) h { a := some a, tile := true, dfu := [a] } fun x v s =>
    command s x .me 6 g [] (
      if v.a.toNat % 64 ≠ 0 then .error (cMISALIGN, 0, v.a.toNat) else .ok ([(v.a.toNat, 128, .read)], .mparam v.a.toNat))

/-- Whether a range lies in HBM served by one stack (07 R190; 08 R201). -/
def oneStack (xl : List (Nat × Nat × Nat)) : Bool :=
  match xl with
  | [] => true
  | t :: r => (t :: r).all fun u => isHbm u.2.2 && u.2.2 % 2 ^ 60 / 2 ^ 36 == t.2.2 % 2 ^ 60 / 2 ^ 36

/-- Whether a range that translates lies in HBM of more than one stack (07 R190). DESIGN CHOICE: the stack of an address is known only from its
translation, so this PARAM_FORMAT comes after misalignment and after the translation faults of the weight range, and before those of the other
ranges (log 49). -/
def spansStacks (s : State) (x : Cur) (wts n : Nat) : Bool :=
  match part? s (me s x).part with
  | none => false
  | some p => match xlAll s p x.loc (me s x).walk [(wts, n, .read)] with
    | .error _ => false
    | .ok xl => !oneStack xl

def gemvPlan (s : State) (x : Cur) (nv m k : Nat) (res act wts : Nat) (r : RecRes Tpr) : CmdPlan :=
  let bad (o : Option Tpr) : Bool := nv == 0 || decide (8 < nv) || m % 4 != 0 || k % 64 != 0 || !ownLm act (nv * k) || !ownLm res (4 * nv * m)
    || wts / 2 ^ 48 % 256 < 16 || match o with
      | some t => t.afmt[0] != .i8 || !(t.wfmt == .i8 || t.wfmt == .ds8) || t.ofmt != .fp32
      | none => false
  match recordPlan r bad (fun _ => unaligned [(wts, 64), (res, 16)])
      (fun t => ([(wts, m * k, .read), (res, 4 * nv * m, .write), (act, nv * k, .read)] ++ scaleNeed t 0 m, .gemv res act wts nv m k t)) with
  | .error e => .error e
  | .ok q => if spansStacks s x wts (m * k) then badParam else .ok q

def execHmGemv (h : Hdr) (g : Option GPfx) (d a b c : SReg) (nv : Fin 16) (mm1 km1 : BitVec 16) (s : State) : Out :=
  issue s (glen g) h { a := some a, b := some b, c := some c, d := some d, tile := true, dfu := [d, a, b, c] } fun x v s =>
    command s x .nm 0 g (tprRange s x c v.c ++ [(v.b.toNat, (mm1.toNat + 1) * (km1.toNat + 1))])
      (gemvPlan s x nv.val (mm1.toNat + 1) (km1.toNat + 1) v.d.toNat v.a.toNat v.b.toNat (commandTpr s x c v.c))

/-! ## The arithmetic of `mma` (07 R182, R185; 02 R69 to R72) -/

/-- Positions per weight row. -/
def depthOf (wf : Fmt) : Nat := if Fmt.is16 wf then 32 else 64

/-- The kept weights of a sparse row with their positions (07 R182). -/
def keptWeights (wf : Fmt) (r : Row) : List (Nat × Nat) :=
  (List.range (depthOf wf / 2)).map fun q => (4 * (q / 2) + lane r 2 (128 + q), lane r wf.bits q)

/-- The weights of a row by position: one pattern each, or the kept ones of that position. -/
def weightsAt (wf : Fmt) (sp : Bool) (r : Row) : List (List Nat) :=
  if sp then (List.range (depthOf wf)).map fun k => ((keptWeights wf r).filter fun p => p.1 == k).map Prod.snd
  else (lanesOf wf.bits r).map fun n => [n]

/-- A weight as a value: the exact sum of the kept weights at its position, 0 if none. DESIGN CHOICE: R182 and R187 sum the products of repeated kept
weights, the comment in R185 their weights; the model follows R185, which differs for an infinite activation with weights of both signs or with none
(log 50). -/
def weightVal (wf : Fmt) (l : List Nat) : FpVal := match l with | [n] => elemVal wf n | l => exactSum (l.map (elemVal wf))

def intVal (f : Fmt) (n : Nat) : Int := if Fmt.signed f then sintOf f.bits n else (n % 2 ^ f.bits : Nat)

/-- ALLOWED(i, j) of R185. -/
def MaskSet.allowed (m : MaskSet) (i j : Nat) : Bool :=
  m.allow.getLsbD (16 * i + j) && (!m.pos || bitsAt m.kposv (16 * j + 15) (16 * j) ≤ bitsAt m.qposv (16 * i + 15) (16 * i))

/-- The 16 results of row i, and whether one saturated: `x` the activations, `acc` the accumulator lanes. -/
def mmaRow (ms : MaskSet) (fp : Bool) (mode : Rnd) (af wf : Fmt) (ws : List (List (List Nat))) (x acc : List Nat) (rowOn : Bool) (colp : BitVec 16)
    (pm : Bool) (i : Nat) : List Nat × Bool :=
  (List.range 16).foldl (fun (r : List Nat × Bool) j =>
    let on := rowOn && colp.getLsbD j
    let w := ws.getD j []
    let a := acc.getD j 0
    let v : Nat × Bool :=
      if fp then
        let ps := List.zipWith (fun n l => if on then (elemVal af n).mul (weightVal wf l) else .fin false 0 0) x w
        (accFp mode a ps, false)
      else
        let ps := List.zipWith (fun n l => if on then intVal af n * (l.map (intVal wf)).sum else 0) x w
        let q := accInt (sintOf 32 a) ps
        (patOf 32 q.1, q.2)
    let v := if pm && on && !ms.allowed i j then (if (fp32.val ms.fill.toNat).isNan then fp32.nanPat else ms.fill.toNat, v.2) else v
    (r.1 ++ [v.1], r.2 || v.2)) ([], false)

/-- The 16 result rows of an `mma` at its start cycle, and whether one of them saturated. -/
def mmaRows (c : Core) (k : MmaKind) (d a : TReg) (stream : Fin 4) (pm fp : Bool) (rowp colp : BitVec 16) (w : Weights) (t : Tpr) : List Row × Bool :=
  let af := t.afmt[stream]
  let ws := (List.finRange 16).map fun j => weightsAt w.wfmt w.sp w.rows[j]
  (List.range 16).foldl (fun (r : List Row × Bool) i =>
    let acc := if k = .zero then [] else lanesOf 32 c.tiles[rowReg d i]
    let v := mmaRow c.maskSet fp t.rnd af w.wfmt ws (lanesOf af.bits c.tiles[rowReg a i]) acc (rowp.getLsbD i) colp pm i
    (r.1 ++ [rowOf 32 v.1], r.2 || v.2)) ([], false)

/-! ## The epilogue (02 R61, R65) -/

/-- Steps 1 to 5 for one accumulator element; `scale` is a BF16 pattern. -/
def epilogue (t : Tpr) (fp : Bool) (scale v : Nat) : Narrow :=
  if !fp && Fmt.isInt t.ofmt && t.scalep == 0 && t.epi < 2 then
    let i := sintOf 32 v
    narrow t.rnd (some t.clampb) t.ofmt (ofInt (if t.epi = 1 ∧ i < 0 then 0 else i))
  else
    let a := if fp then v else (roundVal fp32 t.rnd (ofInt (sintOf 32 v))).1
    let a := if t.scalep = 0 then a else (roundVal fp32 t.rnd ((fp32.val a).mul (bf16.val scale))).1
    let a := match t.epi, fp32.val a with
      | 1, .nan => a
      | 1, .inf n => if n then 0 else a
      | 1, .fin n m _ => if n || m = 0 then 0 else a
      | 2, _ => gelu2 (Config.gelu2Pick a) a
      | _, _ => a
    narrow t.rnd (some t.clampb) t.ofmt (fp32.val a)

/-- The granules that hold the scales of `n` weight rows from row `n0`. -/
def scaleGrans (t : Tpr) (n0 n : Nat) : List Nat := if t.scalep = 0 then [] else granAddrs (t.scalep + 2 * n0) (2 * n)

/-- The bytes of a granule that lie in a range, each in its place, zero where poisoned; and whether one was poisoned. -/
def readPart (s : State) (xl : List (Nat × Nat × Nat)) (va n g : Nat) : Row × Bool :=
  let r := partIn va n g
  let b := engRead s xl r.1 r.2
  (BitVec.ofNat 512 (ofBytes b.1 * 2 ^ (8 * (r.1 - g))), b.2)

/-- Scale number `i` from the granules read, the first of which is that of byte `va`. -/
def scaleIn (grans : List Row) (va i : Nat) : Nat :=
  let o := va % 16 + 2 * i
  bitsAt (grans.getD (o / 16) 0) (8 * (o % 16) + 15) (8 * (o % 16))

/-! ## The acts of the ME (07 R178 to R181, R185, R186, R188, R189) -/

/-- Compute cycles of an `mma` (07 R181). -/
def computeCycles (wf : Fmt) (sp : Bool) : Nat := (if wf = .ds8 then 32 else if Fmt.is16 wf then 128 else 64) / (if sp then 2 else 1)

/-- The tiles a command names. -/
def EngBody.tilesOf : EngBody → List TReg
  | .mma _ d a .. => [d, a]
  | .tstore _ _ _ _ _ _ t _ => [t]
  | .tload t .. => [t]
  | .tzero t => [t]
  | .tfree t => [t]
  | _ => []

/-- The command that may start now: the head, or behind an `mma` that has left its compute cycles an unguarded command that does not name the tile it
is still writing (07 R181). -/
def meStartable (s : State) (l : Loc) : Option EngCmd :=
  match (core s l).meq with
  | [] => none
  | q :: r =>
    match q.started with
    | none => if q.decided == some true then some q else none
    | some t0 =>
      match r, q.body with
      | q2 :: _, .mma _ d _ _ _ _ _ _ wf sp _ =>
        if t0 + computeCycles wf sp ≤ s.cycle && q2.started.isNone && q2.guard.isNone && !(q2.body.tilesOf.contains d) then some q2 else none
      | _, _ => none

def putCmd (s : State) (l : Loc) (e : Engine) (old new : EngCmd) : State :=
  modCore s l fun c => setEngQ c e ((engQ c e).map fun q => if q = old then new else q)

def addTstat (c : Core) (t : TReg) (clamps nans : Nat) : Core :=
  { c with tstat := c.tstat.set t { c.tstat[t] with clamp := min 0xFFFF (c.tstat[t].clamp + clamps), nancv := min 0xFFFF (c.tstat[t].nancv + nans) } }

/-- The output rows of a `tstore`, with its counts of clamps and NaN conversions. -/
def storeRows (tile : List Row) (t : Tpr) (rows : Nat) (fp : Bool) (scale : Nat → Nat) : List Row × Nat × Nat :=
  (List.range 16).foldl (fun (r : List Row × Nat × Nat) i =>
    if rows.testBit i then
      let ns := (List.range 16).map fun j => epilogue t fp (scale j) (lane (tile.getD i 0) 32 j)
      (r.1 ++ [rowOf t.ofmt.bits (ns.map Narrow.pat)], r.2.1 + (ns.map Narrow.clamps).sum, r.2.2 + (ns.map Narrow.nans).sum)
    else (r.1 ++ [0], r.2)) ([], 0, 0)

/-- The outputs of a `tstore` as posts: each row's bytes, cut at granules. -/
def storePosts (q : EngCmd) (dst pitch rows : Nat) (t : Tpr) (out : List Row) : List Post :=
  let sz := 16 * Fmt.size t.ofmt
  coverPosts (postsOf q.xl ((predRows rows).flatMap fun i =>
    (granAddrs (dst + i * pitch) sz).map fun g =>
      let r := partIn (dst + i * pitch) sz g
      (r.1, bytesAt (toBytes sz (out.getD i 0).toNat) (r.1 - (dst + i * pitch)) r.2)))

/-- A `tstore` that has its tile rows and its scales converts them: it then has its writes to perform, and holds its count of clamps and NaN conversions
(07 R188). -/
def convertStore (s : State) (l : Loc) (q : EngCmd) (dst pitch rows : Nat) (t : Tpr) (k : TReg) (fp : Bool) (w0 : Nat) : State :=
  let r := storeRows (q.pend.take 16) t rows fp (scaleIn (q.pend.drop 16) (t.scalep + 2 * w0))
  let q1 := { q with pend := [BitVec.ofNat 512 (r.2.1 + r.2.2)], nextRow := 1 }
  modCore (putCmd s l .me q (q1.modIO (EngIO.addPosts (storePosts q dst pitch rows t r.1)))) l fun c => addTstat c k r.2.1 r.2.2

/-- The bytes of a weight row that are read (07 R182). -/
def weightBytes (wf : Fmt) (sp : Bool) : Nat := if sp then (if Fmt.is16 wf then 36 else 40) else 64

/-- The reads that a command has to make, numbered: granule j of row i is 4·i + j. -/
def startReads : EngBody → List Nat
  | .tload .. => List.range 64
  | .wload _ t _ sp => (List.range 64).filter fun n => 16 * (n % 4) < weightBytes t.wfmt sp
  | .mparam _ => List.range 8
  | .tstore _ _ t _ w0 _ _ _ => List.range (scaleGrans t w0 16).length
  | _ => []

/-- A command reaches its start cycle and reads the tile rows it needs (07 R180). -/
def startCmd (s : State) (l : Loc) (q : EngCmd) : State :=
  let c := core s l
  let q1 := { q with started := some s.cycle, io := { q.io with reads := startReads q.body } }
  match q.body with
  | .mma k d a st pm fp rp cp wf sp t =>
    match c.weights with
    | none => settle (discardCmd s l .me q) l
    | some w =>
      if w.wfmt ≠ wf ∨ w.sp ≠ sp then settle (discardCmd s l .me q) l
      else
        let r := mmaRows c k d a st pm fp rp cp w t
        let s := putCmd s l .me q { q1 with pend := r.1 }
        if r.2 then modCore s l fun c => { c with tstat := c.tstat.set d { c.tstat[d] with sat := true } } else s
  | .tstore dst _ t pitch w0 rows k fp =>
    let grans := scaleGrans t w0 16
    let q2 := { q1 with pend := (tileRows k).map (fun r => c.tiles[r]) ++ List.replicate grans.length 0 }
    if grans.isEmpty then convertStore (putCmd s l .me q q2) l q2 dst pitch rows t k fp w0 else putCmd s l .me q q2
  | .tfree t =>
    let s := putCmd s l .me q { q1 with finished := true }
    modCore s l fun c => { c with held := c.held &&& ~~~ (1#4 <<< t.val), twm := c.twm.set t { c.twm[t] with rows := 16 } }
  | .mparam _ => putCmd s l .me q { q1 with pend := List.replicate 2 0 }
  | _ => putCmd s l .me q { q1 with pend := List.replicate 16 0 }

/-- ME_COMMAND_START; under a pre-emption queued commands stay queued (15 R373). -/
def execMeCommandStart (l : Loc) (s : State) : Out :=
  match meStartable s l with
  | some q => .next (if engineHeld s l q.part || heldBack s q.part then s else startCmd s l q)
  | none => .next s

/-- What a running ME command may do next: write a row of its tile, make one of its reads, perform one of its writes, write its completion granule. -/
inductive MeAct where
  | row
  | read (n : Nat)
  | post (i : Nat)
  | compl
  deriving DecidableEq, Repr

/-- The first cycle in which a command may write its next row, or the first of its results (07 R181). -/
def rowDue (q : EngCmd) (t0 : Nat) : Nat :=
  match q.body with
  | .mma _ _ _ _ _ _ _ _ wf sp _ => t0 + computeCycles wf sp + q.nextRow
  | .tstore .. => t0 + 16
  | _ => t0 + q.nextRow

/-- The acts that are due of a running command (07 R179, R181, R186, R188, R189). -/
def meActs (s : State) (q : EngCmd) : List MeAct :=
  match q.started with
  | none => []
  | some t0 =>
    let due : Bool := rowDue q t0 ≤ s.cycle
    if q.finished then []
    else match q.body with
      | .mma .. => if due then [.row] else []
      | .tzero _ => if due then [.row] else []
      | .tload .. => (if due && !(q.io.reads.any fun n => n / 4 == q.nextRow) then [.row] else []) ++ q.io.reads.map .read
      | .wload .. => q.io.reads.map .read
      | .mparam _ => q.io.reads.map .read
      | .tstore .. =>
        if q.nextRow = 0 then q.io.reads.map .read
        else if !due then []
        else if q.io.posts.isEmpty then [.compl] else (readyPosts q.io.posts).map .post
      | _ => []

/-- The first running command of the ME with an act due. -/
def rowReady (s : State) (l : Loc) : Option EngCmd := (core s l).meq.find? fun q => !heldBack s q.part && !(meActs s q).isEmpty

/-- A vector write without its effect on a row. -/
def blankRow (r : VReg) : RegWrite → RegWrite
  | .v d bits val => if d = r then .v d 0 0 else .v d bits val
  | w => w

/-- The same for a row access that has not been performed or whose reply is on its way. -/
def blankReq (l : Loc) (r : VReg) (q : Request) : Request :=
  if q.loc = l then
    { q with
      op := match q.op with
        | .vload sync d lanes zero left got => if d = r then .vload sync d 0 0 left got else .vload sync d lanes zero left got
        | o => o
      st := match q.st with
        | .replied (.writes ws) => .replied (.writes (ws.map (blankRow r)))
        | st => st }
  else q

/-- The vector writes to a row that are still outstanding when an engine writes it have no lasting effect (07 R180). -/
def dropRowWrites (s : State) (l : Loc) (r : VReg) : State :=
  modCore { s with reqs := s.reqs.map (blankReq l r) } l fun c => { c with slots := c.slots.map fun x =>
    { x with th := { x.th with outs := x.th.outs.map fun o => { o with writes := o.writes.map (blankRow r) } } } }

/-- Row i of a tile; TWM follows if it names the command (07 R179). -/
def writeTileRow (c : Core) (q : EngCmd) (t : TReg) (i : Nat) (v : Row) : Core :=
  let c := { c with tiles := c.tiles.set (rowReg t i) v }
  if c.twm[t].seq.toNat = q.seq % 256 then { c with twm := c.twm.set t { c.twm[t] with rows := i + 1 } } else c

/-- A command writes row i of its tile (07 R179, R180). -/
def engineRow (s : State) (l : Loc) (q : EngCmd) (t : TReg) (i : Nat) (v : Row) : State :=
  modCore (dropRowWrites s l (rowReg t i)) l fun c => writeTileRow c q t i v

def rowBytes (l : List Byte) : Row := BitVec.ofNat 512 (ofBytes l)

/-- The block of `mparam` (07 R186); none where a reserved field is not zero. -/
def parseMask (n : Nat) : Option MaskSet :=
  if n / 2 ^ 801 ≠ 0 then none
  else some ⟨BitVec.ofNat 256 n, BitVec.ofNat 256 (n / 2 ^ 256), BitVec.ofNat 256 (n / 2 ^ 512), BitVec.ofNat 32 (n / 2 ^ 768), n / 2 ^ 800 % 2 == 1⟩

/-- Granule `j` of a 64-byte row at `va`, of which `n` bytes are read, in its place in the row. -/
def rowGran (s : State) (xl : List (Nat × Nat × Nat)) (va n j : Nat) : Row × Bool :=
  let r := engRead s xl (va + 16 * j) (min 16 (n - 16 * j))
  (BitVec.ofNat 512 (ofBytes r.1 * 2 ^ (128 * j)), r.2)

/-- Where read number `n` of a command goes: its first byte's device address. -/
def readVa (q : EngCmd) (n : Nat) : Nat :=
  match q.body with
  | .tload _ src pitch => src + n / 4 * pitch + 16 * (n % 4)
  | .wload src _ pitch _ => src + n / 4 * pitch + 16 * (n % 4)
  | .mparam blk => blk + 16 * n
  | .tstore _ _ t _ w0 _ _ _ => (partIn (t.scalep + 2 * w0) 32 ((scaleGrans t w0 16).getD n 0)).1
  | _ => 0

/-- What read number `n` brings: the row it belongs to, its bytes in their place there, and whether a granule was poisoned. -/
def readRow (s : State) (q : EngCmd) (n : Nat) : Nat × Row × Bool :=
  match q.body with
  | .tload _ src pitch => (n / 4, rowGran s q.xl (src + n / 4 * pitch) 64 (n % 4))
  | .wload src t pitch sp => (n / 4, rowGran s q.xl (src + n / 4 * pitch) (weightBytes t.wfmt sp) (n % 4))
  | .mparam blk => (n / 4, rowGran s q.xl (blk + n / 4 * 64) 64 (n % 4))
  | .tstore _ _ t _ w0 _ _ _ => (16 + n, readPart s q.xl (t.scalep + 2 * w0) 32 ((scaleGrans t w0 16).getD n 0))
  | _ => (0, 0, false)

/-- What follows the last read of a command: the array, the mask set or the converted rows (07 R183, R186, R188). -/
def readsDone (s : State) (l : Loc) (q : EngCmd) : State :=
  match q.body with
  | .wload _ t _ sp =>
    modCore (putCmd s l .me q { q with finished := true }) l fun c => { c with weights := some ⟨Vector.ofFn fun j => q.pend.getD j.val 0, t.wfmt, sp⟩ }
  | .mparam _ =>
    let u := putCmd s l .me q { q with finished := true }
    match parseMask ((q.pend.getD 0 0).toNat + 2 ^ 512 * (q.pend.getD 1 0).toNat) with
    | some m => modCore u l fun c => { c with maskSet := m }
    | none => imageCheck u .me q
  | .tstore dst _ t pitch w0 rows k fp => convertStore s l q dst pitch rows t k fp w0
  | _ => s

/-- One act of a running ME command: a row of a result, a granule read, a part of a granule written, the completion granule (07 R179, R180; 10 R243). -/
def meAct (s : State) (l : Loc) (q : EngCmd) : MeAct → State
  | .row =>
    let n := q.nextRow
    let u := putCmd s l .me q { q with nextRow := n + 1, finished := n == 15 }
    match q.body with
    | .mma _ d .. => engineRow u l q d n (q.pend.getD n 0)
    | .tzero t => engineRow u l q t n 0
    | .tload t .. => engineRow u l q t n (q.pend.getD n 0)
    | _ => s
  | .read n =>
    whenTurn s l .me q (xlKey q.xl (readVa q n)) fun s =>
      let b := readRow s q n
      let q1 := ({ q with pend := q.pend.set b.1 (q.pend.getD b.1 0 ||| b.2.1), bad := q.bad || b.2.2 }).modIO fun io => { io with reads := io.reads.erase n }
      let u := putCmd s l .me q q1
      if q1.io.reads.isEmpty then readsDone u l q1 else u
  | .post i =>
    match q.io.posts[i]? with
    | none => s
    | some p =>
      whenTurn s l .me q p.key fun s =>
        let w := putPost s q p
        putCmd w.1 l .me q (({ w.2.1 with bad := q.bad || w.2.2 }).modIO (EngIO.dropPost i))
  | .compl =>
    match q.body with
    | .tstore _ compl .. =>
      let fin (s : State) : State := putCmd (complete s q compl q.seq (q.pend.getD 0 0).toNat) l .me q { q with finished := true }
      if compl = 0 then fin s else whenTurn s l .me q (xlKey q.xl compl) fin
    | _ => s

/-- The address of an act. -/
def meKey (q : EngCmd) : MeAct → Nat
  | .read n => xlKey q.xl (readVa q n)
  | .post i => (q.io.posts[i]?.map Post.key).getD 0
  | _ => 0

/-- An act of a running command, in the order that is free (10 R249; log 22). -/
def rowStep (s : State) (l : Loc) (q : EngCmd) : State :=
  let acts := meActs s q
  let k := pickTurn s (agentOf l .me q) (acts.map (meKey q))
  match acts[k.1]? with
  | some a => meAct k.2 l q a
  | none => s

def execMeRowWrite (l : Loc) (s : State) : Out :=
  match rowReady s l with
  | some q => .next (rowStep s l q)
  | none => .next s

/-! ## The NM port (07 R190, R194) -/

/-- A chunk of 16 products is added to an accumulator (02 R70). -/
def gemvChunk (t : Tpr) (acc : Nat) (x w : List Byte) : Nat :=
  if t.wfmt = .i8 then patOf 32 (accInt (sintOf 32 acc) (List.zipWith (fun a b => sintOf 8 a.toNat * sintOf 8 b.toNat) x w)).1
  else accFp t.rnd acc (List.zipWith (fun a b => (elemVal .i8 a.toNat).mul (ds8Val b.toNat)) x w)

/-- Sixteen activation bytes from the granules read, the first of which is that of byte `act`. -/
def actBytes (grans : List Row) (act o : Nat) : List Byte :=
  (List.range 16).map fun i => let b := act % 16 + o + i; BitVec.ofNat 8 ((grans.getD (b / 16) 0).toNat / 2 ^ (8 * (b % 16)))

/-- The ranges and granules of the activations and the scales of an `hm.gemv`. -/
def gemvIns (act nv m k : Nat) (t : Tpr) : List (Nat × Nat × Nat) :=
  (granAddrs act (nv * k)).map (fun g => (act, nv * k, g)) ++ (scaleGrans t 0 m).map fun g => (t.scalep, 2 * m, g)

/-- The numbers of a command's reads: its inputs, its weight granules row by row, then one for each four rows, which stands for their results. -/
def gemvReads (ins m k : Nat) : List Nat := List.range (ins + m * (k / 16) + m / 4)

/-- What a running `hm.gemv` may do next: a read, the results of four rows once their weights and all inputs have been read, or a write. -/
inductive NmAct where
  | read (n : Nat)
  | rows (g : Nat)
  | post (i : Nat)
  deriving DecidableEq, Repr

/-- The four rows that a weight granule belongs to. -/
def gemvGroup (ins k n : Nat) : Nat := (n - ins) / (4 * (k / 16))

def gemvActs (q : EngCmd) (ins m k : Nat) : List NmAct :=
  let w := ins + m * (k / 16)
  q.io.reads.filterMap (fun n =>
    if n < w then some (.read n)
    else if q.io.reads.any fun j => j < ins || (j < w && gemvGroup ins k j == n - w) then none
    else some (.rows (n - w)))
    ++ (readyPosts q.io.posts).map .post

/-- Where read number `n` goes. -/
def gemvVa (act wts nv m k : Nat) (t : Tpr) (n : Nat) : Nat :=
  let ins := gemvIns act nv m k t
  match ins[n]? with
  | some r => (partIn r.1 r.2.1 r.2.2).1
  | none => wts + 16 * (n - ins.length)

/-- The accumulator of weight row r and vector v, from the granules read. -/
def gemvAcc (q : EngCmd) (ins act k : Nat) (t : Tpr) (v r : Nat) : Nat :=
  (List.range (k / 16)).foldl (fun acc c =>
    gemvChunk t acc (actBytes q.pend act (v * k + 16 * c)) (toBytes 16 (q.pend.getD (ins + r * (k / 16) + c) 0).toNat)) 0

/-- The results of four rows for one vector: a granule, with its clamps and NaN conversions. -/
def gemvResult (q : EngCmd) (ins act nv k : Nat) (t : Tpr) (grp v : Nat) : List Narrow :=
  let scales := (q.pend.take ins).drop (granAddrs act (nv * k)).length
  (List.range 4).map fun i => epilogue t (t.wfmt != .i8) (scaleIn scales t.scalep (4 * grp + i)) (gemvAcc q ins act k t v (4 * grp + i))

/-- One act of a running `hm.gemv` (07 R190, R194; 10 R243). -/
def gemvAct (s : State) (l : Loc) (q : EngCmd) (res act wts nv m k : Nat) (t : Tpr) : NmAct → State
  | .read n =>
    let ins := gemvIns act nv m k t
    whenTurn s l .nm q (xlKey q.xl (gemvVa act wts nv m k t n)) fun s =>
      let b : Row × Bool := match ins[n]? with
        | some r => readPart s q.xl r.1 r.2.1 r.2.2
        | none => let b := engRead s q.xl (gemvVa act wts nv m k t n) 16; (rowBytes b.1, b.2)
      setHead s l .nm (({ q with pend := q.pend.set n b.1, bad := q.bad || b.2 }).modIO fun io => { io with reads := io.reads.erase n })
  | .rows g =>
    let ins := (gemvIns act nv m k t).length
    let rs := (List.range nv).map fun v => (res + 4 * (v * m + 4 * g), gemvResult q ins act nv k t g v)
    let ps := postsOf q.xl (rs.map fun r => (r.1, r.2.flatMap fun e => toBytes 4 e.pat))
    let es := rs.flatMap Prod.snd
    let u := setHead s l .nm ((q.modIO (EngIO.addPosts ps)).modIO fun io => { io with reads := io.reads.erase (ins + m * (k / 16) + g) })
    count (count u (dieOf l) q.part 2 (es.map Narrow.clamps).sum) (dieOf l) q.part 3 (es.map Narrow.nans).sum
  | .post i =>
    match q.io.posts[i]? with
    | none => s
    | some p =>
      whenTurn s l .nm q p.key fun s =>
        let w := putPost s q p
        let q1 := ({ w.2.1 with bad := q.bad || w.2.2 }).modIO (EngIO.dropPost i)
        setHead w.1 l .nm { q1 with finished := q1.io.reads.isEmpty && q1.io.posts.isEmpty }

def gemvKey (q : EngCmd) (act wts nv m k : Nat) (t : Tpr) : NmAct → Nat
  | .read n => xlKey q.xl (gemvVa act wts nv m k t n)
  | .rows _ => 0
  | .post i => (q.io.posts[i]?.map Post.key).getD 0

/-- At most `n` acts of the running command, in the order that is free; they end with an access that has to wait (07 R190; 10 R249; log 22). -/
def gemvRun (l : Loc) : Nat → State → State
  | 0, s => s
  | fuel + 1, s =>
    match runnable s l .nm with
    | some q => match q.body with
      | .gemv res act wts nv m k t =>
        let acts := gemvActs q (gemvIns act nv m k t).length m k
        let i := pickTurn s (agentOf l .nm q) (acts.map (gemvKey q act wts nv m k t))
        match acts[i.1]? with
        | some a => let u := gemvAct i.2 l q res act wts nv m k t a; if (ticket? u (agentOf l .nm q)).isSome then u else gemvRun l fuel u
        | none => s
      | _ => s
    | none => s

def startOf (s : State) (q : EngCmd) : EngCmd := { q with started := some (q.started.getD s.cycle) }

/-- A command of the port with its reads to make. -/
def startNm (q : EngCmd) : EngCmd :=
  match q.started, q.body with
  | none, .gemv _ act _ nv m k t =>
    let ins := (gemvIns act nv m k t).length
    { q with pend := List.replicate (ins + m * (k / 16)) 0, io := { q.io with reads := gemvReads ins m k } }
  | _, _ => q

def execNmCommandRun (l : Loc) (n : Nat) (s : State) : Out :=
  match runnable s l .nm with
  | some q => .next (gemvRun l n (setHead s l .nm (startOf s (startNm q))))
  | none => .next s

/-! ## The end of a command (07 R178, R181, R188, R194) -/

/-- The cycles a finished command still holds its entry. -/
def minCycles : EngBody → Nat
  | .tfree _ => 1
  | .mparam _ => 2
  | .wload .. => 16
  | .tload .. => 16
  | .tzero _ => 16
  | .mma _ _ _ _ _ _ _ _ wf sp _ => computeCycles wf sp + 16
  | .tstore .. => 16
  | _ => 0

/-- A finished command leaves its queue; a stored tile is no longer held; a data error is reported. -/
def execEngineCommandComplete (l : Loc) (e : Engine) (s : State) : Out :=
  match headCmd (core s l) e with
  | some q =>
    if q.finished && decide (q.started.getD s.cycle + minCycles q.body ≤ s.cycle) then
      let s := checkIf q.bad s e q
      let s := match q.body with
        | .tstore _ _ _ _ _ _ t _ => modCore s l fun c => { c with held := c.held &&& ~~~ (1#4 <<< t.val) }
        | _ => s
      .next (popCmd s l e)
    else .next s
  | none => .next s

end Sys2Proof.Machine
end

