-- ==== Sys2Proof/Machine/Index.lean ====
section
/-! DEFINITION. The index engine: IE commands at issue and the acts of the engine (09 R235 to R242). -/

namespace Sys2Proof.Machine

/-! ## Issue (09 R236) -/

def complOk (va : Nat) : Bool := va % 16 == 0 && lowSpace va

/-- A range of addresses that holds another's. -/
def rangesMeet (a n b m : Nat) : Bool := n != 0 && m != 0 && a < b + m && b < a + n

/-- The shape record of a table (02 R68; 09 R236). -/
def tableAt (s : State) (x : Cur) (va : Nat) : RecRes Shape :=
  if va % 32 ≠ 0 then .bad cSHAPE
  else match readRec s x.loc (me s x).part (me s x).walk va 32 with
    | .error e => .fault e.1 e.2
    | .ok b => match parseShape b with
      | some t => .ok t
      | none => .bad cSHAPE

def tableRange (va : Nat) : List (Nat × Nat) := if va % 32 = 0 then [(va, 32)] else []

/-- A record that may not be a table, or a packed address that does not keep its element size (09 R236). -/
def tableBad (opk packed : Nat) : Option Shape → Bool
  | some h => decide (1 < h.ndim) || (opk != 0 && (h.fmt == .ds8 || h.fmt == .e8)) || packed % Fmt.size h.fmt != 0
  | none => false

/-- The byte count of an item (09 R237). -/
def itemBytes (h : Shape) : Nat := Fmt.size h.fmt * (if h.ndim = 0 then 1 else h.ext[0])

def tableNeed (h : Shape) (k : XKind) : Need := (h.base, h.bound * 4096, k)

def execIeGather (h : Hdr) (g : Option GPfx) (d a b c : SReg) (n : BitVec 32) (s : State) : Out :=
  issue s (glen g) h { a := some a, b := some b, c := some c, d := some d, dfu := [d, a, b, c] } fun x v s =>
    let cv := v.c.toNat
    command s x .ie 0 g (tableRange v.a.toNat) (recordPlan (tableAt s x v.a.toNat)
      (fun o => !complOk cv || v.b.toNat % 4 != 0 || tableBad 0 v.d.toNat o) (fun _ => none)
      fun t => ([(v.d.toNat, n.toNat * itemBytes t, .write), (v.b.toNat, 4 * n.toNat, .read), tableNeed t .read] ++ complNeed cv 16,
        .gather v.d.toNat v.b.toNat cv t n.toNat 0 0))

def execIeScatter (h : Hdr) (g : Option GPfx) (d a b c : SReg) (n : BitVec 32) (opk : Fin 4) (s : State) : Out :=
  issue s (glen g) h { a := some a, b := some b, c := some c, d := some d, dfu := [d, a, b, c] } fun x v s =>
    let cv := v.c.toNat
    command s x .ie 1 g (tableRange v.d.toNat) (recordPlan (tableAt s x v.d.toNat)
      (fun o => !complOk cv || v.b.toNat % 4 != 0 || tableBad opk.val v.a.toNat o) (fun _ => none)
      fun t => ([(v.a.toNat, n.toNat * itemBytes t, .read), (v.b.toNat, 4 * n.toNat, .read), tableNeed t (if opk = 0 then .write else .rmw)]
          ++ complNeed cv 16,
        .scatter v.a.toNat v.b.toNat cv t n.toNat opk.val 0 0))

def execIeCopy (h : Hdr) (g : Option GPfx) (d a b : SReg) (bytes : BitVec 32) (s : State) : Out :=
  issue s (glen g) h { a := some a, b := some b, d := some d, dfu := [d, a, b] } fun x v s =>
    let cv := v.b.toNat
    let n := bytes.toNat
    command s x .ie 2 g [] (
      if !complOk cv || v.d.toNat % 16 ≠ 0 || v.a.toNat % 16 ≠ 0 || n % 16 ≠ 0 || rangesMeet v.d.toNat n v.a.toNat n then badParam
      else .ok ([(v.d.toNat, n, .write), (v.a.toNat, n, .read)] ++ complNeed cv 16, .copy v.d.toNat v.a.toNat cv n 0))

def execIeFill (h : Hdr) (g : Option GPfx) (d a b : SReg) (bytes : BitVec 32) (s : State) : Out :=
  issue s (glen g) h { a := some a, b := some b, d := some d, dfu := [d, a, b] } fun x v s =>
    let cv := v.b.toNat
    let n := bytes.toNat
    command s x .ie 3 g [] (
      if !complOk cv || v.d.toNat % 16 ≠ 0 || n % 16 ≠ 0 then badParam
      else .ok ([(v.d.toNat, n, .write)] ++ complNeed cv 16, .fill v.d.toNat cv n v.a 0))

/-- The number of multicast target `t`, and its device address for an offset (09 R239). -/
def targetNum (v : Word) (t : Nat) : Nat := bitsAt v (16 * t + 15) (16 * t)
def targetVa (attn : Bool) (t off : Nat) : Nat := (if attn then 3 else 1) * 2 ^ 48 + t * 2 ^ 32 + off

def execIeMcast (h : Hdr) (g : Option GPfx) (d a b c : SReg) (bytes : BitVec 32) (ntm1 : Fin 4) (s : State) : Out :=
  issue s (glen g) h { a := some a, b := some b, c := some c, d := some d, dfu := [d, a, b, c] } fun x v s =>
    let cv := v.c.toNat
    let n := bytes.toNat
    let attn := isAttn (dieOf x.loc)
    let ts := (List.range (ntm1.val + 1)).map (targetNum v.b)
    let cores := match part? s (me s x).part with | some p => coreCount p attn | none => 0
    command s x .ie 4 g [] (
      if !complOk cv || v.d.toNat % 16 ≠ 0 || v.a.toNat % 16 ≠ 0 || n % 16 ≠ 0 || 0x5C000 < v.d.toNat + n
          || ts.any (fun t => cores ≤ t) || (List.range 4).any (fun t => ntm1.val < t && targetNum v.b t != 0) then badParam
      else .ok ((v.a.toNat, n, .read) :: ts.map (fun t => (targetVa attn t v.d.toNat, n, .write)) ++ complNeed cv 16,
        .mcast v.d.toNat v.a.toNat cv n ts 0))

def execIeCond (h : Hdr) (g : Option GPfx) (d a b c : SReg) (n : BitVec 32) (esz : Fin 4) (s : State) : Out :=
  issue s (glen g) h { a := some a, b := some b, c := some c, d := some d, dfu := [d, a, b, c] } fun x v s =>
    let cv := v.c.toNat
    let sz := 2 ^ esz.val
    let bv := v.b.toNat
    command s x .ie 5 g [] (
      if !complOk cv || v.d.toNat % sz ≠ 0 || v.a.toNat % sz ≠ 0 || bv % 4 ≠ 0 then badParam
      else .ok ([(v.d.toNat, n.toNat * sz, .write), (v.a.toNat, n.toNat * sz, .read)] ++ complNeed bv (4 * n.toNat) ++ complNeed cv 16,
        .cond v.d.toNat v.a.toNat cv bv n.toNat esz.val 0 0))

/-! ## Granules read once (09 R238): a row holds a granule's data in [127:0], its device address in [191:128], and poison in [192] -/

def readBuf (s : State) (xl : List (Nat × Nat × Nat)) (va : Nat) : Row :=
  let g := va - va % 16
  let b := engRead s xl g 16
  BitVec.ofNat 512 (ofBytes b.1 + g * 2 ^ 128 + (if b.2 then 2 ^ 192 else 0))

def bufVa (r : Row) : Nat := bitsAt r 191 128
def bufBad (r : Row) : Bool := r.getLsbD 192
def bufBytes (r : Row) (va n : Nat) : List Byte := bytesAt (toBytes 16 (bitsAt r 127 0)) (va % 16) n

/-- The granule of an address among those read. -/
def bufOf (bufs : List Row) (va : Nat) : Option Row := bufs.find? fun r => bufVa r == va - va % 16

/-- Bytes of one granule, from those read. -/
def heldBytes (bufs : List Row) (va n : Nat) : List Byte := match bufOf bufs va with | some r => bufBytes r va n | none => List.replicate n 0

/-- The first of some addresses whose granule has not been read. -/
def unread (bufs : List Row) (vas : List Nat) : Option Nat := vas.find? fun va => (bufOf bufs va).isNone

/-- A granule is read, whole and once; a poisoned one is reported (09 R240). -/
def readGran (s : State) (l : Loc) (q : EngCmd) (va : Nat) : State :=
  let r := readBuf s q.xl va
  setHead (checkIf (bufBad r) s .ie q) l .ie { q with pend := q.pend ++ [r] }

/-- Bytes that a command is to write, with the granules that they go to still to be set full (08 R196; 09 R235). -/
def EngCmd.post (q : EngCmd) (act : PostAct) (va before : Nat) (l : List Byte) : EngCmd :=
  { q with
    io := q.io.addPosts [{ putOf q.xl va before l [] with act := act }]
    fills := nubNat (q.fills ++ feGranules q.xl va l.length) }

/-! ## Items (09 R237 to R239): granules are read one after another, and what is written is posted; `nextRow` counts the bytes of the present item that
are done -/

/-- What a running command does next: read a granule, go on without an access (with its drops), wait for its writes, or nothing more. -/
inductive IeNext where
  | read (va : Nat)
  | go (q : EngCmd) (drops : Nat)
  | wait
  | stop

/-- The elements of an item as index pairs. -/
def itemElems (h : Shape) (x : Nat) : List (Nat × Nat) := if h.ndim = 0 then [(x, 0)] else (List.range h.ext[0]).map fun i => (i, x)

/-- The addresses of an item's elements; none where one of them is out of bounds. -/
def itemAddrs (h : Shape) (x : Option Nat) : Option (List Nat) :=
  match x with
  | none => none
  | some x => let es := itemElems h x; if es.all fun e => h.inb e.1 e.2 then some (es.map fun e => h.addr e.1 e.2) else none

/-- The index at an address, from the granules read; none from a poisoned one (09 R240). -/
def indexOf (bufs : List Row) (va : Nat) : Option Nat :=
  match bufOf bufs va with
  | some r => if bufBad r then none else some (ofBytes (bufBytes r va 4))
  | none => none

/-- A gather: its index granule, the table granules of a part of the item that lies in one destination granule, then that part. -/
def gatherNext (q : EngCmd) (dst idx compl : Nat) (h : Shape) (n moved drops : Nat) : IeNext :=
  match unread q.pend [idx] with
  | some va => .read va
  | none =>
    let ib := itemBytes h
    let sz := Fmt.size h.fmt
    let as := itemAddrs h (indexOf q.pend idx)
    let va := dst + q.nextRow
    let k := min (ib - q.nextRow) (16 - va % 16)
    let here := (as.getD []).drop (q.nextRow / sz) |>.take (k / sz)
    match unread q.pend here with
    | some a => .read a
    | none =>
      let u := q.post .put va q.nextRow (if as.isSome then here.flatMap fun a => heldBytes q.pend a sz else List.replicate k 0)
      if q.nextRow + k < ib then .go { u with nextRow := q.nextRow + k } 0
      else
        let ok := as.isSome.toNat
        .go { u with nextRow := 0, body := .gather (dst + ib) (idx + 4) compl h (n - 1) (moved + ok) (drops + (1 - ok)) } (1 - ok)

/-- The new bits of an element (09 R237); an F8A sum is clamped as every result in that format is (02 R52). -/
def updateElem (f : Fmt) (opk o b : Nat) : Nat :=
  match opk, Fmt.fp? f with
  | 0, _ => b
  | 1, some p => (fpAdd p .rne o b).1
  | 2, some p => fpMinMax p true o b
  | 3, some p => fpMinMax p false o b
  | 1, none => (o + b) % 2 ^ f.bits
  | 2, none => if intVal f o < intVal f b then b else o
  | 3, none => if intVal f b < intVal f o then b else o
  | _, _ => b

/-- The addresses of the elements of the present item that are still to be updated, and of all later ones. -/
def elemsLeft (q : EngCmd) (idx : Nat) (h : Shape) (n : Nat) : List Nat :=
  ((List.range n).flatMap fun k => (itemAddrs h (indexOf q.pend (idx + 4 * k))).getD []).drop (q.nextRow / Fmt.size h.fmt)

/-- A scatter: its whole index list, for the last update of a granule to be known, then for each element its source granule and its update. -/
def scatterNext (q : EngCmd) (src idx compl : Nat) (h : Shape) (n opk moved drops : Nat) : IeNext :=
  match unread q.pend ((granAddrs idx (4 * n)).map fun g => max g idx) with
  | some va => .read va
  | none =>
    let ib := itemBytes h
    let sz := Fmt.size h.fmt
    let next (q : EngCmd) (ok : Nat) : IeNext :=
      .go { q with nextRow := 0, body := .scatter (src + ib) (idx + 4) compl h (n - 1) opk (moved + ok) (drops + (1 - ok)) } (1 - ok)
    match itemAddrs h (indexOf q.pend idx) with
    | none => next q 0
    | some as =>
      match unread q.pend [src + q.nextRow], as[q.nextRow / sz]? with
      | some va, _ => .read va
      | none, none => next q 1
      | none, some a =>
        let u := q.post (.update h.fmt opk) a 0 (heldBytes q.pend (src + q.nextRow) sz)
        if q.nextRow + sz < ib then .go { u with nextRow := q.nextRow + sz } 0 else next u 1

/-- A copy: a source granule, then its write. -/
def copyNext (q : EngCmd) (dst src compl bytes moved : Nat) : IeNext :=
  match bufOf q.pend src with
  | none => .read src
  | some r => .go { q.post .put dst (16 * moved) (bufBytes r src 16) with pend := [], body := .copy (dst + 16) (src + 16) compl (bytes - 16) (moved + 1) } 0

/-- A fill: a granule of its pattern. -/
def fillNext (q : EngCmd) (dst compl bytes : Nat) (pat : Word) (moved : Nat) : IeNext :=
  .go { q.post .put dst (16 * moved) (toBytes 8 pat.toNat ++ toBytes 8 pat.toNat) with body := .fill (dst + 16) compl (bytes - 16) pat (moved + 1) } 0

/-- The address of a multicast's target on the side of its core. -/
def mcastVa (l : Loc) (t off : Nat) : Nat := targetVa (isAttn (dieOf l)) t off

/-- A multicast: a source granule once the one before it is written everywhere, then its writes to all targets. -/
def mcastNext (l : Loc) (q : EngCmd) (off src compl bytes : Nat) (ts : List Nat) (moved : Nat) : IeNext :=
  match bufOf q.pend src with
  | none => if q.io.posts.isEmpty then .read src else .wait
  | some r =>
    let u := ts.foldl (fun q t => q.post .put (mcastVa l t off) 0 (bufBytes r src 16)) q
    .go { u with pend := [], body := .mcast (off + 16) (src + 16) compl (bytes - 16) ts (moved + 1) } 0

/-- `ie.cond`: a source granule, then for each of its elements that is kept the element and its position. -/
def condNext (q : EngCmd) (dst src compl idx n esz moved pos : Nat) : IeNext :=
  let sz := 2 ^ esz
  match bufOf q.pend src with
  | none => .read src
  | some r =>
    let el := bufBytes r src sz
    let pend := if (src + sz) % 16 = 0 ∨ n = 1 then [] else q.pend
    if ofBytes el = 0 then .go { q with pend := pend, body := .cond dst (src + sz) compl idx (n - 1) esz moved (pos + 1) } 0
    else
      let u := q.post .put dst 0 el
      let u := if idx = 0 then u else u.post .put idx 0 (toBytes 4 pos)
      .go { u with pend := pend, body := .cond (dst + sz) (src + sz) compl (if idx = 0 then 0 else idx + 4) (n - 1) esz (moved + 1) (pos + 1) } 0

def ieNext (l : Loc) (q : EngCmd) : IeNext :=
  match q.body with
  | .gather dst idx compl h n moved drops => if n = 0 then .stop else gatherNext q dst idx compl h n moved drops
  | .scatter src idx compl h n opk moved drops => if n = 0 then .stop else scatterNext q src idx compl h n opk moved drops
  | .copy dst src compl bytes moved => if bytes = 0 then .stop else copyNext q dst src compl bytes moved
  | .fill dst compl bytes pat moved => if bytes = 0 then .stop else fillNext q dst compl bytes pat moved
  | .mcast off src compl bytes ts moved => if bytes = 0 then .stop else mcastNext l q off src compl bytes ts moved
  | .cond dst src compl idx n esz moved pos => if n = 0 then .stop else condNext q dst src compl idx n esz moved pos
  | _ => .stop

/-! ## Full bits (08 R196): a granule is set full when no write of the command can reach it any more -/

/-- Whether a range of device addresses has a byte in a granule. -/
def rangeMeets (xl : List (Nat × Nat × Nat)) (g va n : Nat) : Bool :=
  xl.any fun t =>
    let lo := max va t.1
    let hi := min (va + n) (t.1 + t.2.1)
    decide (lo < hi) && decide (t.2.2 + (lo - t.1) < g + 16) && decide (g < t.2.2 + (hi - t.1))

/-- Whether the rest of a command may still write to a granule. An `ie.cond` does not know what it will keep: its outputs may reach as far as if it kept
every element that is left. -/
def ieReaches (l : Loc) (q : EngCmd) (g : Nat) : Bool :=
  match q.body with
  | .gather dst _ _ h n .. => rangeMeets q.xl g (dst + q.nextRow) (n * itemBytes h - q.nextRow)
  | .scatter _ idx _ h n .. => (elemsLeft q idx h n).any fun a => rangeMeets q.xl g a (Fmt.size h.fmt)
  | .copy dst _ _ bytes _ => rangeMeets q.xl g dst bytes
  | .fill dst _ bytes _ _ => rangeMeets q.xl g dst bytes
  | .mcast off _ _ bytes ts _ => ts.any fun t => rangeMeets q.xl g (mcastVa l t off) bytes
  | .cond dst _ _ idx n esz _ _ => rangeMeets q.xl g dst (n * 2 ^ esz) || (idx != 0 && rangeMeets q.xl g idx (4 * n))
  | _ => false

/-- The granules whose last write has been performed are set full. -/
def ieFill (s : State) (l : Loc) (q : EngCmd) : State :=
  let r := q.fills.partition fun g => !ieReaches l q g && !(q.io.posts.any fun p => p.gran == g)
  setHead (fillAll s r.1) l .ie { q with fills := r.2 }

/-! ## The acts of a running command -/

/-- Whether a command stands in the middle of an item or granule, which it ends before it stops for a pre-emption (09 R242). -/
def midItem (q : EngCmd) : Bool :=
  q.nextRow != 0 || match q.body with
    | .copy .. => !q.pend.isEmpty
    | .mcast .. => !q.pend.isEmpty
    | .cond .. => !q.pend.isEmpty
    | _ => false

/-- The completion granule's address, moved and drops (09 R240). -/
def ieTotals : EngBody → Nat × Nat × Nat
  | .gather _ _ compl _ _ moved drops => (compl, moved, drops)
  | .scatter _ _ compl _ _ _ moved drops => (compl, moved, drops)
  | .copy _ _ compl _ moved => (compl, moved, 0)
  | .fill _ compl _ _ moved => (compl, moved, 0)
  | .mcast _ _ compl _ _ moved => (compl, moved, 0)
  | .cond _ _ compl _ _ _ moved _ => (compl, moved, 0)
  | _ => (0, 0, 0)

/-- An act: the command goes on, one of its writes is performed, or its completion granule is written. -/
inductive IeAct where
  | next
  | post (i : Nat)
  | compl
  deriving DecidableEq, Repr

/-- The acts that may come next; under a pre-emption the command goes on only inside an item, and its writes are all performed (09 R242). -/
def ieActs (s : State) (l : Loc) (q : EngCmd) : List IeAct :=
  let held := engineHeld s l q.part && !midItem q
  let writes := (readyPosts q.io.posts).map IeAct.post
  match ieNext l q with
  | .wait => writes
  | .stop => if writes.isEmpty && !held then [.compl] else writes
  | _ => (if held then [] else [.next]) ++ writes

/-- The write of a post: an update reads the element it changes in the same act, zero where it is poisoned (09 R235, R237). -/
def updatePost (s : State) (p : Post) : Post :=
  match p.act with
  | .update f opk =>
    let o := if poisoned s p.key then 0 else ofBytes (p.at_.map fun b => s.mem.read b.1)
    let v := toBytes p.at_.length (updateElem f opk o (ofBytes (p.at_.map Prod.snd)))
    { p with at_ := (p.at_.map Prod.fst).zip v }
  | _ => p

/-- One act of a running command; a partial write to a poisoned granule is reported (08 R213; 09 R240). -/
def ieAct (s : State) (l : Loc) (q : EngCmd) : IeAct → State
  | .next => match ieNext l q with
    | .read va => whenTurn s l .ie q (xlKey q.xl va) fun s => readGran s l q va
    | .go u drops => ieFill (if drops = 0 then s else count s (dieOf l) q.part 4 drops) l u
    | _ => s
  | .post i => match q.io.posts[i]? with
    | none => s
    | some p => whenTurn s l .ie q p.key fun s =>
      let w := putPost s q (updatePost s p)
      ieFill (checkIf w.2.2 w.1 .ie q) l (w.2.1.modIO (EngIO.dropPost i))
  | .compl =>
    let t := ieTotals q.body
    let fin (s : State) : State := setHead (complete s q t.1 q.seq (t.2.2 * 2 ^ 32 + t.2.1)) l .ie { q with finished := true, pend := [] }
    if t.1 = 0 then fin s else whenTurn s l .ie q (xlKey q.xl t.1) fin

/-- The address of an act. -/
def ieKey (l : Loc) (q : EngCmd) : IeAct → Nat
  | .next => match ieNext l q with
    | .read va => xlKey q.xl va
    | _ => 0
  | .post i => (q.io.posts[i]?.map Post.key).getD 0
  | .compl => 0

/-- At most `n` acts of the running command, in the order that is free; it ends with an access that has to wait (09 R235; 10 R249; log 22). -/
def ieRun (l : Loc) : Nat → State → State
  | 0, s => s
  | fuel + 1, s =>
    match runnable s l .ie with
    | none => s
    | some q =>
      let acts := ieActs s l q
      let k := pickTurn s (agentOf l .ie q) (acts.map (ieKey l q))
      match acts[k.1]? with
      | none => s
      | some a => let u := ieAct k.2 l q a; if (ticket? u (agentOf l .ie q)).isSome then u else ieRun l fuel u

def execIeCommandRun (l : Loc) (n : Nat) (s : State) : Out :=
  match runnable s l .ie with
  | some q => .next (ieRun l n (setHead s l .ie (startOf s q)))
  | none => .next s

end Sys2Proof.Machine
end

