-- ==== Sys2Proof/Machine/Labels.lean ====
section
/-! DEFINITION. The meanings of LALU (13 R317, R318). -/

namespace Sys2Proof.Machine

/-- A label register. -/
def readL (s : State) (x : Cur) (r : LReg) : Label := (me s x).l[r]

/-- LABEL_FORMAT, its detail naming the register and the reason (13 R308). -/
def lFormat (r : LReg) (reason : Nat) : Eff := .trap cLFORMAT (reason * 16 + r.val) 0

/-- The well-formedness check of label sources in field order, then the form's own effect (13 R308). -/
def checkL (s : State) (x : Cur) : List LReg → Eff → Eff
  | [], e => e
  | r :: rest, e =>
    match lFault (readL s x r) with
    | some k => lFormat r k
    | none => checkL s x rest e

def execLroot (h : Hdr) (d : LReg) (a : SReg) (s : State) : Out :=
  issue s 8 h { a := some a, ld := some d } fun x v s =>
    if 0xFFFFF < v.a.toNat then lFormat d 6 else .go (putL s x d (mkLabel v.a.toNat 0 0) v.df)

def execLchild (h : Hdr) (d a : LReg) (b : SReg) (s : State) : Out :=
  issue s 8 h { b := some b, ls := [a], ld := some d } fun x v s =>
    checkL s x [a] (
      if maxOrd < v.b.toNat then lFormat d 6
      else match lAppend (readL s x a) v.b.toNat with
        | none => .trap cLDEPTH 1 0
        | some r => .go (putL s x d r v.df))

/-- A form from one label to a label. -/
def label1 (s : State) (h : Hdr) (d a : LReg) (f : Label → Label) : Out :=
  issue s 8 h { ls := [a], ld := some d } fun x v s => checkL s x [a] (.go (putL s x d (f (readL s x a)) v.df))

def execLparent (h : Hdr) (d a : LReg) (s : State) : Out := label1 s h d a lParentOf

/-- A relation of two labels to a predicate; DF-set sources trap. -/
def labelRel (s : State) (h : Hdr) (d : PReg) (a b : LReg) (f : Label → Label → Bool) : Out :=
  issue s 8 h { ls := [a, b], dfl := [a, b] } fun x _ s => checkL s x [a, b] (.go (putP s x (.p d) (f (readL s x a) (readL s x b))))

def execLanc (h : Hdr) (d : PReg) (a b : LReg) (s : State) : Out := labelRel s h d a b isAnc
def execLpanc (h : Hdr) (d : PReg) (a b : LReg) (s : State) : Out := labelRel s h d a b fun x y => isAnc x y && lLen x < lLen y

def execLdepth (h : Hdr) (d : SReg) (a : LReg) (s : State) : Out :=
  issue s 8 h { ls := [a], rd := some d } fun x v s =>
    checkL s x [a] (.go (putS s x d (BitVec.ofNat 64 ((lDigits (readL s x a)).getD []).length) v.df))

def execLcommon (h : Hdr) (d a b : LReg) (s : State) : Out :=
  issue s 8 h { ls := [a, b], ld := some d } fun x v s =>
    checkL s x [a, b] (
      if lTid (readL s x a) ≠ lTid (readL s x b) then lFormat d 5
      else .go (putL s x d (lCommonOf (readL s x a) (readL s x b)) v.df))

def execLdig (h : Hdr) (d : SReg) (a : LReg) (b : SReg) (s : State) : Out :=
  issue s 8 h { b := some b, ls := [a], rd := some d } fun x v s =>
    checkL s x [a] (.go (putS s x d (match ((lDigits (readL s x a)).getD [])[v.b.toNat]? with
      | some q => BitVec.ofNat 64 q.1
      | none => BitVec.allOnes 64) v.df))

def execLend (h : Hdr) (d a : LReg) (s : State) : Out := label1 s h d a endOf

/-- Dwords of the label or of its order key; no well-formedness check. -/
def execLget (h : Hdr) (d : SReg) (a : LReg) (k : Fin 4) (s : State) : Out :=
  issue s 8 h { ls := [a], rd := some d } fun x v s =>
    let w : Label := if k.val < 2 then readL s x a else okey (readL s x a)
    .go (putS s x d (BitVec.ofNat 64 (if k.val = 1 ∨ k.val = 2 then bitsAt w 127 64 else bitsAt w 63 0)) v.df)

/-- One dword of l[D] is replaced; l[D] counts as a source. -/
def execLset (h : Hdr) (d : LReg) (a : SReg) (k : Fin 2) (s : State) : Out :=
  issue s 8 h { a := some a, ls := [d], ld := some d } fun x v s =>
    let o := readL s x d
    .go (putL s x d (if k = 0 then BitVec.ofNat 128 (bitsAt o 127 64 * 2 ^ 64 + v.a.toNat) else BitVec.ofNat 128 (v.a.toNat * 2 ^ 64 + bitsAt o 63 0)) v.df)

def execLmov (h : Hdr) (d a : LReg) (s : State) : Out :=
  issue s 8 h { ls := [a], ld := some d } fun x v s => .go (putL s x d (readL s x a) v.df)

end Sys2Proof.Machine
end

