-- ==== Sys2Proof/Machine/Transport.lean ====
section
/-! DEFINITION. Requests, replies, walks, launches, migration and arrivals: the events between an issue and its completion (01 R29 to R35, R47; 08 R202, R208; 09 R231 to R234; 10 R243; 13 R314; 15 R375). -/

namespace Sys2Proof.Machine

/-! ## Performing requests (10 R243, R247; 01 R47) -/

def overlaps (a b : Request) : Bool := a.key < b.key + b.size && b.key < a.key + a.size

/-- An earlier relaxed access of the thread whose bytes overlap, or are not known yet, goes first (10 R247). -/
def heldByOrder (s : State) (r : Request) : Bool :=
  r.relaxed && !r.op.isLook && s.reqs.any fun q => q.thid == r.thid && q.part == r.part && q.relaxed && q.undone && q.id < r.id && (q.op.isLook || overlaps q r)

/-- Whether the network may bring a request to its place now, and all its queues have an entry for it (01 R47, 08 R202). -/
def admits (s : State) (r : Request) : Bool := r.st == .sent && !heldByOrder s r && r.banks.all (bankAdmits s r)

/-- Whether a request can act now: it stands first in a queue, or comes to queues that are empty. -/
def canAct (s : State) (r : Request) : Bool :=
  (r.st == .queued && (r.keys.isEmpty || r.keys.any (granReady s r))) || (admits s r && r.banks.all fun b => (inBank s b).isEmpty)

/-- The request in its queues. -/
def inQueue (s : State) (r : Request) : State × Request :=
  if r.st = .queued then (s, r) else (enterBanks s r, (req? (enterBanks s r) r.id).getD r)

/-- The occupied slot of a location that holds a thread. -/
def slotOf (s : State) (l : Loc) (part : Nat) (thid : Word) : Option (Fin 16) :=
  (List.finRange 16).find? fun k =>
    let x := (core s l).slots[k]
    x.st != .free && x.th.part == part && x.th.thid == thid && (match x.st with | .moving _ => false | _ => true)

/-- A slot of a location that its thread is leaving (01 R31). -/
def movingAt (s : State) (l : Loc) (part : Nat) (thid : Word) : Bool :=
  (List.finRange 16).any fun k =>
    let x := (core s l).slots[k]
    x.th.part == part && x.th.thid == thid && (match x.st with | .moving _ => true | _ => false)

/-! ## Forwarding entries (01 R32) -/

def FwdEntry.isOf (part : Nat) (thid : Word) (f : FwdEntry) : Bool := f.part == part && f.thid == thid

/-- A location's forwarding entry for a thread. -/
def fwdOf (s : State) (l : Loc) (part : Nat) (thid : Word) : Option FwdEntry := (core s l).fwd.find? (FwdEntry.isOf part thid)

/-- Changes the forwarding entries of a thread wherever it has one; those with no outstanding result left are free. -/
def modFwd (s : State) (part : Nat) (thid : Word) (f : FwdEntry → FwdEntry) : State :=
  let change (l : List FwdEntry) : List FwdEntry := l.flatMap fun e =>
    if !e.isOf part thid then [e] else if (f e).outs.isEmpty then [] else [f e]
  { s with cores := s.cores.map fun c => (c.1, { c.2 with fwd := change c.2.fwd }) }

/-- A result of a thread is no longer outstanding in any forwarding entry that counts it. -/
def fwdTake (s : State) (part : Nat) (thid : Word) (o : LongResult) : State :=
  modFwd s part thid fun e => { e with outs := e.outs.eraseP fun x => x.unit == o.unit && x.due == o.due }

/-- A result leaves a thread's outstanding list, and its forwarding entries. -/
def takeOut (s : State) (l : Loc) (k : Fin 16) (o : LongResult) : State :=
  let th := thread s l k
  fwdTake (modTh s l k fun th => { th with outs := th.outs.erase o }) th.part th.thid o

/-! ## Acts -/

/-- The lookup of a relaxed `lst` has returned: it no longer counts as an outstanding result (13 R320). -/
def lookReturned (s : State) (r : Request) : State :=
  match slotOf s r.loc r.part r.thid with
  | some k =>
    match (thread s r.loc k).outs.find? fun o => o.unit == .access r.id with
    | some o => lastResult (takeOut s r.loc k o) r.loc k
    | none => s
  | none => s

/-- A request waits for a walk and is translated afresh after it (08 R208). -/
def requestWalk (s : State) (r : Request) (va : Nat) (k : XKind) : State :=
  setReq (addWalk s r.loc (.request r.id) r.part (.extent va)) r.id fun q => { q with st := .walking k, walk := q.walk.await (.extent va) }

/-- What an act gives; a label access goes on from there over the network. -/
def performed (s : State) (r : Request) : Perf → State
  | .done t rep => serveAll (setReq t r.id fun q => { q with st := .replied rep }) r.key r.size
  | .more t op => serveAll (setReq t r.id fun q => { q with op := op, st := if op.isRow then q.st else .sent }) r.key r.size
  | .away t op va size k => setReq t r.id fun q => { q with op := op, key := 0, va := va, size := size, st := .xlate k, walk := .none }
  | .walk t va => requestWalk t r va .rmw
  | .wait g => enterList s r g

/-- One act of a request at its serving point, and the waking of waiters. -/
def performReq (s : State) (r : Request) : State := performed s r (actOf s r)

/-- The op that a label access has once its present address is known. -/
def MemOp.arrived : MemOp → MemOp
  | .record b dbase dsize _ _ slotVa a => recordOp b dbase dsize slotVa a
  | op => op

/-- The next address of a label access is translated, by the cache of its issuer's core or by a walk (08 R207, R208; 13 R312, R320). -/
def translateReq (s : State) (p : Partition) (r : Request) (k : XKind) : State :=
  match xlateFor s p r.loc r.walk r.va r.size k false with
  | .miss => requestWalk s r r.va k
  | .fault c => performed s r (awayFault s r c)
  | .ok key =>
    let op := r.op.arrived
    let t := setReq (useExtent s p r.loc r.va) r.id fun q =>
      { q with op := op, key := key, st := .sent, scope := if op.isLook then q.scope else scopeOf r.loc key q.scope }
    if r.op.isLook && !op.isLook && r.relaxed && r.write then lookReturned t r else t

/-- ACCESS_PERFORM: a request acts, or has its next address translated. -/
def execAccessPerform (id : Nat) (s : State) : Out :=
  match req? s id with
  | none => .next s
  | some r =>
    match r.st, part? s r.part with
    | .xlate k, some p => .next (translateReq s p r k)
    | _, _ =>
      if !r.op.isCont && !r.op.isAgent && canAct s r then
        let q := inQueue s r
        .next (performReq q.1 q.2)
      else .next s

/-- REQUEST_RESEND: the network brings a request to its queues, which take or refuse it (01 R47, 08 R202). -/
def execRequestResend (id : Nat) (s : State) : Out :=
  match req? s id with
  | none => .next s
  | some r =>
    if r.st != .sent || r.op.isAgent || heldByOrder s r then .next s
    else if admits s r then .next (enterBanks s r)
    else .next (refuseReq s r)

/-! ## Replies (01 R28, R29, R32) -/

/-- Replies that are sent on keep their order: a forwarded one waits for those forwarded before it to the same place (01 R32). -/
def fwdBehind (s : State) (r : Request) : Bool :=
  r.fwded && (s.reqs.takeWhile fun q => q.id != r.id).any fun q => q.fwded && q.loc == r.loc && q.thid == r.thid && q.part == r.part

/-- A parked thread's instruction completes with a reply (01 R29, 05 R147). -/
def completePark (s : State) (l : Loc) (k : Fin 16) : State :=
  match (thread s l k).cont with
  | some c => advance s l k c.len c.sw
  | none => s

/-- A trap at a parked instruction. -/
def parkTrap (s : State) (l : Loc) (k : Fin 16) (cause detail va : Nat) (lf : Option (Label × Label)) : State :=
  let th := thread s l k
  let w : Word × Word := match th.cont with | some c => (c.w0, c.w1) | none => (0, 0)
  raiseTrap s l k ⟨cause, detail, th.pc, w.1, w.2, BitVec.ofNat 64 (va % 2 ^ 56), lf.map Prod.fst, lf.map Prod.snd, false⟩

/-- The reply of an ordinary access reaches its parked thread. -/
def parkReply (s : State) (l : Loc) (k : Fin 16) (rep : Reply) : State :=
  let s := setSt s l k .run
  match rep with
  | .ack => completePark s l k
  | .writes ws => completePark (applyWrites s l k ws) l k
  | .retry => modTh s l k fun th => { th with cont := none }
  | .memerr va => parkTrap s l k cMEMERR 0 va none
  | .trap c d va => parkTrap s l k c d va none
  | .defer w => completePark (applyWrite s l k w) l k

/-- An error of a relaxed access, reported at the end of its run: the first one stands (01 R28, 13 R320). -/
def lateError (r : Request) (cause detail va : Nat) (th : Thread) : Thread :=
  if th.runErr.isSome then th
  else { th with runErr := some ⟨cause, detail, 0, r.w0, r.w1, BitVec.ofNat 64 (va % 2 ^ 56), none, none, false⟩ }

/-- The reply of a relaxed access: its outstanding result is written, or on an error leaves its destination unwritten. -/
def relaxedReply (s : State) (l : Loc) (k : Fin 16) (r : Request) (rep : Reply) : State :=
  let take (s : State) (f : State → State) (none : State) : State :=
    match (thread s l k).outs.find? fun o => o.unit == .access r.id with
    | some o => lastResult (f (takeOut s l k o)) l k
    | Option.none => none
  let fail (c d va : Nat) : State := let t := modTh s l k (lateError r c d va); take t id t
  match rep with
  | .memerr va => fail cMEMERR 0 va
  | .trap c d va => fail c d va
  | .writes ws => take s (fun s => applyWrites s l k ws) s
  | .defer w => take s (fun s => applyWrite s l k w) s
  | .ack => take s id s
  | .retry => s

/-- A halted slot's TPC names its next instruction; the TPC of a handler is held for its `eret` meanwhile (15 R365, R372). -/
def haltTpc (x : Slot) (pc : Word) : Slot :=
  { x with tpcHeld := if x.th.thact && x.tpcHeld.isNone then some x.th.tpc else x.tpcHeld, th := { x.th with tpc := pc } }

/-- The next instruction of a thread that waits for the reply to a message. -/
def parkedNext (th : Thread) : Word := (loopNext th.pc (match th.cont with | some c => c.len | none => 0) th.loops).1

/-- The same in a saved slot: the writes and the end of the instruction, or a trap to be entered after restore. -/
def savedReply (x : Slot) (m : MsgReply) : Slot :=
  let th := x.th
  let w : Word × Word := match th.cont with | some c => (c.w0, c.w1) | none => (0, 0)
  match m.trap with
  | some (c, d, va) =>
    let t : TrapInfo := ⟨c, d, th.pc, w.1, w.2, BitVec.ofNat 64 (va % 2 ^ 56), m.lf.map Prod.fst, m.lf.map Prod.snd, false⟩
    { x with st := .halt, th := { th with cont := none, pendTrap := some t } }
  | none =>
    let th := m.ws.foldl (fun th w => match w with
      | .s r v df => setS r v df th
      | .l r v df => setL r v df th
      | .v _ _ _ => th) th
    let n := loopNext th.pc (match th.cont with | some c => c.len | none => 0) th.loops
    haltTpc { x with st := .halt, th := { th with pc := n.1, loops := n.2, cont := none } } n.1

/-- Whether a thread is on its way into a location: in a message, a spill queue, an inbox or a save area. -/
def inTransit (s : State) (l : Loc) (part : Nat) (thid : Word) : Bool :=
  let is (a : Arrival) : Bool := a.migrated && a.th.part == part && a.th.thid == thid
  let c := core s l
  (s.msgs.any fun m => match m.body with | .migrate d a => d == l && is a | _ => false)
    || c.spill.any is || c.spillSpoil.any is || c.inbox.any is
    || (match part? s part with
        | some p => p.saves.any fun v => v.loc == l && (v.inbox.any is || v.slots.any fun q => q.2.th.thid == thid)
        | none => false)

/-- The slot whose thread waits for the reply to a message. -/
def parkedOn (s : State) (id : Nat) : Option (Loc × Fin 16) :=
  s.cores.findSome? fun c => ((List.finRange 16).find? fun k => c.2.slots[k].st == .parkMem (.message id)).map fun k => (c.1, k)

/-- A message's reply reaches its thread, parked in its slot or saved with its core (11 R275, R282; 13 R323; 15 R366, R368, R372). -/
def messageReply (s : State) (m : MsgReply) : State :=
  let s := { s with msgReplies := s.msgReplies.filter fun y => y.id != m.id }
  match parkedOn s m.id with
  | some (l, k) =>
    if (slotAt s l k).halting.isSome then setSlot s l k (savedReply (slotAt s l k) m)
    else
      let s := setSt s l k .run
      match m.trap with
      | some (c, d, va) => parkTrap s l k c d va m.lf
      | none => completePark (applyWrites s l k m.ws) l k
  | none =>
    let wake (q : Nat × Slot) : Nat × Slot := if q.2.st = .parkMem (.message m.id) then (q.1, savedReply q.2 m) else q
    modPart s m.part fun p => { p with saves := p.saves.map fun v => { v with slots := v.slots.map wake } }

/-- A reply reaches the thread in slot `k` of its location. -/
def deliver (s : State) (r : Request) (rep : Reply) (k : Fin 16) : State :=
  let t := dropReq s r.id
  if r.relaxed then relaxedReply t r.loc k r rep
  else if (slotAt s r.loc k).st = .parkMem (.access r.id) then parkReply t r.loc k rep
  else t

/-- ACCESS_REPLY: a reply waits while its thread is on its way out of the location or into it. -/
def execAccessReply (id : Nat) (s : State) : Out :=
  match req? s id with
  | none =>
    match s.msgReplies.find? fun m => m.id == id with
    | some m => .next (messageReply s m)
    | none => .next s
  | some r =>
    match r.st with
    | .replied rep =>
      if fwdBehind s r then .next s
      else match slotOf s r.loc r.part r.thid with
        | some k => .next (deliver s r rep k)
        | none =>
          if (fwdOf s r.loc r.part r.thid).isSome || movingAt s r.loc r.part r.thid || inTransit s r.loc r.part r.thid then .next s else .next (dropReq s id)
    | _ => .next s

/-- REPLY_FORWARD: a reply that finds its thread gone is sent on to the destination in the entry (01 R32). -/
def execReplyForward (id : Nat) (s : State) : Out :=
  match req? s id with
  | none => .next s
  | some r =>
    match r.st, slotOf s r.loc r.part r.thid, fwdOf s r.loc r.part r.thid with
    | .replied _, none, some f =>
      if fwdBehind s r || inTransit s r.loc r.part r.thid then .next s
      else .next (moveLast (setReq s id fun q => { q with loc := f.dest, fwded := true }) id)
    | _, _, _ => .next s

/-- LONG_RESULT_WRITE: a division or square root of a thread (05 R131); a thread on its way receives it where it arrives. -/
def execLongResultWrite (l : Loc) (slot : Fin 16) (s : State) : Out :=
  let x := slotAt s l slot
  match x.st with
  | .free => .next s
  | .moving _ => .next s
  | _ =>
    match x.th.outs.find? fun r => r.unit == .alu && (match r.due with | some d => decide (d ≤ s.cycle) | none => false) with
    | some r => .next (writeLong (fwdTake s x.th.part x.th.thid r) l slot r)
    | none => .next s

/-! ## Walks (08 R208, 13 R314) -/

/-- A finished walk leaves the queue; the one that thereby becomes the 512th begins on the copies as they stand. -/
def dropWalk (s : State) (d id : Nat) : State :=
  modDie s d fun y =>
    let l := y.walks.filter fun w => w.id != id
    let fresh (w : Walk) : Walk :=
      match y.parts.find? fun p => p.pid == w.part with
      | some p => { w with map := p.map, ltt := p.ltt }
      | none => w
    { y with walks := l.take 511 ++ (((l.drop 511).take 1).map fun w => if y.walks.length > 512 then fresh w else w) ++ l.drop 512 }

def walk? (s : State) (id : Nat) : Option (Nat × Walk) :=
  (List.range 20).findSome? fun d => (((die s d).walks.take 512).find? fun w => w.id == id).map fun w => (d, w)

/-- Changes the first entry of a launch queue of which `p` holds. -/
def modLaunch (p : Launch → Bool) (f : WalkState → WalkState) : List Launch → List Launch
  | [] => []
  | q :: r => if p q then { q with walk := f q.walk } :: r else q :: modLaunch p f r

/-- The walker's answer reaches who waits for it (08 R208, 13 R314). -/
def walkReply (s : State) (w : Walk) (f : WalkState → WalkState) : State :=
  match w.who with
  | .thread thid =>
    match slotOf s w.loc w.part thid with
    | some k => (match (slotAt s w.loc k).st with
      | .block .walk _ => setSt (modTh s w.loc k fun th => { th with walk := f th.walk }) w.loc k .run
      | _ => s)
    | none => s
  | .engine e seq =>
    modCore s w.loc fun c => setEngQ c e ((engQ c e).map fun q => if q.seq = seq ∧ q.part = w.part then { q with io := { q.io with walk := f q.io.walk } } else q)
  | .request id => setReq s id fun q => match q.st with
    | .walking k => { q with walk := f q.walk, st := .xlate k }
    | _ => q
  | .change id => { s with ltts := s.ltts.map fun r => if r.id = id then { r with walk := f r.walk } else r }
  | .launch => modCore s w.loc fun c => { c with launchq := modLaunch (fun q => q.pid == w.part && q.walk.waits.isSome) f c.launchq }

/-- What a walk has brought: an extent, an address that no extent holds, or a set. -/
def WalkState.found (e : ExtEntry) (w : WalkState) : WalkState := { w with waits := Option.none, exts := e :: w.exts }
def WalkState.lacks (va : Nat) (w : WalkState) : WalkState := { w with waits := Option.none, missed := va :: w.missed }
def WalkState.gotSet (tid : Nat) (set : List LttEntry) (w : WalkState) : WalkState := { w with waits := Option.none, sets := (tid, set) :: w.sets }

/-- EXTENT_WALK_COMPLETE: the entry is cached, or the translation fails. -/
def execExtentWalkComplete (id : Nat) (s : State) : Out :=
  match walk? s id with
  | some (d, w) =>
    match w.va with
    | none => .next s
    | some va =>
      let s := dropWalk s d id
      match extFind w.map va with
      | some e => .next (walkReply (cacheEntry s w.loc w.part e) w (WalkState.found e))
      | none => .next (walkReply s w (WalkState.lacks va))
  | none => .next s

/-- Keeps whole sets, most recently used first, to at most 64 entries. -/
def fitSets : Nat → List (Nat × Nat × List LttEntry) → List (Nat × Nat × List LttEntry)
  | _, [] => []
  | n, p :: r => if p.2.2.length ≤ n then p :: fitSets (n - p.2.2.length) r else []

def cacheSet (s : State) (l : Loc) (pid tid : Nat) (set : List LttEntry) : State :=
  modCore s l fun c => { c with lcache := fitSets 64 ((pid, tid, set) :: c.lcache.filter fun p => !(p.1 == pid && p.2.1 == tid)) }

/-- LABEL_WALK_COMPLETE: a set of at most 64 entries becomes resident; the waiting instruction has the set it asked for in any case. -/
def execLabelWalkComplete (id : Nat) (s : State) : Out :=
  match walk? s id with
  | some (d, w) =>
    if w.va.isSome then .next s
    else
      let set := treeSet w.ltt w.tid
      let s := count (dropWalk s d id) d w.part 20 1
      .next (walkReply (if set.length ≤ 64 then cacheSet s w.loc w.part w.tid set else s) w (WalkState.gotSet w.tid set))
  | none => .next s

/-! ## Continuation atomics and punty launches (09 R231 to R234) -/

def launchWaiters (s : State) (l : Loc) : List Request := s.reqs.filter fun r => r.st == .launchList && servedAt r.key == l

/-- The requests for which the waiting list of a slice reserves an entry ahead of `r` (01 R47, 09 R232). -/
def listReserved (s : State) (r : Request) : List Request :=
  s.reqs.filter fun q =>
    q.op.isCont && q.undone && q.st != .launchList && q.id != r.id && servedAt q.key == servedAt r.key && before q.lesc r.lesc

/-- Whether the waiting list of a slice has an entry for a request: a free one that is not reserved for a request ahead of it (01 R47, 09 R232). -/
def listAdmits (s : State) (r : Request) : Bool := (launchWaiters s (servedAt r.key)).length + (listReserved s r).length < 16

/-- A request enters the waiting list of its slice. -/
def enterLaunchList (s : State) (r : Request) : State :=
  moveLast (setReq s r.id fun q => { q with st := .launchList, lrefused := 0, lesc := none }) r.id

/-- The act of R231 with a free launch entry, its memory change, and whether it launches. -/
def contAct (s : State) (r : Request) (isCas : Bool) (k : Punty) (b c : Word) : Bool × State × Nat × Word :=
  let n := if k.w64 then 8 else 4
  let o := ofBytes (s.mem.readN r.key n)
  let put (v : Nat) : State := writeFor s r.part r.thid r.key (toBytes n v)
  if isCas then
    let go := o = b.toNat % 2 ^ (8 * n)
    (go, if go then put c.toNat else s, o, if k.w64 then c else sextTo 32 c)
  else (o = 1, if 1 ≤ o then put (o - 1) else s, o, b)

/-- Performs a continuation atomic: its launch is entered with the memory change, and the reply gives the old value. -/
def contPerform (s : State) (r : Request) (isCas : Bool) (k : Punty) (b c : Word) (d : SReg) : State :=
  let a := contAct s r isCas k b c
  let old := amoOld .swap k.w64 a.2.2.1
  let t := setReq a.2.1 r.id fun q => { q with st := .replied (.writes [.s d old false]) }
  if a.1 then modCore t (servedAt r.key) fun q => { q with launchq := q.launchq ++ [⟨r.part, r.cls, k.anch, k.w64, k.entry, BitVec.ofNat 64 a.2.2.1, a.2.2.2, r.va, .none⟩] }
  else t

/-- A continuation atomic acts, or waits where it would launch and the launch queue is full or others wait; a full waiting list refuses it (09 R231,
R232). -/
def contRequest (s : State) (r : Request) (isCas : Bool) (k : Punty) (b c : Word) (d : SReg) : State :=
  let l := servedAt r.key
  if poisoned s r.key then setReq s r.id fun q => { q with st := .replied (.memerr r.va) }
  else if (contAct s r isCas k b c).1 && (64 ≤ (core s l).launchq.length || !(launchWaiters s l).isEmpty) then
    if listAdmits s r then enterLaunchList s r else refuseLaunch s r
  else contPerform s r isCas k b c d

/-- CONTINUATION_ACT. -/
def execContinuationAct (id : Nat) (s : State) : Out :=
  match req? s id with
  | none => .next s
  | some r =>
    match r.op with
    | .contK isCas k b c d =>
      if canAct s r then
        let q := inQueue s r
        .next (contRequest q.1 q.2 isCas k b c d)
      else .next s
    | _ => .next s

/-- LAUNCH_WAIT_REEVALUATE: the oldest waiting request is evaluated afresh. -/
def execLaunchWaitReevaluate (l : Loc) (s : State) : Out :=
  if 64 ≤ (core s l).launchq.length then .next s
  else match launchWaiters s l with
    | [] => .next s
    | r :: _ =>
      match r.op with
      | .contK isCas k b c d =>
        if poisoned s r.key then .next (setReq s r.id fun q => { q with st := .replied (.memerr r.va) }) else .next (contPerform s r isCas k b c d)
      | _ => .next s

/-! ## Threads into slots (01 R34, R35; 04 R117, R123) -/

/-- THID of the thread created as number `count` in a slot (04 R123). -/
def thidOf (p : Partition) (l : Loc) (k : Fin 16) (count : Nat) : Word :=
  BitVec.ofNat 64 ((if isSliceCore l then 2 ^ 63 else 0) + whoNum p l % 2 ^ 17 * 2 ^ 46 + k.val * 2 ^ 42 + count % 2 ^ 42)

/-- A fresh thread's registers (01 R34). -/
def freshTh (part : Nat) (priv roaming : Bool) (cls : BitVec 2) (entry : Word) (payload : List Word) : Thread :=
  { Thread.reset with part := part, priv := priv, roaming := roaming, pc := entry, qos := cls, s := Vector.ofFn fun i => if i = 0 then 0 else payload.getD (i.val - 1) 0 }

/-- Writes an arrival into a slot; under a pre-emption request it is treated as the threads there (15 R372). A migrated context keeps the slot's own trap, label-fault and light registers (04 R119, 13 R316). -/
def placeIn (s : State) (l : Loc) (k : Fin 16) (a : Arrival) : State :=
  modSlot s l k fun x =>
    let old := x.th
    let th := { a.th with
      tcause := old.tcause, tpc := old.tpc, tword0 := old.tword0, tword1 := old.tword1, taddr := old.taddr, lfOld := old.lfOld, lfNew := old.lfNew,
      thact := false, lact := false, ldir := old.ldir, lret := old.lret, lval := old.lval }
    let h : Option Nat := if (core s l).preempt.any fun q => q.pid == a.th.part then some 256 else none
    if a.migrated then { x with st := .run, halting := h, atCkpt := none, hold := 0, th := th }
    else
      let id := match part? s a.th.part with | some p => thidOf p l k x.count | none => 0
      { x with st := .run, halting := h, atCkpt := none, hold := 0, count := x.count + 1, th := { th with thid := id } }

/-- The lowest slot that an arrival of a kind may use. -/
def usableSlot (c : Core) (reservedKind : Bool) : Option (Fin 16) :=
  (List.finRange 16).find? fun k => c.slots[k].st == .free && c.slots[k].reserved == reservedKind

/-- Arrivals go to the inbox: the partition's threads on the core are halted or saved, or for a migrated context are halting, or another partition's
are being halted there (15 R373, R375). -/
def inboxed (s : State) (l : Loc) (pid : Nat) (migrated : Bool) : Bool :=
  let c := core s l
  match part? s pid with
  | none => false
  | some p =>
    (((c.preempt.any fun q => q.pid == pid) || p.st == .paused || p.st == .descheduled) && (migrated || allHalted s l pid))
      || (!isSliceCore l && c.preempt.any fun q => q.pid != pid)
      || p.saves.any fun v => v.loc == l && !v.victim

/-- An arrival takes a slot, or the spill queue, or spoil space; none where the quota is used up (01 R35, 11 R269). -/
def arrive (s : State) (l : Loc) (a : Arrival) : Option State :=
  let c := core s l
  if inboxed s l a.th.part a.migrated then some (modCore s l fun c => { c with inbox := c.inbox ++ [a] })
  else if (c.spill ++ c.spillSpoil).all (fun b => b.reservedKind != a.reservedKind) && (usableSlot c a.reservedKind).isSome then
    (usableSlot c a.reservedKind).map fun k => placeIn s l k a
  else if c.spill.length < 32 && c.spillSpoil.isEmpty then some (modCore s l fun c => { c with spill := c.spill ++ [a] })
  else if spoilFits s l a.th.part 512 then some (modCore s l fun c => { c with spillSpoil := c.spillSpoil ++ [a] })
  else none

/-- The messages in the send queue of a location, oldest first (11 R259, 15 R366). -/
def sendQueue (s : State) (l : Loc) : List Msg := s.msgs.filter fun m => m.src == l

/-- A message that may act now: the first in its send queue (11 R259). -/
def headMsg? (s : State) (id : Nat) : Option Msg := (s.msgs.find? fun m => m.id == id).filter fun m => (sendQueue s m.src).head?.map Msg.id == some id

def dropMsg (s : State) (id : Nat) : State := { s with msgs := s.msgs.filter fun m => m.id != id }

/-- A slot becomes FREE, its thread's outstanding results discarded (06 R168), which raises DISPATCH with reason FREE (12 R290). -/
def freeSlotOf (s : State) (l : Loc) (k : Fin 16) : State :=
  let pid := (thread s l k).part
  let s := modSlot s l k fun x => { x with st := .free, halting := none, atCkpt := none, tpcHeld := none, th := { x.th with outs := [], pendTrap := none } }
  if isSliceCore l then s else raiseEvent s (dieOf l) { KEvent.base with kind := .dispatch, reason := 1, pid := pid }

/-- SPAWN_ARRIVAL. -/
def execSpawnArrival (id : Nat) (s : State) : Out :=
  match headMsg? s id with
  | some m =>
    match m.body with
    | .spawn dest a =>
      match arrive s dest a with
      | some t => .next (dropMsg t id)
      | none => .next (spoilFull s dest a.th.part 3)
    | _ => .next s
  | none => .next s

/-- Takes the oldest entry of a kind out of the spill queue, which refills from spoil in order (01 R35). -/
def takeSpill (c : Core) (a : Arrival) : Core :=
  if c.spill.contains a then
    let l := c.spill.erase a
    { c with spill := l ++ c.spillSpoil.take 1, spillSpoil := c.spillSpoil.drop 1 }
  else { c with spillSpoil := c.spillSpoil.erase a }

/-- ARRIVAL_SPILL_START: the oldest entry of a kind takes a slot that freed. -/
def execArrivalSpillStart (l : Loc) (reserved : Bool) (s : State) : Out :=
  let c := core s l
  match (c.spill ++ c.spillSpoil).find? (fun a => a.reservedKind == reserved), usableSlot c reserved with
  | some a, some k => if inboxed s l a.th.part a.migrated then .next s else .next (rearm (placeIn (modCore s l fun c => takeSpill c a) l k a) l a.th.part)
  | _, _ => .next s

/-! ## The migrating image (04 R117, R118) -/

def guardCode : GuardVal → Nat
  | .unset => 0
  | .tt => 1
  | .ff => 2
def guardOf : Nat → GuardVal
  | 1 => .tt
  | 2 => .ff
  | _ => .unset

/-- A loop-stack entry in 80 bits: COUNT, LEN and SOFF. -/
def loopCode (pc : Word) (e : LoopEntry) : Nat :=
  e.count.toNat * 2 ^ 48 + ((e.fin - e.start).toNat / 4 + 1) % 2 ^ 16 * 2 ^ 32 + ((e.start - pc).sshiftRight 2).toNat % 2 ^ 32
def loopOf (pc : Word) (n : Nat) : LoopEntry :=
  let start := pc + (BitVec.ofNat 32 n).signExtend 64 <<< 2
  ⟨start, start + BitVec.ofNat 64 (4 * (n / 2 ^ 32 % 2 ^ 16)) - 4, BitVec.ofNat 32 (n / 2 ^ 48)⟩

/-- The scalar registers whose values the image holds. -/
def inImage (r : SReg) : Bool := r != 0 && !isQueue r

/-- The fields of the 448-byte image: lowest bit, width, value. Entry 0 of the loop stack is the outermost. -/
def imageFields (th : Thread) : List (Nat × Nat × Nat) :=
  th.loops.reverse.zipIdx.map (fun e => (3264 + 80 * e.2, 80, loopCode th.pc e.1))
    ++ [(3232, 32, th.spnd.toNat), (3200, 32, th.sdf.toNat), (3178, 3, th.loops.length), (3177, 1, th.roaming.toNat), (3176, 1, th.priv.toNat),
      (3160, 8, th.lpnd.toNat), (3152, 8, th.ldf.toNat)]
    ++ (List.finRange 4).map (fun n => (3144 + 2 * n.val, 2, guardCode th.g[n]))
    ++ [(3136, 8, th.p.toNat), (3072, 56, th.pc.toNat)]
    ++ (List.finRange 8).map (fun n => (2048 + 128 * n.val, 128, th.l[n].toNat))
    ++ [(1744, 16, th.ckptid.toNat), (1736, 2, th.qos.toNat), (1728, 8, th.fpmode.toNat), (1664, 64, th.tpra.toNat), (1600, 64, th.qhvec.toNat),
      (1536, 64, th.tvec.toNat), (0, 64, th.thid.toNat)]
    ++ ((List.finRange 32).filter inImage).map fun n => (64 * n.val, 64, th.s[n].toNat)

def packImage (th : Thread) : BitVec 3584 :=
  BitVec.ofNat 3584 ((imageFields th).foldl (fun acc f => acc + f.2.2 % 2 ^ f.2.1 * 2 ^ f.1) 0)

/-- The context that an image holds; what the image does not hold stays that of `th`. -/
def unpackImage (im : BitVec 3584) (th : Thread) : Thread :=
  let at_ (lo w : Nat) : Nat := bitsAt im (lo + w - 1) lo
  let pc : Word := BitVec.ofNat 64 (at_ 3072 56)
  { th with
    loops := ((List.range (min 4 (at_ 3178 3))).map fun k => loopOf pc (at_ (3264 + 80 * k) 80)).reverse
    spnd := BitVec.ofNat 32 (at_ 3232 32), sdf := BitVec.ofNat 32 (at_ 3200 32), roaming := at_ 3177 1 == 1, priv := at_ 3176 1 == 1
    lpnd := BitVec.ofNat 8 (at_ 3160 8), ldf := BitVec.ofNat 8 (at_ 3152 8)
    g := Vector.ofFn fun n => guardOf (at_ (3144 + 2 * n.val) 2)
    p := BitVec.ofNat 8 (at_ 3136 8), pc := pc
    l := Vector.ofFn fun n => BitVec.ofNat 128 (at_ (2048 + 128 * n.val) 128)
    ckptid := BitVec.ofNat 16 (at_ 1744 16), qos := BitVec.ofNat 2 (at_ 1736 2), fpmode := BitVec.ofNat 8 (at_ 1728 8)
    tpra := BitVec.ofNat 64 (at_ 1664 64), qhvec := BitVec.ofNat 64 (at_ 1600 64), tvec := BitVec.ofNat 64 (at_ 1536 64)
    thid := BitVec.ofNat 64 (at_ 0 64)
    s := Vector.ofFn fun n => if inImage n then BitVec.ofNat 64 (at_ (64 * n.val) 64) else 0 }

/-- MIGRATION_DEPART: the context is packed, to be unpacked where it arrives, and a forwarding entry recorded, in place of one the location still has for the thread (01 R31, R32). -/
def execMigrationDepart (l : Loc) (slot : Fin 16) (s : State) : Out :=
  let x := slotAt s l slot
  match x.st with
  | .moving dest =>
    let sent := s.msgs.any fun m => m.src == l && m.slot == slot.val && (match m.body with | .migrate _ _ => true | _ => false)
    if sent || 4 ≤ (sendQueue s l).length || !mayLeave s l x.th then .next s
    else
      let t := modCore s l fun c => { c with
        fwd := (c.fwd.filter fun f => !f.isOf x.th.part x.th.thid) ++ if x.th.outs.isEmpty then [] else [⟨x.th.part, x.th.thid, dest, x.th.outs⟩] }
      .next { (newId t).2 with msgs := t.msgs ++ [⟨s.nextId, l, slot.val, x.th.thid, x.th.part, x.th.qos, .migrate dest ⟨unpackImage (packImage x.th) x.th, true, false⟩⟩] }
  | _ => .next s

/-- MIGRATION_ARRIVAL: the context takes a slot or a spill entry, and the old slot becomes FREE (01 R31). -/
def execMigrationArrival (id : Nat) (s : State) : Out :=
  match headMsg? s id with
  | some m =>
    match m.body with
    | .migrate dest a =>
      match arrive s dest a with
      | some t => .next (freeSlotOf (dropMsg t id) m.src (Fin.ofNat 16 m.slot))
      | none => .next (spoilFull s dest a.th.part 3)
    | _ => .next s
  | none => .next s

/-- TDONE_SLOT_FREE: results written, relaxed accesses performed, stores acknowledged (05 R152). -/
def execTdoneSlotFree (l : Loc) (slot : Fin 16) (s : State) : Out :=
  let x := slotAt s l slot
  if x.st != .free && x.th.ended && x.th.outs.isEmpty && !(s.reqs.any fun r => isMine x.th r) then .next (freeSlotOf s l slot) else .next s

/-! ## Punty threads (09 R233) -/

/-- A punty thread's payload and class. -/
def puntyArrival (q : Launch) : Arrival :=
  ⟨freshTh q.pid false (!q.anch) q.cls (q.entry.setWidth 64 <<< 2)
    [if q.w64 then q.old else sextTo 32 q.old, BitVec.ofNat 64 q.ea, q.arg3], false, false⟩

/-- Whether an entry of a partition may start: descheduled and paused ones keep their places. -/
def mayStart (s : State) (pid : Nat) : Bool :=
  match part? s pid with
  | some p => p.st == .running || p.st == .resetting
  | none => true

/-- A failed launch: a FAULT event with cause LAUNCH (09 R233, 12 R292). -/
def launchFault (s : State) (l : Loc) (q : Launch) : State :=
  raiseEvent s (dieOf l) { KEvent.base with
    kind := .fault, reason := 1, pid := q.pid, cause := 32, arg0 := q.old.toNat % 2 ^ 32, arg1 := q.ea % 2 ^ 32, launch := some q, cores := [l] }

/-- Whether a device address may be fetched by a partition at a location, with the extents that walks have brought. -/
def fetchable (s : State) (pid : Nat) (l : Loc) (w : WalkState) (va : Nat) : Except Nat Unit :=
  match part? s pid with
  | none => .error cTRANSLATION
  | some p => match xlateFor s p l w va 4 .fetch false with
    | .ok key => if isHbm key then .ok () else .error cPERMISSION
    | .fault c => .error c
    | .miss => .error cTRANSLATION

/-- Whether an address needs a walk first (08 R208). -/
def lacksExtent (s : State) (pid : Nat) (l : Loc) (w : WalkState) (va : Nat) : Bool :=
  match part? s pid with
  | none => false
  | some p => xlateFor s p l w va 4 .any false == .miss

/-- PUNTY_START: the first entry whose partition may start takes a usable slot, or fails and is freed; where its entry point's extent is not cached, it
waits for a walk. -/
def execPuntyStart (l : Loc) (s : State) : Out :=
  let c := core s l
  match c.launchq.find? fun q => mayStart s q.pid with
  | none => .next s
  | some q =>
    let va := q.entry.toNat * 4
    let t := modCore s l fun c => { c with launchq := c.launchq.erase q }
    let resetting : Bool := match part? s q.pid with | some p => p.st != .running | none => true
    if resetting then .next (launchFault t l q)
    else if q.walk.waits.isSome then .next s
    else if lacksExtent s q.pid l q.walk va then
      .next (modCore (addWalk s l .launch q.pid (.extent va)) l fun c =>
        { c with launchq := modLaunch (· == q) (·.await (.extent va)) c.launchq })
    else match fetchable s q.pid l q.walk va with
      | .ok _ =>
        match usableSlot c false with
        | some k => .next (placeIn (match part? s q.pid with | some p => useExtent t p l va | none => t) l k (puntyArrival q))
        | none => .next s
      | .error _ => .next (launchFault t l q)

end Sys2Proof.Machine
end

