-- ==== Sys2Proof/Machine/Ltab.lean ====
section
/-! DEFINITION. The meanings of LMEM and LTAB, and the changes of the label translation table (13 R313 to R316, R319 to R330). -/

namespace Sys2Proof.Machine

/-! ## Sets and translation at issue (13 R314, R315) -/

/-- A tree's set as the issuing instruction has it: from the label cache, or as the walker gave it. -/
def setFor (s : State) (x : Cur) (tid : Nat) : Option (List LttEntry) :=
  match (core s x.loc).lcache.find? fun p => p.1 == (me s x).part && p.2.1 == tid with
  | some p => some p.2.2
  | none => ((me s x).walk.sets.find? fun p => p.1 == tid).map Prod.snd

/-- A use of a resident set makes it the most recent. -/
def useSetAt (s : State) (l : Loc) (pid tid : Nat) : State :=
  modCore s l fun c =>
    let is (p : Nat × Nat × List LttEntry) : Bool := p.1 == pid && p.2.1 == tid
    { c with lcache := c.lcache.filter is ++ c.lcache.filter fun p => !is p }

def useSet (s : State) (x : Cur) (tid : Nat) : State := useSetAt s x.loc (me s x).part tid

/-- The set of a tree for an engine's command: the resident one, or one that a walk has brought it; none where a walk is needed first (13 R314). -/
def engineSet (s : State) (p : Partition) (l : Loc) (w : WalkState) (tid : Nat) : Option (List LttEntry) × State :=
  match (core s l).lcache.find? fun q => q.1 == p.pid && q.2.1 == tid with
  | some q => (some q.2.2, useSetAt s l p.pid tid)
  | none => ((w.sets.find? fun q => q.1 == tid).map Prod.snd, s)

/-- STALE_LABEL: the detail names the entry and the label register (13 R316). -/
def staleEff (r : LReg) (y : LttEntry) : Eff := .trapL cSTALE (y.num % 1024 + r.val * 1024) 0 y.birth y.cur

/-- The uses that a location has made of its label and extent caches in `t`. -/
def keepUse (t : State) (l : Loc) (s : State) : State := modCore s l fun c => { c with lcache := (core t l).lcache, xcache := (core t l).xcache }

/-- A trap on a state in which the label cache has been used: the use stands, whatever the outcome (13 R314). -/
def Eff.trapOn (t : State) (x : Cur) : Eff → Eff
  | .trap c d a => .undo fun s => trapAt (keepUse t x.loc s) x c d a
  | .trapL c d a o n =>
    .undo fun s => raiseTrap (keepUse t x.loc s) x.loc x.slot ⟨c, d, (me s x).pc, x.w0, x.w1, BitVec.ofNat 64 (a % 2 ^ 56), some o, some n, false⟩
  | e => e

/-- The LTT steps of TRANSLATE for a well-formed label, and what follows on the state in which the tree's set has been used (13 R314, R315). -/
def translating (s : State) (x : Cur) (strict : Bool) (v : Label) (f : State → LXlate → Eff) : Eff :=
  match setFor s x (lTid v) with
  | none => .wait (startLabelWalk x (lTid v))
  | some set => let t := useSet s x (lTid v); (f t (lTranslate set strict v)).trapOn t x

/-- A label access with its LTT steps made: it goes to the first probed slot of the directory (13 R315, R320). -/
def labelAccess (s : State) (x : Cur) (e : LttEntry) (b : Label) (a : LAct) (relaxed : Bool) (sc : Scope) (write : Bool) (ws : List RegWrite) : Eff :=
  accessAt s x
    { va := BitVec.ofNat 64 (probeVa b e.dbase e.dsize 0), size := 32, kind := .read, relaxed := relaxed, scope := sc, write := write,
      op := .look b e.dbase e.dsize 0 a, ws := ws } 0 true

/-! ## LMEM (13 R319, R320) -/

/-- What a store through LMEM may not do: write through a view, or the header (13 R319). -/
def storeDeny (e : LttEntry) (off : BitVec 16) : Option Nat := if e.view then some 3 else if off.toNat < 16 then some 2 else none

/-- An LMEM access; `defer` is what a speculative load does instead of a fault, `act` what follows the lookup, with the PERMISSION trap of a store that
its label does not allow. DESIGN CHOICE: a relaxed store takes that trap at issue, as 01 R28 has every permission fault, an ordinary one after its
lookup (log 47). -/
def lmem (s : State) (x : Cur) (r : LReg) (m : Option MPfx) (off : BitVec 16) (size : Nat) (store : Bool) (defer : Option (State → Eff))
    (act : Option Nat → LAct) (ws : List RegWrite) : Eff :=
  let fault (s : State) (e : Eff) : Eff := match defer with | some f => f s | none => e
  let v := readL s x r
  if off.toNat % size ≠ 0 then fault s (.trap cMISALIGN 0 0)
  else match lFault v with
    | some k => fault s (lFormat r k)
    | none => translating s x false v fun s t =>
      match t with
      | .noNode d => fault s (.trap cNONODE d 0)
      | .stale y => fault s (staleEff r y)
      | .ok e b =>
        match rxOf m, (if store then storeDeny e off else none) with
        | true, some k => .trap cPERMISSION k 0
        | _, k => labelAccess s x e b (act k) (rxOf m) (scopeArg m) store ws

def execLld (h : Hdr) (m : Option MPfx) (d : SReg) (a : LReg) (off : BitVec 16) (sz : Size) (uns spec : Bool) (s : State) : Out :=
  issue s (mlen m) h { ls := [a], rd := some d, dfl := if spec then [] else [a] } fun x v s =>
    let defer (s : State) : Eff := .go (putS s x d 0 true)
    if spec && v.df then defer s
    else lmem s x a m off (Size.bytes sz) false (if spec then some defer else none) (fun _ => .load d sz uns off.toNat spec) [.s d 0 false]

def execLldL (h : Hdr) (m : Option MPfx) (d a : LReg) (off : BitVec 16) (spec : Bool) (s : State) : Out :=
  issue s (mlen m) h { ls := [a], ld := some d, dfl := if spec then [] else [a] } fun x v s =>
    let defer (s : State) : Eff := .go (putL s x d 0 true)
    if spec && v.df then defer s
    else lmem s x a m off 16 false (if spec then some defer else none) (fun _ => .loadL d off.toNat spec) [.l d 0 false]

def execLst (h : Hdr) (m : Option MPfx) (d : SReg) (a : LReg) (off : BitVec 16) (sz : Size) (s : State) : Out :=
  issue s (mlen m) h { d := some d, ls := [a], dfu := [d], dfl := [a] } fun x v s =>
    lmem s x a m off (Size.bytes sz) true none (.store v.d sz off.toNat) []

def execLstL (h : Hdr) (m : Option MPfx) (d a : LReg) (off : BitVec 16) (s : State) : Out :=
  issue s (mlen m) h { ls := [a, d], dfl := [a, d] } fun x _ s => lmem s x a m off 16 true none (.storeL (readL s x d) off.toNat) []

/-! ## LTAB (13 R321 to R329) -/

/-- The checks of R325 at issue, and the parent's lookup. DEDUCED: VIEW is checked at issue too, since it stands before checks that the rule makes there
(log 47). -/
def execLnew (h : Hdr) (d a : LReg) (b c : SReg) (s : State) : Out :=
  issue s 16 h { b := some b, c := some c, ls := [a], ld := some d, dfu := [b, c], dfl := [a] } fun x v s =>
    let p := readL s x a
    match lFault p with
    | some k => lFormat a k
    | none => translating s x false p fun s t =>
      match t with
      | .noNode n => .trap cNONODE n 0
      | .stale y => staleEff a y
      | .ok e pb =>
        if e.view then .trap cPERMISSION 3 0
        else if v.b.toNat % 16 ≠ 0 then .trap cMISALIGN 0 v.b.toNat
        else if notTableMem v.b.toNat then .trap cPERMISSION 4 v.b.toNat
        else match addrCheck s x v.b 16 .write with
          | .fault k => .trap k 0 v.b.toNat
          | .walk => .wait (startWalk x v.b.toNat)
          | .ok key => labelAccess (touch s x v.b.toNat) x e pb (.new p v.b.toNat key v.c d) false .narrowest true []

/-- Why `lfree` may not free a node that translates (13 R326). -/
def freeDeny (s : State) (x : Cur) (e : LttEntry) (b : Label) : Option (Nat × Nat) :=
  if e.view then some (cPERMISSION, 3)
  else if (diePart s (dieOf x.loc) (me s x).part).ltt.any fun q => q.birth == b then some (cLTABLE, 7)
  else none

/-- The translation at issue, and the act at the directory (13 R326). -/
def execLfree (h : Hdr) (a : LReg) (s : State) : Out :=
  issue s 16 h { ls := [a], dfl := [a] } fun x _ s =>
    let p := readL s x a
    match lFault p with
    | some k => lFormat a k
    | none => translating s x false p fun s t =>
      match t with
      | .noNode n => .trap cNONODE n 0
      | .stale y => staleEff a y
      | .ok e b => labelAccess s x e b (.free (freeDeny s x e b)) false .narrowest true []

/-- The sets that a rebasing has used, in the order of use. -/
def rebaseUse (s : State) (x : Cur) (fwd : Bool) : Nat → Label → State
  | 0, _ => s
  | fuel + 1, v =>
    match rebaseLoop (setFor s x) fwd 1 v with
    | .ok w => if w = v then useSet s x (lTid v) else rebaseUse (useSet s x (lTid v)) x fwd fuel w
    | _ => useSet s x (lTid v)

/-- The label is rewritten through every move; the sets it needs are fetched first (13 R328). -/
def execLrebase (h : Hdr) (d a : LReg) (s : State) : Out :=
  issue s 16 h { ls := [a], ld := some d } fun x v s =>
    let t := rebaseUse s x false 51 (readL s x a)
    match lFault (readL s x a) with
    | some k => lFormat a k
    | none => match rebase (setFor s x) false (readL s x a) with
      | .ok y => .go (putL t x d y v.df)
      | .depth => (Eff.trap cLDEPTH 1 0).trapOn t x
      | .need tid => .wait (startLabelWalk x tid)

/-- Mode 0. -/
def execLxlate (h : Hdr) (d : SReg) (a : LReg) (s : State) : Out :=
  issue s 16 h { ls := [a], rd := some d, dfl := [a] } fun x _ s =>
    match lFault (readL s x a) with
    | some k => lFormat a k
    | none => translating s x false (readL s x a) fun s t =>
      match t with
      | .noNode n => .trap cNONODE n 0
      | .stale y => staleEff a y
      | .ok e b => labelAccess s x e b (.xlate false e.view d) false .narrowest false []

/-- Mode 1: a status in place of every trap of translation. -/
def lxlateTest (s : State) (h : Hdr) (strict : Bool) (d : SReg) (a : LReg) : Out :=
  issue s 16 h { ls := [a], rd := some d, dfl := [a] } fun x _ s =>
    match lFault (readL s x a) with
    | some _ => .go (putS s x d (xlWord 3 0) false)
    | none => translating s x strict (readL s x a) fun s t =>
      match t with
      | .noNode _ => .go (putS s x d (xlWord 2 0) false)
      | .stale _ => .go (putS s x d (xlWord 1 0) false)
      | .ok e b => labelAccess s x e b (.xlate true e.view d) false .narrowest false []

def execLxlateT (h : Hdr) (d : SReg) (a : LReg) (s : State) : Out := lxlateTest s h false d a
def execLxlateTs (h : Hdr) (d : SReg) (a : LReg) (s : State) : Out := lxlateTest s h true d a

def execLxlateOld (h : Hdr) (d : LReg) (s : State) : Out := issue s 16 h { ld := some d } fun x _ s => .go (putL s x d (me s x).lfOld false)
def execLxlateNew (h : Hdr) (d : LReg) (s : State) : Out := issue s 16 h { ld := some d } fun x _ s => .go (putL s x d (me s x).lfNew false)

/-! ## Changes of the table: the request (13 R323, R324, R327) -/

/-- A release that sends a request to the master and parks. -/
def sendLtt (s : State) (x : Cur) (k : LttKind) (d a b : LReg) : Eff :=
  release s x (
    let th := me s x
    .park (setSt { (newId s).2 with ltts := s.ltts ++ [⟨s.nextId, x.loc, x.slot.val, th.thid, th.part, k, d, a, b, .none⟩] } x.loc x.slot
      (.parkMem (.message s.nextId))))

/-- The checks of R324 at issue, in order. -/
def execLtree (h : Hdr) (d : LReg) (a b c : SReg) (dsize : Fin 32) (s : State) : Out :=
  issue s 16 h { a := some a, b := some b, c := some c, ld := some d, dfu := [a, b, c] } fun x v s =>
    let n := 32 * 2 ^ dsize.val
    if 0xFFFFF < v.a.toNat then lFormat d 6
    else if dsize.val < 7 || 24 < dsize.val then .trap cPARAM 0 0
    else if v.b.toNat % n ≠ 0 then .trap cMISALIGN 0 v.b.toNat
    else if v.c.toNat % 16 ≠ 0 then .trap cMISALIGN 0 v.c.toNat
    else if notTableMem v.b.toNat then .trap cPERMISSION 4 v.b.toNat
    else if notTableMem v.c.toNat then .trap cPERMISSION 4 v.c.toNat
    else withExtents s x [(v.b.toNat, n), (v.c.toNat, 16)] (match part? s (me s x).part with
      | none => .trap cTRANSLATION 0 v.b.toNat
      | some p => match xlateRange s p x.loc (me s x).walk .rmw 8200 v.b.toNat n with
        | .error e => .trap e.1 0 e.2
        | .ok _ => match xlateRange s p x.loc (me s x).walk .write 2 v.c.toNat 16 with
          | .error e => .trap e.1 0 e.2
          | .ok _ => sendLtt (useExtents (useExtents s p x.loc 260 v.b.toNat n) p x.loc 2 v.c.toNat 16) x
            (.tree v.a.toNat v.b.toNat dsize.val v.c.toNat) d 0 0)

def execLtreeV (h : Hdr) (d : LReg) (a : SReg) (b : LReg) (s : State) : Out :=
  issue s 16 h { a := some a, ls := [b], ld := some d, dfu := [a], dfl := [b] } fun x v s =>
    if 0xFFFFF < v.a.toNat then lFormat d 6 else checkL s x [b] (sendLtt s x (.view v.a.toNat (readL s x b)) d 0 b)

def moveReq (s : State) (h : Hdr) (fwd : Bool) (d a b : LReg) : Out :=
  issue s 16 h { ls := [a, b], ld := some d, dfl := [a, b] } fun x _ s =>
    checkL s x [a, b] (sendLtt s x (.move (readL s x a) (readL s x b) fwd) d a b)

def execLmove (h : Hdr) (d a b : LReg) (s : State) : Out := moveReq s h false d a b
def execLmoveF (h : Hdr) (d a b : LReg) (s : State) : Out := moveReq s h true d a b

/-! ## Changes of the table: the master (13 R323, R324, R327) -/

def lttReply (s : State) (r : LttReq) (ws : List RegWrite) (trap : Option (Nat × Nat × Nat)) (lf : Option (Label × Label)) : State :=
  { s with msgReplies := s.msgReplies ++ [⟨r.id, r.loc, r.slot, r.thid, r.part, ws, trap, lf⟩] }

def refuse (s : State) (r : LttReq) (cause detail va : Nat) : State := lttReply s r [] (some (cause, detail, va)) none

/-- A move overlaps a pin (13 R323). -/
def pinOverlaps (m q r : Label) : Bool := isAnc r m || isAnc m r || isAnc r q

/-- The root labels that TE commands of a partition pin on a core. -/
def pinsOf (q : List EngCmd) (pid : Nat) : List Label :=
  q.filterMap fun e => if e.part = pid then (match e.body with | .te _ root .. => some root | _ => none) else none

/-- No pin of a core or of a saved image overlaps the move. -/
def pinsClear (s : State) (p : Partition) (m q : Label) : Bool :=
  (s.cores.all fun c => (pinsOf c.2.teq p.pid).all fun r => !pinOverlaps m q r)
    && p.saves.all fun v => (pinsOf v.core.teq p.pid).all fun r => !pinOverlaps m q r

/-- The lowest entry number that is free; none when 1,024 are valid. -/
def freeEntry (l : List LttEntry) : Option Nat := (List.range 1024).find? fun n => !(l.any fun e => e.num == n)

/-- Writes an entry in a table, kept in ascending number. -/
def putEntry (l : List LttEntry) (e : LttEntry) : List LttEntry := (l.filter fun f => f.num < e.num) ++ e :: l.filter fun f => e.num < f.num

/-- LTT_ENTRY_WRITE: the master's copy and every die's. -/
def writeEntry (s : State) (pid : Nat) (e : LttEntry) : State :=
  let s := modPart s pid fun p => { p with ltt := putEntry p.ltt e }
  { s with dies := s.dies.map fun d => { d with parts := d.parts.map fun p => if p.pid = pid then { p with ltt := putEntry p.ltt e } else p } }

/-- A core's share of COMMIT is still to come where it has sets, or where a walk of its began on the old table. -/
def commitDue (s : State) (pid : Nat) (l : Loc) (c : Core) : Bool :=
  c.lcache.any (fun p => p.1 == pid) || ((die s (dieOf l)).walks.any fun w => w.part == pid && w.loc == l && w.va.isNone)
    || ((List.finRange 16).any fun k => !c.slots[k].th.walk.sets.isEmpty && c.slots[k].th.part == pid)
    || engines.any fun e => (engQ c e).any fun q => q.part == pid && !q.io.walk.sets.isEmpty

/-- With every core's COMMIT acknowledged, the issuer's destination is written. -/
def lttFinish (s : State) (pid : Nat) : State :=
  match (part? s pid).bind fun p => p.lttRun with
  | none => s
  | some r =>
    if r.written && s.cores.all (fun c => !commitDue s pid c.1 c.2 || r.commits.contains c.1) then
      lttReply (modPart s pid fun p => { p with lttRun := none }) r.req [.l r.req.d r.out false] none none
    else s

/-- With no overlapping pin left, the entry is written (13 R323 step 4). -/
def lttAdvance (s : State) (pid : Nat) : State :=
  match part? s pid with
  | none => s
  | some p =>
    match p.lttRun with
    | none => s
    | some r =>
      let needs : Bool := match r.req.kind with | .move _ _ _ => true | _ => false
      if r.written || (needs && !pinsClear s p r.m r.q) then s
      else lttFinish (modPart (writeEntry s pid r.entry) pid fun p => { p with lttRun := some { r with written := true } }) pid

def startRun (s : State) (r : LttReq) (m q : Label) (e : LttEntry) (out : Label) : State :=
  lttAdvance (modPart s r.part fun p => { p with lttRun := some ⟨r, m, q, e, [], false, [], out⟩ }) r.part

/-- What a request comes to at the master: a walk is needed first, a bank it goes to is busy, or it has been dealt with. -/
inductive MasterOut where
  | walk (va : Nat)
  | busy
  | out (s : State)

/-- The queue of an address is empty, so that an access that comes to it is served at once (08 R202). DESIGN CHOICE: the master's accesses of directories
and headers come to empty queues (log 46). -/
def bankFree (s : State) (key : Nat) : Bool := match bankOf key with | some b => (inBank s b).isEmpty | none => true

/-- The master's `ltree`: header, key, entry; a fault of the directory changes nothing, while a key that is there, or a full directory, leaves the header
(13 R312, R321, R324). -/
def masterTree (s : State) (p : Partition) (r : LttReq) (tid dbase dsize rec_ : Nat) : MasterOut :=
  let root := mkLabel tid 0 0
  if p.ltt.any fun e => e.root && lTid e.cur == tid then .out (refuse s r cLTABLE 6 0)
  else match freeEntry p.ltt with
    | none => .out (refuse s r cLTABLE 4 0)
    | some n =>
      match recordKey s p r.loc r.walk rec_ 16 .write with
      | .trap c d => .out (refuse s r c d rec_)
      | .miss => .walk rec_
      | .ok key =>
        let q := insertAt s p r.loc r.walk root dbase dsize
        match insertStop q, q with
        | some (.miss va), _ => .walk va
        | some (.fault c va), _ => .out (refuse s r c 0 va)
        | _, (_, .found _ slot) =>
          if !bankFree s key || !bankFree s slot then .busy
          else
            let t := headWrite s r.part r.thid key 0
            match q.1 with
            | .found _ _ => .out (refuse t r cLTABLE 8 0)
            | _ =>
              .out (startRun (writeFor t r.part r.thid slot (toBytes 8 0 ++ toBytes 8 (slotWord 1 rec_) ++ toBytes 16 root.toNat)) r 0 0
                ⟨n, root, root, dbase, dsize, false, false, true⟩ root)
        | _, (.found _ _, _) => if bankFree s key then .out (refuse (headWrite s r.part r.thid key 0) r cLTABLE 8 0) else .busy
        | _, _ => if bankFree s key then .out (refuse (headWrite s r.part r.thid key 0) r cDIRFULL 0 0) else .busy

/-- TRANSLATE at the master, its lookup included; a failure is returned as the trap of the instruction. -/
def masterXlate (s : State) (p : Partition) (r : LttReq) (reg : LReg) (v : Label) : Except MasterOut (LttEntry × Label × Nat) :=
  match lTranslate (treeSet p.ltt (lTid v)) false v with
  | .noNode d => .error (.out (refuse s r cNONODE d 0))
  | .stale y => .error (.out (lttReply s r [] (some (cSTALE, y.num % 1024 + reg.val * 1024, 0)) (some (y.birth, y.cur))))
  | .ok e b =>
    match (lookup s p r.loc r.walk .read b e.dbase e.dsize).1 with
    | .found a slot => if bankFree s slot then .ok (e, b, a) else .error .busy
    | .absent => .error (.out (refuse s r cNONODE 2 0))
    | .fault c va => .error (.out (refuse s r c 0 va))
    | .miss va => .error (.walk va)

/-- The master's `ltree.v`. DESIGN CHOICE: R315 has the LTT steps made at issue against the issuer's label cache, R323 has the master check a request
against its copy; the model makes them at the master (log 47). -/
def masterView (s : State) (p : Partition) (r : LttReq) (tid : Nat) (v : Label) : MasterOut :=
  let root := mkLabel tid 0 0
  match masterXlate s p r r.b v with
  | .error t => t
  | .ok (e, b, _) => .out (
    if e.view then refuse s r cLTABLE 5 0
    else if p.ltt.any fun f => f.root && lTid f.cur == tid then refuse s r cLTABLE 6 0
    else match freeEntry p.ltt with
      | none => refuse s r cLTABLE 4 0
      | some n => startRun s r 0 0 ⟨n, root, b, e.dbase, e.dsize, false, true, true⟩ root)

/-- The checks of a move in order, the new parent's NEXT, and the entry (13 R327). DESIGN CHOICE: the act at the new parent's record, "as in R325", lists
the LABEL_DEPTH checks only, and the model does not check LIVE there (log 47). -/
def masterMove (s : State) (p : Partition) (r : LttReq) (m0 q0 : Label) (fwd : Bool) : MasterOut :=
  let get (t : Nat) : Option (List LttEntry) := some (treeSet p.ltt t)
  match rebase get true m0, rebase get true q0 with
  | .ok m, .ok q =>
    match masterXlate s p r r.a m with
    | .error t => t
    | .ok (em, bm, _) =>
      match masterXlate s p r r.b q with
      | .error t => t
      | .ok (eq, _, qa) =>
        let same (e : LttEntry) : Bool := !e.view && e.birth == bm && e.dbase == em.dbase
        if em.view || eq.view then .out (refuse s r cLTABLE 5 0)
        else if lLen m = 0 then .out (refuse s r cLTABLE 1 0)
        else if isAnc m q then .out (refuse s r cLTABLE 2 0)
        else if p.ltt.any fun e => isAnc m e.cur && !same e then .out (refuse s r cLTABLE 3 0)
        else
          let old := p.ltt.find? same
          match (match old with | some e => some e.num | none => freeEntry p.ltt) with
          | none => .out (refuse s r cLTABLE 4 0)
          | some n =>
            match recordKey s p r.loc r.walk qa 16 .rmw with
            | .trap c d => .out (refuse s r c d qa)
            | .miss => .walk qa
            | .ok key =>
              if !bankFree s key then .busy
              else if poisoned s key then .out (refuse s r cMEMERR 0 qa)
              else
                let k := headNext s.mem key
                if maxOrd < k then .out (refuse s r cLDEPTH 2 0)
                else match lAppend q k with
                  | none => .out (refuse s r cLDEPTH 1 0)
                  | some new =>
                    let e : LttEntry := match old with
                      | some e => { e with cur := new, forward := fwd }
                      | none => ⟨n, new, bm, em.dbase, em.dsize, fwd, false, false⟩
                    .out (startRun (writeFor s r.part r.thid (key + 4) (toBytes 4 (k + 1))) r m q e new)
  | _, _ => .out (refuse s r cLDEPTH 1 0)

/-- LTT_CHANGE_REQUEST: the master takes one request at a time; one that needs an extent waits for its walk (08 R208). -/
def execLttChangeRequest (id : Nat) (s : State) : Out :=
  match s.ltts.find? fun r => r.id == id with
  | none => .next s
  | some r =>
    match part? s r.part with
    | none => .next s
    | some p =>
      if p.lttRun.isSome || r.walk.waits.isSome then .next s
      else
        let t := { s with ltts := s.ltts.filter fun q => q.id != id }
        let o := match r.kind with
          | .tree tid dbase dsize rec_ => masterTree t p r tid dbase dsize rec_
          | .view tid v => masterView t p r tid v
          | .move m q fwd => masterMove t p r m q fwd
        match o with
        | .out u => .next u
        | .busy => .next s
        | .walk va =>
          let u := addWalk s r.loc (.change id) r.part (.extent va)
          .next { u with ltts := u.ltts.map fun q => if q.id = id then { q with walk := q.walk.await (.extent va) } else q }

/-- LTT_PREPARE: from now on the core holds TE commands whose pin would overlap. -/
def execLttPrepare (pid : Nat) (l : Loc) (s : State) : Out :=
  match (part? s pid).bind fun p => p.lttRun with
  | none => .next s
  | some r =>
    if r.written || r.acks.contains l then .next s
    else .next (lttAdvance (modPart s pid fun p => { p with lttRun := some { r with acks := r.acks ++ [l] } }) pid)

/-- Changes the walks of a partition's threads and engine commands on a core. -/
def modWalks (pid : Nat) (f : WalkState → WalkState) (c : Core) : Core :=
  engines.foldl (fun c e => setEngQ c e ((engQ c e).map fun q => if q.part = pid then { q with io := { q.io with walk := f q.io.walk } } else q))
    { c with slots := c.slots.map fun x => if x.th.part = pid then { x with th := { x.th with walk := f x.th.walk } } else x }

/-- The label cache of a core loses a partition's sets; walks that began on the old table begin afresh (13 R323 step 5). -/
def purgeLabels (s : State) (l : Loc) (pid : Nat) : State :=
  let s := modCore s l fun c => modWalks pid (fun w => { w with sets := [] }) { c with lcache := c.lcache.filter fun p => p.1 != pid }
  let now := (diePart s (dieOf l) pid).ltt
  modDie s (dieOf l) fun d => { d with walks := d.walks.map fun w => if w.part = pid ∧ w.loc = l ∧ w.va = none then { w with ltt := now } else w }

/-- LTT_COMMIT. -/
def execLttCommit (pid : Nat) (l : Loc) (s : State) : Out :=
  match (part? s pid).bind fun p => p.lttRun with
  | none => .next s
  | some r =>
    if !r.written || r.commits.contains l then .next s
    else .next (lttFinish (modPart (purgeLabels s l pid) pid fun p => { p with lttRun := some { r with commits := r.commits ++ [l] } }) pid)

/-- Whether a core holds a TE command with root `root` for a move under way (13 R323 steps 3 to 5). -/
def heldByMove (s : State) (l : Loc) (pid : Nat) (root : Label) : Bool :=
  match (part? s pid).bind fun p => p.lttRun with
  | none => false
  | some r =>
    match r.req.kind with
    | .move _ _ _ => (r.acks.contains l || r.written) && !r.commits.contains l && pinOverlaps r.m r.q root
    | _ => false

end Sys2Proof.Machine
end

