-- ==== Sys2Proof/Machine/Tree.lean ====
section
/-! DEFINITION. The tree engine: TE commands at issue and the walk of the engine (13 R331 to R336). -/

namespace Sys2Proof.Machine

/-! ## Issue (13 R331) -/

/-- What the forms share at issue: the release, the checks of the operands, then the root, which is rebased through FORWARD entries and translated
against the label cache; a root that no entry or directory holds is queued all the same (13 R331, R336). While a move holds its range the issuer
waits (13 R323). -/
def teCommand (s : State) (x : Cur) (fn : Nat) (g : Option GPfx) (a : LReg) (rec_ : Nat) (bad : Bool) (mis : Option Nat) (needs : List Need)
    (noView : Bool) (body : Label → EngBody) : Eff :=
  let v := readL s x a
  release s x (
    if bad || rec_ % 32 ≠ 0 || !lowSpace rec_ then .trap cPARAM 0 0
    else match mis with
      | some va => .trap cMISALIGN 0 va
      | none =>
        match lFault v with
        | some k => lFormat a k
        | none =>
          match rebase (setFor s x) true v with
          | .need tid => .wait (startLabelWalk x tid)
          | .depth => (Eff.trap cLDEPTH 1 0).trapOn (rebaseUse s x true 51 v) x
          | .ok r =>
            translating (rebaseUse s x true 51 v) x false r fun s t =>
              let go : Eff :=
                if heldByMove s x.loc (me s x).part r then .block (.pins (lTid r))
                else command s x .te fn g [] (.ok ((rec_, 32, .write) :: needs, body r))
              match t with
              | .stale y => staleEff a y
              | .noNode _ => go
              | .ok e _ => if noView && e.view then .trap cPERMISSION 3 0 else go)

def teFmt (n : Nat) : Fmt := (Fmt.ofNum n).getD .i8

/-- OFF, FMT and MAXD outside their limits (13 R331). -/
def teBad (f : TeForm) : Bool :=
  let sz := Fmt.size (teFmt f.fmt.val)
  8 < f.fmt.val || f.off.toNat % sz ≠ 0 || 65536 < f.off.toNat + sz || maxdBad f.maxd
where maxdBad (m : Fin 64) : Bool := 51 ≤ m.val && m.val ≤ 62

def teBody (fn : Fin 5) (compl : Nat) (b p : Word) (off : Nat) (fmt : Fmt) (maxd : Nat) (anch : Bool) (n : Nat) (root : Label) : EngBody :=
  .te fn root 0 compl b p off fmt maxd anch n 0 0 [] false

/-- The starting accumulator: −0.0 for FP32 (13 R332). -/
def sumZero (f : Fmt) : Word := if f = .fp32 then 0x80000000 else 0

def execTeSum (h : Hdr) (g : Option GPfx) (d : SReg) (a : LReg) (f : TeForm) (s : State) : Out :=
  issue s (glen g) h { d := some d, ls := [a], dfu := [d], dfl := [a] } fun x v s =>
    let fm := teFmt f.fmt.val
    teCommand s x 0 g a v.d.toNat (teBad f) none [] false (teBody 0 v.d.toNat 0 (sumZero fm) f.off.toNat fm f.maxd.val false 0)

def execTeCount (h : Hdr) (g : Option GPfx) (d : SReg) (a : LReg) (maxd : Fin 64) (s : State) : Out :=
  issue s (glen g) h { d := some d, ls := [a], dfu := [d], dfl := [a] } fun x v s =>
    teCommand s x 1 g a v.d.toNat (teBad.maxdBad maxd) none [] false (teBody 1 v.d.toNat 0 0 0 .i8 maxd.val false 0)

/-- Whether an array of `n` bytes lies in own LM below the reserved region or in slice memory (13 R331). -/
def arrayOk (va n : Nat) : Bool := ownLm va n || (va / 2 ^ 48 % 256 == 2 && va % 2 ^ 26 + n ≤ 2 ^ 26)

def execTeCopy (h : Hdr) (g : Option GPfx) (d : SReg) (a : LReg) (b : SReg) (f : TeForm) (n : BitVec 32) (s : State) : Out :=
  issue s (glen g) h { b := some b, d := some d, ls := [a], dfu := [d, b], dfl := [a] } fun x v s =>
    let fm := teFmt f.fmt.val
    let bytes := n.toNat * Fmt.size fm
    teCommand s x 2 g a v.d.toNat (teBad f || v.b.toNat % Fmt.size fm ≠ 0 || !arrayOk v.b.toNat bytes) none [(v.b.toNat, bytes, .write)] false
      (teBody 2 v.d.toNat v.b 0 f.off.toNat fm f.maxd.val false n.toNat)

def execTeFill (h : Hdr) (g : Option GPfx) (d : SReg) (a : LReg) (b : SReg) (f : TeForm) (s : State) : Out :=
  issue s (glen g) h { b := some b, d := some d, ls := [a], dfu := [d, b], dfl := [a] } fun x v s =>
    teCommand s x 3 g a v.d.toNat (teBad f || decide (f.off.toNat < 16)) none [] true
      (teBody 3 v.d.toNat v.b 0 f.off.toNat (teFmt f.fmt.val) f.maxd.val false 0)

def execTeVisit (h : Hdr) (g : Option GPfx) (d : SReg) (a : LReg) (b c : SReg) (maxd : Fin 64) (anch : Bool) (s : State) : Out :=
  issue s (glen g) h { b := some b, c := some c, d := some d, ls := [a], dfu := [d, b, c], dfl := [a] } fun x v s =>
    let noX : Bool := match fetchable s (me s x).part x.loc (me s x).walk v.b.toNat with | .ok _ => false | .error _ => true
    release s x (withExtents s x [(v.b.toNat, 4)]
      (teCommand (touch s x v.b.toNat) x 4 g a v.d.toNat (teBad.maxdBad maxd || noX) (if v.b.toNat % 4 = 0 then none else some v.b.toNat) [] false
        (teBody 4 v.d.toNat v.b v.c 0 .i8 maxd.val anch 0)))

/-! ## Nodes (13 R332, R334): every probe, header and field is an access of its own, in the order that the node needs them -/

/-- What comes next of a node's reads: a walk, an answer that needs no access, or an access with what it brings. -/
inductive NodeStep where
  | walk (w : WalkFor)
  | done (r : NodeRead)
  | access (key : Nat) (nd : TeNode)

def TeNode.fresh (e : Label × Nat) : TeNode := ⟨e.1, e.2, [], none⟩
def TeNode.ends (nd : TeNode) (r : NodeRead) : TeNode := { nd with res := some r }
def TeNode.tells (nd : TeNode) (l : List Nat) : TeNode := { nd with trace := nd.trace ++ [l] }

/-- What the probes and the header of a node have told: the record's address, then NEXT. -/
def TeNode.told (nd : TeNode) : List Nat := nd.trace.flatten

/-- The next probe of a node's strict translation. -/
def probeStep (s : State) (p : Partition) (l : Loc) (w : WalkState) (nd : TeNode) : NodeStep × State :=
  let r := engineSet s p l w (lTid nd.x)
  match r.1 with
  | none => (.walk (.label (lTid nd.x)), r.2)
  | some set =>
    match lTranslate set true nd.x with
    | .ok e b =>
      let va := probeVa b e.dbase e.dsize nd.trace.length
      if 64 ≤ nd.trace.length then (.done (.gone false), r.2)
      else match xlateFor r.2 p l w va 32 .read false with
        | .miss => (.walk (.extent va), r.2)
        | .fault _ => (.done (.gone true), r.2)
        | .ok key =>
          (.access key (
            if slotPoisoned r.2 key then nd.ends (.gone true)
            else match lookupAt r.2.mem b va key with
              | none => nd.tells []
              | some (.found raddr _) => nd.tells [raddr]
              | some .absent => nd.ends (.gone false)
              | some _ => nd.ends (.gone true)),
            useExtent r.2 p l va)
    | _ => (.done (.gone false), r.2)

/-- An access of a node's record, which the record's extent covers or which is no node to walk. -/
def recordStep (s : State) (p : Partition) (l : Loc) (w : WalkState) (va size : Nat) (k : XKind) (f : Nat → NodeStep) : NodeStep × State :=
  match recordKey s p l w va size k with
  | .trap _ _ => (.done (.gone true), s)
  | .miss => (.walk (.extent va), s)
  | .ok key => (f key, useExtent s p l va)

/-- A node's next read: probes until its record is found, its header, and its field where the command reads or writes one. A field to be written is only
translated; its write is posted with the node's ACT. -/
def nodeStep (s : State) (p : Partition) (l : Loc) (w : WalkState) (fn : Fin 5) (off : Nat) (f : Fmt) (nd : TeNode) : NodeStep × State :=
  let sz := Fmt.size f
  match nd.told with
  | [] => probeStep s p l w nd
  | [raddr] =>
    recordStep s p l w raddr 16 .read fun key => .access key (
      if poisoned s key then nd.ends (.gone true)
      else if !headLive s.mem key then nd.ends (.gone false)
      else if fn = 1 ∨ fn = 4 then nd.ends (.ok raddr (headNext s.mem key) 0 key)
      else nd.tells [headNext s.mem key])
  | raddr :: next :: _ =>
    let ea := (raddr + off) % 2 ^ 56
    if fn = 3 then recordStep s p l w ea sz .write fun key => .done (if poisoned s key then .gone true else .ok raddr next 0 key)
    else recordStep s p l w ea sz .read fun key =>
      .access key (nd.ends (if poisoned s key then .gone true else .ok raddr next (ofBytes (s.mem.readN key sz)) key))

/-! ## The walk (13 R332 to R335) -/

/-- The children of a node with ordinals from `lo`, ascending, and how many of them no label can name (13 R332). -/
def childrenFrom (x : Label) (k lo next : Nat) : List (Label × Nat) × Nat :=
  let os := (List.range (next - lo)).map fun i => lo + i
  let ch := os.filterMap fun o => if o ≤ maxOrd then (lAppend x o).map fun y => (y, k + 1) else none
  (ch, os.length - ch.length)

def deeper (maxd k : Nat) : Bool := maxd == 63 || k < maxd

/-- The prefix of a label up to bit `pos`. -/
def prefixOf (x : Label) (pos : Nat) : Label := mkLabel (lTid x) pos (lPath x / 2 ^ (100 - pos) * 2 ^ (100 - pos))

/-- The ancestors of a label below and at the root, the root first: each with its level and the ordinal through which the label goes on. -/
def ancestors (root r : Label) : List (Label × Nat × Nat) :=
  (((lDigits r).getD []).filter fun d => lLen root ≤ d.2).zipIdx.map fun q => (prefixOf r q.1.2, q.2, q.1.1)

/-- What is left to walk from label `r` on: its subtree, then the later siblings of it and of each of its ancestors below the root, by the NEXT that each
ancestor has been read to have (13 R335). -/
def resumeStack (root r : Label) (nodes : List TeNode) : List (Label × Nat) :=
  let ds := ancestors root r
  (r, ds.length) :: (ds.flatMap fun a => match nodes.find? fun nd => nd.x == a.1 with
    | some ⟨_, _, _, some (.ok _ next _ _)⟩ => [(childrenFrom a.1 a.2.1 (a.2.2 + 1) next).1]
    | _ => []).reverse.flatten

/-- What a node that is being read has told of its children: NEXT, once its header has been read where the field is read after it, else with its ACT. -/
def TeNode.next? (fn : Fin 5) (nd : TeNode) : Option Nat :=
  match nd.res with
  | some (.ok _ next _ _) => some next
  | some (.gone _) => none
  | none => if fn = 0 ∨ fn = 2 then nd.told[1]? else none

/-- The nodes whose reads may go on, in label order: those left to walk, and the children of those whose header has been read, as deep as `fuel` levels. -/
def frontier (fn : Fin 5) (maxd : Nat) (nodes : List TeNode) : Nat → List (Label × Nat) → List (Label × Nat)
  | 0, _ => []
  | fuel + 1, st => st.flatMap fun e =>
    match nodes.find? fun nd => nd.x == e.1 with
    | some nd => (if nd.res.isNone then [e] else []) ++ match nd.next? fn with
      | some next => if deeper maxd e.2 then frontier fn maxd nodes fuel (childrenFrom e.1 e.2 0 next).1 else []
      | none => []
    | none => [e]

/-- The new accumulator of `te.sum`. -/
def sumStep (f : Fmt) (acc : Word) (n : Nat) : Word :=
  if f = .fp32 then BitVec.ofNat 64 (fpAdd fp32 .rne (acc.toNat % 2 ^ 32) n).1
  else acc + (if Fmt.signed f then sextTo f.bits (BitVec.ofNat 64 n) else BitVec.ofNat 64 n)

/-- What a node's ACT changes, once the node has been read: `te.fill` writes the field, `te.visit` starts a thread beside the record, in whatever order
with the accesses of other nodes (13 R332, R334). -/
def actPosts (q : EngCmd) (fn : Fin 5) (b acc : Word) (f : Fmt) (anch : Bool) (x : Label) (k raddr key : Nat) : List Post :=
  match fn with
  | 3 => let sz := Fmt.size f
    [⟨.put, (List.range sz).map fun i => (key + i, (toBytes sz b.toNat).getD i 0), 0, if isHbm key then [] else [granule key]⟩]
  | 4 =>
    let th := freshTh q.part false (!anch) q.cls b [BitVec.ofNat 64 raddr, acc, BitVec.ofNat 64 k]
    [⟨.visit (servedAt key) ⟨{ th with l := th.l.set 1 x }, false, false⟩, [(key, 0)], 0, []⟩]
  | _ => []

/-- Nodes that have been read are acted on in label order: counted, summed or copied, their children to be walked next; what has been read ahead below a
node that is not walked is dropped (13 R332). -/
def teCommit : Nat → EngCmd → EngCmd
  | 0, q => q
  | fuel + 1, q =>
    match q.body with
    | .te fn root resume compl b acc off f maxd anch n visited skipped ((x, k) :: rest) true =>
      let next (q : EngCmd) (gone : TeNode → Bool) (acc : Word) (visited skipped : Nat) (st : List (Label × Nat)) : EngCmd :=
        teCommit fuel { q.modIO (fun io => { io with nodes := io.nodes.filter fun nd => !gone nd }) with
          body := .te fn root resume compl b acc off f maxd anch n visited skipped st true }
      (match (q.io.nodes.find? fun nd => nd.x == x).bind TeNode.res with
      | some (.gone _) => next q (fun nd => isAnc x nd.x) acc visited (skipped + 1) rest
      | some (.ok _ nx value _) =>
        let ch := if deeper maxd k then childrenFrom x k 0 nx else ([], 0)
        let q := if fn = 2 ∧ visited < n then q.post .put (b.toNat + visited * Fmt.size f) 0 (toBytes (Fmt.size f) value) else q
        next q (fun nd => nd.x == x) (if fn = 0 then sumStep f acc value else acc) (visited + 1) (skipped + ch.2) (ch.1 ++ rest)
      | none => q)
    | _ => q

/-- The completion record (13 R333). -/
def teRecord (q : EngCmd) (fn : Fin 5) (p : Word) (n visited skipped : Nat) : Nat :=
  fieldAt 255 192 skipped + fieldAt 191 128 visited + fieldAt 80 80 (if fn = 2 ∧ n < visited then 1 else 0) + fieldAt 79 64 q.seq
    + (if fn = 0 then p.toNat else visited)

/-- Whether the array of a `te.copy` may still be written in a granule (08 R196). -/
def teReaches (q : EngCmd) (g : Nat) : Bool :=
  match q.body with
  | .te 2 _ _ _ b _ _ f _ _ n visited _ stack started => (!started || !stack.isEmpty) && rangeMeets q.xl g (b.toNat + visited * Fmt.size f) ((n - visited) * Fmt.size f)
  | _ => false

/-- A command after an act: nodes are acted on as far as they have been read, and granules whose last write has been performed are set full. -/
def tePut (s : State) (l : Loc) (q : EngCmd) : State :=
  let q := teCommit (q.io.nodes.length + 1) q
  let r := q.fills.partition fun g => !teReaches q g && !(q.io.posts.any fun p => p.gran == g)
  setHead (fillAll s r.1) l .te { q with fills := r.2 }

/-- Whether a TE command's nodes are all done while its completion record is not yet written whole, which it is before the command stops for a
pre-emption (13 R335; log 53). -/
def atRecord (q : EngCmd) : Bool :=
  !q.finished && match q.body with
    | .te _ _ _ _ _ _ _ _ _ _ _ _ _ stack started => started && stack.isEmpty
    | _ => false

/-- Whether a node read ahead of the walk has already been acted on; the walk then goes on up to it before it stops for a pre-emption (13 R335). -/
def actedAhead (q : EngCmd) : Bool :=
  (q.fn == 3 || q.fn == 4) && q.io.nodes.any fun nd => match nd.res with | some (.ok ..) => true | _ => false

/-- Acts of a running command: a read of a node (of an ancestor of the label it resumes at), a write, a granule of the completion record. -/
inductive TeAct where
  | node (x : Label) (k : Nat) (up : Bool)
  | post (i : Nat)
  | compl
  deriving DecidableEq, Repr

/-- The node reads that may come next: any of the frontier, and under a pre-emption none, or the first where the walk has to go on. -/
def nodeActs (held : Bool) (q : EngCmd) : List TeAct :=
  match q.body with
  | .te fn root resume _ _ _ _ _ maxd _ _ _ _ stack started =>
    if q.io.walk.waits.isSome then []
    else if !started then
      if held then []
      else (((ancestors root resume).filter fun a => !(q.io.nodes.any fun nd => nd.x == a.1 && nd.res.isSome)).take 1).map fun a => .node a.1 a.2.1 true
    else
      let f := frontier fn maxd q.io.nodes 102 stack
      (if held then (if actedAhead q then f.take 1 else []) else f).map fun e => .node e.1 e.2 false
  | _ => []

def teActs (s : State) (l : Loc) (q : EngCmd) : List TeAct :=
  if atRecord q && q.io.posts.isEmpty then [.compl] else nodeActs (engineHeld s l q.part) q ++ (readyPosts q.io.posts).map .post

/-- A running command with its stack, once all ancestors that it needs have been read. -/
def teBegin (q : EngCmd) : EngCmd :=
  match q.body with
  | .te fn root resume compl b acc off f maxd anch n visited skipped _ false =>
    let go (st : List (Label × Nat)) : EngCmd :=
      { q.modIO (fun io => { io with nodes := [] }) with body := .te fn root resume compl b acc off f maxd anch n visited skipped st true }
    if resume = 0 then go [(root, 0)]
    else if (ancestors root resume).all fun a => q.io.nodes.any fun nd => nd.x == a.1 && nd.res.isSome then go (resumeStack root resume q.io.nodes)
    else q
  | _ => q

/-- A node with what its read has given; once it has been read a fault or poison is reported, and its ACT is posted (13 R332). -/
def putNode (s : State) (l : Loc) (q : EngCmd) (nd : TeNode) (up : Bool) : State :=
  let q := q.modIO fun io =>
    { io with nodes := io.nodes.filter (fun n => n.x != nd.x) ++ [nd], walk := if nd.res.isSome then WalkState.none else io.walk }
  match nd.res, q.body with
  | some (.gone true), _ => tePut (imageCheck s .te q) l (teBegin q)
  | some (.ok raddr _ _ key), .te fn _ _ _ b acc _ f _ anch .. =>
    tePut s l (teBegin (if up then q else q.modIO (EngIO.addPosts (actPosts q fn b acc f anch nd.x nd.k raddr key))))
  | _, _ => tePut s l (teBegin q)

/-- One act of a running command (13 R332 to R334). -/
def teAct (s : State) (p : Partition) (l : Loc) (q : EngCmd) : TeAct → State
  | .node x k up =>
    match q.body with
    | .te fn _ _ _ _ _ off f .. =>
      let nd := (q.io.nodes.find? fun n => n.x == x).getD (TeNode.fresh (x, k))
      let step (s : State) : NodeStep × State := nodeStep s p l q.io.walk (if up then 1 else fn) off f nd
      (match step s with
      | (.walk w, t) => setHead (addWalk t l (.engine .te q.seq) q.part w) l .te (q.modIO fun io => { io with walk := io.walk.await w })
      | (.done r, t) => putNode t l q (nd.ends r) up
      | (.access key _, _) => whenTurn s l .te q key fun s => match step s with
        | (.access _ nd, t) => putNode t l q nd up
        | _ => s)
    | _ => s
  | .post i =>
    match q.io.posts[i]? with
    | none => s
    | some ⟨.visit dest a, _, _, _⟩ => (match arrive s dest a with
      | some t => tePut t l (q.modIO (EngIO.dropPost i))
      | none => spoilFull s dest q.part 3)
    | some w => whenTurn s l .te q w.key fun s =>
      let r := putPost s q w
      tePut (checkIf r.2.2 r.1 .te q) l (r.2.1.modIO (EngIO.dropPost i))
  | .compl =>
    match q.body with
    | .te fn _ _ compl _ acc _ _ _ _ n visited skipped .. =>
      let r := toBytes 32 (teRecord q fn acc n visited skipped)
      let va := if q.nextRow = 0 then compl + 16 else compl
      whenTurn s l .te q (xlKey q.xl va) fun s =>
        setHead (putPost s q (putOf q.xl va 0 (bytesAt r (va - compl) 16) (feGranules q.xl va 16))).1 l .te { q with nextRow := 1, finished := q.nextRow != 0 }
    | _ => s

/-- The address of an act. -/
def teKey (s : State) (p : Partition) (l : Loc) (q : EngCmd) : TeAct → Nat
  | .node x k up =>
    match q.body with
    | .te fn _ _ _ _ _ off f .. =>
      (match nodeStep s p l q.io.walk (if up then 1 else fn) off f ((q.io.nodes.find? fun n => n.x == x).getD (TeNode.fresh (x, k))) with
      | (.access key _, _) => key
      | _ => 0)
    | _ => 0
  | .post i => (q.io.posts[i]?.map Post.key).getD 0
  | .compl => 0

/-- At most `n` acts of the running command, in the order that is free; it ends with one that has to wait (13 R334; 10 R249; log 22). -/
def teRun (l : Loc) : Nat → State → State
  | 0, s => s
  | fuel + 1, s =>
    match runnable s l .te with
    | none => s
    | some q =>
      match part? s q.part with
      | none => s
      | some p =>
        let acts := teActs s l q
        let k := pickTurn s (agentOf l .te q) (acts.map (teKey s p l q))
        match acts[k.1]? with
        | none => s
        | some a => let u := teAct k.2 p l q a; if (ticket? u (agentOf l .te q)).isSome then u else teRun l fuel u

def execTeCommandRun (l : Loc) (n : Nat) (s : State) : Out :=
  match runnable s l .te with
  | some q => .next (teRun l n (setHead s l .te (teBegin (startOf s q))))
  | none => .next s

end Sys2Proof.Machine
end

