-- ==== Sys2Proof/Machine/Pages.lean ====
section
/-! DEFINITION. Pages of the page engine: its accesses, page records, the cullet pool and frame stack, segments, coding of tokens, and flash transfers (14 R338 to R349, R355, R356). -/

namespace Sys2Proof.Machine

/-! ## CRC-32C (14 R339) -/

def crcBit (c : BitVec 32) : BitVec 32 := if c.getLsbD 0 then (c >>> 1) ^^^ 0x82F63B78#32 else c >>> 1
def crcByte (c : BitVec 32) (b : Byte) : BitVec 32 := (List.range 8).foldl (fun c _ => crcBit c) (c ^^^ b.setWidth 32)
/-- Castagnoli's CRC with its standard start and end values (log 10). -/
def crc32c (l : List Byte) : Nat := ((l.foldl crcByte (BitVec.allOnes 32)) ^^^ BitVec.allOnes 32).toNat

/-! ## Accesses of a running command (10 R243; 14 R351, R357): a command is a computation whose every access is an act of its own. It is made again from
its start with each act, what it did before being told from its trace. -/

/-- The command whose accesses these are; `cnt` the pages or entries finished so far, `walk` the extents that walks have brought. -/
structure PeCtx where
  p : Partition
  l : Loc
  q : EngCmd
  cnt : Nat
  walk : WalkState

/-- What a computation of the PE changes: the state; what its trace still tells; its trace; whether it may still make an access now; whether it is inside
one act; the granules it has written and not yet set full, and those written whole in poisoned blocks. -/
structure PeSt where
  s : State
  past : List (List Nat)
  trace : List (List Nat)
  left : Bool
  whole : Bool
  fills : List Nat
  half : List Nat

/-- How a computation stops: the command ends with a status and a VALUE, it goes on with its next act, or it needs a walk. -/
inductive PeStop where
  | ended (status value : Nat)
  | pause
  | walk (w : WalkFor)

/-- A computation of the PE. -/
abbrev PeM := ExceptT PeStop (StateM PeSt)

def peGet : PeM State := do pure (← get).s
def peMod (f : State → State) : PeM Unit := modify fun t => { t with s := f t.s }

/-- Something that a command does once: it is done now, or told by the trace. Inside an act nothing is told. -/
def once (m : PeM (List Nat)) : PeM (List Nat) := fun t =>
  if t.whole then m t
  else match t.past with
    | r :: ps => (.ok r, { t with past := ps })
    | [] => match m t with
      | (.ok r, u) => (.ok r, { u with trace := u.trace ++ [r] })
      | (.error e, u) => (.error e, u)

/-- The bank of an address lets the access act now; one access is made at a time. -/
def turn (c : PeCtx) (key : Nat) : PeM Unit := fun t =>
  if t.whole then (.ok (), t)
  else if !t.left then (.error .pause, t)
  else
    let r := agentTurn t.s (agentOf c.l .pe c.q) key
    if r.1 then (.ok (), { t with s := r.2, left := false }) else (.error .pause, { t with s := r.2 })

/-- Accesses that are one act at the place `key` (14 R344, R345). One that ends the command with a status other than MAPFAULT has changed nothing
(14 R351); its machine checks stand. -/
def act (c : PeCtx) (key : Nat) (m : PeM (List Nat)) : PeM (List Nat) := once do
  turn c key
  fun t =>
    let r := m { t with whole := true }
    match r.1 with
    | .ok v => (.ok v, { r.2 with whole := t.whole })
    | .error (.ended 9 v) => (.error (.ended 9 v), { r.2 with whole := t.whole })
    | .error (.ended st v) => (.error (.ended st v), { t with s := { r.2.s with mem := t.s.mem, hostOld := t.s.hostOld, poison := t.s.poison, flash := t.s.flash } })
    | .error e => (.error e, t)

/-- Whether an address lies on a compute die. -/
def onCompute (key : Nat) : Bool := !isAttn (dieOf (servedAt key))

def triples : List Nat → List (Nat × Nat × Nat)
  | a :: b :: c :: r => (a, b, c) :: triples r
  | _ => []

/-- The translation of a structure of a pool when the command reaches it. DESIGN CHOICE: one that the map places on a compute die is a fault like any
other, since no page engine moves a page across a UCIe link (00 R8, 14 R342; log 54). -/
def peRange (c : PeCtx) (k : XKind) (va n : Nat) : PeM (List (Nat × Nat × Nat)) := do
  let r ← once do
    match xlateRange (← peGet) c.p c.l c.walk k 40 va n with
    | .ok xl => if xl.any fun t => onCompute t.2.2 then throw (.ended 9 c.cnt) else do
      peMod fun s => useExtents s c.p c.l (n / 2 ^ 21 + 2) va n
      pure (xl.flatMap fun t => [t.1, t.2.1, t.2.2])
    | .error e => throw (if xlateFor (← peGet) c.p c.l c.walk e.2 1 k false = .miss then .walk (.extent e.2) else .ended 9 c.cnt)
  pure (triples r)

/-- The bytes of a range, read granule by granule. -/
def rdAt (c : PeCtx) (xl : List (Nat × Nat × Nat)) (va n : Nat) : PeM (List Byte) := do
  let bs ← (granAddrs va n).mapM fun g => do
    let r := partIn va n g
    let v ← once do
      turn c (xlKey xl r.1)
      let b := engRead (← peGet) xl r.1 r.2
      peMod fun s => checkIf b.2 s .pe c.q
      pure [ofBytes b.1]
    pure (toBytes r.2 (v.headD 0))
  pure bs.flatten

/-- Bytes written granule by granule. -/
def putAt (c : PeCtx) (xl : List (Nat × Nat × Nat)) (va : Nat) (b : List Byte) (fill : Bool) : PeM Unit :=
  (granAddrs va b.length).forM fun g => do
    let r := partIn va b.length g
    let _ ← once do
      turn c (xlKey xl r.1)
      modify fun t =>
        let w := putPost t.s { c.q with io := { c.q.io with half := t.half } }
          (putOf xl r.1 0 (bytesAt b (r.1 - va) r.2) (if fill then feGranules xl r.1 r.2 else []))
        { t with s := checkIf w.2.2 w.1 .pe c.q, half := w.2.1.io.half }
      pure []

/-- A write whose LM and slice granules are set full when the command has written its last byte to them, at its end (08 R196). -/
def wrAt (c : PeCtx) (xl : List (Nat × Nat × Nat)) (va : Nat) (b : List Byte) : PeM Unit := do
  putAt c xl va b false
  modify fun t => { t with fills := nubNat (t.fills ++ feGranules xl va b.length) }

def peRd (c : PeCtx) (va n : Nat) : PeM (List Byte) := do rdAt c (← peRange c .read va n) va n
def peWr (c : PeCtx) (va : Nat) (b : List Byte) : PeM Unit := do wrAt c (← peRange c .write va b.length) va b

/-- The ranges that operands name, by the translations held since issue (07 R181, 14 R350). -/
def opRd (c : PeCtx) (va n : Nat) : PeM (List Byte) := rdAt c c.q.xl va n

/-- A write to an operand's range, whose granules the command writes once. -/
def opWr (c : PeCtx) (va : Nat) (b : List Byte) : PeM Unit := putAt c c.q.xl va b true

/-- The place of an address that the command reaches. -/
def peKey (c : PeCtx) (va : Nat) : PeM Nat := do pure (xlKey (← peRange c .read va 1) va)

def peNum (c : PeCtx) (va n : Nat) : PeM Nat := do pure (ofBytes (← peRd c va n))
def pePut (c : PeCtx) (va n v : Nat) : PeM Unit := peWr c va (toBytes n v)

/-- Bits [hi : lo] of a number, and the number with them replaced. -/
def getBits (n hi lo : Nat) : Nat := n / 2 ^ lo % 2 ^ (hi + 1 - lo)
def putBits (n hi lo v : Nat) : Nat := n - getBits n hi lo * 2 ^ lo + fieldAt hi lo v

/-! ## Pools and page records (14 R342, R345, R346) -/

structure Pool where
  va : Nat
  slot0 : Nat
  ndm1 : Nat
  po : Nat
  fstack : Nat
  sumbase : Nat
  prbase : Nat
  framebase : Nat

/-- The bits of a record that its layout reserves are zero (00 R16). -/
def bitsClear (n : Nat) (l : List (Nat × Nat)) : Bool := l.all fun r => getBits n r.1 r.2 == 0

/-- The reserved fields of a pool descriptor and of a page record. -/
def poolReserved : List (Nat × Nat) :=
  [(1023, 800), (383, 381), (335, 331), (327, 325), (319, 312), (287, 280), (255, 248), (191, 184), (127, 120), (63, 56)]
def pageReserved : List (Nat × Nat) := [(203, 200), (175, 160), (111, 96), (50, 0)]

/-- A pool descriptor; one with a reserved field set ends the command with SEGSTATE (00 R16, 14 R351). -/
def poolRd (c : PeCtx) (va : Nat) : PeM Pool := do
  let n ← peNum c va 128
  if !bitsClear n poolReserved then throw (.ended 4 c.cnt)
  pure ⟨va, getBits n 380 336, getBits n 330 328, getBits n 324 320, getBits n 247 192, getBits n 183 128, getBits n 119 64, getBits n 55 0⟩

def none24 : Nat := 0xFFFFFF
def none32 : Nat := 0xFFFFFFFF

/-- Page states (14 R346). -/
def pFREE : Nat := 0
def pRESERVED : Nat := 1
def pOPEN : Nat := 2
def pSEALED : Nat := 3
def pONFLASH : Nat := 4
def pLOADING : Nat := 5
def pWRITING : Nat := 6

def recVa (w : Pool) (p : Nat) : Nat := w.prbase + 32 * p

/-- A page record, read in one act (14 R345); one with a reserved field set ends the command with SEGSTATE (00 R16, 14 R351). -/
def recRd (c : PeCtx) (w : Pool) (p : Nat) : PeM Nat := do
  let r ← act c (← peKey c (recVa w p)) do
    let n ← peNum c (recVa w p) 32
    if bitsClear n pageReserved then pure [n] else throw (.ended 4 c.cnt)
  pure (r.headD 0)

def rNextf (n : Nat) : Nat := getBits n 255 232
def rPrevf (n : Nat) : Nat := getBits n 231 208
def rOrd (n : Nat) : Nat := getBits n 207 204
def rFrame (n : Nat) : Nat := getBits n 199 176
def rRef (n : Nat) : Nat := getBits n 95 64
def rNtok (n : Nat) : Nat := getBits n 63 57
def rState (n : Nat) : Nat := getBits n 56 54
def rNovf (n : Nat) : Nat := getBits n 53 51

def wNextf (n v : Nat) : Nat := putBits n 255 232 v
def wPrevf (n v : Nat) : Nat := putBits n 231 208 v
def wOrd (n v : Nat) : Nat := putBits n 207 204 v
def wFrame (n v : Nat) : Nat := putBits n 199 176 v
def wFlasha (n v : Nat) : Nat := putBits n 159 112 v
def wRef (n v : Nat) : Nat := putBits n 95 64 v
def wNtok (n v : Nat) : Nat := putBits n 63 57 v
def wState (n v : Nat) : Nat := putBits n 56 54 v
def wNovf (n v : Nat) : Nat := putBits n 53 51 v

/-- A record changed in one act at its home slice; answers what it was (14 R345). -/
def modRec (c : PeCtx) (w : Pool) (p : Nat) (f : Nat → Nat) : PeM Nat := do
  let r ← act c (← peKey c (recVa w p)) do
    let n ← recRd c w p
    pePut c (recVa w p) 32 (f n)
    pure [n]
  pure (r.headD 0)

def setRec (c : PeCtx) (w : Pool) (p : Nat) (f : Nat → Nat) : PeM Unit := do let _ ← modRec c w p f

/-! ## The cullet pool and the frame stack (14 R342, R344): each act holds the descriptor's first granule -/

def freeVa (w : Pool) (o : Nat) : Nat := w.va + 48 + 4 * o
def headRd (c : PeCtx) (w : Pool) (o : Nat) : PeM Nat := peNum c (freeVa w o) 4
def headWr (c : PeCtx) (w : Pool) (o v : Nat) : PeM Unit := pePut c (freeVa w o) 4 v

def linkBlock (c : PeCtx) (w : Pool) (p o : Nat) : PeM Unit := do
  let h ← headRd c w o
  setRec c w p fun n => wOrd (wPrevf (wNextf n (if h = none32 then none24 else h)) none24) o
  if h ≠ none32 then setRec c w h fun n => wPrevf n p
  headWr c w o p

def unlinkBlock (c : PeCtx) (w : Pool) (p o : Nat) : PeM Unit := do
  let n ← recRd c w p
  if rPrevf n = none24 then headWr c w o (if rNextf n = none24 then none32 else rNextf n)
  else setRec c w (rPrevf n) fun m => wNextf m (rNextf n)
  if rNextf n ≠ none24 then setRec c w (rNextf n) fun m => wPrevf m (rPrevf n)
  setRec c w p fun m => wOrd m 15

/-- The lowest order from `o` on whose list is not empty, and its head; `fuel` orders are looked at. -/
def lowestList (c : PeCtx) (w : Pool) : Nat → Nat → PeM (Option (Nat × Nat))
  | 0, _ => pure none
  | fuel + 1, o => do
    let h ← headRd c w o
    if h ≠ none32 then pure (some (o, h)) else lowestList c w fuel (o + 1)

/-- Halves a block of order `k` down to order `o`, each upper half going to the head of its list. -/
def halve (c : PeCtx) (w : Pool) (p o : Nat) : Nat → PeM Unit
  | 0 => pure ()
  | k + 1 => do
    if o < k + 1 then
      linkBlock c w (p + 2 ^ k) k
      halve c w p o k

/-- Allocates a block of order `o`; NOSPACE where there is none. -/
def allocIn (c : PeCtx) (w : Pool) (o : Nat) : PeM Nat := do
  match ← lowestList c w (13 - o) o with
  | none => throw (.ended 2 0)
  | some (k, h) => do
    unlinkBlock c w h k
    halve c w h o k
    pure h

/-- Frees page `p` at order `o`, merging with free buddies. -/
def freeIn (c : PeCtx) (w : Pool) : Nat → Nat → Nat → PeM Unit
  | 0, p, o => linkBlock c w p o
  | fuel + 1, p, o => do
    if o < 12 then
      let b := p ^^^ 2 ^ o
      if rOrd (← recRd c w b) = o then
        unlinkBlock c w b o
        freeIn c w fuel (min p b) (o + 1)
      else linkBlock c w p o
    else linkBlock c w p o

/-- An act under the lock of a pool. -/
def poolAct (c : PeCtx) (w : Pool) (m : PeM (List Nat)) : PeM (List Nat) := do act c (← peKey c w.va) m

def allocBlock (c : PeCtx) (w : Pool) (o : Nat) : PeM Nat := do pure ((← poolAct c w do pure [← allocIn c w o]).headD 0)
def freeBlock (c : PeCtx) (w : Pool) (p o : Nat) : PeM Unit := do
  let _ ← poolAct c w do
    freeIn c w 13 p o
    pure []

def ftopRd (c : PeCtx) (w : Pool) : PeM Nat := peNum c (w.va + 36) 3
def ftopWr (c : PeCtx) (w : Pool) (v : Nat) : PeM Unit := pePut c (w.va + 36) 3 v

/-- Takes a frame from the top of the stack; NOFRAME where it is empty. -/
def popIn (c : PeCtx) (w : Pool) : PeM Nat := do
  let t ← ftopRd c w
  if t = 0 then throw (.ended 3 0)
  let f ← peNum c (w.fstack + 4 * (t - 1)) 4
  ftopWr c w (t - 1)
  pure f

def popFrame (c : PeCtx) (w : Pool) : PeM Nat := do pure ((← poolAct c w do pure [← popIn c w]).headD 0)
def pushFrame (c : PeCtx) (w : Pool) (f : Nat) : PeM Unit := do
  let _ ← poolAct c w do
    let t ← ftopRd c w
    pePut c (w.fstack + 4 * t) 4 f
    ftopWr c w (t + 1)
    pure []

/-- A page is freed: its frame, if any, is pushed and it is freed at order 0 (14 R346); `n` is its record before it became FREE. -/
def releasePage (c : PeCtx) (w : Pool) (p n : Nat) : PeM Unit := do
  if rFrame n ≠ none24 then pushFrame c w (rFrame n)
  freeBlock c w p 0

/-- A record as that of a FREE page. -/
def asFree (n : Nat) : Nat := wRef (wFrame (wState n pFREE) none24) 0

/-- Whether a page's transfer is under way, at whose end it is freed. -/
def inTransfer (n : Nat) : Bool := rState n == pWRITING || rState n == pLOADING

/-- REF falls by 1; a page that reaches 0 is freed now, or when its transfer ends. Answers whether it reached 0. -/
def derefPage (c : PeCtx) (w : Pool) (p : Nat) : PeM Bool := do
  let n ← modRec c w p fun n => if rRef n = 1 ∧ !inTransfer n then asFree n else wRef n (rRef n - 1)
  if rRef n = 1 ∧ !inTransfer n then releasePage c w p n
  pure (rRef n == 1)

/-! ## Frames, headers and summaries (14 R338, R339, R343) -/

def pageBytes : Nat := 18432
def frameVa (w : Pool) (f : Nat) : Nat := w.framebase + pageBytes * f
def pageVa (c : PeCtx) (w : Pool) (p : Nat) : PeM Nat := do pure (frameVa w (rFrame (← recRd c w p)))

/-- The FP16 lanes of a byte list. -/
def halves (n : Nat) (l : List Byte) : List Nat := (List.range n).map fun i => ofBytes (bytesAt l (2 * i) 2)
def halfBytes (l : List Nat) : List Byte := l.flatMap (toBytes 2)

/-- The summary of a page with no token. -/
def noSummary : List Nat := List.replicate 128 0x7C00 ++ List.replicate 128 0xFC00

/-- A stored key channel lowers the minimum and raises the maximum. DESIGN CHOICE: one stored as NaN, under the scale 0xFF, changes neither (02 R55,
14 R343; log 60). -/
def sumAdd (s : List Nat) (ks : List FpVal) : List Nat :=
  (List.range 128).map (fun i => match ks[i]? with
      | some k => fpMinMax fp16 false (s.getD i 0) (roundVal fp16 .rdn k).1
      | none => s.getD i 0)
    ++ (List.range 128).map fun i => match ks[i]? with
      | some k => fpMinMax fp16 true (s.getD (128 + i) 0) (roundVal fp16 .rup k).1
      | none => s.getD (128 + i) 0

def sumRd (c : PeCtx) (w : Pool) (p : Nat) : PeM (List Nat) := do pure (halves 256 (← peRd c (w.sumbase + 512 * p) 512))
def sumWr (c : PeCtx) (w : Pool) (p : Nat) (l : List Nat) : PeM Unit := peWr c (w.sumbase + 512 * p) (halfBytes l)

/-- A page becomes a tail, or a copy, with the frame given: its record, its header and reserved bytes, its summary (14 R338, R339, R343, R346). -/
def openPage (c : PeCtx) (w : Pool) (sp : Spare) : PeM Unit := do
  setRec c w sp.page fun n => wNovf (wState (wNtok (wRef (wFrame n sp.frame) 1) 0) pOPEN) 0
  peWr c (frameVa w sp.frame) (toBytes 64 (fieldAt 183 160 sp.page + fieldAt 55 48 1))
  peWr c (frameVa w sp.frame + 17472) (List.replicate 960 0)
  sumWr c w sp.page noSummary

/-! ## Segments (14 R347, R348) -/

/-- An extent: STRIDE, LEN, BASE. -/
structure PExt where
  stride : Nat
  len : Nat
  base : Nat
  deriving DecidableEq, Repr

structure Seg where
  va : Nat
  pool : Nat
  next : Nat
  ntok : Nat
  tailp : Nat
  resv : PExt
  exts : List PExt
  rsvd : Bool
  deriving DecidableEq, Repr

def extOf (n : Nat) : PExt := ⟨getBits n 47 40, getBits n 36 24, getBits n 23 0⟩
def extNum (e : PExt) : Nat := fieldAt 47 40 e.stride + fieldAt 36 24 e.len + fieldAt 23 0 e.base
def extRsvd (n : Nat) : Bool := getBits n 63 48 != 0 || getBits n 39 37 != 0
def strideBad (e : PExt) : Bool := e.stride == 0 || 8 < e.stride

/-- The translation of a segment record: held since issue, or made at run for a sibling of `pg.ext` (14 R350, R352). -/
def segXl (c : PeCtx) (k : XKind) (va : Nat) : PeM (List (Nat × Nat × Nat)) :=
  if (xlFind c.q.xl (va + 16)).isSome && (xlFind c.q.xl (va + 111)).isSome then pure c.q.xl else peRange c k (va + 16) 96

def segRd (c : PeCtx) (va : Nat) : PeM Seg := do
  let n := ofBytes (← rdAt c (← segXl c .read va) (va + 16) 96)
  let w (i : Nat) : Nat := getBits n (64 * i + 63) (64 * i)
  let es := (List.range 8).map fun i => w (4 + i)
  pure ⟨va, w 0, getBits (w 1) 35 32, getBits (w 1) 31 0, getBits (w 2) 23 0, extOf (w 3), es.map extOf,
    getBits (w 1) 63 36 != 0 || getBits (w 2) 63 24 != 0 || (w 3 :: es).any extRsvd || 8 < getBits (w 1) 35 32⟩

def segWr (c : PeCtx) (g : Seg) : PeM Unit := do
  wrAt c (← segXl c .write g.va) (g.va + 16) (toBytes 8 g.pool ++ toBytes 8 (fieldAt 35 32 g.next + g.ntok) ++ toBytes 8 g.tailp ++ toBytes 8 (extNum g.resv)
    ++ g.exts.flatMap fun e => toBytes 8 (extNum e))

/-- SEGSTATE for a segment that a command reads (14 R348, R351). -/
def segBad (g : Seg) : Bool := g.rsvd || g.pool == 0 || (g.exts.take g.next).any strideBad || strideBad g.resv

def segUse (c : PeCtx) (va : Nat) : PeM Seg := do
  let g ← segRd c va
  if segBad g then throw (.ended 4 c.cnt) else pure g

def extPages (e : PExt) : List Nat := (List.range e.len).map fun i => e.base + i * e.stride

/-- The page order (14 R348). -/
def pageOrder (g : Seg) : List Nat := (g.exts.take g.next).flatMap extPages ++ (if g.tailp = none24 then [] else [g.tailp])

def segEmpty (g : Seg) : Bool := g.ntok == 0 && g.next == 0 && g.tailp == none24 && g.resv.len == 0

/-- RANGE where a page number is beyond the pool, SEGSTATE where a page's record has a reserved field set (14 R351, 00 R16). -/
def inPool (c : PeCtx) (w : Pool) (ps : List Nat) : PeM Unit := do
  if !(ps.all fun p => p < 2 ^ w.po) then throw (.ended 5 0)
  for p in ps do
    let _ ← recRd c w p

/-- NEWTAIL and NEWPAGE up to the page's use: the first page of RESV, else an order-0 allocation, with a frame popped; NOSPACE and NOFRAME change
nothing. The page keeps its STATE until it becomes a tail or a copy (14 R346). Answers the page and the segment, whose RESV is written back. -/
def takePage (c : PeCtx) (w : Pool) (g : Seg) : PeM (Spare × Seg) := do
  if g.resv.len ≠ 0 then
    inPool c w [g.resv.base]
    let f ← popFrame c w
    let h := { g with resv := { g.resv with base := (g.resv.base + g.resv.stride) % 2 ^ 24, len := g.resv.len - 1 } }
    segWr c h
    pure (⟨g.resv.base, f, true⟩, h)
  else
    let r ← poolAct c w do
      let p ← allocIn c w 0
      pure [p, ← popIn c w]
    pure (⟨r.headD 0, r.getD 1 0, false⟩, g)

/-- A page taken ahead returns to RESV's head or to the cullet pool, and its frame to the stack. -/
def giveBack (c : PeCtx) (w : Pool) (g : Seg) (sp : Spare) : PeM Seg := do
  pushFrame c w sp.frame
  if sp.resv then
    let g := { g with resv := { g.resv with base := sp.page, len := g.resv.len + 1 } }
    segWr c g
    pure g
  else
    freeBlock c w sp.page 0
    pure g

/-- Retiring a tail: the segment with it in its extents; none where that would be a ninth extent. -/
def retire (g : Seg) (t : Nat) : Option Seg :=
  let fresh : Option Seg := if g.next < 8 then some { g with exts := g.exts.set g.next ⟨g.resv.stride, 1, t⟩, next := g.next + 1 } else none
  match (if g.next = 0 then none else g.exts[g.next - 1]?) with
  | some e => if e.base + e.len * e.stride = t ∧ e.len < 4096 then some { g with exts := g.exts.set (g.next - 1) { e with len := e.len + 1 } } else fresh
  | none => fresh

/-! ## Tokens (14 R340, R341) -/

/-- A channel before coding: NaN becomes +0 and ±∞ becomes ±65,504; whether it was changed. -/
def fixChannel (n : Nat) : Nat × Bool :=
  match fp16.val n with
  | .nan => (0, true)
  | .inf s => (fp16.sgn s fp16.maxPat, true)
  | _ => (n, false)

/-- The scale of a block of 32 channels. -/
def blockScale (xs : List Nat) : Nat :=
  (((List.range 155).map fun (i : Nat) => i + 100).find? fun (e : Nat) => xs.all fun x =>
    decide ((fp16.val (x % 2 ^ 15)).cmp (.fin false 127 ((e : Int) - 127)) ≤ 0)).getD 254

/-- The code of a channel under a scale; under a scale that is a NaN every code is 0 (02 R55). -/
def codeChannel (e x : Nat) : Int :=
  match fp16.val x, e8Val e with
  | .fin n m k, .fin _ _ t => (roundInt .rne n m (k - t)).1
  | _, _ => 0

/-- The codes of one side of a token: `sc` its four scales. -/
def codeSide (sc xs : List Nat) : List Int := xs.mapIdx fun i x => codeChannel (sc.getD (i / 32) 0) x
def exceeds (q : List Int) : Bool := q.any fun v => v < -127 || 127 < v

/-- The scales a token fixes: four blocks of each side. -/
def tokenScales (xs : List Nat) : List Nat := (List.range 8).map fun b => blockScale ((xs.drop (32 * b)).take 32)

/-- The key channels as stored: code times scale, a NaN under the scale 0xFF (02 R55). -/
def storedKeys (sc : List Nat) (codes : List Int) : List FpVal := codes.mapIdx fun i q => (ofInt q).mul (e8Val (sc.getD (i / 32) 0))

/-- The number of overflow rows that a token needs in a page with scales `sc`. -/
def rowsNeeded (sc xs : List Nat) : Nat :=
  (if exceeds (codeSide sc (xs.take 128)) then 1 else 0) + (if exceeds (codeSide (sc.drop 4) (xs.drop 128)) then 1 else 0)

def headRec (c : PeCtx) (va : Nat) : PeM Nat := peNum c va 64
def scalesOf (hd : Nat) : List Nat := (List.range 8).map fun b => getBits hd (71 + 8 * b) (64 + 8 * b)

/-- Sealing: SEALED, then CHECK (14 R341). -/
def sealPage (c : PeCtx) (w : Pool) (t : Nat) : PeM Unit := do
  let va ← pageVa c w t
  let hd ← peNum c va 16
  pePut c va 16 (putBits hd 43 43 1)
  let b ← peRd c (va + 4) (pageBytes - 4)
  pePut c va 4 (crc32c b)
  setRec c w t fun n => wState n pSEALED

/-- The granules of a header that hold fields, the one with NTOK last (14 R341). -/
def putHead (c : PeCtx) (va hd : Nat) : PeM Unit := do
  pePut c (va + 16) 16 (hd / 2 ^ 128)
  pePut c va 16 hd

/-- One side of WRITE_TOKEN: its body bytes, or zeros and the next overflow row. Answers the header. -/
def writeSide (c : PeCtx) (va hd n side : Nat) (sc xs : List Nat) : PeM Nat := do
  let q := codeSide sc xs
  let at_ := va + 64 + 256 * n + 128 * side
  if exceeds q then
    let v := getBits hd 42 40
    peWr c (va + 16448 + 256 * v) (halfBytes xs)
    peWr c at_ (List.replicate 128 0)
    pure (putBits (putBits hd (135 + 8 * v) (128 + 8 * v) (128 + 64 * side + n)) 42 40 (v + 1))
  else
    peWr c at_ (q.map fun i => BitVec.ofInt 8 i)
    pure hd

/-- WRITE_TOKEN(t, n): body, overflow rows, summary, and the header last; the 64th token seals the page (14 R340, R341, R343). -/
def writeToken (c : PeCtx) (w : Pool) (t n : Nat) (xs : List Nat) : PeM Unit := do
  let va ← pageVa c w t
  let hd ← headRec c va
  let sc := if n = 0 then tokenScales xs else scalesOf hd
  let hd := if n = 0 then putBits hd 127 64 (ofBytes (sc.map fun v => BitVec.ofNat 8 v)) else hd
  let hd ← writeSide c va hd n 0 sc (xs.take 128)
  let hd ← writeSide c va hd n 1 (sc.drop 4) (xs.drop 128)
  let kq := codeSide sc (xs.take 128)
  let ks := if exceeds kq then (xs.take 128).map fp16.val else storedKeys sc kq
  sumWr c w t (sumAdd (← sumRd c w t) ks)
  setRec c w t fun r => wNovf (wNtok r (n + 1)) (getBits hd 42 40)
  putHead c va (putBits hd 38 32 (n + 1))
  if n + 1 = 64 then sealPage c w t

/-- The stored keys of token `j` of a page, from its header, body codes and overflow rows. -/
def keysOf (hd : Nat) (body : List Byte) (rows : List (List Byte)) (j : Nat) : List FpVal :=
  match (List.range 4).find? fun v => getBits hd (135 + 8 * v) (128 + 8 * v) == 128 + j with
  | some v => (halves 128 (rows.getD v [])).map fp16.val
  | none => storedKeys (scalesOf hd) ((List.range 128).map fun i => sintOf 8 ((body.getD (256 * j + i) 0).toNat))

/-- Copy-on-write: tokens 0 to n − 1 of t, their scales and overflow rows, into the open page d; its summary is computed anew (14 R343, R352). -/
def copyTokens (c : PeCtx) (w : Pool) (t d n : Nat) : PeM Unit := do
  let sv ← pageVa c w t
  let dv ← pageVa c w d
  if n ≠ 0 then
    let hd ← headRec c sv
    let body ← peRd c (sv + 64) (256 * n)
    let use := (List.range (getBits hd 42 40)).filter fun v =>
      let b := getBits hd (135 + 8 * v) (128 + 8 * v)
      128 ≤ b && b % 64 < n
    let rows ← (List.range 4).mapM fun v => if use.contains v then peRd c (sv + 16448 + 256 * v) 256 else pure []
    let hd1 := putBits (putBits (putBits (fieldAt 183 160 d + fieldAt 55 48 1) 127 64 (getBits hd 127 64)) 42 40 use.length) 38 32 n
    let hd1 := (use.mapIdx fun i v => (i, v)).foldl (fun h iv =>
      putBits h (135 + 8 * iv.1) (128 + 8 * iv.1) (getBits hd (135 + 8 * iv.2) (128 + 8 * iv.2))) hd1
    peWr c (dv + 64) body
    (use.mapIdx fun i v => (i, v)).forM fun iv => peWr c (dv + 16448 + 256 * iv.1) (rows.getD iv.2 [])
    sumWr c w d ((List.range n).foldl (fun s j => sumAdd s (keysOf hd body rows j)) noSummary)
    setRec c w d fun r => wNovf (wNtok r n) use.length
    putHead c dv hd1

/-! ## Flash (14 R342, R346, R355, R356) -/

def driveOf (w : Pool) (p : Nat) : Nat := p % (w.ndm1 + 1)
def slotOf_ (w : Pool) (p : Nat) : Nat := w.slot0 + p / (w.ndm1 + 1)

/-- The home slice of a page's record, whose queue pair for the page's drive carries its transfers (14 R356). -/
def recHome (c : PeCtx) (w : Pool) (p : Nat) : PeM Loc := do
  let xl ← peRange c .read (recVa w p) 32
  pure (servedAt ((xlFind xl (recVa w p)).getD 0))

/-- Whether a queue pair, of depth 64, has room for a further command (08 R217). -/
def pairRoom (s : State) (home : Loc) (drive : Nat) : Bool := (s.flash.filter fun f => f.home == home && f.drive == drive).length < 64

/-- Starts a transfer through the queue pair of the page's home slice; while that is full it waits. -/
def addFlash (c : PeCtx) (w : Pool) (p frame : Nat) (write : Bool) : PeM Unit := do
  let home ← recHome c w p
  if !pairRoom (← peGet) home (driveOf w p) then throw .pause
  peMod fun s =>
    { (newId s).2 with flash := s.flash ++ [⟨s.nextId, home, write, c.p.pid, c.l, w.va, p, frame, driveOf w p, slotOf_ w p, false⟩] }

/-- Starts the read of an ONFLASH page inside an act, with a frame popped; NOFRAME where there is none. -/
def startRead (c : PeCtx) (w : Pool) (p : Nat) : PeM Unit := do
  let f ← popIn c w
  setRec c w p fun n => wFrame (wState n pLOADING) f
  addFlash c w p f false

/-- Whether a drive is present and holds the slot (08 R216). -/
def driveHas (s : State) (d drive slot : Nat) : Bool := s.drives.any fun t => t.1 == d && t.2.1 == drive && slot < t.2.2

/-- A transfer of a page in flight. -/
def inFlight (s : State) (pid pool p : Nat) : Option Flash := s.flash.find? fun f => f.pid == pid && f.pool == pool && f.page == p

/-- Tells the commands that wait for a page's transfer how it ended. -/
def wakeFlash (s : State) (pid pool p res : Nat) : State :=
  { s with cores := s.cores.map fun e => (e.1, { e.2 with peq := e.2.peq.map fun q =>
      match q.body with
      | .pe fn seg seg2 a0 a1 compl bval imm n done status value root (.flash pool' p' none) =>
        if q.part = pid ∧ p' = p ∧ pool' = pool then { q with body := .pe fn seg seg2 a0 a1 compl bval imm n done status value root (.flash pool p (some res)) } else q
      | _ => q }) }

/-- A page whose REF reached 0 during the transfer is freed at its end (14 R346). -/
def endTransfer (c : PeCtx) (w : Pool) (p : Nat) : PeM Unit := do
  let n ← recRd c w p
  if rRef n = 0 then
    setRec c w p asFree
    releasePage c w p n

/-- The drive's data fill a frame, whose data errors they replace. -/
def fillFrame (c : PeCtx) (va : Nat) (data : List Byte) : PeM Unit := do
  let xl ← peRange c .write va data.length
  peMod fun s => xl.foldl (fun s t =>
    let u := writeSeen s c.p.pid t.2.2 (bytesAt data (t.1 - va) t.2.1)
    { u with poison := u.poison.filter fun k => !(decide (t.2.2 ≤ k) && decide (k < t.2.2 + t.2.1)) }) s

/-- The end of a read: the frame is filled and verified, and the page SEALED; or it is ONFLASH again. Answers the status. DESIGN CHOICE: a read that fails
its status, CHECK or PAGENO leaves in the popped frame what it held before, since R355 does not say what stays there (log 60). -/
def endRead (c : PeCtx) (f : Flash) (good : Bool) : PeM Nat := do
  let w ← poolRd c f.pool
  let key := flashKey (dieOf f.home) f.drive f.slot
  let data := (← peGet).mem.readN key pageBytes
  let ok := good && crc32c (data.drop 4) == ofBytes (data.take 4) && ofBytes (bytesAt data 20 3) == f.page
  if ok then
    fillFrame c (frameVa w f.frame) data
    setRec c w f.page fun n => wState n pSEALED
  else
    setRec c w f.page fun n => wFrame (wState n pONFLASH) none24
    pushFrame c w f.frame
  endTransfer c w f.page
  pure (if ok then 0 else 6)

/-- Whether a load has a page in hand, which it has then found WRITING if the page is being written (14 R352). -/
def loadHas (s : State) (pid pool page : Nat) : Bool :=
  s.cores.any fun e => e.2.peq.any fun q => q.part == pid && match q.body with
    | .pe _ _ _ _ _ _ _ _ _ _ _ _ _ (.page (some src) _) => src.1 == pool && src.2.1 == page
    | _ => false

/-- The end of a write. -/
def endWrite (c : PeCtx) (f : Flash) (good : Bool) : PeM Nat := do
  let w ← poolRd c f.pool
  let cancel := f.cancel || loadHas (← peGet) f.pid f.pool f.page
  if good then
    let data ← peRd c (frameVa w f.frame) pageBytes
    peMod fun s => writeSeen s f.pid (flashKey (dieOf f.home) f.drive f.slot) (data ++ List.replicate 2048 0)
  if good && !cancel then
    setRec c w f.page fun n => wFlasha (wFrame (wState n pONFLASH) none24) (f.drive * 2 ^ 45 + f.slot)
    pushFrame c w f.frame
  else setRec c w f.page fun n => wState n pSEALED
  endTransfer c w f.page
  pure (if cancel then 8 else if good then 0 else 6)

/-- The image of a transfer that no command waits for any more. -/
def flashCmd (f : Flash) : EngCmd :=
  ⟨0, 7, 0, 0, f.pid, 0, .rne, none, none, none, [], [], 0, false, false, [], EngIO.none, .pe 7 0 0 0 0 0 0 0 0 0 0 0 0 .fresh⟩

/-- Whether a command waits for a transfer. -/
def waitsFor (f : Flash) (q : EngCmd) : Bool :=
  q.part == f.pid && match q.body with
    | .pe _ _ _ _ _ _ _ _ _ _ _ _ _ (.flash pool page none) => pool == f.pool && page == f.page
    | _ => false

/-- The command whose transfer it is: the one of its core that waits for it, else another that does (14 R357). DESIGN CHOICE: with none left its image
names no segment and no SEQ (log 54). -/
def cmdOfFlash (s : State) (f : Flash) : EngCmd :=
  ((core s f.loc).peq ++ s.cores.flatMap fun c => c.2.peq).find? (waitsFor f) |>.getD (flashCmd f)

/-- A transfer ends. An NVMe status other than success is counted (16 R385). -/
def flashEnd (s : State) (id : Nat) (ok write : Bool) : State :=
  match s.flash.find? fun f => f.id == id && f.write == write with
  | none => s
  | some f =>
    let t := { s with flash := s.flash.filter fun g => g.id != id }
    match part? s f.pid with
    | none => t
    | some p =>
      let good := ok && driveHas s (dieOf f.home) f.drive f.slot
      let t := if good then t else countPhys t (dieOf f.home) 6 1
      let c : PeCtx := ⟨p, f.loc, cmdOfFlash s f, 0, mapWalk s (dieOf f.home) f.pid⟩
      let r := (if write then endWrite c f good else endRead c f good).run.run ⟨t, [], [], false, true, [], []⟩
      let u := fillAll r.2.s r.2.fills
      match r.1 with
      | .ok res => wakeFlash u f.pid f.pool f.page res
      | .error (.ended st _) => wakeFlash u f.pid f.pool f.page st
      | .error _ => wakeFlash u f.pid f.pool f.page 9

def execNvmeWriteComplete (id : Nat) (ok : Bool) (s : State) : Out := .next (flashEnd s id ok true)
def execNvmeReadComplete (id : Nat) (ok : Bool) (s : State) : Out := .next (flashEnd s id ok false)

end Sys2Proof.Machine
end

