-- ==== Sys2Proof/Machine/Attention.lean ====
section
/-! DEFINITION. PG commands at issue and the acts of the page engine (14 R349 to R357). -/

namespace Sys2Proof.Machine

/-! ## Issue (14 R350) -/

/-- A label that names a segment: rebased through FORWARD entries and translated, with every fault precise; `f` takes the state in which that has been
done, the rebased label and the record's address. `views` where a VIEW entry may serve it, `k` the command's use of the record. -/
def segAt (s : State) (x : Cur) (r : LReg) (views : Bool) (k : XKind) (f : State → Label → Nat → Eff) : Eff :=
  let v := readL s x r
  match lFault v with
  | some n => lFormat r n
  | none =>
    match rebase (setFor s x) true v with
    | .need tid => .wait (startLabelWalk x tid)
    | .depth => (Eff.trap cLDEPTH 1 0).trapOn (rebaseUse s x true 51 v) x
    | .ok y =>
      translating (rebaseUse s x true 51 v) x false y fun s t =>
        match t, part? s (me s x).part with
        | .stale e, _ => staleEff r e
        | .noNode d, _ => .trap cNONODE d 0
        | .ok _ _, none => .trap cTRANSLATION 0 0
        | .ok e b, some p =>
          if e.view && !views then .trap cPERMISSION 3 0
          else
            let q := lookup s p x.loc (me s x).walk .read b e.dbase e.dsize
            match q.1 with
            | .miss va => .wait (startWalk x va)
            | .absent => (Eff.trap cNONODE 2 0).trapOn q.2 x
            | .fault c va => (Eff.trap c 0 va).trapOn q.2 x
            | .found raddr _ =>
              match recordKey q.2 p x.loc (me s x).walk raddr 16 k with
              | .trap cause d => (Eff.trap cause d raddr).trapOn q.2 x
              | .miss => .wait (startWalk x raddr)
              | .ok _ => f q.2 y raddr

def segNeed (raddr : Nat) (k : XKind) : Need := (raddr, 112, k)

/-- What the forms share at issue: the release first, so that records and directories are read after the thread's earlier accesses (10 R249). -/
def pgCommand (s : State) (x : Cur) (fn : Nat) (g : Option GPfx) (dv : Word) (a : LReg) (views : Bool) (k : XKind) (bad : Bool) (needs : List Need)
    (prep : State → State) (body : Nat → Label → Nat → EngBody) : Eff :=
  let cv := dv.toNat
  release s x (
    if bad || !complOk cv then .trap cPARAM 0 0
    else segAt s x a views k fun s y raddr =>
      commandWith s x .pe fn g [] (.ok (segNeed raddr k :: needs ++ complNeed cv 16, body cv y raddr)) prep)

def peBody (fn seg2 a0 a1 bval imm n : Nat) (compl : Nat) (y : Label) (seg : Nat) : EngBody :=
  .pe fn seg seg2 a0 a1 compl bval imm n 0 0 0 y .fresh

/-- Sets every granule of an own-LM range empty (14 R355). -/
def emptyRange (l : Loc) (off n : Nat) (s : State) : State :=
  match l with
  | .core d i => (List.range (n / 16)).foldl (fun s k => emptyGran s (lmKey d i (off + 16 * k))) s
  | _ => s

/-- The four load forms: `list` names an index list at s[C]. -/
def pgLoad (s : State) (h : Hdr) (g : Option GPfx) (nb : Bool) (d : SReg) (a : LReg) (b : SReg) (c : Option SReg) (first : Nat) (nm1 : Fin 32) : Out :=
  issue s (glen g) h { b := some b, c := c, d := some d, ls := [a], dfu := d :: b :: c.toList, dfl := [a] } fun x v s =>
    let n := nm1.val + 1
    let bytes := n * pageBytes
    let bv := v.b.toNat
    let lv := v.c.toNat
    let fn := if nb then 8 else 0
    let badList : Bool := c.isSome && (lv % 4 ≠ 0 || !ownLm lv (4 * n))
    let bad : Bool := 16 < n || 65536 < first + n || bv % 64 ≠ 0 || !ownLm bv bytes || badList
    let listNeed : List Need := if c.isSome then [(lv, 4 * n, .read)] else []
    let imm := fieldAt 15 0 first + fieldAt 24 24 c.isSome.toNat
    pgCommand s x fn g v.d a true .read bad ((bv, bytes, .write) :: listNeed) (if nb then id else emptyRange x.loc bv bytes)
      (peBody fn 0 bv (if c.isSome then lv else 0) 0 imm n)

def execPgLoad (h : Hdr) (g : Option GPfx) (d : SReg) (a : LReg) (b : SReg) (first : BitVec 16) (nm1 : Fin 32) (s : State) : Out :=
  pgLoad s h g false d a b none first.toNat nm1
def execPgLoadNb (h : Hdr) (g : Option GPfx) (d : SReg) (a : LReg) (b : SReg) (first : BitVec 16) (nm1 : Fin 32) (s : State) : Out :=
  pgLoad s h g true d a b none first.toNat nm1
def execPgLoadList (h : Hdr) (g : Option GPfx) (d : SReg) (a : LReg) (b c : SReg) (nm1 : Fin 32) (s : State) : Out :=
  pgLoad s h g false d a b (some c) 0 nm1
def execPgLoadNbList (h : Hdr) (g : Option GPfx) (d : SReg) (a : LReg) (b c : SReg) (nm1 : Fin 32) (s : State) : Out :=
  pgLoad s h g true d a b (some c) 0 nm1

def execPgApp (h : Hdr) (g : Option GPfx) (d : SReg) (a : LReg) (b : SReg) (s : State) : Out :=
  issue s (glen g) h { b := some b, d := some d, ls := [a], dfu := [d, b], dfl := [a] } fun x v s =>
    let bv := v.b.toNat
    pgCommand s x 1 g v.d a false .rmw (bv % 64 ≠ 0 || !ownLm bv 512) [(bv, 512, .read)] id (peBody 1 0 bv 0 0 0 0)

def execPgFork (h : Hdr) (g : Option GPfx) (d : SReg) (a b : LReg) (s : State) : Out :=
  issue s (glen g) h { d := some d, ls := [a, b], dfu := [d], dfl := [a, b] } fun x v s =>
    let cv := v.d.toNat
    release s x (
      if !complOk cv then .trap cPARAM 0 0
      else segAt s x a false .read fun s y parent => segAt s x b false .rmw fun s _ child =>
        command s x .pe 2 g [] (.ok ([segNeed parent .read, segNeed child .rmw] ++ complNeed cv 16, peBody 2 child 0 0 0 0 0 cv y parent)))

def execPgSel (h : Hdr) (g : Option GPfx) (d : SReg) (a : LReg) (b c : SReg) (k : BitVec 7) (kf kt : Bool) (s : State) : Out :=
  issue s (glen g) h { b := some b, c := some c, d := some d, ls := [a], dfu := [d, b, c], dfl := [a] } fun x v s =>
    let bv := v.b.toNat
    let lv := v.c.toNat
    let n := k.toNat
    let bad : Bool := n = 0 || 64 < n || bv % 64 ≠ 0 || !ownLm bv 256 || lv % 4 ≠ 0 || !ownLm lv (4 * n)
    pgCommand s x 3 g v.d a true .read bad [(bv, 256, .read), (lv, 4 * max n (kf.toNat + kt.toNat), .write)] id
      (peBody 3 0 bv lv 0 (n + fieldAt 8 8 kf.toNat + fieldAt 9 9 kt.toNat) 0)

def execPgSeal (h : Hdr) (g : Option GPfx) (d : SReg) (a : LReg) (s : State) : Out :=
  issue s (glen g) h { d := some d, ls := [a], dfu := [d], dfl := [a] } fun x v s => pgCommand s x 4 g v.d a false .read false [] id (peBody 4 0 0 0 0 0 0)

def execPgFree (h : Hdr) (g : Option GPfx) (d : SReg) (a : LReg) (s : State) : Out :=
  issue s (glen g) h { d := some d, ls := [a], dfu := [d], dfl := [a] } fun x v s => pgCommand s x 5 g v.d a false .rmw false [] id (peBody 5 0 0 0 0 0 0)

def execPgExt (h : Hdr) (g : Option GPfx) (d : SReg) (a : LReg) (order : Fin 16) (lns : Fin 4) (s : State) : Out :=
  issue s (glen g) h { d := some d, ls := [a], dfu := [d], dfl := [a] } fun x v s =>
    pgCommand s x 6 g v.d a false .rmw (12 < order.val || order.val < lns.val) [] id (peBody 6 0 0 0 0 (order.val + fieldAt 5 4 lns.val) 0)

def execPgEvict (h : Hdr) (g : Option GPfx) (d : SReg) (a : LReg) (b : SReg) (s : State) : Out :=
  issue s (glen g) h { b := some b, d := some d, ls := [a], dfu := [d, b], dfl := [a] } fun x v s =>
    pgCommand s x 7 g v.d a false .read false [] id (peBody 7 0 0 0 v.b.toNat 0 0)

/-! ## Running labels (13 R315; 14 R352) -/

/-- The labels of `pg.ext`: A's current label with its last ordinal raised by i; none for a root with NS > 1. -/
def extLabels (y : Label) (ns : Nat) : Option (List Label) :=
  match (lDigits y).getD [] with
  | [] => if ns = 1 then some [y] else none
  | ds =>
    let o := (ds.getLast?.map Prod.fst).getD 0
    ((List.range ns).map fun i => if i = 0 then some y else if o + i ≤ maxOrd then lAppend (lParentOf y) (o + i) else none).mapM id

/-! ## Segment locks (14 R349): a command holds the segments it changes from its first access to its last -/

/-- NS of a `pg.ext`. -/
def extNs (imm : Nat) : Nat := 2 ^ getBits imm 5 4

/-- The place of the record that a label names, as its home slice finds it for a lock. -/
def placeOfLabel (s : State) (p : Partition) (l : Loc) (y : Label) : Option Nat :=
  let w := mapWalk s (dieOf l) p.pid
  match lTranslate (treeSet p.ltt (lTid y)) false y with
  | .ok e b =>
    match (lookup s p l w .read b e.dbase e.dsize).1 with
    | .found r _ => (match xlateFor s p l w r 16 .any false with | .ok key => some key | _ => none)
    | _ => none
  | _ => none

/-- The physical places of the segments that a command changes. -/
def segPlaces (s : State) (l : Loc) (q : EngCmd) : List Nat :=
  match q.body with
  | .pe fn seg seg2 _ _ _ _ imm _ _ _ _ root _ =>
    match fn with
    | 1 => (xlFind q.xl seg).toList
    | 2 => (xlFind q.xl seg2).toList
    | 5 => (xlFind q.xl seg).toList
    | 6 => (xlFind q.xl seg).toList ++ (match part? s q.part with
        | some p => ((extLabels root (extNs imm)).getD []).filterMap (placeOfLabel s p l)
        | none => [])
    | _ => []
  | _ => []

/-- Whether a command has begun: it has made an access, or done the first of its steps. -/
def peBegun (q : EngCmd) : Bool :=
  !q.io.trace.isEmpty || match q.body with
    | .pe _ _ _ _ _ _ _ _ _ _ _ _ _ .fresh => false
    | .pe _ _ _ _ _ _ _ _ _ _ _ _ _ (.over _) => false
    | .pe .. => true
    | _ => false

/-- Whether a command has asked for its locks and waits for them. -/
def asksLock (q : EngCmd) : Bool :=
  q.started.isSome && !q.finished && !peBegun q && match q.body with | .pe _ _ _ _ _ _ _ _ _ _ _ _ _ .fresh => true | _ => false

/-- The places that commands under way hold. -/
def heldPlaces (s : State) : List Nat :=
  s.cores.flatMap fun c => c.2.peq.flatMap fun q => if peBegun q then segPlaces s c.1 q else []

/-- Whether a command must wait for a lock: one of its segments is held, or was asked for in an earlier cycle by another command that waits. -/
def lockWaits (s : State) (l : Loc) (q : EngCmd) : Bool :=
  let mine := segPlaces s l q
  mine.any fun k => (heldPlaces s).contains k || s.cores.any fun c => c.1 != l && c.2.peq.any fun r =>
    asksLock r && decide (r.started.getD 0 < q.started.getD 0) && (segPlaces s c.1 r).contains k

/-! ## The commands (14 R352 to R355) -/

/-- How a step of a command ends: the command is done, with a status and a VALUE; or it goes on with a body. -/
inductive PeOut where
  | done (status value : Nat)
  | on (b : EngBody)

/-- `pg.app` up to its act: a tail that can take the token, and a page in reserve if the tail is shared; a tail just opened is not. -/
def appStart (c : PeCtx) (va : Nat) : PeM (Nat × Option Spare) := do
  let g ← segUse c va
  let w ← poolRd c g.pool
  if g.tailp ≠ none24 then inPool c w [g.tailp]
  let r ← if g.tailp = none24 then pure (wState 0 pSEALED) else recRd c w g.tailp
  if rState r = pFREE ∨ rState r = pRESERVED ∨ rState r = 7 then throw (.ended 7 0)
  if rState r = pOPEN then
    if 1 < rRef r then do
      let (sp, _) ← takePage c w g
      pure (g.tailp, some sp)
    else pure (g.tailp, none)
  else
    let (t2, g) ← takePage c w g
    match (if g.tailp = none24 then some g else retire g g.tailp) with
    | none => do
      let _ ← giveBack c w g t2
      throw (.ended 4 0)
    | some g => do
      openPage c w t2
      segWr c { g with tailp := t2.page }
      pure (t2.page, none)

/-- The act at the home slice of the tail's record: copy, and n (14 R352). -/
def appAct (c : PeCtx) (va t : Nat) (spare : Bool) : PeM (Nat × Nat) := do
  let g ← segRd c va
  let w ← poolRd c g.pool
  let r ← modRec c w t fun r => if 1 < rRef r ∧ spare then wRef r (rRef r - 1) else r
  pure (if rRef r ≤ 1 then 0 else if spare then 1 else 2, rNtok r)

/-- `pg.app` after its act: the copy if one is needed, then the token in the tail or in a new page. -/
def appFinish (c : PeCtx) (va t : Nat) (spare : Option Spare) (copy n : Nat) (token : List Nat) (fixes : Nat) : PeM (Nat × Nat) := do
  let g ← segRd c va
  let w ← poolRd c g.pool
  let (t, g) ← match spare, copy with
    | some sp, 1 => do
      openPage c w sp
      copyTokens c w t sp.page n
      let g := { g with tailp := sp.page }
      segWr c g
      pure (sp.page, g)
    | some sp, _ => do pure (t, ← giveBack c w g sp)
    | none, _ => pure (t, g)
  let pv ← pageVa c w t
  let hd ← headRec c pv
  let (t, n, g) ← if n ≠ 0 ∧ 4 < getBits hd 42 40 + rowsNeeded (scalesOf hd) token then do
      let (nt, g) ← takePage c w g
      match retire g t with
      | none => do
        let _ ← giveBack c w g nt
        throw (.ended 4 0)
      | some g => do
        sealPage c w t
        openPage c w nt
        let g := { g with tailp := nt.page }
        segWr c g
        pure (nt.page, 0, g)
    else pure (t, n, g)
  writeToken c w t n token
  let _ ← once do
    peMod fun s => count s (dieOf c.l) c.p.pid 5 fixes
    pure []
  segWr c { g with ntok := (g.ntok + 1) % 2 ^ 32 }
  pure (0, t)

/-- A further page in reserve, after an act that found the tail shared without one. -/
def appSpare (c : PeCtx) (va : Nat) : PeM Spare := do
  let g ← segRd c va
  let w ← poolRd c g.pool
  let (sp, _) ← takePage c w g
  pure sp

/-- A list with the places of its members. -/
def numbered (l : List Nat) : List (Nat × Nat) := l.zipIdx.map fun p => (p.2, p.1)

def forkCmd (c : PeCtx) (parent child : Nat) : PeM (Nat × Nat) := do
  let g ← segUse c parent
  let d ← segRd c child
  if d.rsvd || !segEmpty d || (d.pool != 0 && d.pool != g.pool) then throw (.ended 4 0)
  let w ← poolRd c g.pool
  let ps := pageOrder g
  inPool c w ps
  (numbered ps).forM fun ip => setRec { c with cnt := ip.1 } w ip.2 fun n => wRef n (rRef n + 1)
  segWr { c with cnt := ps.length } { d with ntok := g.ntok, next := g.next, tailp := g.tailp, exts := g.exts, pool := g.pool }
  pure (0, ps.length)

def sealCmd (c : PeCtx) (va : Nat) : PeM (Nat × Nat) := do
  let g ← segUse c va
  let w ← poolRd c g.pool
  if g.tailp = none24 then throw (.ended 7 0)
  inPool c w [g.tailp]
  let r ← recRd c w g.tailp
  if rState r ≠ pOPEN then throw (.ended 7 0)
  sealPage c w g.tailp
  pure (0, rNtok r)

def freeCmd (c : PeCtx) (va : Nat) : PeM (Nat × Nat) := do
  let g ← segUse c va
  let w ← poolRd c g.pool
  let ps := pageOrder g ++ extPages g.resv
  inPool c w ps
  let n ← (numbered ps).foldlM (fun n ip => do pure (if ← derefPage { c with cnt := ip.1 } w ip.2 then n + 1 else n)) 0
  segWr { c with cnt := ps.length } { g with ntok := 0, next := 0, tailp := none24, resv := { g.resv with len := 0 } }
  pure (0, n)

/-- A tree's set for a running command: from the label cache, or as a walk has brought it (13 R314). -/
def setOf (c : PeCtx) (tid : Nat) : PeM (List LttEntry) := do
  let r := engineSet (← peGet) c.p c.l c.walk tid
  match r.1 with
  | none => throw (.walk (.label tid))
  | some set => do
    peMod fun _ => r.2
    pure set

/-- The search of a directory, each probe an access: the record's address, or none. -/
def probeFor (c : PeCtx) (b : Label) (dbase dsize : Nat) : Nat → PeM (Option Nat)
  | 0 => pure none
  | fuel + 1 => do
    let va := probeVa b dbase dsize (63 - fuel)
    let r ← once do
      let s ← peGet
      match xlateFor s c.p c.l c.walk va 32 .read false with
      | .miss => throw (.walk (.extent va))
      | .fault _ => pure [0]
      | .ok key => do
        turn c key
        let s ← peGet
        peMod fun s => useExtent s c.p c.l va
        pure (if slotPoisoned s key then [0] else match lookupAt s.mem b va key with
          | none => []
          | some (.found raddr _) => [1, raddr]
          | some _ => [0])
    match r with
    | [] => probeFor c b dbase dsize fuel
    | _ :: raddr :: _ => pure (some raddr)
    | _ => pure none

/-- The segment of a label of `pg.ext`, translated now; none where it does not translate (14 R352). -/
def extSeg (c : PeCtx) (z : Label) : PeM (Option Seg) := do
  let r ← once do
    match lTranslate (← setOf c (lTid z)) false z with
    | .ok e b => pure [b.toNat, e.dbase, e.dsize]
    | _ => pure []
  match r with
  | b :: dbase :: dsize :: _ =>
    match ← probeFor c (BitVec.ofNat 128 b) dbase dsize 64 with
    | none => pure none
    | some va => do
      let k ← once do
        match recordKey (← peGet) c.p c.l c.walk va 16 .rmw with
        | .miss => throw (.walk (.extent va))
        | .trap _ _ => pure []
        | .ok _ => pure [1]
      if k.isEmpty then pure none else do pure (some (← segRd c va))
  | _ => pure none

/-- `pg.ext`: its pool is that of A's segment; the block is allocated first, and freed again where one of the segments cannot take its part. -/
def extCmd (c : PeCtx) (y : Label) (order ns : Nat) : PeM (Nat × Nat) := do
  match ← extSeg c y with
  | none => throw (.ended 4 0)
  | some g => do
    if segBad g then throw (.ended 4 0)
    let w ← poolRd c g.pool
    let b ← allocBlock c w order
    let segs ← match extLabels y ns with
      | none => pure [none]
      | some ls => ls.mapM (extSeg c)
    if segs.any fun g => g.all fun g => segBad g || g.resv.len != 0 then
      freeBlock c w b order
      throw (.ended 4 0)
    (List.range (2 ^ order)).forM fun i => setRec { c with cnt := i } w (b + i) fun n => wRef (wState n pRESERVED) 1
    (segs.filterMap id).zipIdx.forM fun ig =>
      segWr { c with cnt := 2 ^ order } { ig.1 with resv := ⟨ns, 2 ^ order / ns, b + ig.2⟩ }
    pure (0, b)

/-- The bound of a page (14 R354): none ranks a NaN below −∞. -/
def pageBound (q s : List Nat) : Option FpVal :=
  let prods := (List.range 128).map fun i =>
    let m (x : Nat) : Nat := (roundVal fp32 .rne ((fp16.val (q.getD i 0)).mul (fp16.val x))).1
    fp32.val (fpMinMax fp32 true (m (s.getD i 0)) (m (s.getD (128 + i) 0)))
  match fp32.val (accFp .rup 0 prods) with
  | .nan => none
  | v => some v

/-- Whether bound `a` ranks above bound `b`. -/
def boundAbove (a b : Option FpVal) : Bool :=
  match a, b with
  | some x, some y => x.cmp y > 0
  | some _, none => true
  | none, _ => false

/-- The unchosen index with the largest bound, the lowest on ties. -/
def bestOf (bs : List (Option FpVal)) (chosen : List Nat) : Option Nat :=
  ((List.range bs.length).filter fun i => !(chosen.contains i)).foldl (fun best i =>
    match best with
    | none => some i
    | some j => if boundAbove (bs.getD i none) (bs.getD j none) then some i else some j) none

def choose (bs : List (Option FpVal)) (k : Nat) : Nat → List Nat → List Nat
  | 0, ch => ch
  | fuel + 1, ch =>
    if ch.length < min k bs.length then (match bestOf bs ch with | some i => choose bs k fuel (ch ++ [i]) | none => ch) else ch

def selCmd (c : PeCtx) (va qva out k : Nat) (kf kt : Bool) : PeM (Nat × Nat) := do
  let g ← segUse c va
  let w ← poolRd c g.pool
  let ps := pageOrder g
  inPool c w ps
  let q := halves 128 (← opRd c qva 256)
  let bs ← (numbered ps).mapM fun ip => do
    let c := { c with cnt := ip.1 }
    if rNtok (← recRd c w ip.2) = 0 then pure (some (FpVal.inf true)) else do pure (pageBound q (← sumRd c w ip.2))
  let n := ps.length
  let ch0 := (if kf && n ≠ 0 then [0] else []) ++ (if kt && n ≠ 0 && !(kf && n = 1) then [n - 1] else [])
  let ch := choose bs k k ch0
  let sorted := (List.range n).filter fun i => ch.contains i
  if !sorted.isEmpty then opWr c out (sorted.flatMap (toBytes 4))
  pure (0, sorted.length)

/-- How `pg.evict` begins: the page is on flash, and the command done; or it is WRITING now, its transfer begun in the same act (14 R352). Answers the pool
of a page that is written. -/
def evictStart (c : PeCtx) (va p : Nat) : PeM (Option Nat) := do
  let g ← segUse c va
  let w ← poolRd c g.pool
  inPool c w [p]
  let r ← act c (← peKey c (recVa w p)) do
    let r ← recRd c w p
    if rState r = pONFLASH then pure []
    else if rState r = pSEALED then
      setRec c w p fun r => wState r pWRITING
      addFlash c w p (rFrame r) true
      pure [1]
    else throw (.ended 7 0)
  pure (if r.isEmpty then none else some w.va)

/-- The page that index x of a segment names: none where there is no such index. -/
def pageAt (w : Pool) (ps : List Nat) (x : Nat) : Option Nat := ps[x]?.bind fun p => if p < 2 ^ w.po then some p else none

/-- Index i of a load: FIRST + i, or the i-th entry of the list. -/
def loadIndex (c : PeCtx) (imm a1 i : Nat) : PeM Nat :=
  if getBits imm 24 24 = 1 then do pure (ofBytes (← opRd c (a1 + 4 * i) 4)) else pure (getBits imm 15 0 + i)

/-- The read of a page is started in one act if it is still on flash and a frame is free. -/
def readIfFree (c : PeCtx) (w : Pool) (p : Nat) : PeM Unit := do
  let _ ← act c (← peKey c (recVa w p)) do
    if rState (← recRd c w p) = pONFLASH then
      if (← ftopRd c w) ≠ 0 then startRead c w p
    pure []

/-- `pg.load.nb` (14 R355): so many pages not resident, their reads started; 0 where every page is resident. -/
def loadNb (c : PeCtx) (va a1 imm n : Nat) : PeM Nat := do
  let g ← segUse c va
  let w ← poolRd c g.pool
  let ps := pageOrder g
  let pages ← (List.range n).mapM fun i => do pure (pageAt w ps (← loadIndex c imm a1 i))
  let out ← (pages.filterMap id).filterM fun p => do
    let st := rState (← recRd c w p)
    pure (st == pONFLASH || st == pLOADING)
  (nubNat out).forM (readIfFree c w)
  pure out.length

/-- What a load does with its next page: takes it in hand, none for zeros with a status; or waits for its transfer. -/
inductive LoadOut where
  | hand (src : Option (Nat × Nat × Nat)) (status : Nat)
  | wait (pool page : Nat)

/-- Marks the write of a page as cancelled (14 R352). -/
def cancelWrite (c : PeCtx) (w : Pool) (p : Nat) : PeM Unit :=
  peMod fun s => { s with flash := s.flash.map fun f => if f.write ∧ f.pid = c.p.pid ∧ f.pool = w.va ∧ f.page = p then { f with cancel := true } else f }

/-- What a load makes of a page by its record's STATE, in one act at the record (14 R355). DESIGN CHOICE: the pop of a frame and the start of the transfer
belong to that act, so that two loads share a read; a load that has a page in hand counts as having found it WRITING (log 54). -/
def loadState (c : PeCtx) (w : Pool) (p : Nat) : PeM LoadOut := do
  let r ← act c (← peKey c (recVa w p)) do
    let n ← recRd c w p
    let st := rState n
    if st = pOPEN ∨ st = pSEALED then pure [0, rFrame n]
    else if st = pWRITING then
      cancelWrite c w p
      pure [0, rFrame n]
    else if st = pONFLASH then
      if (← ftopRd c w) = 0 then pure [2, 3]
      else
        startRead c w p
        pure [1]
    else if st = pLOADING ∧ (inFlight (← peGet) c.p.pid w.va p).isSome then pure [1]
    else pure [2, 7]
  pure (match r with
  | [0, fr] => .hand (some (w.va, p, frameVa w fr)) 0
  | [2, st] => .hand none st
  | _ => .wait w.va p)

/-- A load's next page: the one its index names, or none where there is no such index. -/
def loadPage (c : PeCtx) (va a1 imm : Nat) : PeM LoadOut := do
  let g ← segUse c va
  let w ← poolRd c g.pool
  match pageAt w (pageOrder g) (← loadIndex c imm a1 0) with
  | none => pure (.hand none 5)
  | some p => loadState c w p

/-- The granules of a page. -/
def pageGrans : Nat := 1152

/-- The body of a load after a page: its remainder (14 R358). -/
def loadNext (seg a0 a1 compl imm n done status value : Nat) (root : Label) : EngBody :=
  let list := getBits imm 24 24 = 1
  .pe 0 seg 0 (a0 + pageBytes) (if list then a1 + 4 else a1) compl 0 (if list then imm else putBits imm 15 0 (getBits imm 15 0 + 1)) (n - 1)
    done status value root .fresh

/-- The channels of a token that NaN or infinity change (14 R340). -/
def tokenFixes (l : List Nat) : Nat := (l.filter fun n => (fixChannel n).2).length

/-- The rows that hold a token's 512 bytes. -/
def tokenOf (rows : List Row) : List Nat := halves 256 (rows.flatMap fun r => toBytes 64 r.toNat)

/-- A load's step between pages. -/
def loadStep (c : PeCtx) (seg a0 a1 compl imm n done status value : Nat) (root : Label) (ph : PePhase) : PeM PeOut := do
  let put (ph : PePhase) : PeOut := .on (.pe 0 seg 0 a0 a1 compl 0 imm n done status value root ph)
  let c := { c with cnt := value }
  match ph with
  | .flash _ _ (some 9) => throw (.ended 9 value)
  | .flash _ _ (some (st + 1)) => pure (put (.page none (st + 1)))
  | .page _ st => pure (.on (loadNext seg a0 a1 compl imm n (done + 1) (if status = 0 then st else status) (if st = 0 then value + 1 else value) root))
  | _ =>
    if n = 0 then pure (.done status value)
    else match ← loadPage c seg a1 imm with
      | .wait pool p => pure (put (.flash pool p none))
      | .hand src st => pure (put (.page src st))

/-- One step of a command's own rule. -/
def peStep (c : PeCtx) (b : EngBody) (now : Nat) : PeM PeOut := do
  match b with
  | .pe fn seg seg2 a0 a1 compl bval imm n done status value root ph =>
    let go (ph : PePhase) : PeOut := .on (.pe fn seg seg2 a0 a1 compl bval imm n done status value root ph)
    let fin (r : Nat × Nat) : PeOut := .done r.1 r.2
    match fn, ph with
    | 1, .fresh => do
      let (t, sp) ← appStart c seg
      pure (go (.act t sp now))
    | 1, .act t sp _ => do
      let (copy, k) ← appAct c seg t sp.isSome
      pure (go (.acted t sp copy k))
    | 1, .acted t sp copy k =>
      if copy = 2 then do
        let sp ← appSpare c seg
        pure (go (.act t (some sp) now))
      else do
        let token := tokenOf c.q.pend
        pure (fin (← appFinish c seg t sp copy k (token.map fun x => (fixChannel x).1) (tokenFixes token)))
    | 2, _ => do pure (fin (← forkCmd c seg seg2))
    | 3, _ => do pure (fin (← selCmd c seg a0 a1 (getBits imm 6 0) (getBits imm 8 8 == 1) (getBits imm 9 9 == 1)))
    | 4, _ => do pure (fin (← sealCmd c seg))
    | 5, _ => do pure (fin (← freeCmd c seg))
    | 6, _ => do pure (fin (← extCmd c root (getBits imm 3 0) (extNs imm)))
    | 7, .flash _ _ (some st) => if st = 9 then throw (.ended 9 0) else pure (.done st bval)
    | 7, _ => do
      match ← evictStart c seg bval with
      | none => pure (.done 0 bval)
      | some pool => pure (go (.flash pool bval none))
    | 8, _ => do
      match ← loadNb c seg a1 imm n with
      | 0 => do
        peMod (emptyRange c.l a0 (n * pageBytes))
        pure (.on (.pe 0 seg seg2 a0 a1 compl bval imm n done status value root .fresh))
      | k => pure (.done 1 k)
    | _, ph => loadStep c seg a0 a1 compl imm n done status value root ph
  | _ => throw .pause

/-- The status and VALUE with which an error ends a command: a load reports its first failing status, with the pages copied (14 R355). -/
def endOf? (b : EngBody) (st v : Nat) : Nat × Nat :=
  match b with
  | .pe 0 _ _ _ _ _ _ _ _ _ status value _ _ => (if status = 0 then st else status, value)
  | _ => (st, v)

/-- VALUE as the completion granule gives it: stated for DONE, ABSENT and MAPFAULT and for a load; free for another status (log 11). -/
def peValue (s : State) (fn status value : Nat) : Nat × State :=
  if status = 0 ∨ status = 1 ∨ status = 9 ∨ fn = 0 ∨ fn = 8 ∨ (fn = 7 ∧ status = 8) then (value, s)
  else ((ofBytes ((List.range 4).map fun i => Config.freeByte (s.free + i))), { s with free := s.free + 4 })

def EngBody.withPhase (b : EngBody) (ph : PePhase) : EngBody :=
  match b with
  | .pe fn seg seg2 a0 a1 compl bval imm n done status value root _ => .pe fn seg seg2 a0 a1 compl bval imm n done status value root ph
  | b => b

/-- The end of a command: the structures it has written are set full, and its completion granule is left to write (14 R351). -/
def peEnd (s : State) (l : Loc) (q : EngCmd) (status value : Nat) (mapped : Bool) : State :=
  let v := peValue (fillAll (checkIf mapped s .pe q) q.fills) q.fn status value
  setHead v.2 l .pe { q with fills := [], io := { q.io with reads := [], trace := [] }, body := q.body.withPhase (.over (status % 256 + v.1 % 2 ^ 32 * 2 ^ 32)) }

/-- The token of an append is read in the command's start cycle (14 R352). -/
def readToken (s : State) (l : Loc) (q : EngCmd) : State :=
  match q.body with
  | .pe 1 _ _ a0 _ _ _ _ _ _ _ _ _ .fresh =>
    if q.pend.isEmpty then
      let b := engRead s q.xl a0 512
      let q1 := { q with pend := (List.range 8).map fun i => rowBytes (bytesAt b.1 (64 * i) 64) }
      checkIf b.2 (setHead s l .pe q1) .pe q1
    else setHead s l .pe q
  | _ => setHead s l .pe q

/-- Whether a running command can take no step of its own now: it waits for its act, for a transfer, for a lock or for a walk. -/
def peWaits (s : State) (l : Loc) (q : EngCmd) : Bool :=
  q.io.walk.waits.isSome || match q.body with
  | .pe _ _ _ _ _ _ _ _ _ _ _ _ _ (.act _ _ _) => true
  | .pe _ _ _ _ _ _ _ _ _ _ _ _ _ (.flash _ _ none) => true
  | .pe _ _ _ _ _ _ _ _ _ _ _ _ _ .fresh => !peBegun q && lockWaits s l q
  | _ => false

/-- Whether a running command goes on under a pre-emption: every command but a load, which ends the page in hand before it stops (14 R358). -/
def inHand (q : EngCmd) : Bool :=
  match q.body with
  | .pe 0 _ _ _ _ _ _ _ _ _ _ _ _ .fresh => false
  | _ => true

/-- A command that has a page in hand: its granules to be read, or the zeros for its range to be written. -/
def takeHand (q : EngCmd) : EngCmd :=
  match q.body with
  | .pe 0 _ _ _ _ _ _ _ _ _ _ _ _ (.page (some _) _) => q.modIO fun io => { io with reads := List.range pageGrans }
  | .pe 0 _ _ a0 _ _ _ _ _ _ _ _ _ (.page none _) =>
    q.modIO (EngIO.addPosts ((List.range pageGrans).map fun k => putOf q.xl (a0 + 16 * k) 0 (List.replicate 16 0) (feGranules q.xl (a0 + 16 * k) 16)))
  | _ => q

/-- What follows a computation of a command. -/
def peAfter (l : Loc) (q : EngCmd) (r : Except PeStop PeOut × PeSt) : State :=
  let t := r.2
  let kept : EngCmd := { q with fills := t.fills, io := { q.io with
    trace := t.trace, half := t.half, walk := if t.trace.length = q.io.trace.length then q.io.walk else WalkState.none } }
  match r.1 with
  | .ok (.done st v) => peEnd t.s l kept st v false
  | .ok (.on b) => setHead t.s l .pe (takeHand { kept.modIO (fun io => { io with trace := [], walk := WalkState.none }) with body := b })
  | .error .pause => setHead t.s l .pe kept
  | .error (.walk w) => setHead (addWalk t.s l (.engine .pe q.seq) q.part w) l .pe (kept.modIO fun io => { io with walk := io.walk.await w })
  | .error (.ended st v) => let e := endOf? q.body st v; peEnd t.s l kept e.1 e.2 (st == 9)

/-- A command's computation, with one access to make. -/
def peGo (s : State) (p : Partition) (l : Loc) (q : EngCmd) : State :=
  peAfter l q ((peStep ⟨p, l, q, 0, q.io.walk⟩ q.body s.cycle).run.run ⟨s, q.io.trace, q.io.trace, true, false, q.fills, q.io.half⟩)

/-- An act of a running command: it goes on by an access, copies a granule of the page in hand, writes one, or writes its completion granule. -/
inductive PeAct where
  | next
  | gran (k : Nat)
  | post (i : Nat)
  | compl
  deriving DecidableEq, Repr

/-- The acts that may come next: the header granule of a page first, then the others in any order (14 R355). -/
def peActs (s : State) (l : Loc) (q : EngCmd) : List PeAct :=
  let writes := (readyPosts q.io.posts).map PeAct.post
  match q.body with
  | .pe _ _ _ _ _ _ _ _ _ _ _ _ _ (.over _) => if writes.isEmpty then [.compl] else writes
  | .pe _ _ _ _ _ _ _ _ _ _ _ _ _ (.page _ _) =>
    if q.io.reads.isEmpty && writes.isEmpty then [.next]
    else if q.io.walk.waits.isSome || (q.io.reads.length + 1 = pageGrans && !writes.isEmpty) then writes
    else (if q.io.reads.contains 0 then [.gran 0] else q.io.reads.map .gran) ++ writes
  | _ => if peWaits s l q || (engineHeld s l q.part && !inHand q) then [] else [.next]

/-- A granule of the page in hand is read, and its write posted (10 R243; 14 R355). -/
def granRead (s : State) (p : Partition) (l : Loc) (q : EngCmd) (k : Nat) : State :=
  match q.body with
  | .pe _ _ _ a0 _ _ _ _ _ _ _ value _ (.page (some src) _) =>
    let va := src.2.2 + 16 * k
    (match xlateFor s p l q.io.walk va 16 .read false with
    | .miss => setHead (addWalk s l (.engine .pe q.seq) q.part (.extent va)) l .pe (q.modIO fun io => { io with walk := io.walk.await (.extent va) })
    | .fault _ => let e := endOf? q.body 9 value; peEnd s l q e.1 e.2 true
    | .ok key =>
      if onCompute key then let e := endOf? q.body 9 value; peEnd s l q e.1 e.2 true
      else whenTurn s l .pe q key fun s =>
        let b := engRead s [(va, 16, key)] va 16
        let w := putOf q.xl (a0 + 16 * k) 0 b.1 (feGranules q.xl (a0 + 16 * k) 16)
        setHead (checkIf b.2 (useExtent s p l va) .pe q) l .pe
          (q.modIO fun io => EngIO.addPosts [w] { io with reads := io.reads.erase k, walk := WalkState.none }))
  | _ => s

/-- One act of a running command. -/
def peAct (s : State) (p : Partition) (l : Loc) (q : EngCmd) : PeAct → State
  | .next => peGo s p l q
  | .gran k => granRead s p l q k
  | .post i =>
    match q.io.posts[i]? with
    | none => s
    | some w => whenTurn s l .pe q w.key fun s =>
      let r := putPost s q w
      setHead (checkIf r.2.2 r.1 .pe q) l .pe (r.2.1.modIO (EngIO.dropPost i))
  | .compl =>
    match q.body with
    | .pe _ _ _ _ _ compl _ _ _ _ _ _ _ (.over d1) =>
      let fin (s : State) : State := setHead (complete s q compl q.seq d1) l .pe { q with finished := true }
      if compl = 0 then fin s else whenTurn s l .pe q (xlKey q.xl compl) fin
    | _ => s

/-- The address of an act whose place is known before it is made. -/
def peActKey (s : State) (p : Partition) (l : Loc) (q : EngCmd) : PeAct → Nat
  | .gran k =>
    match q.body with
    | .pe _ _ _ _ _ _ _ _ _ _ _ _ _ (.page (some src) _) =>
      (match xlateFor s p l q.io.walk (src.2.2 + 16 * k) 16 .read false with | .ok key => key | _ => 0)
    | _ => 0
  | .post i => (q.io.posts[i]?.map Post.key).getD 0
  | _ => 0

/-- At most `n` acts of the running command; it ends with one that has to wait (10 R249; log 22). -/
def peRun (l : Loc) : Nat → State → State
  | 0, s => s
  | n + 1, s =>
    match runnable s l .pe with
    | none => s
    | some q =>
      match part? s q.part with
      | none => s
      | some p =>
        let acts := peActs s l q
        let k := pickTurn s (agentOf l .pe q) (acts.map (peActKey s p l q))
        match acts[k.1]? with
        | none => s
        | some a => let u := peAct k.2 p l q a; if (ticket? u (agentOf l .pe q)).isSome then u else peRun l n u

def execPeCommandRun (l : Loc) (n : Nat) (s : State) : Out :=
  match runnable s l .pe with
  | some q => .next (peRun l n (readToken s l (startOf s q)))
  | none => .next s

/-! ## The append act (14 R352, R353) -/

/-- The acts that wait at the record of one page: the cycle they arrived in and the segment. -/
def actOf? (q : EngCmd) : Option (Nat × Nat × Nat) :=
  match q.body with
  | .pe 1 seg _ _ _ _ _ _ _ _ _ _ _ (.act t _ since) => some (t, since, seg)
  | _ => none

/-- No other act of the partition on the page arrived before this one, or in its cycle for a lower segment. -/
def actFirst (s : State) (pid t since seg : Nat) : Bool :=
  s.cores.all fun c => c.2.peq.all fun q =>
    match actOf? q with
    | some (t', since', seg') => q.part != pid || t' != t || since < since' || (since == since' && seg ≤ seg')
    | none => true

/-- The act of an append, in its turn at the record: the reads that lead to it, then the act itself. -/
def execPgAppendAct (l : Loc) (s : State) : Out :=
  match headCmd (core s l) .pe with
  | some q =>
    match actOf? q, part? s q.part with
    | some (t, since, seg), some p =>
      .next (if since < s.cycle && !heldBack s q.part && !q.io.walk.waits.isSome && actFirst s q.part t since seg then peGo s p l q else s)
    | _, _ => .next s
  | none => .next s

end Sys2Proof.Machine
end

