-- ==== Sys2Proof/Machine/Branch.lean ====
section
/-! DEFINITION. The meanings of BR, LOOP, CHK and MISC (05 R144 to R152). -/

namespace Sys2Proof.Machine

/-- PC + 4·SEXT(IMM) (05 R144). -/
def branchTarget (pc : Word) (imm : Imm31) : Word := pc + 4 * imm.signExtend 64

def execJmp (h : Hdr) (imm : Imm31) (s : State) : Out :=
  issue s 8 h {} fun x _ s => .jump s (branchTarget (me s x).pc imm) true

/-- s31 := PC + 8. -/
def putLink (s : State) (x : Cur) : State := putS s x 31 ((me s x).pc + 8) false

def execCall (h : Hdr) (imm : Imm31) (s : State) : Out :=
  issue s 8 h { rd := some 31 } fun x _ s => .jump (putLink s x) (branchTarget (me s x).pc imm) false

/-- A register target that is not parcel-aligned traps on the branch (03 R80). -/
def execJr (h : Hdr) (a : SReg) (s : State) : Out :=
  issue s 8 h { a := some a, dfu := [a] } fun _ v s =>
    if v.a.toNat % 4 ≠ 0 then .trap cMISALIGN 0 0 else .jump s v.a true

def execCallr (h : Hdr) (a : SReg) (s : State) : Out :=
  issue s 8 h { a := some a, rd := some 31, dfu := [a] } fun x v s =>
    if v.a.toNat % 4 ≠ 0 then .trap cMISALIGN 0 0 else .jump (putLink s x) v.a false

/-- The common act of the LOOP forms (05 R146). -/
def loopAct (s : State) (x : Cur) (n : BitVec 32) (len : Nat) : Eff :=
  let start := (me s x).pc + 8
  let fin := start + BitVec.ofNat 64 (4 * len) - 4
  if n = 0 then .jump s (fin + 4) false
  else if 4 ≤ (me s x).loops.length then .trap cLOOP 0 0
  else .jump (modTh s x.loc x.slot fun th => { th with loops := ⟨start, fin, n - 1⟩ :: th.loops }) start false

def execLoop (h : Hdr) (a : SReg) (len : Fin 65536) (s : State) : Out :=
  issue s 8 h { a := some a, dfu := [a] } fun x v s => loopAct s x (v.a.setWidth 32) len.val

def execLoopi (h : Hdr) (n : Fin 65536) (len : Fin 32768) (s : State) : Out :=
  issue s 8 h {} fun x _ s => loopAct s x (BitVec.ofNat 32 n.val) len.val

/-- A set DF bit takes the branch; the bit is left as it stands (05 R149). -/
def execChk (h : Hdr) (a : SReg) (imm : Imm31) (s : State) : Out :=
  issue s 8 h { a := some a } fun x v s => if v.df then .jump s (branchTarget (me s x).pc imm) false else .go s

def execChkl (h : Hdr) (a : LReg) (imm : Imm31) (s : State) : Out :=
  issue s 8 h { ls := [a] } fun x v s => if v.df then .jump s (branchTarget (me s x).pc imm) false else .go s

def execNop (h : Hdr) (s : State) : Out := issue s 8 h {} fun _ _ s => .go s

/-- Not eligible until 16 cycles after issue. -/
def execYield (h : Hdr) (s : State) : Out :=
  issue s 8 h {} fun x _ s => .go (modSlot s x.loc x.slot fun y => { y with hold := s.cycle + 16 })

/-- A checkpoint: CKPTID takes the index, and a pending pre-emption request halts the thread here (05 R151). -/
def execCkpt (h : Hdr) (code : BitVec 16) (s : State) : Out :=
  issue s 8 h {} fun x _ s =>
    let s := if code = 0xFFFF then s else modTh s x.loc x.slot fun th => { th with ckptid := code }
    .go (modSlot s x.loc x.slot fun y => if y.halting.isSome then { y with halting := some 0, atCkpt := some (code != 0xFFFF) } else y)

/-- A trap that names the next instruction: the end of the loop body is applied first (05 R147, R150). -/
def trapAfter (s : State) (x : Cur) (cause : Nat) (code : BitVec 16) (isBrk : Bool) : State :=
  let th := me s x
  let n := loopNext th.pc 8 th.loops
  raiseTrap (modTh s x.loc x.slot fun th => { th with pc := n.1, loops := n.2 }) x.loc x.slot
    ⟨cause, code.toNat, n.1, x.w0, x.w1, 0, none, none, isBrk⟩

def execTrap (h : Hdr) (code : BitVec 16) (s : State) : Out :=
  issue s 8 h {} fun x _ s => .stay (trapAfter s x cTRAP code false)

def execBrk (h : Hdr) (code : BitVec 16) (s : State) : Out :=
  issue s 8 h {} fun x _ s => .stay (trapAfter s x cBRK code true)

/-- The thread ends; its slot frees when its results, relaxed accesses and stores are done (05 R152, event TDONE_SLOT_FREE). -/
def execTdone (h : Hdr) (s : State) : Out :=
  issue s 8 h {} fun x _ s =>
    .stay (modTh (dropGuards s x.loc x.slot true) x.loc x.slot fun th => { th with ended := true, spnd := 0, lpnd := 0, vpnd := 0, loops := [] })

end Sys2Proof.Machine
end

