-- ==== Sys2Proof/Machine/Queues.lean ====
section
/-! DEFINITION. The meanings of SPAWN, RING, QCTL and GRAPH, and the events of links, rings and probes (11). -/

namespace Sys2Proof.Machine

/-- A send-queue entry is free (11 R259). -/
def sendRoom (s : State) (l : Loc) : Bool := (sendQueue s l).length < 4

/-- A release that takes a send-queue entry. -/
def sending (s : State) (x : Cur) (e : Eff) : Eff := release s x (if sendRoom s x.loc then e else .block .send)

def addMsg (s : State) (x : Cur) (b : MsgBody) : State :=
  let th := me s x
  { (newId s).2 with msgs := s.msgs ++ [⟨s.nextId, x.loc, x.slot.val, th.thid, th.part, th.qos, b⟩] }

/-- A named place: its address is valid, whatever its permissions (11 R278). -/
def namedAt (s : State) (x : Cur) (va : Word) : Except (Nat × Nat) Nat :=
  if 2 ^ 56 ≤ va.toNat then .error (cTRANSLATION, va.toNat)
  else match part? s (me s x).part with
    | none => .error (cTRANSLATION, va.toNat)
    | some p => match xlateFor s p x.loc (me s x).walk va.toNat 1 .any true with
      | .ok key => .ok key
      | .fault c => .error (c, va.toNat)
      | .miss => .error (cTRANSLATION, va.toNat)

/-! ## SPAWN (11 R278, R279) -/

/-- The payload registers of `spawn`. -/
def payloadRegs (a : SReg) (n : Fin 9) : List SReg := (List.range n.val).map fun i => Fin.ofNat 32 (a.val + i)

def execSpawn (h : Hdr) (d a : SReg) (npay : Fin 9) (anch : Bool) (entry : BitVec 54) (s : State) : Out :=
  let pay := payloadRegs a npay
  issue s 16 h { d := some d, xs := pay, dfu := d :: pay } fun x v s =>
    let e : Word := entry.setWidth 64 <<< 2
    withExtents s x [(v.d.toNat, 1), (e.toNat, 4)] (match namedAt s x v.d with
    | .error t => .trap t.1 0 t.2
    | .ok key =>
      match fetchable s (me s x).part x.loc (me s x).walk e.toNat with
      | .error c => .trap c 0 e.toNat
      | .ok _ => sending s x (
        let s := touch (touch s x v.d.toNat) x e.toNat
        let own := (me s x).inTask && servedAt key == x.loc
        let th := { freshTh (me s x).part false (!anch && !own) (me s x).qos e (pay.map fun r => (me s x).s[r]) with inTask := own }
        .go (addMsg s x (.spawn (servedAt key) ⟨th, false, own⟩))))

/-- The move itself; at the destination the instruction finds itself at home and completes. It is a release at its own location too (10 R247, R254).
DESIGN CHOICE: with a loop stack that cannot be packed it does not move (04 R118; log 17). -/
def execMigrate (h : Hdr) (a : SReg) (s : State) : Out :=
  issue s 16 h { a := some a, dfu := [a] } fun x v s =>
    if !roams (me s x) then .trap cPARAM 0 0
    else withExtents s x [(v.a.toNat, 1)] (match namedAt s x v.a with
      | .error t => .trap t.1 0 t.2
      | .ok key => release s x (
        if servedAt key = x.loc ∨ !(me s x).loops.all (packable (me s x).pc) then .go (touch s x v.a.toNat)
        else .wait (leave x (servedAt key))))

/-! ## RING (11 R272 to R277) -/

def Ring.bytes (r : Ring) : Nat := 1024 * 2 ^ (r.size.toNat - 1)
def Ring.start (r : Ring) : Nat := r.base.toNat * 1024

/-- The flat address of an LM offset of a core. -/
def lmAt (l : Loc) (off : Nat) : Nat :=
  match l with
  | .core d i => lmKey d i off
  | .slice d i => sliceKey d i off
  | .svc _ _ => 0

def setRing (s : State) (l : Loc) (k : Fin 8) (r : Ring) : State := modCore s l fun c => { c with rings := c.rings.set k r }

/-- A header granule (11 R274). -/
def ringHeader (tag : Word) (src slot kind len : Nat) : Nat :=
  tag.toNat * 2 ^ 64 + src % 2 ^ 17 * 2 ^ 47 + slot % 16 * 2 ^ 43 + kind % 16 * 2 ^ 39 + len % 2 ^ 18

def headerAt (s : State) (key : Nat) : Nat := ofBytes (s.mem.readN key 16)
def hdrLen (h : Nat) : Nat := h % 2 ^ 18
def hdrKind (h : Nat) : Nat := h / 2 ^ 39 % 16

/-- Writes a header of a sender's message last and sets its granule full. -/
def putHeader (s : State) (m : RingMsg) (key h : Nat) : State := fillGran (clearPoison (writeFor s m.pid m.thid key (toBytes 16 h)) key) key

/-- The payload padded to 16 bytes; the padding's contents are open. -/
def padded (s : State) (l : List Byte) : List Byte :=
  l ++ (List.range ((16 - l.length % 16) % 16)).map fun i => Config.freeByte (s.free + i)

/-- SRC of a message's headers (11 R274). -/
def senderNum (s : State) (m : RingMsg) : Nat := match part? s m.pid with | some p => whoNum p m.src | none => 0

/-- Writes a message at a ring offset: its payload, then its header. -/
def putMessage (s : State) (m : RingMsg) (off : Nat) : State :=
  let r := (core s m.dest).rings[m.k]
  let key := lmAt m.dest (r.start + off)
  let t := { writeFor s m.pid m.thid (key + 16) (padded s m.payload) with free := s.free + 16 }
  putHeader t m key (ringHeader m.tag (senderNum s m) m.slot 0 m.payload.length)

/-- A partition's messages for a ring that stand in a sender's spoil. -/
def ringSpoiled (s : State) (pid : Nat) (l : Loc) (k : Fin 8) : List RingMsg :=
  s.cores.flatMap fun c => c.2.ringSpoil.filter fun m => m.pid == pid && m.dest == l && m.k == k

/-- Placement (11 R273); `offer` is set for a message that already stands in spoil. Answers the status. -/
def placeRing (s : State) (m : RingMsg) (offer : Bool) : Nat × State :=
  let r := (core s m.dest).rings[m.k]
  let size := r.bytes
  let n := ringBytes m
  let tail := r.tail.toNat
  let used := (tail + size - r.head.toNat) % size
  let free := size - 16 - used
  let fin := size - tail
  if !r.en || size - 16 < n then (2, s)
  else if !offer && !(ringSpoiled s m.pid m.dest m.k).isEmpty then (1, s)
  else if n ≤ fin && n ≤ free then
    (0, setRing (putMessage s m tail) m.dest m.k { r with tail := BitVec.ofNat 18 ((tail + n) % size) })
  else if fin < n && fin + n ≤ free then
    let t := putHeader s m (lmAt m.dest (r.start + tail)) (ringHeader 0 (senderNum s m) m.slot 1 (fin - 16))
    (0, setRing (putMessage t m 0) m.dest m.k { r with tail := BitVec.ofNat 18 n })
  else (1, s)

/-- The oldest message of a ring in spoil. -/
def oldestSpoiled (s : State) (pid : Nat) (l : Loc) (k : Fin 8) : Option RingMsg :=
  (ringSpoiled s pid l k).foldl (fun best m => match best with | none => some m | some b => if m.id < b.id then some m else best) none

/-- RING_SPOIL_OFFER: spoiled messages are offered, oldest first, until one does not fit. -/
def offerRing (pid : Nat) (l : Loc) (k : Fin 8) : Nat → State → State
  | 0, s => s
  | fuel + 1, s =>
    match oldestSpoiled s pid l k with
    | none => s
    | some m =>
      if inboxed s m.dest pid false then s
      else match placeRing s m true with
      | (0, t) => offerRing pid l k fuel (rearm (modCore t m.src fun c => { c with ringSpoil := c.ringSpoil.filter fun y => y.id != m.id }) m.src m.pid)
      | _ => s

/-- The checks of R275 and the message; its payload is read once the release has let it issue. -/
def execRbSend (h : Hdr) (d a b c : SReg) (len : BitVec 18) (k : RingImm) (s : State) : Out :=
  issue s 16 h { a := some a, b := some b, c := some c, rd := some d, dfu := [a, b, c] } fun x v s =>
    match part? s (me s x).part with
    | none => .trap cPARAM 0 0
    | some p =>
      let own : Option Nat :=
        if 2 ^ 56 ≤ v.a.toNat then none
        else match place s p x.loc v.a.toNat len.toNat false with
          | .mem key => if isLm key && servedAt key == x.loc then some key else none
          | _ => none
      let dest := if v.c.toNat < 2 ^ 17 then coreOfRel p v.c.toNat else none
      match own, dest with
      | some key, some l =>
        if isSliceCore x.loc || 262112 < len.toNat || k.lo != 0 || k.hi != 0 || v.a.toNat % 16 ≠ 0 then .trap cPARAM 0 0
        else sending s x (
          if (List.range ((len.toNat + 15) / 16)).any fun i => poisoned s (key + 16 * i) then .trap cMEMERR 0 v.a.toNat
          else
          let m : RingMsg := ⟨s.nextId, p.pid, x.loc, x.slot.val, (me s x).thid, l, k.k, v.b, s.mem.readN key len.toNat⟩
          .park (setSt (addMsg s x (.ring m d)) x.loc x.slot (.parkMem (.message s.nextId))))
      | _, _ => .trap cPARAM 0 0

def msgReply (s : State) (m : Msg) (ws : List RegWrite) : State :=
  { dropMsg s m.id with msgReplies := s.msgReplies ++ [⟨m.id, m.src, m.slot, m.thid, m.part, ws, none, none⟩] }

/-- The status goes back to the sender (11 R275). -/
def ringStatus (s : State) (m : Msg) (d : SReg) (n : Nat) : State := msgReply s m [.s d (BitVec.ofNat 64 n) false]

/-- RING_MESSAGE_PLACE: placed, sent to the sender's spoil, or refused (11 R273, R275). -/
def execRingMessagePlace (id : Nat) (s : State) : Out :=
  match headMsg? s id with
  | none => .next s
  | some q =>
    match q.body with
    | .ring m d =>
      if inboxed s m.dest m.pid false then .next s
      else match placeRing s m false with
        | (0, t) => .next (ringStatus t q d 0)
        | (2, t) => .next (count (ringStatus t q d 2) (dieOf m.src) m.pid 11 1)
        | (_, t) =>
          if spoilFits t m.src m.pid (16 + ringBytes m) then
            let t1 := modCore (newId t).2 m.src fun c => { c with ringSpoil := c.ringSpoil ++ [{ m with id := t.nextId }] }
            .next (count (ringStatus t1 q d 1) (dieOf m.src) m.pid 10 1)
          else .next (spoilFull t m.src m.pid 2)
    | _ => .next s

/-- The loop of `rb.get` (11 R276); a skip header leads to offset 0. -/
def rbGet (s : State) (x : Cur) (d : SReg) (k : Fin 8) (nb : Bool) : Nat → Eff
  | 0 => .go s
  | fuel + 1 =>
    let r := (core s x.loc).rings[k]
    let off := r.start + r.head.toNat
    let key := lmAt x.loc off
    if poisoned s key then .trap cMEMERR 0 off
    else if !feFull s key then
      if nb then .go (putS s x d 0 false)
      else
        let t := parkOn s x (mkReq s x { va := BitVec.ofNat 64 off, size := 16, kind := .any, op := .ringWait } key)
        .park (enterList t (mkReq s x { va := BitVec.ofNat 64 off, size := 16, kind := .any, op := .ringWait } key) (granule key))
    else
      let h := headerAt s key
      if hdrKind h = 1 then rbGet (setRing (emptyGran s key) x.loc k { r with head := 0 }) x d k nb fuel
      else if 1 < hdrKind h then .trap cPARAM 0 0
      else .go (putS s x d (BitVec.ofNat 64 off) false)

def ringGet (s : State) (h : Hdr) (d : SReg) (k : Fin 8) (nb : Bool) : Out :=
  issue s 16 h { rd := some d } fun x _ s =>
    if isSliceCore x.loc || !(core s x.loc).rings[k].en then .trap cPARAM 0 0
    else if drained s x then rbGet s x d k nb 3 else .block .drain

def execRbGet (h : Hdr) (d : SReg) (k : Fin 8) (s : State) : Out := ringGet s h d k false
def execRbGetNb (h : Hdr) (d : SReg) (k : Fin 8) (s : State) : Out := ringGet s h d k true

/-- The message at HEAD is freed and spoiled messages are offered (11 R277). -/
def execRbFree (h : Hdr) (k : Fin 8) (s : State) : Out :=
  issue s 16 h {} fun x _ s =>
    let r := (core s x.loc).rings[k]
    let off := r.start + r.head.toNat
    let key := lmAt x.loc off
    if isSliceCore x.loc || !r.en then .trap cPARAM 0 0
    else if !drained s x then .block .drain
    else if r.head = r.tail then .trap cPARAM 0 0
    else if poisoned s key then .trap cMEMERR 0 off
    else if !feFull s key || hdrKind (headerAt s key) ≠ 0 then .trap cPARAM 0 0
    else
      let m := 16 + 16 * ((hdrLen (headerAt s key) + 15) / 16)
      let t := setRing (emptyGran s key) x.loc k { r with head := BitVec.ofNat 18 ((r.head.toNat + m) % r.bytes) }
      .go (offerRing (me s x).part x.loc k (ringSpoiled t (me s x).part x.loc k).length t)

/-! ## QCTL (11 R265 to R267) -/

def queueReg (q : Fin 4) : SReg := Fin.ofNat 32 (24 + q.val)

def execQsendc (h : Hdr) (q : Fin 4) (a : SReg) (s : State) : Out :=
  issue s 8 h { a := some a, rd := some (queueReg q), dfu := [a] } fun x v s => .go (enqueue s x.loc q v.a true)

/-- One byte of each half of the queue status word (11 R266). -/
def queueByte (s : State) (l : Loc) (links : BitVec 4) (q : Fin 4) : Nat :=
  let out := (core s l).links[q]
  let inn : LinkDir := match inboundOf l q with | some (m, e) => (core s m).links[e] | none => ⟨[], [], none, false⟩
  let link := links.getLsbD q.val
  let low := (if link then inn.words.length else 0)
    + 16 * (match inn.words ++ inn.spoiled with | w :: _ => (link && w.ctl).toNat | [] => 0)
    + 32 * (link && !inn.spoiled.isEmpty).toNat + 64 * (!link).toNat
  let high := (8 - out.words.length) + 16 * (!out.spoiled.isEmpty).toNat
  low * 2 ^ (8 * q.val) + high * 2 ^ (32 + 8 * q.val)

def queueStatus (s : State) (x : Cur) : Word :=
  let links := match part? s (me s x).part with | some p => linksOf p x.loc | none => 0
  BitVec.ofNat 64 (((List.finRange 4).map fun q => queueByte s x.loc links q).sum)

def lightWord (th : Thread) : Word := BitVec.ofNat 64 (th.lact.toNat * 2 ^ 63 + th.ldir.toNat * 2 ^ 56 + th.lret.toNat)

def execQstat (h : Hdr) (d : SReg) (sel : Fin 3) (s : State) : Out :=
  issue s 8 h { rd := some d } fun x _ s =>
    .go (putS s x d (match sel with | 0 => queueStatus s x | 1 => (me s x).lval | 2 => lightWord (me s x)) false)

/-- Outside a handler FN 2 counts as reserved, which a guard does not hide (03 R83). -/
def execQret (h : Hdr) (s : State) : Out :=
  issueIf s 8 h (fun th => th.lact) fun x _ s =>
    .jump (modTh s x.loc x.slot fun th => { th with lact := false }) ((me s x).lret.setWidth 64) false

/-! ## GRAPH (11 R282, R283) -/

/-- Whether a location belongs to the attention side. -/
def attnSide (l : Loc) : Bool := isAttn (dieOf l)

def execTgLaunch (h : Hdr) (d a : SReg) (n : BitVec 9) (s : State) : Out :=
  issue s 16 h { a := some a, rd := some d, dfu := [a] } fun x v s =>
    if n = 0 || 256 < n.toNat then .trap cPARAM 0 0
    else if v.a.toNat % 64 ≠ 0 then .trap cMISALIGN 0 v.a.toNat
    else withExtents s x [(v.a.toNat, 64 * n.toNat)] (match part? s (me s x).part with
      | none => .trap cTRANSLATION 0 v.a.toNat
      | some p => match xlateRange s p x.loc (me s x).walk .read 8 v.a.toNat (64 * n.toNat) with
        | .error e => .trap e.1 0 e.2
        | .ok xl => sending s x (
          let s := useExtents s p x.loc 8 v.a.toNat (64 * n.toNat)
          .park (setSt (addMsg s x (.launch (attnSide x.loc) ((List.range n.toNat).map fun i => (xlFind xl (v.a.toNat + 64 * i)).getD 0) d)) x.loc x.slot
            (.parkMem (.message s.nextId)))))

def execTgSignal (h : Hdr) (a : SReg) (t : BitVec 8) (s : State) : Out :=
  issue s 16 h { a := some a, dfu := [a] } fun x v s => sending s x (.go (addMsg s x (.signal (attnSide x.loc) v.a t.toNat)))

/-! ## Links and probes (11 R262, R270, R271) -/

/-- The running partition that owns a core. -/
def corePart (s : State) (l : Loc) : Option Partition :=
  match l with
  | .core d i => s.parts.find? fun p => ownsCore p d i && p.st == .running
  | _ => none

/-- LINK_GROW: a direction that has been full for more than 256 cycles. -/
def execLinkGrow (l : Loc) (dir : Fin 4) (s : State) : Out :=
  let d := (core s l).links[dir]
  match d.fullSince, corePart s l with
  | some c, some p =>
    if d.words.length = 8 && !d.growing && decide (c + 256 < s.cycle) then
      let t := count (modLink s l dir fun d => { d with growing := true }) (dieOf l) p.pid 8 1
      .next (if spoilFits t l p.pid 16 then t else spoilFull t l p.pid 0)
    else .next s
  | _, _ => .next s

/-- The queues whose words a slot is blocked for. -/
def blockedReads (s : State) (l : Loc) (k : Fin 16) : List (Fin 4) :=
  match (slotAt s l k).st with
  | .block (.queues needs _) _ => (needs.filter fun p => (inWords s l p.1).length < p.2).map Prod.fst
  | _ => []

def sendProbes (s : State) (l : Loc) (mk : Nat → Loc → Probe) (qs : List (Fin 4)) : State :=
  qs.foldl (fun s q => match inboundOf l q with
    | some (n, _) => { (newId s).2 with probes := s.probes ++ [mk s.nextId n] }
    | none => s) s

/-- DEADLOCK_PROBE_SEND: after DLLIMIT cycles in BLOCK, and every further DLLIMIT cycles. DESIGN CHOICE: a thread blocked on several queues at once sends
one probe for each queue that lacks a word; the rule speaks of a read of one queue (11 R270; log 61). -/
def execDeadlockProbeSend (l : Loc) (slot : Fin 16) (s : State) : Out :=
  let x := slotAt s l slot
  match x.st, part? s x.th.part with
  | .block (.queues _ _) since, some p =>
    if p.dllimit = 0 || s.cycle < max since x.probeAt + p.dllimit.toNat then .next s
    else
      let qs := (blockedReads s l slot).eraseDups
      if qs.isEmpty then .next s
      else
        let s := modSlot s l slot fun y => { y with probeAt := s.cycle }
        .next (qs.foldl (fun s q => sendProbes s l (fun id n => ⟨id, p.pid, l, slot.val, x.th.thid, q, since, n, l, [l]⟩) [q]) s)
  | _, _ => .next s

/-- A core that is waiting in the sense of R271. -/
def probeWaiting (s : State) (b : Probe) : Bool :=
  let c := core s b.at_
  ((List.finRange 16).all fun k => c.slots[k].st == .free || c.slots[k].th.part != b.part || !(blockedReads s b.at_ k).isEmpty)
    && c.spill.isEmpty
    && (List.finRange 4).all fun q => match inboundOf b.at_ q with
      | some (n, _) => n != b.from_ || (c.links[q].words.isEmpty && c.links[q].spoiled.isEmpty)
      | none => true

/-- The origin thread of a probe is still blocked on the same read (11 R271). -/
def stillBlocked (s : State) (b : Probe) : Bool :=
  let k : Fin 16 := Fin.ofNat 16 b.oslot
  let x := slotAt s b.origin k
  (blockedReads s b.origin k).contains b.oq && x.th.part == b.part && x.th.thid == b.othid
    && (match x.st with | .block _ since => since == b.osince | _ => false)

/-- DEADLOCK_PROBE_RECEIVE. -/
def execDeadlockProbeReceive (id : Nat) (s : State) : Out :=
  match s.probes.find? fun b => b.id == id with
  | none => .next s
  | some b =>
    let s := { s with probes := s.probes.filter fun y => y.id != id }
    if b.at_ = b.origin then
      if stillBlocked s b then
        .next (raiseEvent s (dieOf b.origin) { KEvent.base with
          kind := .fault, reason := 1, pid := b.part, cause := 34, detail := b.path.length, who := some (b.origin, b.oslot), thid := b.othid, cores := b.path })
      else .next s
    else if !probeWaiting s b then .next s
    else if 32 < b.path.length + 1 then .next (count s (dieOf b.at_) b.part 7 1)
    else
      let qs := ((List.finRange 16).flatMap fun k => if (core s b.at_).slots[k].th.part = b.part then blockedReads s b.at_ k else []).eraseDups
      .next (sendProbes s b.at_ (fun i n => { b with id := i, at_ := n, from_ := b.at_, path := b.path ++ [b.at_] }) qs)

end Sys2Proof.Machine
end

