-- ==== Sys2Proof/Machine/System.lean ====
section
/-! DEFINITION. The SYS family: control registers, return from trap, firmware calls, cache invalidation, kiln swap (04 R121 to R130; 15 R364 to R369; 11 R272). -/

namespace Sys2Proof.Machine

/-! ## The values of control registers -/

def twmWord (t : Twm) : Nat := t.seq.toNat * 2 ^ 8 + t.rows % 32
def tstatWord (t : Tstat) : Nat := t.clamp % 2 ^ 16 + t.nancv % 2 ^ 16 * 2 ^ 16 + t.sat.toNat * 2 ^ 32 + t.cempty.toNat * 2 ^ 33
def ringWord (r : Ring) : Nat :=
  r.en.toNat + r.size.toNat * 2 ^ 5 + r.base.toNat * 2 ^ 9 + r.head.toNat * 2 ^ 18 + r.tail.toNat * 2 ^ 36

/-- COREID (04 R127): SVC and a quadrant, SLICE and a slice, or a core's number in the view. -/
def coreIdOf (p : Option Partition) (priv : Bool) : Loc → Nat
  | .svc _ q => 2 ^ 21 + q % 4
  | .slice _ i => 2 ^ 20 + i % 64
  | .core d i => if priv then i / meshCols d * 64 + i % meshCols d else match p with | some p => relCore p d i | none => 0

def dieIdOf (p : Option Partition) (priv : Bool) (d : Nat) : Nat :=
  if priv then d else match p with | some p => userDie p d | none => 0

/-- PARTID (04 R127): the user view reads 1 where a node is held. -/
def partIdOf (p : Option Partition) (priv : Bool) : Nat :=
  match p with
  | none => 0
  | some p => if priv then partIdWord p else 1 + (if p.attention.isSome then 2 ^ 11 else 0)

/-- The value of a control register in the issuing thread's view; none where it is absent from that view (04 R121). -/
def cregRead (s : State) (x : Cur) (r : CReg) : Option Word :=
  let th := me s x
  let c := core s x.loc
  let p := part? s th.part
  let n (v : Nat) : Option Word := some (BitVec.ofNat 64 v)
  match r with
  | .thid => some th.thid
  | .coreid => n (coreIdOf p th.priv x.loc)
  | .dieid => n (dieIdOf p th.priv (dieOf x.loc))
  | .partid => n (partIdOf p th.priv)
  | .stamp => n (match p with | some p => p.stamp.toNat | none => 0)
  | .cycle => n s.cycle
  | .fpmode => some (th.fpmode.setWidth 64)
  | .qos => some (th.qos.setWidth 64)
  | .tvec => some th.tvec
  | .tcause => some th.tcause
  | .tpc => some th.tpc
  | .tword0 => some th.tword0
  | .tword1 => some th.tword1
  | .taddr => some th.taddr
  | .pvec => if th.priv then some c.pvec else none
  | .qhvec => some th.qhvec
  | .twm k => n (twmWord c.twm[k])
  | .tstat k => n (tstatWord c.tstat[k])
  | .tpra => some th.tpra
  | .dllimit => n (match p with | some p => p.dllimit.toNat | none => 0)
  | .agemax => n (match p with | some p => p.agemax.toNat | none => 0)
  | .ringcfg k => n (ringWord c.rings[k])
  | .ckptid => some (th.ckptid.setWidth 64)
  | .kilnver => n (match p.bind fun p => nodeOf p (isAttn (dieOf x.loc)) with | some y => y.kilnver.toNat | none => 0)

/-- Whether a register is "rw" in a view (04 R121). -/
def CReg.writable (priv : Bool) : CReg → Bool
  | .fpmode | .qos | .tvec | .tcause | .tpc | .tword0 | .tword1 | .taddr | .qhvec | .tstat _ | .tpra | .ringcfg _ => true
  | .stamp | .pvec | .dllimit | .agemax | .ckptid => priv
  | _ => false

/-- The number of a reserved bit is written as zero: the masks of 04 R123 to R130 (00 R16). -/
def maskTo (m : Word) (v : Word) : Word := v &&& m

/-- A rounding mode is written only if it is one of 001 to 100 (04 R124). -/
def fpmodeWrite (old : BitVec 8) (v : Word) : BitVec 8 :=
  let rm := bitsAt v 7 5
  (v.setWidth 8 &&& 0x1F) ||| (if 1 ≤ rm ∧ rm ≤ 4 then v.setWidth 8 &&& 0xE0 else old &&& 0xE0)

/-- Writes a control register other than RINGCFG (04 R121 to R129). -/
def cregWrite (s : State) (x : Cur) (r : CReg) (v : Word) : State :=
  let th (f : Thread → Thread) : State := modTh s x.loc x.slot f
  let pid := (me s x).part
  match r with
  | .stamp => modPart s pid fun p => { p with stamp := v.setWidth 16 }
  | .fpmode => th fun t => { t with fpmode := fpmodeWrite t.fpmode v }
  | .qos => th fun t => { t with qos := v.setWidth 2 }
  | .tvec => th fun t => { t with tvec := maskTo (~~~ 3#64) v }
  | .tcause => th fun t => { t with tcause := maskTo 0xFFFF00FF#64 v }
  | .tpc => th fun t => { t with tpc := v }
  | .tword0 => th fun t => { t with tword0 := v }
  | .tword1 => th fun t => { t with tword1 := v }
  | .taddr => th fun t => { t with taddr := maskTo 0x00FFFFFFFFFFFFFF#64 v }
  | .pvec => modCore s x.loc fun c => { c with pvec := maskTo (~~~ 3#64) v }
  | .qhvec => th fun t => { t with qhvec := maskTo (~~~ 3#64) v }
  | .tstat k => modCore s x.loc fun c => { c with tstat := c.tstat.set k ⟨bitsAt v 15 0, bitsAt v 31 16, v.getLsbD 32, v.getLsbD 33⟩ }
  | .tpra => th fun t => { t with tpra := maskTo (~~~ 31#64) v }
  | .dllimit => modPart s pid fun p => { p with dllimit := v.setWidth 32 }
  | .agemax => modPart s pid fun p => { p with agemax := if bitsAt v 31 0 < 4096 then 4096 else v.setWidth 32 }
  | .ckptid => th fun t => { t with ckptid := v.setWidth 16 }
  | _ => s

/-- `cset` of a register with the checks of the view (04 R122). -/
def csetAct (s : State) (h : Hdr) (a : SReg) (r : CReg) (act : Cur → Word → State → Eff) : Out :=
  issue s 8 h { a := some a, dfu := [a] } fun x v s =>
    if !CReg.writable (me s x).priv r then .trap cPRIV 0 0 else act x v.a s

def execCget (h : Hdr) (d : SReg) (r : CReg) (s : State) : Out :=
  issue s 8 h { rd := some d } fun x _ s =>
    match cregRead s x r with
    | some v => .go (putS s x d v false)
    | none => .trap cPRIV 0 0

def execCset (h : Hdr) (a : SReg) (r : CReg) (s : State) : Out :=
  csetAct s h a r fun x v s => .go (cregWrite s x r v)

def execCsetFpmode (h : Hdr) (a : SReg) (s : State) : Out :=
  csetAct s h a .fpmode fun x v s => .go (cregWrite s x .fpmode v)

def execCsetAgemax (h : Hdr) (a : SReg) (s : State) : Out :=
  csetAct s h a .agemax fun x v s => .go (cregWrite s x .agemax v)

/-! ## RINGCFG (04 R130, 11 R272) -/

/-- The fields of a RINGCFG value. -/
def ringOf (v : Word) : Ring :=
  ⟨v.getLsbD 0, BitVec.ofNat 4 (bitsAt v 8 5), BitVec.ofNat 9 (bitsAt v 17 9), BitVec.ofNat 18 (bitsAt v 35 18), BitVec.ofNat 18 (bitsAt v 53 36)⟩

/-- The conditions of an enabled ring. -/
def ringOk (r : Ring) : Bool :=
  1 ≤ r.size.toNat && r.size.toNat ≤ 9 && r.start % r.bytes == 0 && r.start + r.bytes ≤ 0x5C000
    && r.head.toNat < r.bytes && r.tail.toNat < r.bytes && r.head.toNat % 16 == 0 && r.tail.toNat % 16 == 0

/-- Enabling sets every granule of the ring empty. -/
def emptyRing (s : State) (l : Loc) (r : Ring) : State :=
  (List.range (r.bytes / 16)).foldl (fun s i => emptyGran s (lmAt l (r.start + 16 * i))) s

def execCsetRingcfg (h : Hdr) (a : SReg) (k : Fin 8) (s : State) : Out :=
  csetAct s h a (.ringcfg k) fun x v s =>
    let old := (core s x.loc).rings[k]
    let new := ringOf v
    if new.en && !ringOk new then .trap cPARAM 0 0
    else if old.en && (old.head != old.tail || !(ringSpoiled s (me s x).part x.loc k).isEmpty) then .trap cPARAM 0 0
    else
      let t := setRing s x.loc k new
      .go (if new.en && !old.en && !isSliceCore x.loc then emptyRing t x.loc new else t)

/-! ## Return from a trap and firmware calls -/

def execEret (h : Hdr) (s : State) : Out :=
  issueIf s 8 h Thread.thact fun x _ s => .jump (modTh s x.loc x.slot returnTrap) ((me s x).tpc &&& ~~~ 3#64) false

/-- The flat address of a request block, within its limits (15 R366): own LM below 0x5C000, or an owned unit of the slice core's own slice. -/
def blockKey (s : State) (p : Partition) (l : Loc) (va : Nat) : Option Nat :=
  if va % 64 ≠ 0 || 2 ^ 56 ≤ va then none
  else match place s p l va 64 false with
    | .mem key =>
      let own : Bool := servedAt key == l
      match l with
      | .core _ _ => if own && isLm key then some key else none
      | .slice _ _ => if own && isSlice key then some key else none
      | .svc _ _ => none
    | _ => none

def execPcall (h : Hdr) (d a : SReg) (svc : BitVec 16) (s : State) : Out :=
  issue s 8 h { a := some a, rd := some d, dfu := [a] } fun x v s =>
    if (me s x).priv then .trap cPRIV 0 0
    else
      let go (b : Option Nat) : Eff := sending s x
        (.park (setSt (addMsg s x (.pcall (svcCoreOf x.loc) svc.toNat b d)) x.loc x.slot (.parkMem (.message s.nextId))))
      if v.a = 0 then go none
      else match (part? s (me s x).part).bind fun p => blockKey s p x.loc v.a.toNat with
        | some key => go (some key)
        | none => .trap cPARAM 0 0

/-- Every fetch from now on observes the stores performed before (03 R97, 15 R367). -/
def execIfl (h : Hdr) (s : State) : Out :=
  issue s 8 h {} fun x _ s =>
    if drained s x then .go (modCore s x.loc fun c => { c with ifetch := some s.mem }) else .block .drain

def execLfl (h : Hdr) (s : State) : Out :=
  issue s 8 h {} fun x _ s => .go (modCore s x.loc fun c => { c with lcache := [] })

/-- The swap is asked of the master of the node that holds the issuing thread's die (15 R368, 12 R303). -/
def execKswap (h : Hdr) (d : SReg) (s : State) : Out :=
  issue s 8 h { rd := some d } fun x _ s =>
    let th := me s x
    .park (setSt { (newId s).2 with kswaps := s.kswaps ++ [⟨s.nextId, x.loc, x.slot.val, th.thid, th.part, isAttn (dieOf x.loc), d⟩] }
      x.loc x.slot (.parkMem (.message s.nextId)))

end Sys2Proof.Machine
end

