-- ==== Sys2Proof/Machine/Distrib.lean ====
section
/-! DEFINITION. A die's distributor: groups, ready entries, placement of tile tasks, their start and completion (01 R36 to R38; 12 R286, R290 to R296). -/

namespace Sys2Proof.Machine

/-! ## Groups (12 R292) -/

/-- The kiln clock runs three times for each cycle (00 R3). -/
def kilnNow (s : State) : Nat := 3 * s.cycle

def groupsOn (d : Nat) : Nat := if isAttn d then 16 else 64

/-- Whether group `g` of a die belongs to a partition. -/
def groupHas (p : Partition) (d g : Nat) : Bool :=
  match nodeOf p (isAttn d) with
  | some n => nodeHasLeaf (isAttn d) n.node (leafOf d g)
  | none => false

/-- The cores of a group, in ascending number. -/
def groupCores (d g : Nat) : List Loc :=
  let r := if isAttn d then g / 4 * 8 else g / 32 * 32 + g % 16 / 4 * 8
  let c := if isAttn d then g % 4 * 8 else g / 16 % 2 * 32 + g % 4 * 8
  (List.range 64).map fun k => .core d ((r + k / 8) * meshCols d + c + k % 8)

def groupsOf (p : Partition) (d : Nat) : List Nat := (List.range (groupsOn d)).filter (groupHas p d)

/-- Cores of a group with no tile task. -/
def idleCores (s : State) (d g : Nat) : Nat := ((groupCores d g).filter fun l => (core s l).task.isNone).length

def saveOf (p : Partition) (id : Nat) : Option Save := p.saves.find? fun v => v.id == id

/-- The slots that the saved threads of a returned entry held. -/
def heldSlots (p : Partition) (e : ReadyEntry) : List Nat :=
  match e.saved.bind (saveOf p) with
  | some v => v.slots.map Prod.fst
  | none => []

def slotUnused (c : Core) (k : Fin 16) : Bool := c.slots[k].st == .free && !c.slots[k].reserved

/-- A core that can take an entry's head instance (12 R292). -/
def canTake (s : State) (p : Partition) (e : ReadyEntry) (l : Loc) : Bool :=
  let c := core s l
  c.task.isNone && e.t.threads ≤ ((List.finRange 16).filter (slotUnused c)).length
    && (heldSlots p e).all fun k => slotUnused c (Fin.ofNat 16 k)

def groupAble (s : State) (p : Partition) (d : Nat) (e : ReadyEntry) (g : Nat) : Bool := groupHas p d g && (groupCores d g).any (canTake s p e)

def ableGroups (s : State) (p : Partition) (d : Nat) (e : ReadyEntry) : List Nat := (groupsOf p d).filter (groupAble s p d e)

/-- The able group with the most cores without a tile task, the lower number on ties (12 R293). -/
def leastLoaded (s : State) (p : Partition) (d : Nat) (e : ReadyEntry) : Option Nat :=
  (ableGroups s p d e).foldl (fun best g => match best with
    | none => some g
    | some b => if idleCores s d b < idleCores s d g then some g else best) none

/-! ## Ready entries (12 R286, R296) -/

def entriesAt (s : State) (d pid level : Nat) : List ReadyEntry := (die s d).ready.filter fun e => e.pid == pid && e.level == level

def oldestOf (l : List ReadyEntry) : Option ReadyEntry :=
  l.foldl (fun best e => match best with
    | none => some e
    | some b => if e.origin < b.origin then some e else best) none

/-- The oldest ready entry of a level. -/
def headEntry (s : State) (d pid level : Nat) : Option ReadyEntry := oldestOf (entriesAt s d pid level)

def levels : List Nat := [7, 6, 5, 4, 3, 2, 1, 0]

def entryAge (s : State) (e : ReadyEntry) : Nat := kilnNow s - e.origin

def agedEntry (s : State) (p : Partition) (e : ReadyEntry) : Bool := decide (p.agemax.toNat < entryAge s e)

/-- The tile tasks of a partition that run on a die: started, and not killed. -/
def tasksOn (s : State) (d pid : Nat) : List (Loc × Task) :=
  s.cores.filterMap fun c => match c.2.task with
    | some t => if dieOf c.1 = d ∧ !isSliceCore c.1 ∧ t.pid = pid ∧ t.started ∧ t.killed.isNone then some (c.1, t) else none
    | none => none

/-- The levels of a partition's tile tasks on a die, from their dispatch on (12 R292). -/
def levelsOn (s : State) (d pid : Nat) : List Nat :=
  s.cores.filterMap fun c => match c.2.task with
    | some t => if dieOf c.1 = d ∧ !isSliceCore c.1 ∧ t.pid = pid ∧ t.killed.isNone then some t.level else none
    | none => none

/-- Those whose core is not yet being pre-empted. -/
def victims (s : State) (d pid : Nat) : List (Loc × Task) :=
  (tasksOn s d pid).filter fun t => (core s t.1).preempt.isEmpty && !(s.preReqs.any fun q => q.loc == t.1)

/-- Whether a level's head finds no able group while lower work of the partition runs on the die (12 R290). -/
def prioCond (s : State) (p : Partition) (d lv : Nat) : Bool :=
  match headEntry s d p.pid lv with
  | some e => (ableGroups s p d e).isEmpty && (tasksOn s d p.pid).any fun t => t.2.level < lv
  | none => false

/-- The PRIORITY events of a partition on a die: one for each level at which the condition has arisen; `prio` keeps the levels whose event was raised,
until it has passed (12 R290). -/
def settlePrioAt (s : State) (d : Nat) (p : Partition) : State :=
  levels.foldl (fun s lv =>
    let was := (diePart s d p.pid).prio.getLsbD lv
    let now := prioCond s p d lv
    if now == was then s
    else
      let s := modDiePart s d p.pid fun y => { y with prio := y.prio ^^^ (1#8 <<< lv) }
      if now then raiseEvent s d { KEvent.base with kind := .preempt, reason := 0, pid := p.pid, level := lv } else s) s

/-- The same for every partition on every die: after each act (12 R290). -/
def settlePrio (s : State) : State :=
  (List.range 20).foldl (fun s d => (die s d).parts.foldl (fun s y => match part? s y.pid with
    | some p => if (die s d).ready.isEmpty && y.prio == 0#8 then s else settlePrioAt s d p
    | none => s) s) s

/-- A ready entry is written; a PRIORITY event of its level may follow for it (12 R286, R290). -/
def enterReady (s : State) (d : Nat) (e : ReadyEntry) : State :=
  let t := modDiePart (modDie s d fun y => { y with ready := y.ready ++ [e] }) d e.pid fun y => { y with prio := y.prio &&& ~~~ (1#8 <<< e.level) }
  raiseEvent t d { KEvent.base with kind := .dispatch, reason := 0, pid := e.pid, level := e.level }

/-- A dispatch takes the next index of an entry. -/
def takeIndex (l : List ReadyEntry) (e : ReadyEntry) : List ReadyEntry :=
  if e.next < e.last then l.map fun y => if y = e then { y with next := y.next + 1 } else y else l.erase e

/-! ## Placement (01 R36, 07 R176, 12 R295) -/

/-- The tile state of a newly bound task. -/
def bindTiles (c : Core) : Core :=
  { c with
    tiles := Vector.replicate 64 0, types := Vector.replicate 4 .fp32, held := 0
    m := (Vector.replicate 16 0).set 0 (BitVec.allOnes 64)
    twm := Vector.replicate 4 ⟨0, 16⟩, tstat := Vector.replicate 4 ⟨0, 0, false, false⟩
    weights := none, shadow := none, maskSet := MaskSet.reset, meq := [], nmq := [] }

/-- The slots a task reserves: those its saved threads hold as reserved ones, and up to THREADS the lowest-numbered unused ones that none of its saved
threads holds (15 R376). -/
def reserveSlots (c : Core) (n : Nat) (first held : List Nat) : List Nat :=
  let free := ((List.finRange 16).filter (slotUnused c)).map Fin.val
  let more := (free.filter fun k => !held.contains k).take (n - first.length)
  (List.range 16).filter fun k => first.contains k || more.contains k

def heldReserved (p : Partition) (e : ReadyEntry) : List Nat :=
  match e.saved.bind (saveOf p) with
  | some v => (v.slots.filter fun q => q.2.reserved).map Prod.fst
  | none => []

def setReserved (c : Core) (slots : List Nat) (v : Bool) : Core :=
  { c with slots := Vector.ofFn fun k => if slots.contains k.val then { c.slots[k] with reserved := v } else c.slots[k] }

/-- Binds the head instance of an entry to a core and sends its start message. -/
def placeTask (s : State) (p : Partition) (d : Nat) (e : ReadyEntry) (l : Loc) : State :=
  let slots := reserveSlots (core s l) e.t.threads (heldReserved p e) (heldSlots p e)
  let t : Task := ⟨e.pid, e.attn, e.gslot, e.gen, e.tmpl, e.next, e.level, e.t.tclass, e.t.threads, e.t.lmneed, slots, e.origin, s.nextId, false, none⟩
  let bind (c : Core) : Core := setReserved { (if e.saved.isSome then c else bindTiles c) with task := some t } slots true
  let s1 := modDie (modCore (newId s).2 l bind) d fun y => { y with ready := takeIndex y.ready e }
  { s1 with starts := s1.starts ++ [⟨s.nextId, l, e, e.next⟩] }

/-- DISPATCH of an entry to a group, then AGAIN if work and a group remain (12 R290, R295). -/
def dispatchTo (s : State) (p : Partition) (d : Nat) (e : ReadyEntry) (g : Nat) : State :=
  match (groupCores d g).find? (canTake s p e) with
  | none => s
  | some l =>
    let t := placeTask s p d e l
    let more : Bool := levels.any fun lv => match headEntry t d p.pid lv with
      | some y => !(ableGroups t p d y).isEmpty
      | none => false
    if more then raiseEvent t d { KEvent.base with kind := .dispatch, reason := 2, pid := p.pid } else t

/-! ## Start and completion (01 R37, R38) -/

/-- A ONCE instance of the master's own die waits for the commit of the change that made it ready (12 R285). -/
def startAllowed (s : State) (p : Partition) (st : Start) : Bool :=
  p.st == .running && (core s st.loc).preempt.isEmpty
    && (!st.entry.t.once || match nodeOf p st.entry.attn with | some n => decide (st.entry.ver ≤ n.acked) | none => true)

/-- The first thread of a tile task: s1 the index, s2 to s9 the argument block. -/
def firstThread (e : ReadyEntry) (idx : Nat) : Thread :=
  { freshTh e.pid false false e.t.tclass (BitVec.ofNat 64 e.t.entry) (BitVec.ofNat 64 idx :: e.t.args.toList) with inTask := true }

/-- TASK_START: a fresh instance's first thread enters RUN in reserved slot 0. -/
def execTaskStart (id : Nat) (s : State) : Out :=
  match s.starts.find? fun y => y.id == id with
  | none => .next s
  | some st =>
    match part? s st.entry.pid, (core s st.loc).task with
    | some p, some t =>
      if st.entry.saved.isNone && startAllowed s p st && !t.started then
        let k : Fin 16 := Fin.ofNat 16 (t.slots.headD 0)
        let s1 := modCore { s with starts := s.starts.filter fun y => y.id != id } st.loc fun c => { c with task := some { t with started := true } }
        .next (placeIn s1 st.loc k ⟨firstThread st.entry st.idx, false, true⟩)
      else .next s
    | _, _ => .next { s with starts := s.starts.filter fun y => y.id != id }

/-- Whether a command was issued by a thread of the task: the ME's and the NM port's all are, the others by the slot they came from. -/
def isTaskCmd (t : Task) (q : EngCmd) : Bool := q.part == t.pid && t.slots.contains q.slot

def taskCmds (c : Core) (t : Task) : Bool :=
  !c.meq.isEmpty || !c.nmq.isEmpty || c.ieq.any (isTaskCmd t) || c.teq.any (isTaskCmd t) || c.peq.any (isTaskCmd t)

/-- A spawn of the task's own threads onto their own core that has not taken its slot. -/
def taskArrivals (s : State) (l : Loc) : Bool :=
  let c := core s l
  (s.msgs.any fun m => match m.body with | .spawn d a => d == l && a.reservedKind | _ => false)
    || (c.spill ++ c.spillSpoil ++ c.inbox).any fun a => a.reservedKind

/-- The core loses its tile task: its tiles, those still held among them (07 R178), its reserved slots and LM extent are released, and the end is
reported. -/
def releaseTask (s : State) (l : Loc) (t : Task) (how : InstEnd) : State :=
  let s1 := modCore (newId s).2 l fun c => setReserved { c with task := none, held := 0 } t.slots false
  raiseEvent { s1 with reports := s1.reports ++ [⟨s.nextId, dieOf l, t.pid, t.attn, t.gslot, t.gen, t.tmpl, t.idx, how⟩] } (dieOf l)
    { KEvent.base with kind := .dispatch, reason := 1, pid := t.pid }

/-- Whether accesses of a killed task's threads are still to be performed (10 R255). -/
def killedOpen (s : State) (t : Task) (ths : List Word) : Bool :=
  s.reqs.any fun r => r.part == t.pid && ths.contains r.thid && r.undone

/-- TASK_COMPLETE: the task's threads have ended and its accesses and commands are performed (01 R38; 10 R255); for a killed instance its end is
reported once its accesses are (12 R295). -/
def execTaskComplete (l : Loc) (s : State) : Out :=
  let c := core s l
  match c.task with
  | none => .next s
  | some t =>
    match t.killed with
    | some ths => if killedOpen s t ths || taskCmds c t then .next s else .next (releaseTask s l t .killed)
    | none =>
      if t.started && (t.slots.all fun k => c.slots[Fin.ofNat 16 k].st == .free) && !taskCmds c t && !taskArrivals s l then
        .next (releaseTask s l t .complete)
      else .next s

/-- READY_AGE_EXPIRE: an entry's age passes AGEMAX, which raises DISPATCH with reason AGE (12 R290). -/
def execReadyAgeExpire (d entry : Nat) (s : State) : Out :=
  match (die s d).ready[entry]? with
  | none => .next s
  | some e =>
    match part? s e.pid with
    | none => .next s
    | some p =>
      if agedEntry s p e && !e.aged then
        let t := modDie s d fun y => { y with ready := y.ready.map fun z => if z = e then { z with aged := true } else z }
        .next (raiseEvent t d { KEvent.base with kind := .dispatch, reason := 3, pid := e.pid, level := e.level })
      else .next s

end Sys2Proof.Machine
end

