-- ==== Sys2Proof/Machine/Fp.lean ====
section
/-! DEFINITION. The meanings of FALU, FCMP and FCVT (05 R140 to R143). -/

namespace Sys2Proof.Machine

/-- The FP32 pattern in bits [31:0] of a source (04 R111). -/
def f32 (v : Word) : Nat := v.toNat % 2 ^ 32

/-- Writes an FP32 result, bits [63:32] zero, and its flags (04 R111, 02 R59). -/
def putF (s : State) (x : Cur) (d : SReg) (r : Nat × BitVec 5) (df : Bool) : State :=
  modTh (putS s x d (BitVec.ofNat 64 (r.1 % 2 ^ 32)) df) x.loc x.slot (orFlags r.2)

/-- A FALU form with two operands, rounding by FPMODE.RM. -/
def fp2 (s : State) (h : Hdr) (d a b : SReg) (f : Rnd → Nat → Nat → Nat × BitVec 5) : Out :=
  issue s 8 h { a := some a, b := some b, rd := some d } fun x v s =>
    .go (putF s x d (f (modeOf (me s x)) (f32 v.a) (f32 v.b)) v.df)

def fp1 (s : State) (h : Hdr) (d a : SReg) (f : Nat → Nat) : Out :=
  issue s 8 h { a := some a, rd := some d } fun x v s => .go (putF s x d (f (f32 v.a), 0) v.df)

/-- A long FALU result, written 16 cycles after issue (05 R131). -/
def fpLong (s : State) (x : Cur) (d : SReg) (r : Nat × BitVec 5) (df : Bool) : Eff :=
  goLong s x .alu (s.cycle + 16) [.s d (BitVec.ofNat 64 (r.1 % 2 ^ 32)) df] r.2

def execFadd (h : Hdr) (d a b : SReg) (s : State) : Out := fp2 s h d a b (fpAdd fp32)
def execFsub (h : Hdr) (d a b : SReg) (s : State) : Out := fp2 s h d a b (fpSub fp32)
def execFmul (h : Hdr) (d a b : SReg) (s : State) : Out := fp2 s h d a b (fpMul fp32)
def execFdiv (h : Hdr) (d a b : SReg) (s : State) : Out :=
  issue s 8 h { a := some a, b := some b, rd := some d } fun x v s =>
    fpLong s x d (fpDiv fp32 (modeOf (me s x)) (f32 v.a) (f32 v.b)) v.df
def execFsqrt (h : Hdr) (d a : SReg) (s : State) : Out :=
  issue s 8 h { a := some a, rd := some d } fun x v s => fpLong s x d (fpSqrt fp32 (modeOf (me s x)) (f32 v.a)) v.df
def execFmin (h : Hdr) (d a b : SReg) (s : State) : Out := fp2 s h d a b fun _ x y => (fpMinMax fp32 false x y, 0)
def execFmax (h : Hdr) (d a b : SReg) (s : State) : Out := fp2 s h d a b fun _ x y => (fpMinMax fp32 true x y, 0)
def execFabs (h : Hdr) (d a : SReg) (s : State) : Out := fp1 s h d a (fpAbs fp32)
def execFneg (h : Hdr) (d a : SReg) (s : State) : Out := fp1 s h d a (fpNeg fp32)

/-- a × b + d with one rounding; D is also a source. -/
def execFma (h : Hdr) (d a b : SReg) (s : State) : Out :=
  issue s 8 h { a := some a, b := some b, d := some d, rd := some d } fun x v s =>
    .go (putF s x d (fpFma fp32 (modeOf (me s x)) (f32 v.a) (f32 v.b) (f32 v.d)) v.df)

/-- FCMP (05 R142). -/
def fcmp2 (s : State) (h : Hdr) (d : PDst) (a b : SReg) (k : FpCmp) : Out :=
  issue s 8 h { a := some a, b := some b, dfu := [a, b] } fun x v s =>
    let r := fpCompare fp32 k (f32 v.a) (f32 v.b)
    .go (modTh (putP s x d r.1) x.loc x.slot (orFlags r.2))

def execFeq (h : Hdr) (d : PDst) (a b : SReg) (s : State) : Out := fcmp2 s h d a b .eq
def execFlt (h : Hdr) (d : PDst) (a b : SReg) (s : State) : Out := fcmp2 s h d a b .lt
def execFle (h : Hdr) (d : PDst) (a b : SReg) (s : State) : Out := fcmp2 s h d a b .le
def execFunord (h : Hdr) (d : PDst) (a b : SReg) (s : State) : Out := fcmp2 s h d a b .un

/-- The value of an FCVT source (05 R143). -/
def cvtSrc (f : CvtFmt) (v : Word) : FpVal :=
  match f with
  | .fp32 => fp32.val (v.toNat % 2 ^ 32)
  | .bf16 => bf16.val (v.toNat % 2 ^ 16)
  | .fp16 => fp16.val (v.toNat % 2 ^ 16)
  | .i32 => ofInt (sintOf 32 v.toNat)
  | .n32 => ofInt ((v.toNat % 2 ^ 32 : Nat) : Int)
  | .i64 => ofInt v.toInt

/-- An FCVT result and its flags (05 R143). -/
def cvtDst (mode : Rnd) (f : CvtFmt) (v : FpVal) : Word × BitVec 5 :=
  let fp (g : FpFmt) : Word × BitVec 5 := let r := roundVal g mode v; (BitVec.ofNat 64 r.1, r.2)
  match f with
  | .fp32 => fp fp32
  | .bf16 => fp bf16
  | .fp16 => fp fp16
  | .i32 => let r := fpToInt mode 32 true v; (BitVec.ofInt 64 r.1, r.2)
  | .n32 => let r := fpToInt mode 32 false v; (BitVec.ofInt 64 r.1, r.2)
  | .i64 => let r := fpToInt mode 64 true v; (BitVec.ofInt 64 r.1, r.2)

def execFcvt (h : Hdr) (src dst : CvtFmt) (d a : SReg) (s : State) : Out :=
  issue s 8 h { a := some a, rd := some d } fun x v s =>
    let r := cvtDst (modeOf (me s x)) dst (cvtSrc src v.a)
    .go (modTh (putS s x d r.1 v.df) x.loc x.slot (orFlags r.2))

end Sys2Proof.Machine
end

