-- ==== Sys2Proof/Machine/Preempt.lean ====
section
/-! DEFINITION. Pre-emption, saving and restoring of cores, pauses, time-share switches, kills, counter snapshots (01 R46; 12 R295, R296; 15 R370 to R379; 16 R383). -/

namespace Sys2Proof.Machine

/-! ## Interrupts (15 R379) and counter snapshots (16 R383) -/

/-- Latched vectors are sent when the partition becomes RUNNING; those of an older stamp are dropped and counted. -/
def deliverIrqs (s : State) (pid : Nat) : State :=
  match part? s pid with
  | none => s
  | some p =>
    let t := modPart s pid fun p => { p with irq := [] }
    p.irq.reverse.foldl (fun s v =>
      if v.2 = p.stamp then { s with host := s.host ++ [.interrupt (partIdWord p) v.1 v.2] } else count s (masterDie s p false) pid 22 1) t

/-- Dword 0 of a partition's counter block on a die. -/
def blockHead (p : Partition) (d seq : Nat) : Nat := seq % 2 ^ 32 * 2 ^ 32 + p.stamp.toNat * 2 ^ 16 + userDie p d % 32

/-- Dword k of a block, from the counters that a snapshot took. -/
def blockDword (cnt : Vector Nat 24) (k : Nat) : Nat := if h : k < 24 then cnt[k] else 0

def putDword (s : State) (p : Partition) (d k v : Nat) : State :=
  { s with mem := s.mem.writeN (hbmKey (p.counterArea + 512 * userDie p d + 8 * k)) (toBytes 8 v) }

/-- A snapshot of a partition's block on a die is due in this cycle (16 R383). -/
def snapMark (s : State) (d pid : Nat) : State := modDiePart s d pid fun q => { q with snapDue := true }

/-- The same on each of its dies that is not fenced: it enters PAUSED or DESCHEDULED. -/
def snapshotAll (s : State) (p : Partition) : State := ((dieList p).filter fun d => !(die s d).fenced).foldl (fun s d => snapMark s d p.pid) s

/-- Whether a snapshot that is due has not begun; the cycle does not end before it has (16 R382). -/
def snapsDue (s : State) : Bool := (List.range 20).any fun d => !(die s d).fenced && (die s d).parts.any fun q => q.snapDue

/-- One write of a snapshot: it begins with an odd SEQ once every other act of the cycle is done, taking the counters as they stand; then the dwords 1
to 63, one by one; then the next even SEQ (16 R382, R383). -/
def snapStep (s : State) (p : Partition) (d : Nat) : State :=
  let dp := diePart s d p.pid
  match dp.snap with
  | some (k, cnt, seq) =>
    if k < 64 then putDword (modDiePart s d p.pid fun q => { q with snap := some (k + 1, cnt, seq) }) p d k (blockDword cnt k)
    else putDword (modDiePart s d p.pid fun q => { q with snap := none, seq := seq }) p d 0 (blockHead p d seq)
  | none =>
    if dp.snapDue then
      let odd := (dp.seq + 1) % 2 ^ 32
      putDword { modDiePart s d p.pid (fun q => { q with snapDue := false, seq := odd, snap := some (1, dp.cnt, (odd + 1) % 2 ^ 32) }) with phase := .close }
        p d 0 (blockHead p d odd)
    else s

/-! ## Where a partition is present -/

/-- The cores with LM contents or state of their own, and the slice cores with threads of the partition. -/
def presentLocs (s : State) (p : Partition) : List Loc :=
  let keys := (s.mem.map Prod.fst ++ s.feEmpty ++ s.poison).filter isLm
  let locs := (s.cores.map Prod.fst ++ keys.map servedAt).eraseDups
  locs.filter fun l => match l with
    | .core d i => ownsCore p d i
    | .slice _ _ => (List.finRange 16).any fun k => (core s l).slots[k].st != .free && (core s l).slots[k].th.part == p.pid
    | .svc _ _ => false

/-! ## Halting (15 R371, R372) -/

/-- The request of a thread that waits on a list is withdrawn. -/
def onList (s : State) (id : Nat) : Bool :=
  match req? s id with
  | some r => (match r.st with | .feList _ => true | .launchList => true | _ => false)
  | none => false

/-- The slot enters HALT at the instruction at its program counter, which TPC then names. -/
def enterHalt (s : State) (l : Loc) (k : Fin 16) : State :=
  modSlot s l k fun x => haltTpc { x with st := .halt, halting := some 0, th := { x.th with cont := none, walk := .none } } x.th.pc

/-- The rows of R372 that halt a thread at once. -/
def haltNow (s : State) (l : Loc) (k : Fin 16) : State :=
  match (slotAt s l k).st with
  | .block _ _ => enterHalt s l k
  | .parkSw => enterHalt s l k
  | .parkMem (.access id) => if onList s id then enterHalt (dropReq s id) l k else s
  | .parkMem (.message _) => modSlot s l k fun x => haltTpc x (parkedNext x.th)
  | _ => s

/-- What a request makes of a slot when it reaches the core. -/
def requestSlot (s : State) (l : Loc) (pid : Nat) (k : Fin 16) : State :=
  let x := slotAt s l k
  if x.th.part ≠ pid || x.halting.isSome || x.th.ended then s
  else
    let mark (n : Nat) : State := modSlot s l k fun x => { x with halting := some n }
    match x.st with
    | .run => mark 256
    | .parkMem _ => haltNow (mark 0) l k
    | .block _ _ => haltNow s l k
    | .parkSw => haltNow s l k
    | _ => s

/-- PREEMPT_REQUEST: a request reaches its core. -/
def execPreemptRequest (l : Loc) (pid : Nat) (s : State) : Out :=
  match s.preReqs.find? fun q => q.loc == l && q.pid == pid with
  | none => .next s
  | some q =>
    let t := modCore { s with preReqs := s.preReqs.erase q } l fun c => { c with preempt := c.preempt ++ [⟨pid, q.victim⟩] }
    .next ((List.finRange 16).foldl (fun s k => requestSlot s l pid k) t)

/-! ## Checkpoint entries (15 R370) -/

/-- A checkpoint-table entry. -/
structure CkptEntry where
  v : Nat
  s : BitVec 32
  l : BitVec 8
  p : BitVec 8
  g : Nat
  t : Nat
  m : Nat
  loops : Bool
  lm : List (Nat × Nat)
  deriving DecidableEq, Repr

/-- The entry of an index, none where it is rejected. -/
def ckptEntry (s : State) (p : Partition) (l : Loc) (id : Nat) : Option CkptEntry :=
  if p.ckptCount ≤ id then none
  else match xlateFor s p l (mapWalk s (dieOf l) p.pid) (p.ckptTable + 64 * id) 64 .read false with
    | .ok key =>
      let n := ofBytes (s.mem.readN key 64)
      let f (hi lo : Nat) : Nat := n / 2 ^ lo % 2 ^ (hi + 1 - lo)
      let nlm := f 374 372
      let ranges := (List.range nlm).map fun k => (f (371 - 30 * k) (357 - 30 * k), f (356 - 30 * k) (342 - 30 * k))
      if 4 < nlm || f 251 0 ≠ 0 || ranges.any fun r => 0x5C00 < r.1 + r.2 then none
      else some ⟨f 511 448, BitVec.ofNat 32 (f 447 416), BitVec.ofNat 8 (f 415 408), BitVec.ofNat 8 (f 407 400), f 399 396, f 395 392, f 391 376,
        f 375 375 = 1, ranges⟩
    | _ => none

/-- A thread's image reduced to the live items of its entry (15 R375, R376). -/
def reduceTh (e : CkptEntry) (th : Thread) : Thread :=
  { th with
    s := Vector.ofFn fun i => if e.s.getLsbD i.val then th.s[i] else 0
    l := Vector.ofFn fun i => if e.l.getLsbD i.val then th.l[i] else 0
    p := (th.p &&& e.p) ||| 1
    g := Vector.ofFn fun i => if e.g / 2 ^ i.val % 2 = 1 then th.g[i] else .unset
    loops := if e.loops then th.loops else []
    sdf := th.sdf &&& e.s
    ldf := th.ldf &&& e.l }

/-! ## Saving (15 R373, R375; 12 R296) -/

/-- An engine command as its remainder: what a stopped command has read ahead is read again (09 R242, 13 R335, 14 R358). DESIGN CHOICE: what R241 gives no
field is kept beside the image, so that the stop changes no outcome: the position that an `ie.cond` has reached, and the granules written and not yet
set full (log 22). -/
def remainder (q : EngCmd) : EngCmd :=
  let q := { q with io := { EngIO.none with half := q.io.half } }
  match q.body with
  | .te fn root resume compl bval p off fmt maxd anch n vis skip stack started =>
    let r := match stack with | (x, _) :: _ => x | [] => resume
    { q with started := none, body := .te fn root (if started then r else resume) compl bval p off fmt maxd anch n vis skip [] false }
  | .pe _ seg seg2 a0 a1 compl bval imm n done st v root _ =>
    { q with started := none, body := .pe q.fn seg seg2 a0 a1 compl bval imm n done st v root .fresh }
  | _ => { q with started := none, pend := [] }

/-- Whether the head of an engine's queue can be saved: an ME or NM command that runs completes first, and so does a page-engine command other
than a load; the others stop at the end of what they have in hand (09 R242, 13 R335, 14 R358); nothing whose effects are all performed. -/
def headSaves (e : Engine) : List EngCmd → Bool
  | [] => true
  | q :: _ =>
    !q.finished && match e with
      | .me => q.started.isNone
      | .nm => q.started.isNone
      | .pe => q.started.isNone || (!inHand q && q.io.posts.isEmpty)
      | .ie => !midItem q && q.io.posts.isEmpty
      | .te => !atRecord q && !actedAhead q && q.io.posts.isEmpty

/-- The core has come to rest for the partition (15 R372, R373). -/
def saveReady (s : State) (l : Loc) (pid : Nat) : Bool :=
  let c := core s l
  allHalted s l pid && c.fwd.isEmpty && (engines.all fun e => headSaves e (engQ c e))
    && (List.finRange 16).all fun k => let x := c.slots[k]
      x.st == .free || x.th.part != pid || (x.th.outs.isEmpty && !(s.reqs.any (isMine x.th)))

/-- A thread whose run ended with an error takes its trap when it runs again; its pending marks are clear. -/
def settleSlot (x : Slot) : Slot :=
  let t := match x.th.runErr with
    | some t => some { t with tpc := x.th.pc }
    | none => x.th.pendTrap
  { x with atCkpt := none, th := { x.th with spnd := 0, lpnd := 0, vpnd := 0, runErr := none, pendTrap := t } }

def partSlots (c : Core) (pid : Nat) : List (Fin 16 × Slot) :=
  (List.finRange 16).filterMap fun k => if c.slots[k].st ≠ .free ∧ c.slots[k].th.part = pid then some (k, c.slots[k]) else none

/-- The FREE slots that the partition's task holds reserved (15 R375). -/
def reservedFree (c : Core) (pid : Nat) : List Nat :=
  match c.task with
  | some t => if t.pid = pid then t.slots.filter fun k => c.slots[Fin.ofNat 16 k].st == .free && c.slots[Fin.ofNat 16 k].reserved else []
  | none => []

/-- The inbound link words of a core, in order. -/
def inboundWords (s : State) (p : Partition) (l : Loc) : List (Fin 4 × LinkWord) :=
  (List.finRange 4).flatMap fun q => match inboundOf l q with
    | some (m, e) =>
      let own : Bool := match m with | .core d i => ownsCore p d i | _ => false
      if own then ((core s m).links[e].words ++ (core s m).links[e].spoiled).map fun w => (q, w) else []
    | none => []

def clearInbound (s : State) (p : Partition) (l : Loc) : State :=
  (List.finRange 4).foldl (fun s q => match inboundOf l q with
    | some (m, e) =>
      let own : Bool := match m with | .core d i => ownsCore p d i | _ => false
      if own then modLink s m e fun _ => ⟨[], [], none, false⟩ else s
    | none => s) s

def lmBase (l : Loc) : Nat := lmAt l 0
def inLm (base a : Nat) : Bool := base ≤ a && a < base + 0x60000

/-- The LM offsets that a save holds: all of it, or the ranges of the entries, the arrival spill queue and every enabled ring. -/
def savedOffset (c : Core) (es : Option (List CkptEntry)) (off : Nat) : Bool :=
  match es with
  | none => true
  | some l =>
    (l.any fun e => e.lm.any fun r => 16 * r.1 ≤ off && off < 16 * (r.1 + r.2)) || 0x5C000 ≤ off
      || (List.finRange 8).any fun k => let r := c.rings[k]; r.en && r.start ≤ off && off < r.start + r.bytes

/-- The rows and masks that a save holds. -/
def savedRegs (c : Core) (es : Option (List CkptEntry)) : Core :=
  match es with
  | none => c
  | some l =>
    let v := l.foldl (fun n e => Nat.lor n e.v) 0
    let t := l.foldl (fun n e => Nat.lor n e.t) 0
    let m := l.foldl (fun n e => Nat.lor n e.m) 0
    { c with
      tiles := Vector.ofFn fun i => if v / 2 ^ i.val % 2 = 1 || t / 2 ^ (i.val / 16) % 2 = 1 then c.tiles[i] else 0
      m := Vector.ofFn fun i => if i.val = 0 || m / 2 ^ i.val % 2 = 1 then c.m[i] else 0 }

/-- The image of a core. -/
def saveImage (s : State) (p : Partition) (l : Loc) (victim : Bool) (es : Option (List CkptEntry)) : Save :=
  let c := core s l
  let b := lmBase l
  let at' (a : Nat) : Bool := inLm b a && savedOffset c es (a - b)
  let own (a : Arrival) : Bool := a.th.part == p.pid
  let img (q : Fin 16 × Slot) : Nat × Slot := match es.bind fun _ => ckptEntry s p l q.2.th.ckptid.toNat with
    | some e => (q.1.val, settleSlot { q.2 with th := reduceTh e q.2.th })
    | none => (q.1.val, settleSlot q.2)
  ⟨s.nextId, l,
    { savedRegs c es with
      meq := c.meq.map remainder, ieq := c.ieq.map remainder, teq := c.teq.map remainder, nmq := c.nmq.map remainder, peq := c.peq.map remainder
      spill := c.spill.filter own, spillSpoil := c.spillSpoil.filter own, inbox := [], preempt := [], ifetch := none, spoilTold := [] },
    (partSlots c p.pid).map img,
    (s.mem.filter fun x => at' x.1).map fun x => (x.1 - b, x.2),
    (s.feEmpty.filter at').map (· - b), (s.poison.filter at').map (· - b),
    inboundWords s p l, c.inbox.filter own, reservedFree c p.pid, victim⟩

/-- Clears a core's LM: every byte 0, every granule full, no poison. -/
def clearLm (s : State) (l : Loc) : State :=
  let b := lmBase l
  { s with mem := s.mem.filter fun x => !inLm b x.1, feEmpty := s.feEmpty.filter fun a => !inLm b a, poison := s.poison.filter fun a => !inLm b a }

/-- The walks of a partition's engine commands at a core are given up, and their accesses leave the queues of the banks. -/
def dropAgents (s : State) (l : Loc) (pid : Nat) : State :=
  modDie (dropTickets s fun r => r.loc == l && r.part == pid) (dieOf l) fun y => { y with walks := y.walks.filter fun w =>
    !(w.loc == l && w.part == pid && match w.who with | .engine _ _ => true | _ => false) }

/-- The core after its save: the partition's slots are FREE, its tile state, rings and engines as at reset, its caches purged (08 R215). -/
def vacate (s : State) (l : Loc) (pid : Nat) : State :=
  modCore (dropAgents s l pid) l fun c =>
    let other (a : Arrival) : Bool := a.th.part != pid
    { bindTiles c with
      slots := c.slots.map fun x => if x.st ≠ .free ∧ x.th.part = pid then { x with st := .free, reserved := false, halting := none, atCkpt := none, tpcHeld := none }
        else { x with reserved := false }
      rings := Core.reset.rings, ieq := [], teq := [], peq := [], task := none, ifetch := none
      spill := c.spill.filter other, spillSpoil := c.spillSpoil.filter other, inbox := c.inbox.filter other
      xcache := c.xcache.filter fun e => e.1 != pid, lcache := c.lcache.filter fun e => e.1 != pid
      preempt := c.preempt.eraseP fun q => q.pid == pid }

/-- Whether nothing of a slot's thread is outstanding: its long-latency results are written, its accesses performed and acknowledged (15 R372). -/
def slotQuiet (s : State) (x : Slot) : Bool := x.th.outs.isEmpty && !(s.reqs.any (isMine x.th))

/-- The threads of a partition on a core run on: those halted for the pre-emption issue their instruction again once nothing of theirs is outstanding and
their pending marks are cleared; one that a trap or the kiln had put into HALT stays there (15 R372, R376). -/
def runAgain (s : State) (l : Loc) (k : Fin 16) : State :=
  let x := slotAt s l k
  let back (x : Slot) : Slot := { x with halting := none, atCkpt := none, tpcHeld := none, th := { x.th with tpc := x.tpcHeld.getD x.th.tpc } }
  if x.st = .halt ∧ x.halting.isSome then
    if !slotQuiet s x then s
    else
      let y := back (settleSlot x)
      let s := setSlot s l k { y with st := .run }
      match y.th.pendTrap with
      | some t => enterTrap s l k t
      | none => s
  else setSlot s l k (back x)

/-- THREAD_HALT: a thread that has run on, or whose access has ended or entered a list, halts; at a `ckpt` once its long-latency results are written
(05 R151). One that is to run again does so when nothing of it is outstanding. -/
def execThreadHalt (l : Loc) (slot : Fin 16) (s : State) : Out :=
  let x := slotAt s l slot
  match x.halting with
  | none => .next s
  | some n =>
    match x.st with
    | .run => if n = 0 && x.th.pendTrap.isNone && !x.th.ended && (x.atCkpt.isNone || x.th.outs.isEmpty) then .next (enterHalt s l slot) else .next s
    | .halt => .next (if (core s l).preempt.any fun q => q.pid == x.th.part then s else runAgain s l slot)
    | .parkMem (.message _) => .next s
    | _ => .next (haltNow s l slot)

/-- Inbox arrivals enter the arrival spill queue (15 R376). -/
def refillSpill (c : Core) (first last : List Arrival) : Core :=
  let all := first ++ last
  { c with spill := all.take 32, spillSpoil := all.drop 32 }

/-- Those of the partitions that no halt and no save keeps waiting at a core. -/
def admitInbox (s : State) (l : Loc) : State :=
  let now (a : Arrival) : Bool := !inboxed s l a.th.part true
  if (core s l).inbox.any now then
    modCore s l fun c => { refillSpill c (c.spill ++ c.spillSpoil) (c.inbox.filter now) with inbox := c.inbox.filter fun a => !now a }
  else s

def resumeLoc (s : State) (l : Loc) (pid : Nat) : State :=
  let s := admitInbox (modCore s l fun c => { c with preempt := c.preempt.filter fun q => q.pid != pid || q.victim }) l
  (List.finRange 16).foldl (fun s k => if (slotAt s l k).st ≠ .free ∧ (slotAt s l k).th.part = pid then runAgain s l k else s) s

/-- The template of a task, from its graph. -/
def templateOf (p : Partition) (t : Task) : Template :=
  match ((nodeOf p t.attn).bind fun n => n.graphs.find? fun g => g.gslot == t.gslot && g.gen == t.gen).bind fun g => g.tmpls[t.tmpl]? with
  | some x => x
  | none => ⟨0, Vector.replicate 8 0, 1, t.lmneed, t.threads, t.level, false, t.cls, 0, []⟩

/-- The returned entry of a pre-empted instance (12 R296). -/
def returnedEntry (p : Partition) (t : Task) (save : Nat) : ReadyEntry :=
  ⟨p.pid, t.attn, t.gslot, t.gen, t.tmpl, t.level, t.idx, t.idx, t.origin, false, some save, 0, templateOf p t⟩

/-- The entries that let a save be reduced: every thread halted at a `ckpt` whose entry is accepted. Answers whether one was rejected. -/
def saveEntries (s : State) (p : Partition) (l : Loc) : Option (List CkptEntry) × Bool :=
  let xs := partSlots (core s l) p.pid
  let es := xs.map fun q => if q.2.atCkpt = some true then some (ckptEntry s p l q.2.th.ckptid.toNat) else none
  let bad : Bool := es.any fun e => match e with | some none => true | _ => false
  (if xs.isEmpty then none else es.foldr (fun e acc => match e, acc with | some (some y), some r => some (y :: r) | _, _ => none) (some []), bad)

/-- Whether a partition that gives way has come to rest everywhere, so that nothing of it acts on a core once that is saved (10 R257). -/
def allAtRest (s : State) (pid : Nat) : Bool :=
  !(s.preReqs.any fun q => q.pid == pid) && s.cores.all fun c => !(c.2.preempt.any fun q => q.pid == pid) || saveReady s c.1 pid

/-- A DISPATCH event of reason FREE for every partition that runs on a core, and for the one that has left it (12 R290). -/
def freeEvents (s : State) (l : Loc) (pid : Nat) : State :=
  ((s.parts.filter fun p => p.pid == pid || (p.st == .running && match l with | .core d i => ownsCore p d i | _ => false)).map fun p => p.pid).foldl
    (fun s pid => raiseEvent s (dieOf l) { KEvent.base with kind := .dispatch, reason := 1, pid := pid }) s

/-- The spoil of a partition that has been freed lets its cores tell of it again (11 R269). -/
def rearmAll (s : State) (pid : Nat) : State := s.cores.foldl (fun s c => if c.2.spoilTold.contains pid then rearm s c.1 pid else s) s

/-- CORE_SAVE: a core at rest is saved, for a victim at once, for a partition that has given way as part of the switch once all its cores are at rest. -/
def execCoreSave (l : Loc) (pid : Nat) (s : State) : Out :=
  let c := core s l
  match part? s pid, c.preempt.find? fun q => q.pid == pid with
  | some p, some q =>
    let away : Bool := p.st == .descheduled || (p.st == .paused && s.parts.any fun y => y.pid != pid && y.st == .running && ownsAny y l)
    if isSliceCore l || !saveReady s l pid || !(q.victim || (away && allAtRest s pid)) then .next s
    else match q.victim, c.task with
      | true, none => .next (resumeLoc (modCore s l fun c => { c with preempt := c.preempt.erase q }) l pid)
      | _, _ =>
        let es := saveEntries s p l
        let s1 := if es.2 then count s (dieOf l) pid 19 1 else s
        let img := saveImage s1 p l q.victim es.1
        let s2 := vacate (clearInbound (newId s1).2 p l) l pid
        let s3 := modPart (if q.victim then s2 else clearLm s2 l) pid fun p => { p with saves := p.saves ++ [img] }
        let s4 := freeEvents (admitInbox (rearmAll s3 pid) l) l pid
        .next (match q.victim, c.task with
        | true, some t => enterReady s4 (dieOf l) (returnedEntry p t img.id)
        | _, _ => s4)
  | _, _ => .next s
where
  ownsAny (p : Partition) : Loc → Bool
    | .core d i => ownsCore p d i
    | _ => false

/-! ## Restoring (15 R376) -/

/-- Writes a save area back into a core: registers, engine queues ahead of new commands, their own-LM addresses at their offsets, LM, link words, then
the inbox. DESIGN CHOICE: a direction whose saved and newer words are together more than 8 grows at once, with the rest in spoil, counted in no LGROW and
against no quota, since R376 refills it and R262 does not say how (log 59). -/
def restoreCore (s : State) (p : Partition) (l : Loc) (v : Save) (task : Option Task) : State :=
  let b := lmBase l
  let old := v.core
  let own (a : Arrival) : Bool := a.th.part == p.pid
  let s1 := clearLm s l
  let s2 := { s1 with
    mem := v.lm.foldl (fun m x => m.write (b + x.1) x.2) s1.mem
    feEmpty := v.lmEmpty.foldl (fun m x => insertNat (b + x) m) s1.feEmpty
    poison := v.lmPoison.foldl (fun m x => insertNat (b + x) m) s1.poison }
  let slotOf (c : Core) (k : Fin 16) : Slot :=
    match v.slots.find? fun q => q.1 == k.val with
    | some (_, x) => { x with count := c.slots[k].count, last := none }
    | none => c.slots[k]
  let here (q : EngCmd) : EngCmd := { q with xl := rebaseXl l q.xl, fills := rebaseFills q.xl (rebaseXl l q.xl) q.fills }
  let put (c : Core) : Core :=
    { refillSpill c (old.spill ++ old.spillSpoil ++ v.inbox ++ c.inbox.filter own) (c.spill ++ c.spillSpoil) with
      tiles := old.tiles, types := old.types, held := old.held, m := old.m, twm := old.twm, tstat := old.tstat, rings := old.rings
      weights := old.weights, shadow := old.shadow, maskSet := old.maskSet
      meq := old.meq.map here ++ c.meq, ieq := old.ieq.map here ++ c.ieq, teq := old.teq.map here ++ c.teq, nmq := old.nmq.map here ++ c.nmq
      peq := old.peq.map here ++ c.peq
      engSeq := if v.victim then c.engSeq else old.engSeq
      inbox := c.inbox.filter fun a => !own a, ifetch := none
      slots := Vector.ofFn fun k => if v.reserved.contains k.val && !v.victim then { slotOf c k with reserved := true } else slotOf c k
      task := task }
  let s3 := modCore s2 l put
  let front (s : State) (q : Fin 4) : State :=
    match inboundOf l q, (v.linkIn.filter fun w => w.1 == q).map Prod.snd with
    | some (m, e), w :: ws => modLink s m e fun d =>
        let all := (w :: ws) ++ d.words ++ d.spoiled
        { d with words := all.take 8, spoiled := all.drop 8, growing := d.growing || 8 < all.length
                 fullSince := if all.length < 8 then none else some (d.fullSince.getD s.cycle) }
    | _, _ => s
  let s4 := (List.finRange 4).foldl front s3
  let s5 := modPart s4 p.pid fun p => { p with saves := p.saves.filter fun y => y.id != v.id }
  v.slots.foldl (fun s q => runAgain s l (Fin.ofNat 16 q.1)) (admitInbox s5 l)

/-- CORE_RESTORE: a dispatched returned instance on its core, or a switched-in core on its own. -/
def execCoreRestore (l : Loc) (id : Nat) (s : State) : Out :=
  match s.parts.findSome? fun p => (saveOf p id).map fun v => (p, v) with
  | none => .next s
  | some (p, v) =>
    let c := core s l
    if v.victim then
      match s.starts.find? fun y => y.entry.saved == some id && y.loc == l, c.task with
      | some st, some t =>
        if startAllowed s p st then
          .next (restoreCore { s with starts := s.starts.filter fun y => y.id != st.id } p l v (some { t with started := true }))
        else .next s
      | _, _ => .next s
    else if v.loc = l && p.st == .running && c.preempt.isEmpty && !(s.preReqs.any fun q => q.loc == l) && c.task.isNone
        && v.slots.all fun q => c.slots[Fin.ofNat 16 q.1].st == .free then
      .next (restoreCore s p l v v.core.task)
    else .next s

/-! ## Switches, pauses and resumes (01 R46; 12 R291, R295; 15 R377) -/

/-- The partitions that share a node with one. -/
def matesOf (s : State) (p : Partition) : List Partition :=
  let same (a b : Option Node) : Bool := match a, b with | some x, some y => x.node == y.node | _, _ => false
  s.parts.filter fun q => q.pid != p.pid && (same p.compute q.compute || same p.attention q.attention)

def askHalt (s : State) (p : Partition) : State :=
  let asked (l : Loc) : Bool := (core s l).preempt.any fun q => q.pid == p.pid && !q.victim
  let new := ((presentLocs s p).filter fun l => !asked l).map fun l => (⟨l, p.pid, false⟩ : PreReq)
  { s with preReqs := s.preReqs ++ new }

/-- Events held back while the partition was paused are raised. -/
def raiseFlags (s : State) (p : Partition) : State :=
  (dieList p).foldl (fun s d =>
    let q := diePart s d p.pid
    let s := modDiePart s d p.pid fun q => { q with pendDispatch := none, pendPreempt := none }
    let s := match q.pendPreempt with
      | some r => raiseEvent s d { KEvent.base with kind := .preempt, reason := r.1, level := r.2, pid := p.pid }
      | none => s
    match q.pendDispatch with
    | some r => raiseEvent s d { KEvent.base with kind := .dispatch, reason := r.1, level := r.2, pid := p.pid }
    | none => s) s

/-- A partition becomes RUNNING: its cores run on or are restored, its slice begins, latched interrupts go out. -/
def becomeRunning (s : State) (p : Partition) : State :=
  let s1 := modPart s p.pid fun p => { p with st := .running }
  let s2 := { s1 with preReqs := s1.preReqs.filter fun q => q.pid != p.pid || q.victim }
  let s3 := (s2.cores.filter fun c => c.2.preempt.any fun q => q.pid == p.pid && !q.victim).foldl (fun s c => resumeLoc s c.1 p.pid) s2
  let s3 := s3.cores.foldl (fun s c => admitInbox s c.1) s3
  let s4 := (dieList p).foldl (fun s d => modDiePart s d p.pid fun q => { q with sliceFrom := s.cycle, extended := 0 }) s3
  raiseFlags (deliverIrqs s4 p.pid) p

/-- TIME_SHARE_SWITCH: the running sharers of a node give way to one partition. -/
def switchTo (s : State) (p : Partition) : State :=
  let s1 := ((matesOf s p).filter fun q => q.st == .running).foldl (fun s q =>
    let s := modPart (snapshotAll s q) q.pid fun y => { y with st := .descheduled }
    askHalt s q) s
  becomeRunning s1 p

/-- The newest reason of a partition's queued events of a kind, with its level. -/
def newestReason (l : List KEvent) (k : KKind) (pid : Nat) (old : Option (Nat × Nat)) : Option (Nat × Nat) :=
  l.foldl (fun r e => if e.kind = k ∧ e.pid = pid then some (e.reason, e.level) else r) old

/-- A partition is paused (12 R291, R295; 15 R377). -/
def pausePart (s : State) (pid : Nat) : State :=
  match part? s pid with
  | none => s
  | some p =>
    if p.st == .paused || p.st == .resetting then s
    else
      let s1 := modPart (snapshotAll s p) pid fun p => { p with st := .paused }
      let s2 := (dieList p).foldl (fun s d =>
        let l := (die s d).events ++ (die s d).held
        let keep (e : KEvent) : Bool := e.pid != pid || e.kind == .fault
        let s := modDiePart s d pid fun q =>
          { q with pendDispatch := newestReason l .dispatch pid q.pendDispatch, pendPreempt := newestReason l .preempt pid q.pendPreempt }
        modDie s d fun y => { y with events := y.events.filter keep, held := y.held.filter keep }) s1
      admitAll (setIrq (if p.st == .running then askHalt s2 p else s2) pid 61)

def resumePart (s : State) (pid : Nat) : State :=
  match part? s pid with
  | none => s
  | some p => if p.st == .paused then switchTo s p else s

/-! ## Kills (12 R295) -/

/-- A migrated context that is on its way, or waits for a slot, is taken out (01 R31, R35). -/
def dropArrivals (s : State) (pid : Nat) (thid : Word) : State :=
  let keep (a : Arrival) : Bool := !(a.migrated && a.th.part == pid && a.th.thid == thid)
  let s := { s with msgs := s.msgs.filter fun m => match m.body with | .migrate _ a => keep a | _ => true }
  let s := { s with cores := s.cores.map fun c => (c.1,
    { refillSpill c.2 ((c.2.spill ++ c.2.spillSpoil).filter keep) [] with inbox := c.2.inbox.filter keep }) }
  modPart s pid fun p => { p with saves := p.saves.map fun v =>
    { v with inbox := v.inbox.filter keep, core := refillSpill v.core ((v.core.spill ++ v.core.spillSpoil).filter keep) [] } }

/-- Whether there is one. -/
def onItsWay (s : State) (p : Partition) (thid : Word) : Bool :=
  let is (a : Arrival) : Bool := a.migrated && a.th.part == p.pid && a.th.thid == thid
  (s.msgs.any fun m => match m.body with | .migrate _ a => is a | _ => false)
    || (s.cores.any fun c => (c.2.spill ++ c.2.spillSpoil ++ c.2.inbox).any is)
    || p.saves.any fun v => (v.inbox ++ v.core.spill ++ v.core.spillSpoil).any is

/-- A thread is killed: its slot frees; requests of its that wait on a list leave it; no reply is awaited for it any more where it was (01 R32). -/
def killThread (s : State) (l : Loc) (k : Fin 16) : State :=
  let th := thread s l k
  let s := dropArrivals (modFwd (dropGuards s l k true) th.part th.thid fun e => { e with outs := [] }) th.part th.thid
  let s := { s with reqs := s.reqs.filter fun r => !(isMine th r && (match r.st with | .feList _ => true | .launchList => true | _ => false)) }
  rearmAll (freeSlotOf s l k) th.part

/-- A tile-task instance is killed: its threads, its queued engine commands, and the spawns of its own threads; it counts as complete once the accesses
of its threads are performed (10 R255; TASK_COMPLETE reports that). -/
def killTask (s : State) (l : Loc) (t : Task) : State :=
  let ths := (t.slots.filter fun k => (slotAt s l (Fin.ofNat 16 k)).st != .free).map fun k => (thread s l (Fin.ofNat 16 k)).thid
  let s := t.slots.foldl (fun s k => if (slotAt s l (Fin.ofNat 16 k)).st = .free then s else killThread s l (Fin.ofNat 16 k)) s
  let keep (q : EngCmd) : Bool := !isTaskCmd t q
  let s := modCore s l fun c => { c with
    meq := [], nmq := [], ieq := c.ieq.filter keep, teq := c.teq.filter keep, peq := c.peq.filter keep
    spill := c.spill.filter fun a => !a.reservedKind, spillSpoil := c.spillSpoil.filter fun a => !a.reservedKind
    inbox := c.inbox.filter fun a => !a.reservedKind }
  let s := { s with msgs := s.msgs.filter fun m => match m.body with | .spawn d a => !(d == l && a.reservedKind) | _ => true }
  rearmAll (settle (modCore s l fun c => { c with task := some { t with killed := some ths } }) l) t.pid

/-- Kills the thread in a slot, or the whole instance it belongs to. -/
def killAt (s : State) (l : Loc) (k : Fin 16) : State :=
  match (core s l).task with
  | some t => if (thread s l k).inTask && t.slots.contains k.val then killTask s l t else killThread s l k
  | none => killThread s l k

/-! ## Threads that are saved with their core -/

/-- A thread's slot in a save of its partition. -/
def savedSlot (p : Partition) (thid : Word) : Option (Save × Nat × Slot) :=
  p.saves.findSome? fun v => (v.slots.find? fun q => q.2.th.thid == thid).map fun q => (v, q.1, q.2)

def modSave (s : State) (pid id : Nat) (f : Save → Save) : State :=
  modPart s pid fun p => { p with saves := p.saves.map fun v => if v.id = id then f v else v }

/-- A saved core without its task: neither the task's threads nor its commands nor the spawns of its own threads. -/
def dropTask (t : Task) (v : Save) : Save :=
  let c := v.core
  let keep (q : EngCmd) : Bool := !isTaskCmd t q
  { v with
    slots := v.slots.filter fun q => !t.slots.contains q.1
    reserved := []
    inbox := v.inbox.filter fun a => !a.reservedKind
    core := { c with
      meq := [], nmq := [], ieq := c.ieq.filter keep, teq := c.teq.filter keep, peq := c.peq.filter keep
      spill := c.spill.filter fun a => !a.reservedKind, spillSpoil := c.spillSpoil.filter fun a => !a.reservedKind
      task := none } }

/-- What becomes of a command when its thread is killed: none where its guard slot is UNSET; where it is set, the command keeps that decision. -/
def afterKill (k : Nat) (th : Thread) (q : EngCmd) : Option EngCmd :=
  if q.slot = k ∧ q.isOf th ∧ q.decided = none then
    match q.guard with
    | none => some q
    | some g => (decisionOf g th.g[g.slot]).map fun d => { q with decided := some d }
  else some q

/-- A saved core without the thread of one slot. -/
def dropThread (k : Nat) (th : Thread) (v : Save) : Save :=
  let c := v.core
  let f (l : List EngCmd) : List EngCmd := l.filterMap (afterKill k th)
  { v with
    slots := v.slots.filter fun q => q.1 != k
    core := { c with meq := f c.meq, nmq := f c.nmq, ieq := f c.ieq, teq := f c.teq, peq := f c.peq } }

/-- A saved instance is killed: its part of the save is gone, and with it the returned entry, or the dispatch of it that has not restored it; it counts
as complete (12 R295, R296). -/
def killSavedTask (s : State) (pid : Nat) (v : Save) (t : Task) : State :=
  let s1 := modSave s pid v.id (dropTask t)
  let r : Report := ⟨s.nextId, dieOf v.loc, t.pid, t.attn, t.gslot, t.gen, t.tmpl, t.idx, .killed⟩
  let s2 := { (newId s1).2 with reports := s1.reports ++ [r] }
  if !v.victim then s2
  else
    let s3 := modPart s2 pid fun p => { p with saves := p.saves.filter fun y => y.id != v.id }
    let s4 := modDie s3 (dieOf v.loc) fun y => { y with ready := y.ready.filter fun e => e.saved != some v.id }
    (s.starts.filter fun y => y.entry.saved == some v.id).foldl (fun s y =>
      modCore { s with starts := s.starts.filter fun z => z.id != y.id } y.loc fun c =>
        match c.task with
        | some b => setReserved { c with task := none } b.slots false
        | none => c) s4 |> fun s5 => (s.starts.filter fun y => y.entry.saved == some v.id).foldl (fun t y =>
      raiseEvent t (dieOf y.loc) { KEvent.base with kind := .dispatch, reason := 1, pid := pid }) s5

/-- Kills a saved thread, or the whole instance it belongs to; commands that its guards discard are counted (16 R383 d1). -/
def killSaved (s : State) (pid : Nat) (v : Save) (k : Nat) (x : Slot) : State :=
  let gone := (engines.flatMap fun e => (engQ v.core e).filter fun q => (afterKill k x.th q).isNone).length
  let one := count (modSave s pid v.id (dropThread k x.th)) (dieOf v.loc) pid 1 gone
  match v.core.task with
  | some t => if x.th.inTask && t.slots.contains k then killSavedTask s pid v t else one
  | none => one

end Sys2Proof.Machine
end

