-- ==== Sys2Proof/Machine/Graph.lean ====
section
/-! DEFINITION. Task graphs at the master distributor: launches, signals, completions, the deputy, fenced dies (01 R39 to R42; 11 R282, R283; 12 R284 to R287). -/

namespace Sys2Proof.Machine

/-! ## Nodes -/

def modNode (s : State) (pid : Nat) (attn : Bool) (f : Node → Node) : State :=
  modPart s pid fun p => if attn then { p with attention := p.attention.map f } else { p with compute := p.compute.map f }

def node? (s : State) (pid : Nat) (attn : Bool) : Option (Partition × Node) :=
  (part? s pid).bind fun p => (nodeOf p attn).map fun n => (p, n)

def modGraph (s : State) (pid : Nat) (attn : Bool) (gslot : Nat) (f : Graph → Graph) : State :=
  modNode s pid attn fun n => { n with graphs := n.graphs.map fun g => if g.gslot = gslot then f g else g }

def graph? (s : State) (pid : Nat) (attn : Bool) (gslot : Nat) : Option Graph :=
  (node? s pid attn).bind fun n => n.2.graphs.find? fun g => g.gslot == gslot

/-- Every change made so far is at the deputy. -/
def commitAll (n : Node) : Node := { n with deputyGraphs := n.graphs, sentVersion := n.version, ended := [] }

/-- A change of graph state: without a deputy it is committed when it is made (12 R285). -/
def newVersion (s : State) (pid : Nat) (attn : Bool) : State :=
  match node? s pid attn with
  | none => s
  | some (p, n) =>
    let v := n.version + 1
    if (deputyDie s p attn).isNone then modNode s pid attn fun n => commitAll { n with version := v, acked := v }
    else modNode s pid attn fun n => { n with version := v }

/-- What a commit lets the master do. -/
def committed (s : State) : Awaiting → State
  | .reply r _ => { s with msgReplies := s.msgReplies ++ [r] }
  | .signal _ _ => s
  | .range d e => if (die s d).fenced then s else enterReady s d e

/-- What waits for the commit of the present version, or happens at once. -/
def release? (s : State) (pid : Nat) (attn : Bool) (a : Awaiting) : State :=
  match node? s pid attn with
  | none => s
  | some (_, n) => if n.version ≤ n.acked then committed s a else modNode s pid attn fun n => { n with await := n.await ++ [(n.version, a)] }

/-! ## Ready templates (12 R286) -/

/-- The contiguous runs of a rising list: first and last of each. -/
def runsOf : List Nat → List (Nat × Nat)
  | [] => []
  | i :: r => match runsOf r with
    | (a, b) :: t => if a = i + 1 then (i, b) :: t else (i, i) :: (a, b) :: t
    | [] => [(i, i)]

/-- Indices are divided among the live dies of the node: die i takes positions floor(i·N/D) to floor((i+1)·N/D) − 1. Answers the ranges. -/
def divide (dies idx : List Nat) : List (Nat × Nat × Nat) :=
  let n := idx.length
  let k := dies.length
  (List.range k).flatMap fun i =>
    let lo := i * n / k
    let hi := (i + 1) * n / k
    (runsOf ((idx.drop lo).take (hi - lo))).map fun r => (dies.getD i 0, r.1, r.2)

/-- The same for the whole range 0 to n − 1. -/
def divideAll (dies : List Nat) (n : Nat) : List (Nat × Nat × Nat) :=
  let k := dies.length
  (List.range k).filterMap fun i =>
    let lo := i * n / k
    let hi := (i + 1) * n / k
    if lo < hi then some (dies.getD i 0, lo, hi - 1) else none

/-- Sends ranges of a template to their dies: the master's own at once, the others after the commit (12 R285). -/
def sendRanges (s : State) (pid : Nat) (attn : Bool) (g : Graph) (t : Nat) (rs : List (Nat × Nat × Nat)) : State :=
  match node? s pid attn, g.tmpls[t]? with
  | some (p, n), some x =>
    let m := masterDie s p attn
    rs.foldl (fun s r =>
      let e : ReadyEntry := ⟨pid, attn, g.gslot, g.gen, t, x.prio, r.2.1, r.2.2, kilnNow s, false, none, if r.1 = m then n.version else 0, x⟩
      if r.1 = m then enterReady s m e else release? s pid attn (.range r.1 e)) s
  | _, _ => s

/-- A template's count is zero: its instances become ready. -/
def readyTemplate (s : State) (pid : Nat) (attn : Bool) (gslot t : Nat) : State :=
  match node? s pid attn, graph? s pid attn gslot with
  | some (p, _), some g =>
    match g.tmpls[t]? with
    | none => s
    | some x =>
      let rs := divideAll (liveDies s p attn) x.count
      let s := modGraph s pid attn gslot fun g =>
        { g with ready := g.ready.set t true, ranges := g.ranges ++ rs.map fun r => (t, r.1, r.2.1, r.2.2) }
      sendRanges s pid attn g t rs
  | _, _ => s

/-- Decrements a template's count; at zero it becomes ready (01 R41). -/
def decTemplate (s : State) (pid : Nat) (attn : Bool) (gslot t : Nat) : State :=
  match graph? s pid attn gslot with
  | none => s
  | some g =>
    let c := g.counts.getD t 0
    if c = 0 then s
    else
      let s := modGraph s pid attn gslot fun g => { g with counts := g.counts.set t (c - 1) }
      if c = 1 then readyTemplate s pid attn gslot t else s

/-! ## `tg.launch` (11 R282, 01 R39, R40) -/

/-- The eight dwords of an argument block, none where the partition cannot read it. -/
def argsAt (s : State) (p : Partition) (l : Loc) (d va : Nat) : Option (Vector Word 8) :=
  let key? : Option Nat := match place s p l va 64 false with
    | .mem key => some key
    | .hbm => (extFind (diePart s d p.pid).map va).bind fun e => if e.rd then some (extKey e va) else none
    | .fault _ => none
  key?.bind fun key =>
    if (List.range 4).any fun i => poisoned s (key + 16 * i) then none
    else some (Vector.ofFn fun i => BitVec.ofNat 64 (ofBytes (s.mem.readN (key + 8 * i.val) 8)))

/-- A template record, none where it violates a limit of R39 or R40. -/
def templateAt (s : State) (p : Partition) (l : Loc) (d n key : Nat) : Option Template :=
  let r := ofBytes (s.mem.readN key 64)
  let f (hi lo : Nat) : Nat := r / 2 ^ lo % 2 ^ (hi + 1 - lo)
  let entry := f 503 448
  let argp := f 447 384
  let nsucc := f 323 320
  let succ := (List.range nsucc).map fun i => f (263 + 8 * i) (256 + 8 * i)
  let args : Option (Vector Word 8) := if argp = 0 then some (Vector.replicate 8 0) else if argp % 64 ≠ 0 || 2 ^ 56 ≤ argp then none else argsAt s p l d argp
  let bad : Bool := (List.range 4).any (fun i => poisoned s (key + 16 * i)) || f 511 504 ≠ 0 || f 324 324 ≠ 0 || f 255 0 ≠ 0 || entry % 4 ≠ 0
    || entry < 2 ^ 52 || (extFind (diePart s d p.pid).map entry).isNone || f 383 352 = 0 || 80 < f 351 344 || f 343 339 = 0 || 16 < f 343 339
    || 8 < nsucc || succ.any fun t => n ≤ t
  if bad then none
  else args.map fun a => ⟨entry, a, f 383 352, f 351 344, f 343 339, f 338 336, f 335 335 = 1, BitVec.ofNat 2 (f 334 333), f 332 325, succ⟩

/-- The lowest graph slot of the partition without a live graph, and GEN of its next use. -/
def freeGraph (p : Partition) : Option Nat :=
  let used := ((p.compute.toList ++ p.attention.toList).flatMap fun n => n.graphs.map fun g => g.gslot)
  (List.range 1024).find? fun k => !used.contains k

def nextGen (p : Partition) (k : Nat) : Nat :=
  let g := ((p.compute.toList ++ p.attention.toList).filterMap fun n => (n.gens.find? fun q => q.1 == k).map Prod.snd).foldl max 0
  if g = 65535 then 1 else g + 1

/-- The uses of graph slots are counted over the partition, at both nodes. -/
def modGens (s : State) (pid : Nat) (f : List (Nat × Nat) → List (Nat × Nat)) : State :=
  let g (n : Node) : Node := { n with gens := f n.gens }
  modPart s pid fun p => { p with compute := p.compute.map g, attention := p.attention.map g }

def noteGen (s : State) (pid k g : Nat) : State := modGens s pid fun l => assocSet l k g

/-- A launch that was never made has not used its slot (12 R287). -/
def forgetGen (s : State) (pid : Nat) (g : Graph) : State :=
  modGens s pid fun l => if assocGet l g.gslot 0 = g.gen then assocSet l g.gslot (g.gen - 1) else l

def graphReply (m : Msg) (d : SReg) (v : Nat) : MsgReply := ⟨m.id, m.src, m.slot, m.thid, m.part, [.s d (BitVec.ofNat 64 v) false], none, none⟩

/-- GRAPH_LAUNCH_REQUEST: the master checks the whole array, then the graph is live and its templates without dependences are ready. -/
def execGraphLaunchRequest (id : Nat) (s : State) : Out :=
  match headMsg? s id with
  | none => .next s
  | some m =>
    match m.body with
    | .launch attn keys d =>
      match part? s m.part with
      | none => .next (dropMsg s id)
      | some p =>
        let md := masterDie s p attn
        let ts := keys.map (templateAt s p m.src md keys.length)
        let s := dropMsg s id
        if ts.any Option.isNone then
          let t := raiseEvent s md { KEvent.base with
            kind := .fault, reason := 1, pid := p.pid, cause := 35, arg0 := ts.findIdx Option.isNone }
          .next { t with msgReplies := t.msgReplies ++ [graphReply m d (2 ^ 63 + 1)] }
        else
          match freeGraph p with
          | none => .next { s with msgReplies := s.msgReplies ++ [graphReply m d (2 ^ 63 + 2)] }
          | some k =>
            let tl := ts.filterMap fun x => x
            let gen := nextGen p k
            let g : Graph := ⟨k, gen, tl, tl.map fun t => t.depn, tl.map fun _ => false, [], []⟩
            let s1 := newVersion (modNode (noteGen s p.pid k gen) p.pid attn fun n => { n with graphs := n.graphs ++ [g] }) p.pid attn
            let s2 := ((List.range tl.length).filter fun i => (tl.map fun t => t.depn).getD i 1 = 0).foldl
              (fun s i => readyTemplate s p.pid attn k i) s1
            .next (release? s2 p.pid attn (.reply (graphReply m d (gen * 2 ^ 16 + k)) m))
    | _ => .next s

/-! ## Signals and completions (11 R283, 01 R41) -/

/-- The live graph that a handle names at a node. -/
def named? (s : State) (pid : Nat) (attn : Bool) (handle : Word) : Option Graph :=
  (node? s pid attn).bind fun n => n.2.graphs.find? fun g => g.gslot == handle.toNat % 1024 && g.gen == handle.toNat / 2 ^ 16 % 2 ^ 16

/-- A signal to a template of the live graph that the handle names, on either node of the partition, as graph slots are the partition's; ignored and
counted at the node it was sent to where it names no live count. -/
def signalGraph (s : State) (pid : Nat) (attn : Bool) (handle : Word) (t : Nat) : State :=
  let at' (a : Bool) : Option (Bool × Graph) := ((named? s pid a handle).filter fun g => g.counts.getD t 0 != 0).map fun g => (a, g)
  match (at' attn).or (at' !attn) with
  | some (a, g) => release? (decTemplate (newVersion s pid a) pid a g.gslot t) pid a (.signal handle t)
  | none => match part? s pid with
    | some p => count s (masterDie s p attn) pid 12 1
    | none => s

/-- GRAPH_SIGNAL_RECEIVE: signals of one thread take effect in issue order. -/
def execGraphSignalReceive (id : Nat) (s : State) : Out :=
  match headMsg? s id with
  | none => .next s
  | some m =>
    match m.body with
    | .signal attn h t =>
      let earlier : Bool := s.msgs.any fun q => q.id < id && q.thid == m.thid && q.part == m.part && (match q.body with | .signal _ _ _ => true | _ => false)
      if earlier then .next s else .next (signalGraph (dropMsg s id) m.part attn h t)
    | _ => .next s

/-- The instances of a template with a completion record. -/
def endedOf (g : Graph) (t : Nat) : List Nat := (g.ended.filter fun e => e.1 == t).map fun e => e.2.1

/-- A graph is live until every count is zero and every instance has completed. -/
def graphOver (g : Graph) : Bool :=
  (g.counts.all (· == 0)) && (List.range g.tmpls.length).all fun t => match g.tmpls[t]? with
    | some x => (endedOf g t).length == x.count
    | none => true

/-- A completion is committed: the record is made, and the last one of a template decrements its successors. -/
def recordEnd (s : State) (pid : Nat) (attn : Bool) (gslot t idx : Nat) (how : InstEnd) : State :=
  match graph? s pid attn gslot with
  | none => s
  | some g =>
    if (endedOf g t).contains idx then s
    else
      let s := modGraph s pid attn gslot fun g => { g with ended := g.ended ++ [(t, idx, how)] }
      match g.tmpls[t]? with
      | none => s
      | some x =>
        let s := if (endedOf g t).length + 1 = x.count then x.succ.foldl (fun s u => decTemplate s pid attn gslot u) s else s
        match graph? s pid attn gslot with
        | some g =>
          if graphOver g then modNode s pid attn fun n => { n with graphs := n.graphs.filter fun y => y.gslot != gslot, ended := n.ended ++ [g] }
          else s
        | none => s

/-- COMPLETION_REPORT. -/
def execCompletionReport (id : Nat) (s : State) : Out :=
  match s.reports.find? fun r => r.id == id with
  | none => .next s
  | some r =>
    let s := { s with reports := s.reports.filter fun y => y.id != id }
    match graph? s r.pid r.attn r.gslot with
    | some g => if g.gen = r.gen then .next (recordEnd (newVersion s r.pid r.attn) r.pid r.attn r.gslot r.tmpl r.idx r.how) else .next s
    | none => .next s

/-! ## The deputy (12 R285) -/

/-- DEPUTY_COMMIT: the changes made so far are committed at the deputy. -/
def execDeputyCommit (pid : Nat) (attn : Bool) (s : State) : Out :=
  match node? s pid attn with
  | some (_, n) =>
    if n.sentVersion < n.version then .next (modNode s pid attn commitAll) else .next s
  | none => .next s

/-- What waited for versions up to `v` happens, in order. -/
def releaseUpTo (s : State) (pid : Nat) (attn : Bool) (v : Nat) : State :=
  match node? s pid attn with
  | none => s
  | some (_, n) =>
    let s := modNode s pid attn fun n => { n with acked := v, await := n.await.filter fun a => v < a.1 }
    (n.await.filter fun a => a.1 ≤ v).foldl (fun s a => committed s a.2) s

/-- DEPUTY_COMMIT_ACK. -/
def execDeputyCommitAck (pid : Nat) (attn : Bool) (s : State) : Out :=
  match node? s pid attn with
  | some (_, n) => if n.acked < n.sentVersion then .next (releaseUpTo s pid attn n.sentVersion) else .next s
  | none => .next s

/-! ## Fenced dies (12 R287) -/

/-- The die to which an instance was assigned. -/
def dieOfInst (g : Graph) (t i : Nat) : Nat :=
  match g.ranges.find? fun r => r.1 == t && r.2.2.1 ≤ i && i ≤ r.2.2.2 with
  | some r => r.2.1
  | none => 0

/-- Whether a graph is the same live graph as another. -/
def sameGraph (g h : Graph) : Bool := h.gslot == g.gslot && h.gen == g.gen

/-- The completions of a graph by live dies that the deputy's copies of the graphs do not hold, as reports made again. -/
def lostReports (s : State) (pid : Nat) (attn : Bool) (copies : List Graph) (g : Graph) : List Report :=
  (g.ended.filter fun e =>
    !(die s (dieOfInst g e.1 e.2.1)).fenced && copies.any fun h => sameGraph g h && !(endedOf h e.1).contains e.2.1).map fun e =>
      ⟨0, dieOfInst g e.1 e.2.1, pid, attn, g.gslot, g.gen, e.1, e.2.1, e.2.2⟩

/-- The new master holds the committed state; launches and signals whose change was not committed are put before it again, and so are completions of
live dies that it does not hold. -/
def takeOver (s : State) (pid : Nat) (attn : Bool) : State :=
  match node? s pid attn with
  | none => s
  | some (_, n) =>
    let lost := n.await.filter fun a => n.sentVersion < a.1
    let again := lost.filterMap fun a => match a.2 with | .reply _ m => some m | _ => none
    let signals := lost.filterMap fun a => match a.2 with | .signal h t => some (h, t) | _ => none
    let news := (n.ended ++ n.graphs).flatMap (lostReports s pid attn n.deputyGraphs)
    let unmade := (n.graphs ++ n.ended.reverse).filter fun g => !n.deputyGraphs.any (sameGraph g)
    let s1 := modNode (unmade.foldl (fun s g => forgetGen s pid g) s) pid attn fun n =>
      { n with graphs := n.deputyGraphs, ended := [], version := n.sentVersion, await := n.await.filter fun a => a.1 ≤ n.sentVersion }
    let s2 := news.foldl (fun s r => { (newId s).2 with reports := s.reports ++ [{ r with id := s.nextId }] }) { s1 with msgs := again ++ s1.msgs }
    signals.foldl (fun s x => signalGraph s pid attn x.1 x.2) s2

/-- The instances of a graph's template that were assigned to a die and have no completion record. -/
def orphans (g : Graph) (d t : Nat) : List Nat :=
  let done := endedOf g t
  ((g.ranges.filter fun r => r.1 == t && r.2.1 == d).flatMap fun r => (List.range (r.2.2.2 + 1 - r.2.2.1)).map fun i => r.2.2.1 + i).filter
    fun i => !done.contains i

/-- A template's orphans are reissued, or lost where ONCE is 1. -/
def reissue (s : State) (pid : Nat) (attn : Bool) (gslot d t : Nat) : State :=
  match node? s pid attn, graph? s pid attn gslot with
  | some (p, _), some g =>
    let l := orphans g d t
    if l.isEmpty then s
    else
      let s := modGraph s pid attn gslot fun g => { g with ranges := g.ranges.filter fun r => !(r.1 == t && r.2.1 == d) }
      match g.tmpls[t]? with
      | none => s
      | some x =>
        if x.once then
          let s := raiseEvent s (masterDie s p attn) { KEvent.base with
            kind := .fault, reason := 1, pid := pid, cause := 36, arg0 := t, arg1 := l.headD 0, arg2 := l.getLastD 0 }
          l.foldl (fun s i => recordEnd s pid attn gslot t i .lost) s
        else
          let rs := divide (liveDies s p attn) l
          sendRanges (modGraph s pid attn gslot fun g => { g with ranges := g.ranges ++ rs.map fun r => (t, r.1, r.2.1, r.2.2) }) pid attn g t rs
  | _, _ => s

/-- One node's part in a fence; `m` and `dep` are the master and deputy before it. -/
def fenceNode (s : State) (pid : Nat) (attn : Bool) (d m : Nat) (dep : Option Nat) : State :=
  match part? s pid with
  | none => s
  | some p =>
    if (liveDies s p attn).isEmpty then
      setIrq { (modPart s pid fun p => { p with lost := true }) with host := s.host ++ [.partitionLost pid] } pid 62
    else
      let s1 := if m = d then takeOver s pid attn else s
      let s2 := if m = d ∨ dep = some d then
          match node? s1 pid attn with
          | some (_, n) => releaseUpTo (modNode s1 pid attn commitAll) pid attn n.version
          | none => s1
        else s1
      let s3 := newVersion s2 pid attn
      match node? s3 pid attn with
      | none => s3
      | some (_, n) => n.graphs.foldl (fun s g => (List.range g.tmpls.length).foldl (fun s t => reissue s pid attn g.gslot d t) s) s3

/-- The host's statuses, as the model numbers them: done, refused, BUSY, FULL. -/
def hDONE : Nat := 0
def hREFUSED : Nat := 1
def hBUSY : Nat := 2
def hFULL : Nat := 3

/-- A host request ends, well or not. -/
def hostAnswer (r : HostReq) (ok : Bool) : HostMsg :=
  match r.kind with
  | .read => .readData r.pid ok (if ok then r.data else [])
  | .write => .writeDone r.pid ok
  | .launch _ _ => .status r.pid (if ok then hDONE else hREFUSED)

/-- What a fenced die's service cores had in hand fails. -/
def failHost (s : State) (d : Nat) : State :=
  (List.finRange 64).foldl (fun s n =>
    if n.val / 4 ≠ d then s
    else
      let t := { s with svcCores := s.svcCores.set n ⟨[]⟩ }
      { t with host := s.host ++ s.svcCores[n].queue.map fun r => hostAnswer r false }) s

/-- DIE_FENCE: the die's threads, tasks, queues and reports in flight are gone; masters and deputies are named anew and its instances reissued or
lost. -/
def execDieFence (d : Nat) (s : State) : Out :=
  if 20 ≤ d || (die s d).fenced then .next s
  else
    let before := s.parts.flatMap fun p => ([false, true].filter fun a => (nodeDies p a).contains d).map fun a => (p.pid, a, masterDie s p a, deputyDie s p a)
    let onDie (l : Loc) : Bool := dieOf l == d
    let s1 := modDie s d fun y => { y with fenced := true, events := [], held := [], ready := [], run := none, walks := [] }
    let s2 := { failHost s1 d with
      cores := s1.cores.filter fun c => !onDie c.1
      reqs := s1.reqs.filter fun r => !onDie r.loc
      msgs := s1.msgs.filter fun m => !onDie m.src || (match m.body with | .launch _ _ _ => true | .signal _ _ _ => true | _ => false)
      svcs := s1.svcs.filter fun r => !onDie r.loc
      starts := s1.starts.filter fun y => !onDie y.loc
      reports := s1.reports.filter fun r => r.die != d
      preReqs := s1.preReqs.filter fun q => !onDie q.loc
      parts := s1.parts.map fun p => { p with saves := p.saves.filter fun v => !onDie v.loc } }
    .next (before.foldl (fun s b => fenceNode s b.1 b.2.1 d b.2.2.1 b.2.2.2) s2)

end Sys2Proof.Machine
end

