-- ==== Sys2Proof/Machine/Hash.lean ====
section
/-! DEFINITION. SHAKE256 of FIPS 202 and SLH-DSA-SHAKE-256s of FIPS 205, which firmware signatures, device identity and attestation use (00 R9; 16 R390 to R392). -/

namespace Sys2Proof.Machine

/-! ## SHAKE256 (FIPS 202) -/

/-- The 25 lanes of Keccak-f[1600], lane x + 5 y. -/
abbrev Lanes := Vector Word 25

/-- ρ turns the lane that its walk reaches after t steps by the triangular number of t + 1; the walk begins at (1, 0) and goes from (x, y) to
(y, 2x + 3y). Lane (0, 0) is not turned. -/
def rhoTurns : Nat → Nat → Nat → Nat → Vector Nat 25 → Vector Nat 25
  | 0, _, _, _, v => v
  | fuel + 1, t, x, y, v => rhoTurns fuel (t + 1) y ((2 * x + 3 * y) % 5) (v.set! (x + 5 * y) (t * (t + 1) / 2 % 64))

/-- The rotation of each lane in ρ. -/
def rhoBy : Vector Nat 25 := rhoTurns 24 1 1 0 (Vector.replicate 25 0)

/-- One step of the shift register x⁸ + x⁶ + x⁵ + x⁴ + 1 behind ι. -/
def iotaStep (r : BitVec 8) : BitVec 8 := if r.msb then r <<< 1 ^^^ 0x71 else r <<< 1

/-- Seven steps of it give one constant: the bit that step j puts out stands at 2^j − 1. -/
def iotaWord : Nat → Nat → BitVec 8 → Word → Word × BitVec 8
  | 0, _, r, w => (w, r)
  | fuel + 1, j, r, w => iotaWord fuel (j + 1) (iotaStep r) (if r.getLsbD 0 then w ||| BitVec.twoPow 64 (2 ^ j - 1) else w)

/-- The constants of ι, one for each of `fuel` rounds. -/
def iotaFrom : Nat → BitVec 8 → List Word
  | 0, _ => []
  | fuel + 1, r => let w := iotaWord 7 0 r 0; w.1 :: iotaFrom fuel w.2

def iotaOf : List Word := iotaFrom 24 1

def laneAt (a : Lanes) (i : Nat) : Word := a[Fin.ofNat 25 i]

/-- One round: θ, ρ and π, χ, ι. -/
def keccakRound (a : Lanes) (rc : Word) : Lanes :=
  let c (x : Nat) : Word := (List.range 5).foldl (fun v y => v ^^^ laneAt a (x % 5 + 5 * y)) 0
  let cs : Vector Word 5 := Vector.ofFn fun x => c x.val
  let d (x : Nat) : Word := cs[Fin.ofNat 5 (x + 4)] ^^^ (cs[Fin.ofNat 5 (x + 1)]).rotateLeft 1
  let t : Lanes := Vector.ofFn fun i => (a[i] ^^^ d (i.val % 5)).rotateLeft rhoBy[i]
  -- lane (x, y) of the result of π is lane (x + 3y, x)
  let b : Lanes := Vector.ofFn fun i => laneAt t ((i.val % 5 + 3 * (i.val / 5)) % 5 + 5 * (i.val % 5))
  let e : Lanes := Vector.ofFn fun i =>
    let r := 5 * (i.val / 5)
    b[i] ^^^ (~~~ laneAt b (r + (i.val + 1) % 5) &&& laneAt b (r + (i.val + 2) % 5))
  e.set 0 (e[0] ^^^ rc)

def keccakF (a : Lanes) : Lanes := iotaOf.foldl keccakRound a

/-- The rate of SHAKE256 in bytes. -/
def shakeRate : Nat := 136

/-- One block of 136 bytes into the state. -/
def absorbBlock (a : Lanes) (b : List Byte) : Lanes :=
  keccakF (Vector.ofFn fun i => if i.val < 17 then a[i] ^^^ BitVec.ofNat 64 (ofBytes ((b.drop (8 * i.val)).take 8)) else a[i])

/-- `fuel` blocks of a padded message. -/
def absorb : Nat → Lanes → List Byte → Lanes
  | 0, a, _ => a
  | fuel + 1, a, l => absorb fuel (absorbBlock a (l.take shakeRate)) (l.drop shakeRate)

/-- A message with the suffix 1111 of SHAKE and the padding 10*1. -/
def shakePad (l : List Byte) : List Byte :=
  let k := shakeRate - l.length % shakeRate
  l ++ (if k = 1 then [0x9F#8] else 0x1F#8 :: List.replicate (k - 2) 0#8 ++ [0x80#8])

/-- `fuel` output blocks. -/
def squeeze : Nat → Lanes → List Byte
  | 0, _ => []
  | fuel + 1, a => (((List.finRange 25).take 17).flatMap fun i => toBytes 8 a[i].toNat) ++ squeeze fuel (keccakF a)

/-- `n` bytes of SHAKE256. -/
def shakeN (n : Nat) (l : List Byte) : List Byte :=
  let p := shakePad l
  (squeeze ((n + shakeRate - 1) / shakeRate) (absorb (p.length / shakeRate) (Vector.replicate 25 0) p)).take n

/-- The 64-byte output that measurements and key digests use (16 R390, R392). -/
def shake256 (l : List Byte) : List Byte := shakeN 64 l

/-! ## Addresses and hashes of SLH-DSA (FIPS 205 sections 4.2 and 11.2); n = 32 -/

/-- An ADRS: layer, tree, type, and the last three words. -/
structure Adrs where
  layer : Nat
  tree : Nat
  typ : Nat
  w1 : Nat
  w2 : Nat
  w3 : Nat
  deriving DecidableEq, Repr

/-- Big-endian bytes of a number. -/
def beBytes (n v : Nat) : List Byte := (toBytes n v).reverse
def ofBeBytes (l : List Byte) : Nat := ofBytes l.reverse

def Adrs.bytes (a : Adrs) : List Byte := beBytes 4 a.layer ++ beBytes 12 a.tree ++ beBytes 4 a.typ ++ beBytes 4 a.w1 ++ beBytes 4 a.w2 ++ beBytes 4 a.w3

/-- setTypeAndClear. -/
def Adrs.as (a : Adrs) (t : Nat) : Adrs := { a with typ := t, w1 := 0, w2 := 0, w3 := 0 }

/-- F, H, T and PRF: SHAKE256 of the public seed, the address and the input, 32 bytes. -/
def tweak (seed : List Byte) (a : Adrs) (m : List Byte) : List Byte := shakeN 32 (seed ++ a.bytes ++ m)

/-- base_2b: the first `n` groups of `b` bits of a byte string. -/
def base2b (l : List Byte) (b n : Nat) : List Nat :=
  let v := ofBeBytes l
  (List.range n).map fun i => v / 2 ^ (8 * l.length - b * (i + 1)) % 2 ^ b

/-- The 32-byte parts of a byte string. -/
def partAt (l : List Byte) (i : Nat) : List Byte := (l.drop (32 * i)).take 32

/-! ## WOTS+ (FIPS 205 section 5); w = 16, len = 67 -/

def wotsChain (seed : List Byte) (a : Adrs) (i : Nat) : Nat → List Byte → List Byte
  | 0, x => x
  | s + 1, x => wotsChain seed a (i + 1) s (tweak seed { a with w3 := i } x)

/-- The message's digits and those of its checksum. -/
def wotsDigits (m : List Byte) : List Nat :=
  let d := base2b m 4 64
  d ++ base2b (beBytes 2 ((d.map fun x => 15 - x).sum * 16)) 4 3

def wotsSecret (sk seed : List Byte) (a : Adrs) (i : Nat) : List Byte := tweak seed { a.as 5 with w1 := a.w1, w2 := i } sk

def wotsCompress (seed : List Byte) (a : Adrs) (l : List Byte) : List Byte := tweak seed { a.as 1 with w1 := a.w1 } l

def wotsPk (sk seed : List Byte) (a : Adrs) : List Byte :=
  wotsCompress seed a ((List.range 67).flatMap fun i => wotsChain seed { a with w2 := i } 0 15 (wotsSecret sk seed a i))

def wotsSign (m sk seed : List Byte) (a : Adrs) : List Byte :=
  (wotsDigits m).zipIdx.flatMap fun d => wotsChain seed { a with w2 := d.2 } 0 d.1 (wotsSecret sk seed a d.2)

def wotsPkFromSig (sig m seed : List Byte) (a : Adrs) : List Byte :=
  wotsCompress seed a ((wotsDigits m).zipIdx.flatMap fun d => wotsChain seed { a with w2 := d.2 } d.1 (15 - d.1) (partAt sig d.2))

/-! ## XMSS and the hypertree (FIPS 205 sections 6 and 7); h' = 8, d = 8 -/

def xmssNode (sk seed : List Byte) (a : Adrs) : Nat → Nat → List Byte
  | 0, i => wotsPk sk seed { a.as 0 with w1 := i }
  | z + 1, i => tweak seed { a.as 2 with w2 := z + 1, w3 := i } (xmssNode sk seed a z (2 * i) ++ xmssNode sk seed a z (2 * i + 1))

/-- The path from node `i` at height `k` upward: `l` the siblings still to come. -/
def climb (seed : List Byte) (a : Adrs) : List (List Byte) → Nat → Nat → List Byte → List Byte
  | [], _, _, x => x
  | s :: l, k, i, x => climb seed a l (k + 1) (i / 2) (tweak seed { a with w2 := k + 1, w3 := i / 2 } (if i % 2 = 0 then x ++ s else s ++ x))

def xmssSign (m sk seed : List Byte) (a : Adrs) (idx : Nat) : List Byte :=
  wotsSign m sk seed { a.as 0 with w1 := idx } ++ (List.range 8).flatMap fun j => xmssNode sk seed a j (idx / 2 ^ j ^^^ 1)

/-- Bytes of an XMSS signature: 67 + 8 parts. -/
def xmssLen : Nat := 32 * 75

def xmssPkFromSig (idx : Nat) (sig m seed : List Byte) (a : Adrs) : List Byte :=
  climb seed (a.as 2) ((List.range 8).map fun j => partAt sig (67 + j)) 0 idx (wotsPkFromSig sig m seed { a.as 0 with w1 := idx })

def topAdrs (layer tree : Nat) : Adrs := ⟨layer, tree, 0, 0, 0, 0⟩

/-- The signatures of `n` layers from layer `j` on. -/
def htSign (sk seed : List Byte) : Nat → Nat → Nat → Nat → List Byte → List Byte
  | 0, _, _, _, _ => []
  | n + 1, j, tree, leaf, m =>
    let s := xmssSign m sk seed (topAdrs j tree) leaf
    s ++ htSign sk seed n (j + 1) (tree / 256) (tree % 256) (xmssPkFromSig leaf s m seed (topAdrs j tree))

/-- The root that the signatures of `n` layers from layer `j` on lead to. -/
def htRoot (seed sig : List Byte) : Nat → Nat → Nat → Nat → List Byte → List Byte
  | 0, _, _, _, m => m
  | n + 1, j, tree, leaf, m =>
    htRoot seed sig n (j + 1) (tree / 256) (tree % 256) (xmssPkFromSig leaf ((sig.drop (xmssLen * j)).take xmssLen) m seed (topAdrs j tree))

/-! ## FORS (FIPS 205 section 8); k = 22, a = 14 -/

def forsSecret (sk seed : List Byte) (a : Adrs) (i : Nat) : List Byte := tweak seed { a.as 6 with w1 := a.w1, w3 := i } sk

def forsNode (sk seed : List Byte) (a : Adrs) : Nat → Nat → List Byte
  | 0, i => tweak seed { a with w2 := 0, w3 := i } (forsSecret sk seed a i)
  | z + 1, i => tweak seed { a with w2 := z + 1, w3 := i } (forsNode sk seed a z (2 * i) ++ forsNode sk seed a z (2 * i + 1))

def forsSign (md sk seed : List Byte) (a : Adrs) : List Byte :=
  (base2b md 14 22).zipIdx.flatMap fun d => forsSecret sk seed a (d.2 * 2 ^ 14 + d.1)
    ++ (List.range 14).flatMap fun j => forsNode sk seed a j (d.2 * 2 ^ (14 - j) + (d.1 / 2 ^ j ^^^ 1))

def forsPkFromSig (sig md seed : List Byte) (a : Adrs) : List Byte :=
  tweak seed { a.as 4 with w1 := a.w1 } ((base2b md 14 22).zipIdx.flatMap fun d =>
    let i := d.2 * 2 ^ 14 + d.1
    climb seed a ((List.range 14).map fun j => partAt sig (15 * d.2 + 1 + j)) 0 i (tweak seed { a with w2 := 0, w3 := i } (partAt sig (15 * d.2))))

/-! ## Keys, signing and verification (FIPS 205 sections 9 and 10) -/

/-- A signature: R, FORS, hypertree. -/
def slhLen : Nat := 29792
def forsLen : Nat := 32 * 22 * 15

/-- The public key of a 96-byte secret SK.seed ‖ SK.prf ‖ PK.seed: PK.seed ‖ PK.root. -/
def slhPublic (secret : List Byte) : List Byte := partAt secret 2 ++ xmssNode (partAt secret 0) (partAt secret 2) (topAdrs 7 0) 8 0

/-- The digest of a message: the FORS part, the tree and the leaf. -/
def slhDigest (r pk m : List Byte) : List Byte × Nat × Nat :=
  let h := shakeN 47 (r ++ pk ++ m)
  (h.take 39, ofBeBytes ((h.drop 39).take 7), ofBeBytes ((h.drop 46).take 1))

/-- The message of the external interface with an empty context. -/
def slhMessage (m : List Byte) : List Byte := [0#8, 0#8] ++ m

/-- The signature of `m` with the key pair of a secret and the randomizer `rand`. -/
def slhSign (secret rand m : List Byte) : List Byte :=
  let sk := partAt secret 0
  let pk := slhPublic secret
  let seed := partAt pk 0
  let r := shakeN 32 (partAt secret 1 ++ rand ++ slhMessage m)
  let g := slhDigest r pk (slhMessage m)
  let a : Adrs := { topAdrs 0 g.2.1 with typ := 3, w1 := g.2.2 }
  let f := forsSign g.1 sk seed a
  r ++ f ++ htSign sk seed 8 0 g.2.1 g.2.2 (forsPkFromSig f g.1 seed a)

/-- Whether `sig` is a signature of `m` under a public key. -/
def slhVerify (pk m sig : List Byte) : Bool :=
  let seed := partAt pk 0
  let g := slhDigest (partAt sig 0) pk (slhMessage m)
  let a : Adrs := { topAdrs 0 g.2.1 with typ := 3, w1 := g.2.2 }
  let root := forsPkFromSig ((sig.drop 32).take forsLen) g.1 seed a
  sig.length == slhLen && htRoot seed ((sig.drop 32).drop forsLen) 8 0 g.2.1 g.2.2 root == partAt pk 1

end Sys2Proof.Machine
end

