-- ==== Sys2Proof/Machine/Kiln.lean ====
section
/-! DEFINITION. The kiln: its window, decisions, fallback and age override, the kiln instructions, and the exchange of programs (12 R290 to R304). -/

namespace Sys2Proof.Machine

def w32 (n : Nat) : BitVec 32 := BitVec.ofNat 32 n

/-! ## The window (12 R292) -/

def KKind.num : KKind → Nat
  | .dispatch => 0
  | .preempt => 1
  | .fault => 2

/-- Words 0 to 3: the event. -/
def evtWord (e : KEvent) : Nat := e.cause % 256 * 2 ^ 24 + KKind.num e.kind * 2 ^ 22 + e.reason % 16 * 2 ^ 16 + e.level % 8
def evaWord (p : Partition) (e : KEvent) : Nat :=
  match e.who with
  | some (l, k) => 2 ^ 31 + (if isSliceCore l then 2 ^ 30 else 0) + k % 16 * 2 ^ 20 + whoNum p l % 2 ^ 17
  | none => match e.cores with
    | [.slice d i] => 2 ^ 30 + whoNum p (.slice d i) % 2 ^ 17
    | _ => 0
def evWords (p : Partition) (e : KEvent) : List Nat := [evtWord e, evaWord p e, e.arg0 % 2 ^ 32, e.arg1 % 2 ^ 32]

def entryLen (e : ReadyEntry) : Nat := e.last + 1 - e.next

/-- Words Q0 to Q7. -/
def qWord (s : State) (d pid level : Nat) : Nat :=
  match headEntry s d pid level with
  | none => 0
  | some e =>
    min (entryAge s e / 16) 0x3FFFF * 2 ^ 14 + e.t.tclass.toNat * 2 ^ 12 + min ((entriesAt s d pid level).map entryLen).sum 4095

def bitSum (l : List Nat) (f : Nat → Bool) : Nat := (l.filter f).foldl (fun n i => n + 2 ^ i) 0

def idleMask (s : State) (p : Partition) (d : Nat) : Nat := bitSum (groupsOf p d) fun g => idleCores s d g != 0

/-- Whether other partitions time-share a node of a partition. -/
def nodeShared (s : State) (p : Partition) (attn : Bool) : Bool :=
  match nodeOf p attn with
  | some n => s.parts.any fun q => q.pid != p.pid && (match nodeOf q attn with | some m => m.node == n.node | none => false)
  | none => false

/-- The snapshot of 32 words. -/
def window (s : State) (p : Partition) (d : Nat) (e : KEvent) : Vector (BitVec 32) 32 :=
  let dp := diePart s d p.pid
  let lv := List.range 8
  let q := lv.map (qWord s d p.pid)
  let idle := idleMask s p d
  let nempty := bitSum lv fun l => (headEntry s d p.pid l).isSome
  let aged := bitSum lv fun l => match headEntry s d p.pid l with | some y => agedEntry s p y | none => false
  let runlv := bitSum lv fun l => (levelsOn s d p.pid).contains l
  let used := if nodeShared s p (isAttn d) then (s.cycle - dp.sliceFrom) / 4096 % 2 ^ 16 else 0
  let len := p.sliceLen % 2 ^ 16
  let free := ((groupsOf p d).map (idleCores s d)).sum
  let l := evWords p e ++ q ++ [idle % 2 ^ 32, idle / 2 ^ 32, nempty, used * 2 ^ 16 + len,
    (if masterDie s p (isAttn d) = d then 256 else 0) + userDie p d % 32, s.cycle % 2 ^ 32, aged, runlv, free % 2 ^ 16, e.arg2 % 2 ^ 32]
  Vector.ofFn fun i => if 28 ≤ i.val then dp.sw[Fin.ofNat 4 (i.val - 28)] else w32 (l.getD i.val 0)

/-! ## Decision words (12 R293, R294) -/

def wCode (w : BitVec 32) : Nat := bitsAt w 2 0
def wLevel (w : BitVec 32) : Nat := bitsAt w 7 5
def wGsel (w : BitVec 32) : Nat := bitsAt w 14 8

/-- The victim of a PREEMPT decision: the lowest level, the most recently dispatched among equals (12 R295). -/
def pickVictim (l : List (Loc × Task)) : Option (Loc × Task) :=
  l.foldl (fun best t => match best with
    | none => some t
    | some b => if t.2.level < b.2.level ∨ (t.2.level = b.2.level ∧ b.2.dispatched < t.2.dispatched) then some t else best) none

def inGroup (d g : Nat) (l : Loc) : Bool := (groupCores d g).contains l

def wordValid (s : State) (p : Partition) (d : Nat) (e : KEvent) (w : BitVec 32) : Bool :=
  let g := wGsel w
  match e.kind with
  | .dispatch =>
    w &&& 0xFFFF8018 == 0 && wCode w ≤ 1 &&
      (wCode w == 0 || match headEntry s d p.pid (wLevel w) with
        | some y => g == 0 || (g - 1 < groupsOn d && groupAble s p d y (g - 1))
        | none => false)
  | .preempt =>
    w &&& 0xFFFF80F8 == 0 && wCode w ≤ 1 &&
      (wCode w == 0 || g == 0 || (e.reason == 0 && (victims s d p.pid).any fun t => inGroup d (g - 1) t.1 && t.2.level < e.level))
  | .fault => w &&& 0xFFFFFFF8 == 0 && wCode w ≤ 3

/-! ## Applying a decision (12 R295) -/

def applyDispatch (s : State) (p : Partition) (d level gsel : Nat) : State :=
  match headEntry s d p.pid level with
  | none => s
  | some e =>
    match (if gsel = 0 then leastLoaded s p d e else some (gsel - 1)) with
    | some g => dispatchTo s p d e g
    | none => s

/-- Whether a partition has anything to run. -/
def hasWork (s : State) (p : Partition) : Bool :=
  (dieList p).any (fun d => (die s d).ready.any fun e => e.pid == p.pid)
    || p.saves.any (fun v => !v.victim && (!v.slots.isEmpty || !v.inbox.isEmpty || !v.core.spill.isEmpty || v.core.task.isSome
        || engines.any fun e => !(engQ v.core e).isEmpty))
    || s.cores.any (fun c => c.2.launchq.any (fun q => q.pid == p.pid) || c.2.inbox.any (fun a => a.th.part == p.pid)
        || (List.finRange 16).any fun k => c.2.slots[k].st != .free && c.2.slots[k].th.part == p.pid)
    || s.starts.any (fun y => y.entry.pid == p.pid)
    || (p.compute.toList ++ p.attention.toList).any fun n => n.await.any fun a => match a.2 with | .range _ _ => true | _ => false

/-- The next time-sharing partition that has work, in ascending SHARE order, wrapping. -/
def nextShare (s : State) (p : Partition) : Option Partition :=
  let l := (matesOf s p).filter fun q => q.st == .descheduled && hasWork s q
  [1, 2, 3].findSome? fun i => l.find? fun q => q.share == (p.share + i) % 4

def setSlice (s : State) (p : Partition) (ext : Nat) : State :=
  (dieList p).foldl (fun s d => modDiePart s d p.pid fun q => { q with sliceFrom := s.cycle, extended := ext }) s

def sliceSwitch (s : State) (p : Partition) : State :=
  match nextShare s p with
  | some q => switchTo s q
  | none => setSlice s p 0

def applyPreempt (s : State) (p : Partition) (d : Nat) (e : KEvent) (yes : Bool) (gsel : Nat) : State :=
  if e.reason = 1 then
    if yes then sliceSwitch s p else setSlice s p ((diePart s d p.pid).extended + 1)
  else if yes then
    match pickVictim ((victims s d p.pid).filter fun t => gsel == 0 || inGroup d (gsel - 1) t.1) with
    | some t => { s with preReqs := s.preReqs ++ [⟨t.1, p.pid, true⟩] }
    | none => s
  else s

/-- A record to the host (15 R379). -/
def hostRecord (s : State) (p : Partition) (e : KEvent) : State :=
  let w := evWords p e
  setIrq (logRec s p.pid false [BitVec.ofNat 64 (w.getD 0 0 + w.getD 1 0 * 2 ^ 32), BitVec.ofNat 64 (w.getD 2 0 + w.getD 3 0 * 2 ^ 32)]) p.pid 60

/-- The slot of the thread that an event names, while that thread stands in HALT there. -/
def faultSlot (s : State) (e : KEvent) : Option (Loc × Fin 16) :=
  match e.who with
  | some (l, k) =>
    let k : Fin 16 := Fin.ofNat 16 k
    let x := slotAt s l k
    if x.st = .halt ∧ x.halting = none ∧ x.th.part = e.pid ∧ x.th.thid = e.thid then some (l, k) else none
  | none => none

/-- The same for a thread that is saved with its core. -/
def faultSaved (p : Partition) (e : KEvent) : Option (Save × Nat × Slot) :=
  (savedSlot p e.thid).filter fun r => r.2.2.st == .halt && r.2.2.halting.isNone

/-- A thread in HALT runs again at an address; on a core that is being pre-empted it stays halted for that. -/
def wakeAt (s : State) (l : Loc) (k : Fin 16) (pid : Nat) (f : Thread → Thread) : State :=
  let pre : Bool := (core s l).preempt.any fun q => q.pid == pid
  modSlot s l k fun x => { x with st := if pre then .halt else .run, halting := if pre then some 0 else none, th := f x.th }

/-- A saved thread in HALT runs on when its core is restored. -/
def wakeSaved (s : State) (pid : Nat) (v : Save) (k : Nat) (f : Thread → Thread) : State :=
  modSave s pid v.id fun v => { v with slots := v.slots.map fun q => if q.1 = k then (k, { q.2 with halting := some 0, th := f q.2.th }) else q }

/-- RETRY: at TPC. -/
def retryTh (th : Thread) : Thread := { th with pc := th.tpc }
/-- USER, where the thread has a handler. -/
def userTh (th : Thread) : Thread := { th with thact := true, pc := th.tvec }
def userTakes (e : KEvent) (th : Thread) : Bool := th.tvec != 0 && e.cause != cDOUBLE

/-- The actions of a THREAD fault, on the thread in its slot or in the save of its core. -/
def threadAction (s : State) (p : Partition) (e : KEvent) (code : Nat) : State :=
  match faultSlot s e, faultSaved p e with
  | some (l, k), _ =>
    match code with
    | 0 => killAt s l k
    | 1 => wakeAt s l k p.pid retryTh
    | _ => if userTakes e (thread s l k) then wakeAt s l k p.pid userTh else hostRecord s p e
  | none, some (v, k, x) =>
    match code with
    | 0 => killSaved s p.pid v k x
    | 1 => wakeSaved s p.pid v k retryTh
    | _ => if userTakes e x.th then wakeSaved s p.pid v k userTh else hostRecord s p e
  | none, none => if code = 2 then hostRecord s p e else s

/-- KILL or RETRY of a failed launch. -/
def launchAction (s : State) (e : KEvent) (retry : Bool) : State :=
  match e.launch, e.cores with
  | some q, l :: _ =>
    if retry && (core s l).launchq.length < 64 then modCore s l fun c => { c with launchq := c.launchq ++ [q] }
    else count s (dieOf l) e.pid 18 1
  | _, _ => s

/-- The slot that a thread occupies, wherever it is; one that it is leaving is still its own. -/
def threadAt (s : State) (pid : Nat) (thid : Word) : Option (Loc × Fin 16) :=
  let at' (x : Slot) : Bool := x.th.part == pid && x.th.thid == thid && x.st != .free
  s.cores.findSome? fun c => ((List.finRange 16).find? fun k => at' c.2.slots[k]).map fun k => (c.1, k)

/-- KILL of a DEADLOCK event: the probe's origin thread, whatever it does by now, in a slot, in a save or on its way between cores. -/
def killOrigin (s : State) (p : Partition) (e : KEvent) : State :=
  match threadAt s e.pid e.thid, savedSlot p e.thid with
  | some (l, k), _ => killAt s l k
  | none, some (v, k, x) => killSaved s p.pid v k x
  | none, none => if onItsWay s p e.thid then
      rearmAll (dropArrivals (modFwd s e.pid e.thid fun y => { y with outs := [] }) e.pid e.thid) e.pid
    else s

def applyFault (s : State) (p : Partition) (e : KEvent) (code : Nat) : State :=
  if code = 3 then pausePart s p.pid
  else if e.reason = 0 then threadAction s p e code
  else if code = 2 then hostRecord s p e
  else if e.cause = 32 then launchAction s e (code == 1)
  else if e.cause = 34 ∧ code = 0 then killOrigin s p e
  else s

def applyWord (s : State) (p : Partition) (d : Nat) (e : KEvent) (w : BitVec 32) : State :=
  match e.kind with
  | .dispatch => if wCode w = 1 then applyDispatch s p d (wLevel w) (wGsel w) else s
  | .preempt => applyPreempt s p d e (wCode w == 1) (wGsel w)
  | .fault => applyFault s p e (wCode w)

/-- The built-in policy (12 R301). -/
def fallback (s : State) (p : Partition) (d : Nat) (e : KEvent) : State :=
  match e.kind with
  | .dispatch => (match levels.find? fun l => (headEntry s d p.pid l).isSome with
    | some l => applyDispatch s p d l 0
    | none => s)
  | .preempt => applyPreempt s p d e (e.reason == 1) 0
  | .fault => applyFault s p e 2

/-! ## Taking an event (12 R291, R300, R302) -/

/-- Whether cores of a partition on a die are still to be restored after a switch. -/
def restoring (p : Partition) (d : Nat) : Bool := p.saves.any fun v => !v.victim && dieOf v.loc == d

/-- Whether an event may be decided now: its die does not hold, and its partition is running or the event is a FAULT. DEDUCED: DISPATCH decisions wait
until the partition's cores on the die are restored, so that their tasks are seen on them (12 R292; 15 R376; log 56). -/
def eventReady (s : State) (d : Nat) (e : KEvent) : Bool :=
  match part? s e.pid with
  | none => true
  | some p => !(diePart s d e.pid).holding && (e.kind == .fault || p.st == .running) && !(e.kind == .dispatch && restoring p d)

/-- The next event: FAULT before PREEMPT before DISPATCH, oldest first. -/
def nextEvent (s : State) (d : Nat) : Option KEvent :=
  let l := (die s d).events.filter (eventReady s d)
  [KKind.fault, .preempt, .dispatch].findSome? fun k => l.find? fun e => e.kind == k

/-- The oldest aged entry that a group can take, the higher level on ties. -/
def overrideEntry (s : State) (p : Partition) (d : Nat) : Option ReadyEntry :=
  oldestOf (levels.filterMap fun l => match headEntry s d p.pid l with
    | some e => if agedEntry s p e && !(ableGroups s p d e).isEmpty then some e else none
    | none => none)

def entryPoint (i : KImage) : KKind → Option Nat
  | .dispatch => i.edisp
  | .preempt => i.epre
  | .fault => i.eflt

/-- The program's run for an event, or the fallback where the active slot has no entry for it. -/
def beginRun (s : State) (p : Partition) (d : Nat) (e : KEvent) : State :=
  match (diePart s d p.pid).active with
  | none => fallback s p d e
  | some i =>
    match entryPoint i e.kind with
    | none => fallback s p d e
    | some pc => modDie s d fun y => { y with run := some ⟨e, i, window s p d e, Vector.replicate 8 0, pc, 0, none, []⟩ }

/-- KILN_DECISION: the next event is taken and its decision begins. DESIGN CHOICE: the age override comes before the fallback too, and is counted, where the
active slot has no program or none for DISPATCH events, since R302 says only that it comes before the program is run (log 61). -/
def execKilnDecision (d : Nat) (s : State) : Out :=
  if (die s d).run.isSome then .next s
  else match nextEvent s d with
    | none => .next s
    | some e =>
      let t := admitHeld (modDie s d fun y => { y with events := y.events.erase e }) d
      match part? t e.pid with
      | none => .next t
      | some p =>
        match (if e.kind = .dispatch then overrideEntry t p d else none) with
        | some y =>
          let t := count t d p.pid 16 1
          .next (match leastLoaded t p d y with | some g => dispatchTo t p d y g | none => t)
        | none =>
          if e.kind = .preempt ∧ e.reason = 1 ∧ 4 ≤ (diePart t d p.pid).extended then
            .next (if (nextShare t p).isSome then sliceSwitch (count t d p.pid 17 1) p else setSlice t p 0)
          else .next (beginRun t p d e)

/-- TIME_SLICE_END: the event goes to the master of the compute node where that is shared, else to that of the attention node (12 R290). -/
def execTimeSliceEnd (pid : Nat) (s : State) : Out :=
  match part? s pid with
  | none => .next s
  | some p =>
    let d := masterDie s p (!nodeShared s p false)
    let waits (e : KEvent) : Bool := e.kind == .preempt && e.reason == 1 && e.pid == pid
    let y := die s d
    if p.st == .running && (nodeShared s p false || nodeShared s p true) && (diePart s d pid).sliceFrom + 4096 * p.sliceLen ≤ s.cycle
        && !(y.events.any waits || y.held.any waits || match y.run with | some r => waits r.ev | none => false) then
      .next (raiseEvent s d { KEvent.base with kind := .preempt, reason := 1, pid := pid })
    else .next s

/-! ## Running a program (12 R298 to R300) -/

/-- A failed decision: counted by kind, nothing written to S0 to S3, the fallback decides. -/
def failRun (s : State) (d : Nat) (r : KRun) (k : Fin 24) : State :=
  let t := count (modDie s d fun y => { y with run := none }) d r.ev.pid k 1
  match part? t r.ev.pid with
  | some p => fallback t p d r.ev
  | none => t

/-- `kend`: the `kstw` writes take effect all at once and the decision is applied. -/
def endDecision (s : State) (d : Nat) (r : KRun) : State :=
  match part? s r.ev.pid, r.word with
  | none, _ => modDie s d fun y => { y with run := none }
  | some _, none => failRun s d r 14
  | some p, some w =>
    if wordValid s p d r.ev w then
      let t := modDiePart (modDie s d fun y => { y with run := none }) d p.pid fun q =>
        { q with sw := r.sw.foldl (fun v x => v.set (Fin.ofNat 4 x.1) x.2) q.sw }
      applyWord t p d r.ev w
    else failRun s d r 15

/-- A kiln instruction, executed by the die whose turn it is. -/
def kiln (s : State) (f : Nat → KRun → State) : Out :=
  match s.kcur with
  | none => .fault .noIssue
  | some d => match (die s d).run with
    | none => .next s
    | some r => .next (f d { r with steps := r.steps + 1, pc := r.pc + 1 })

def putRun (s : State) (d : Nat) (r : KRun) : State := modDie s d fun y => { y with run := some r }

def kget (r : KRun) (i : KReg) : BitVec 32 := if i = 0 then 0 else r.k[i]
/-- k0 discards writes. -/
def kset (r : KRun) (i : KReg) (v : BitVec 32) : KRun := if i = 0 then r else { r with k := r.k.set i v }

/-- X of R298. -/
def kx (r : KRun) (a : KReg) (i : Fin 32) : BitVec 32 := kget r a + w32 i.val

/-- kD := f kD X. -/
def kAlu (s : State) (d a : KReg) (i : Fin 32) (f : BitVec 32 → BitVec 32 → BitVec 32) : Out :=
  kiln s fun n r => putRun s n (kset r d (f (kget r d) (kx r a i)))

def kBool (b : Bool) : BitVec 32 := if b then 1 else 0

def execKld (d a : KReg) (i : Fin 32) (s : State) : Out :=
  kiln s fun n r => putRun s n (kset r d r.win[Fin.ofNat 32 (kx r a i).toNat])
def execKadd (d a : KReg) (i : Fin 32) (s : State) : Out := kAlu s d a i (· + ·)
def execKsub (d a : KReg) (i : Fin 32) (s : State) : Out := kAlu s d a i (· - ·)
def execKand (d a : KReg) (i : Fin 32) (s : State) : Out := kAlu s d a i (· &&& ·)
def execKor (d a : KReg) (i : Fin 32) (s : State) : Out := kAlu s d a i (· ||| ·)
def execKshl (d a : KReg) (i : Fin 32) (s : State) : Out := kAlu s d a i fun v x => v <<< (x.toNat % 32)
def execKshr (d a : KReg) (i : Fin 32) (s : State) : Out := kAlu s d a i fun v x => v >>> (x.toNat % 32)
def execKmin (d a : KReg) (i : Fin 32) (s : State) : Out := kAlu s d a i fun v x => if v ≤ x then v else x
def execKmax (d a : KReg) (i : Fin 32) (s : State) : Out := kAlu s d a i fun v x => if v ≤ x then x else v
def execKceq (d a : KReg) (i : Fin 32) (s : State) : Out := kAlu s d a i fun v x => kBool (v == x)
def execKcgt (d a : KReg) (i : Fin 32) (s : State) : Out := kAlu s d a i fun v x => kBool (decide (x < v))
def execKfirst (d a : KReg) (i : Fin 32) (s : State) : Out :=
  kAlu s d a i fun _ x => match highBit x with | some b => w32 b | none => 0xFFFFFFFF
def execKpop (d a : KReg) (i : Fin 32) (s : State) : Out := kAlu s d a i fun _ x => w32 (popCount x)

/-- The index, from 0 to 7, of the largest selected window word, the lowest on ties. -/
def kamaxOf (win : Vector (BitVec 32) 32) (sel : BitVec 32) (f : Nat) : BitVec 32 :=
  let best := (List.range 8).foldl (fun (b : Option Nat) i =>
    if !sel.getLsbD i then b
    else match b with
      | none => some i
      | some j => if win[Fin.ofNat 32 (f + j)] < win[Fin.ofNat 32 (f + i)] then some i else b) none
  match best with
  | some i => w32 i
  | none => 0xFFFFFFFF

def execKamax (d a : KReg) (i : Fin 32) (s : State) : Out :=
  kiln s fun n r => putRun s n (kset r d (kamaxOf r.win (kget r a) i.val))
def execKldi (d : KReg) (i : Fin 32) (s : State) : Out := kiln s fun n r => putRun s n (kset r d (w32 i.val))
def execKlui (d : KReg) (i : Fin 32) (s : State) : Out := kiln s fun n r => putRun s n (kset r d ((kget r d <<< 5) ||| w32 i.val))
def execKbz (d : KReg) (i : Fin 32) (s : State) : Out :=
  kiln s fun n r => putRun s n (if kget r d = 0 then { r with pc := r.pc + i.val } else r)
def execKbnz (d : KReg) (i : Fin 32) (s : State) : Out :=
  kiln s fun n r => putRun s n (if kget r d = 0 then r else { r with pc := r.pc + i.val })
def execKsel (d a c : KReg) (s : State) : Out := kiln s fun n r => putRun s n (if kget r c = 0 then r else kset r d (kget r a))
def execKstw (a : KReg) (i : Fin 32) (s : State) : Out :=
  kiln s fun n r => putRun s n { r with sw := r.sw ++ [(i.val - 28, kget r a)] }
def execKemit (a : KReg) (i : Fin 32) (s : State) : Out := kiln s fun n r => putRun s n { r with word := some (kx r a i) }
def execKend (s : State) : Out := kiln s fun n r => endDecision s n r

/-! ## Exchanging programs (12 R303) -/

/-- KSWAP_REQUEST: the master handles swaps one at a time, in arrival order. -/
def execKswapRequest (id : Nat) (s : State) : Out :=
  match s.kswaps.find? fun r => r.id == id with
  | none => .next s
  | some r =>
    .next (modNode { s with kswaps := s.kswaps.filter fun y => y.id != id } r.part r.attn fun n =>
      match n.swap with
      | none => { n with swap := some (r, []) }
      | some _ => { n with swapQ := n.swapQ ++ [r] })

/-- KSWAP_PREPARE: a die that has finished its decision for the partition holds and acknowledges. -/
def execKswapPrepare (pid : Nat) (attn : Bool) (d : Nat) (s : State) : Out :=
  match node? s pid attn with
  | none => .next s
  | some (p, n) =>
    match n.swap with
    | none => .next s
    | some (r, acks) =>
      let busy : Bool := match (die s d).run with | some y => y.ev.pid == pid | none => false
      if !(liveDies s p attn).contains d || acks.contains d || busy then .next s
      else .next (modNode (modDiePart s d pid fun q => { q with holding := true }) pid attn fun n => { n with swap := some (r, acks ++ [d]) })

/-- KSWAP_COMMIT: with every die holding, the slots are exchanged and KILNVER advances. -/
def execKswapCommit (pid : Nat) (attn : Bool) (s : State) : Out :=
  match node? s pid attn with
  | none => .next s
  | some (p, n) =>
    match n.swap with
    | none => .next s
    | some (r, acks) =>
      if !(liveDies s p attn).all fun d => acks.contains d then .next s
      else
        let t := (nodeDies p attn).foldl (fun s d =>
          modDiePart s d pid fun q => { q with active := q.shadow, shadow := q.active, holding := false }) s
        let v := n.kilnver + 1
        let next (n : Node) : Node := match n.swapQ with
          | [] => { n with kilnver := v, swap := none }
          | y :: ys => { n with kilnver := v, swap := some (y, []), swapQ := ys }
        let t := modNode t pid attn next
        .next { t with msgReplies := t.msgReplies ++ [⟨r.id, r.loc, r.slot, r.thid, r.part, [.s r.d (v.setWidth 64) false], none, none⟩] }

end Sys2Proof.Machine
end

