-- ==== Sys2Proof/Machine/HostReq.lean ====
section
/-! DEFINITION. Requests of the host and of `pcall` at the service cores: memory, partitions, splits and merges, maps, grants, kiln loads, interrupts (01 R43 to R46; 08 R206, R209 to R211, R215; 10 R258; 12 R297; 15 R366, R370, R377 to R380, R404). -/

namespace Sys2Proof.Machine

/-! ## Host reads and writes (10 R258) -/

def toHost (s : State) (m : HostMsg) : State := { s with host := s.host ++ [m] }

/-- One piece of a host access: through the partition's map. -/
def hostKey (s : State) (p : Partition) (va n : Nat) (write : Bool) : Option Nat :=
  match place s p (.slice 0 0) va n false with
  | .mem key => some key
  | .fault _ => none
  | .hbm => (extFind p.map va).bind fun e => if (if write then e.w else e.rd) then some (extKey e va) else none

/-- The pieces of a host access as (device address, length, physical address), cut at 64 KiB; none where one faults. -/
def hostPieces (s : State) (p : Partition) (write : Bool) : Nat → Nat → Nat → Option (List (Nat × Nat × Nat))
  | 0, _, n => if n = 0 then some [] else none
  | fuel + 1, va, n =>
    if n = 0 then some []
    else if 2 ^ 56 ≤ va then none
    else
      let len := min n (65536 - va % 65536)
      (hostKey s p va len write).bind fun key => (hostPieces s p write fuel (va + len) (n - len)).map fun r => (va, len, key) :: r

/-- A request is received at the end of its service core's queue; while 256 stand there the host is held back (11 R259). A read keeps the writes that
are not fenced now. -/
def hostReceive (pid sc : Nat) (kind : HostKind) (va : Word) (len : Nat) (data : List Byte) (s : State) : State :=
  if h : sc < 64 then
    if 256 ≤ s.svcCores[sc].queue.length || (die s (sc / 4)).fenced then s
    else
      let r : HostReq := ⟨pid, kind, va.toNat, len, data, none, 0, if kind = .read then s.hostOld else []⟩
      { s with svcCores := s.svcCores.set sc ⟨s.svcCores[sc].queue ++ [r]⟩ }
  else s

/-- HOST_READ. -/
def execHostRead (pid sc : Nat) (va : Word) (len : Nat) (s : State) : Out := .next (hostReceive pid sc .read va len [] s)

/-- HOST_WRITE. -/
def execHostWrite (pid sc : Nat) (va : Word) (data : List Byte) (s : State) : Out := .next (hostReceive pid sc .write va data.length data s)

/-- HOST_LAUNCH_REQUEST (11 R283, 12 R288). -/
def execHostLaunchRequest (pid sc : Nat) (handle : Word) (t : Nat) (s : State) : Out := .next (hostReceive pid sc (.launch handle t) 0 0 [] s)

/-- Whether the block or granule of a physical place is covered by a request, so that it writes it whole (08 R213, R214). -/
def wholeUnit (r : HostReq) (va key : Nat) : Bool :=
  let u := if isHbm key then 32 else 16
  r.va ≤ va - va % u && va - va % u + u ≤ r.va + r.len

/-- A poisoned block or granule that a request reads, or writes in part. -/
def hostPoison (s : State) (r : HostReq) (q : Nat × Nat × Nat) : Bool :=
  (List.range ((q.1 % 16 + q.2.1 + 15) / 16)).any fun i =>
    let key := granule q.2.2 + 16 * i
    poisoned s key && !(r.kind == .write && wholeUnit r (q.1 - q.1 % 16 + 16 * i) key)

/-- Whether the LM at a physical address is saved with its core. -/
def lmSaved (p : Partition) (key : Nat) : Bool := isLm key && p.saves.any fun v => !v.victim && v.loc == servedAt key
/-- Whether it is not the partition's, and will not be before the partition runs again. -/
def lmAway (p : Partition) (key : Nat) : Bool := isLm key && p.st != .running && (p.st == .descheduled || lmSaved p key)

/-- A device write that a host read may see or not: the act and the thread that made it. -/
def HostOld.write (e : HostOld) : Nat × Word := (e.act, e.thid)

/-- The device writes that are not fenced for a host read of a range, each of which it sees or does not see (10 R258; log 43). -/
def openWrites (view : List HostOld) (pid key n : Nat) : List HostOld :=
  view.filter fun e => e.part == pid && decide (key ≤ e.key) && decide (e.key < key + n)

/-- A byte that a host read returns: what it was after the last of its writes that the read sees, with `last` what it is now. -/
def byteSeen (saw : HostOld → Bool) (last : Byte) (es : List HostOld) : Byte :=
  match es with
  | [] => last
  | e :: r => if (e :: r).any saw then byteSeen saw last r else e.old

/-- The bytes that a host read takes from a granule: of each write that is not fenced it sees all or nothing (10 R243, R258). -/
def hostBytes (s : State) (view : List HostOld) (pid key n : Nat) : List Byte × State :=
  match openWrites view pid key n with
  | [] => (s.mem.readN key n, s)
  | e :: r =>
    let ws := ((e :: r).map HostOld.write).eraseDups
    let saw (e : HostOld) : Bool := Config.hostPick s.free (ws.findIdx (· == e.write))
    ((List.range n).map fun i => byteSeen saw (s.mem.read (key + i)) ((e :: r).filter fun e => e.key == key + i), { s with free := s.free + 1 })

/-- One granule of a host request at `key`, `n` bytes of it, and the request after it (10 R243). -/
def hostGranule (s : State) (r : HostReq) (key n : Nat) : State × HostReq :=
  let r' := { r with done := r.done + n }
  if r.kind = .write then
    let t := writeSeen s r.pid key ((r.data.drop r.done).take n)
    let va := r.va + r.done
    let u := if isHbm key then 32 else 16
    (if wholeUnit r va key && (va + n) % u == 0 then clearPoison t key else t, r')
  else
    let q := hostBytes s r.view r.pid key n
    (q.2, { r' with data := r.data ++ q.1 })

/-- A service core's accesses, in the queues of the banks. -/
def svcAgent (n : Fin 64) (pid : Nat) : Agent := ⟨.svc (n.val / 4) (n.val % 4), 0, pid, 0⟩

/-- An act of a service core on its oldest host request: a launch; the translation of a whole access; or one granule of it, in order, as its bank lets it
act (08 R202); a request that faults performs nothing (10 R243, R258; 11 R283). -/
def svcAct (n : Fin 64) (s : State) : State :=
  match s.svcCores[n].queue with
  | [] => s
  | r :: rest =>
    let put (t : State) (l : List HostReq) : State := { t with svcCores := t.svcCores.set n ⟨l⟩ }
    let fin (t : State) (r : HostReq) (ok : Bool) : State := toHost (put t rest) (hostAnswer r ok)
    match part? s r.pid with
    | none => fin s r false
    | some p =>
      match r.kind, r.xl with
      | .launch handle t, _ => put (signalGraph s r.pid false handle t) rest
      | _, none => match hostPieces s p (r.kind == .write) (r.len / 65536 + 2) r.va r.len with
        | none => fin s r false
        | some xl =>
          if xl.any fun q => lmAway p q.2.2 || hostPoison s r q then fin s r false
          else if r.len = 0 then fin s r true
          else put s ({ r with xl := some xl } :: rest)
      | _, some xl =>
        let va := r.va + r.done
        let k := min (16 - va % 16) (r.len - r.done)
        match xlFind xl va with
        | none => fin s r false
        | some key =>
          if lmAway p key || hostPoison s r (va, k, key) then fin s r false
          else if lmSaved p key then s
          else
            let a := agentTurn s (svcAgent n r.pid) key
            let g := hostGranule a.2 r key k
            if !a.1 then a.2 else if r.len ≤ g.2.done then fin g.1 g.2 true else put g.1 (g.2 :: rest)

/-! ## Units (08 R210, R211, R213; 15 R404) -/

/-- STATE of a unit in the ownership table: 0 free, 1 owned, 2 firmware, 3 retired (08 R210). -/
def unitState (s : State) (u : Nat) : Nat :=
  if s.retired.contains u then 3 else if (ownerOf s u).isSome then 1 else if s.firmware.contains u then 2 else 0

def unitFree (s : State) (u : Nat) : Bool := unitState s u == 0

def grantUnits (g : Grant) : List Nat := (List.range (2 ^ g.log2)).map fun i => g.first + i
def grantOk (g : Grant) : Bool := g.log2 ≤ 20 && g.first % 2 ^ g.log2 == 0 && g.first + 2 ^ g.log2 ≤ 2 ^ 20

/-- The first flat address of a unit and its length. -/
def unitRange (u : Nat) : Nat × Nat :=
  if u < 2 ^ 32 then (hbmKey (u * 2 ^ 21), 2 ^ 21)
  else
    let k := u - 2 ^ 32
    (sliceKey (k / 32 / 64) (k / 32 % 64) (k % 32 * 65536), 65536)

/-- A unit's bytes become zero for a partition, its poison clear, its full/empty bits full (08 R211). -/
def clearUnit (s : State) (pid u : Nat) : State :=
  let r := unitRange u
  let out (a : Nat) : Bool := a < r.1 || r.1 + r.2 ≤ a
  { forget s pid (fun a => !out a) with mem := s.mem.filter fun x => out x.1, feEmpty := s.feEmpty.filter out, poison := s.poison.filter out }

def giveUnit (s : State) (pid u : Nat) : State :=
  let t := clearUnit s pid u
  { t with owner := (u, pid) :: t.owner.filter fun o => o.1 != u }

/-- A unit leaves its owner; one that was poisoned too often is retired (08 R213). -/
def freeUnit (s : State) (u : Nat) : State :=
  let n := assocGet s.poisonings u 0
  let t := { s with owner := s.owner.filter fun o => o.1 != u }
  let d := if u < 2 ^ 32 then dieOf (homeSlice (u * 2 ^ 21)) else (u - 2 ^ 32) / 32 / 64
  if (if u < 2 ^ 32 then 4 else 2) ≤ n then countPhys { t with retired := u :: t.retired } d 4 1 else t

/-! ## Creating partitions (01 R44, R46; 15 R377, R378, R404; 16 R383) -/

/-- One node is an ancestor of the other. -/
def kin (a b : Nat) : Bool :=
  a != b && (a / 2 ^ (Nat.log2 a - Nat.log2 b) == b && decide (b < a) || b / 2 ^ (Nat.log2 b - Nat.log2 a) == a && decide (a < b))

def nodeNum (p : Partition) (attn : Bool) : Nat := match nodeOf p attn with | some n => n.node | none => 0

/-- The next tenancy stamp; 0 is skipped (15 R378). -/
def nextStamp (x : BitVec 16) : BitVec 16 := if x + 1 = 0 then 1 else x + 1

/-- Where a node keeps the tenancy stamp of a share. -/
def stampKey (attn : Bool) (node share : Nat) : Nat := (if attn then 2 ^ 12 + node else node) * 4 + share

def stampOf (s : State) (attn : Bool) (node share : Nat) : BitVec 16 := assocGet s.stamps (stampKey attn node share) 0
def putStamp (s : State) (attn : Bool) (node share : Nat) (x : BitVec 16) : State :=
  { s with stamps := assocSet s.stamps (stampKey attn node share) x }

/-- A partition's stamp stands at both of its nodes. -/
def noteStamp (s : State) (p : Partition) : State :=
  let t := putStamp s false (nodeNum p false) p.share p.stamp
  if (nodeOf p true).isSome then putStamp t true (nodeNum p true) p.share p.stamp else t

def freshNode (n : Nat) : Node := ⟨n, 0, [], [], [], 0, 0, 0, [], [], none, []⟩

/-- The lowest SHARE that no sharer of the nodes has. -/
def freeShare (l : List Partition) : Option Nat := [0, 1, 2, 3].find? fun k => !(l.any fun p => p.share == k)

/-- The units of the spoil areas of a partition: one area for each core and slice core. -/
def spoilUnits (r : AssignReq) : List Nat :=
  let cores := (if r.cnode = 0 then 0 else 64 * nodeSize false r.cnode) + (if r.anode = 0 then 0 else 64 * nodeSize true r.anode)
  let dies (attn : Bool) (n : Nat) : Nat := if n = 0 then 0 else (nodeSize attn n + (if attn then 15 else 63)) / (if attn then 16 else 64)
  let bytes := r.quota * (cores + 64 * dies false r.cnode + 32 * dies true r.anode)
  (List.range ((r.spoilBase % 2 ^ 21 + bytes + 2 ^ 21 - 1) / 2 ^ 21)).map fun i => r.spoilBase / 2 ^ 21 + i

/-- The extent that firmware maps over the counter area (16 R383). -/
def counterExt (u : Nat) : ExtEntry := ⟨2 ^ 31 + Config.counterVbase u % (2 ^ 35 - 2 ^ 31), 0, u, false, false, true⟩

/-- The dies that take part gain the partition's share of their distributor. -/
def addDiePart (s : State) (pid d : Nat) (q : DiePart) : State :=
  modDie s d fun y => { y with parts := y.parts.filter (fun z => z.pid != pid) ++ [q] }

/-- The locations of a partition's cores that have state or LM contents. -/
def coreLocs (s : State) (p : Partition) : List Loc := (presentLocs s p).filter fun l => !isSliceCore l

def newPartition (r : AssignReq) (pid share : Nat) (stamp : BitVec 16) (handle : Nat) : Partition where
  pid := pid
  share := share
  st := .descheduled
  stamp := stamp
  dllimit := 0x0010_0000
  agemax := 0x0004_0000
  map := [counterExt (r.counterArea / 2 ^ 21)]
  ltt := []
  compute := some (freshNode r.cnode)
  attention := if r.anode = 0 then none else some (freshNode r.anode)
  grants := r.grants.zipIdx.map fun g => ⟨BitVec.ofNat 64 (handle + g.2), g.1⟩
  quota := r.quota
  spoilBase := r.spoilBase
  counterArea := r.counterArea
  ckptTable := 0
  ckptCount := 0
  irq := []
  faultLog := []
  mcheckLog := []
  lttRun := none
  saves := []
  sliceLen := r.sliceLen
  lost := false

/-- PARTITION_ASSIGN: refused where a rule fails, FULL for a fifth sharer; no grant and no counter area lies in the spoil areas (11 R268). DESIGN CHOICE:
it is FULL too where the sharers of the two nodes together leave no SHARE number free, since R46 does not say which number that partition would have
(log 59). -/
def execPartitionAssign (r : AssignReq) (s : State) : Out :=
  let pid := s.nextId
  let on (attn : Bool) (n : Nat) : List Partition := if n = 0 then [] else s.parts.filter fun p => nodeNum p attn == n
  let mates := s.parts.filter fun p => nodeNum p false == r.cnode || (r.anode != 0 && nodeNum p true == r.anode)
  let cu := r.counterArea / 2 ^ 21
  let units := (r.grants.flatMap grantUnits ++ spoilUnits r ++ [cu]).eraseDups
  let slices := r.sliceUnits.map fun u => 2 ^ 32 + u.1 * 32 + u.2
  let related : Bool := s.parts.any fun p => kin (nodeNum p false) r.cnode || (r.anode != 0 && nodeNum p true != 0 && kin (nodeNum p true) r.anode)
  let bad : Bool := s.boot != .ready || r.cnode == 0 || 2048 ≤ r.cnode || 128 ≤ r.anode || related
    || r.quota % 4096 != 0 || r.quota < 16384 || 2 ^ 20 < r.quota || r.counterArea % 16384 != 0 || !(r.grants.all grantOk)
    || !(r.grants.flatMap grantUnits).Nodup || (spoilUnits r).any (fun u => u == cu || (r.grants.flatMap grantUnits).contains u) || !(units.all fun u => u < 2 ^ 20 && unitFree s u)
    || !(slices.all (unitFree s)) || !slices.Nodup
  if bad then .next (toHost s (.status 0 hREFUSED))
  else if 4 ≤ (on false r.cnode).length || 4 ≤ (on true r.anode).length then .next (toHost s (.status 0 hFULL))
  else match freeShare mates with
    | none => .next (toHost s (.status 0 hFULL))
    | some share =>
      let p := newPartition r pid share (nextStamp (stampOf s false r.cnode share)) s.handles
      let s1 := noteStamp { (newId s).2 with parts := s.parts ++ [p], handles := s.handles + r.grants.length } p
      let s2 := (units ++ slices).foldl (fun s u => giveUnit s pid u) s1
      let s3 := (dieList p).foldl (fun s d => addDiePart s pid d { DiePart.fresh pid with map := p.map, sliceFrom := s.cycle, snapAt := (s.cycle / 2 ^ 20 + 1) * 2 ^ 20 }) s2
      let s4 := if mates.isEmpty then (coreLocs s3 p).foldl clearLm s3 else s3
      .next (toHost (switchTo s4 p) (.status pid hDONE))

/-! ## Idle partitions, splits, merges, release (01 R45; 15 R377, R378) -/

/-- The idle state of R45. -/
def partIdle (s : State) (p : Partition) : Bool :=
  !hasWork s p && p.saves.isEmpty
    && (s.cores.all fun c => (engines.all fun e => !(engQ c.2 e).any fun q => q.part == p.pid)
        && !(c.2.spill ++ c.2.spillSpoil).any (fun a => a.th.part == p.pid) && !c.2.ringSpoil.any (fun m => m.pid == p.pid)
        && spoilUse s c.1 p.pid == 0 && !(match c.2.task with | some t => t.pid == p.pid | none => false))
    && !s.reports.any fun r => r.pid == p.pid

def advanceStamp (s : State) (pid : Nat) : State :=
  match part? s pid with
  | none => s
  | some p =>
    let p := { p with stamp := nextStamp p.stamp }
    noteStamp (modPart s pid fun _ => p) p

def setNode (attn : Bool) (n : Nat) (p : Partition) : Partition :=
  if attn then { p with attention := p.attention.map fun y => { y with node := n } }
  else { p with compute := p.compute.map fun y => { y with node := n } }

/-- The counter snapshots of a partition that are under way are finished at their blocks: before its dies are numbered anew (16 R384). -/
def finishSnaps (s : State) (p : Partition) : State :=
  (dieList p).foldl (fun s d => if (diePart s d p.pid).snap.isSome then (List.range 64).foldl (fun s _ => if (diePart s d p.pid).snap.isSome then snapStep s p d else s) s else s) s

/-- The greatest SEQ of a partition's counter blocks, from which all go on when its dies are numbered anew, so that none shows one twice (16 R384). -/
def lastSeq (s : State) (pid : Nat) : Nat :=
  (List.range 20).foldl (fun n d => ((die s d).parts.filter fun q => q.pid == pid).foldl (fun n q => max n q.seq) n) 0

/-- A partition's dies after its node has changed: shares of dies it left are dropped, those of new dies begin as copies. -/
def fitDies (s : State) (pid : Nat) : State :=
  match part? s pid with
  | none => s
  | some p =>
    let l := dieList p
    let seq := lastSeq s pid
    let src (d : Nat) : DiePart := match (l.filter fun x => isAttn x == isAttn d && ((die s x).parts.any fun q => q.pid == pid)) with
      | x :: _ => { diePart s x pid with cnt := Vector.replicate 24 0, sw := Vector.replicate 4 0, snapDue := false, snap := none, prio := 0
                                         pendDispatch := none, pendPreempt := none, holding := false }
      | [] => { DiePart.fresh pid with map := p.map, ltt := p.ltt, snapAt := (s.cycle / 2 ^ 20 + 1) * 2 ^ 20 }
    (List.range 20).foldl (fun t d =>
      if l.contains d then modDiePart (if (die t d).parts.any fun q => q.pid == pid then t else addDiePart t pid d (src d)) d pid fun q => { q with seq := seq }
      else modDie t d fun y => { y with parts := y.parts.filter fun q => q.pid != pid }) s

/-- The stamps of a node's shares, used or not, advanced by one, at a child (01 R45). -/
def splitStamps (s : State) (attn : Bool) (node child : Nat) : State :=
  [0, 1, 2, 3].foldl (fun s k => putStamp s attn child k (nextStamp (stampOf s attn node k))) s

/-- The stamps of a parent's shares after a merge: beyond those of its children and its own. -/
def mergeStamps (s : State) (attn : Bool) (node : Nat) : State :=
  let last (k : Nat) : BitVec 16 := [2 * node, 2 * node + 1].foldl (fun x n => if x < stampOf s attn n k then stampOf s attn n k else x) (stampOf s attn node k)
  [0, 1, 2, 3].foldl (fun s k => putStamp s attn node k (nextStamp (last k))) s

/-- PARTITION_SPLIT: the partitions on the node go on with its first child; both children carry the parent's stamps advanced by one. -/
def execPartitionSplit (attn : Bool) (node : Nat) (s : State) : Out :=
  let ps := s.parts.filter fun p => nodeNum p attn == node
  if node = 0 || ps.isEmpty || treeDepth attn ≤ Nat.log2 node then .next (toHost s (.status 0 hREFUSED))
  else if !ps.all (partIdle s) then .next (toHost s (.status 0 hBUSY))
  else
    let s := ps.foldl finishSnaps s
    let t := splitStamps (splitStamps s attn node (2 * node)) attn node (2 * node + 1)
    let t := { t with parts := t.parts.map fun p => if nodeNum p attn = node then setNode attn (2 * node) p else p }
    .next (toHost (ps.foldl (fun t p => fitDies (advanceStamp t p.pid) p.pid) t) (.status 0 hDONE))

/-- PARTITION_MERGE: `node` is the parent; the partitions of both children then share it, and one of those that ran goes on running. A share number that
both children used is changed for the second's partition (log 32). -/
def execPartitionMerge (attn : Bool) (node : Nat) (s : State) : Out :=
  let l := s.parts.filter fun p => nodeNum p attn == 2 * node
  let r := s.parts.filter fun p => nodeNum p attn == 2 * node + 1
  if node = 0 || (l.isEmpty && r.isEmpty) || (s.parts.any fun p => kin (nodeNum p attn) node && !(l ++ r).contains p) then
    .next (toHost s (.status 0 hREFUSED))
  else if !(l ++ r).all (partIdle s) then .next (toHost s (.status 0 hBUSY))
  else if 4 < (l ++ r).length then .next (toHost s (.status 0 hFULL))
  else
    let runs := (l ++ r).filter fun p => p.st == .running
    let fix (acc : State × List Partition) (p : Partition) : State × List Partition :=
      let share := if acc.2.any fun q => q.share == p.share then (freeShare acc.2).getD p.share else p.share
      let stops : Bool := p.st == .running && runs.head? != some p
      let p' : Partition := { setNode attn node p with share := share, st := if stops then .descheduled else p.st }
      let t := fitDies (advanceStamp (modPart acc.1 p.pid fun _ => p') p.pid) p.pid
      (if stops then snapshotAll t p' else t, acc.2 ++ [p'])
    let s := (l ++ r).foldl finishSnaps s
    .next (toHost ((l ++ r).foldl fix (mergeStamps s attn node, [])).1 (.status 0 hDONE))

/-- What firmware takes away with a partition. -/
def dropPartition (s : State) (pid : Nat) : State :=
  { s with
    parts := s.parts.filter fun p => p.pid != pid
    dies := s.dies.map fun y => { y with
      parts := y.parts.filter fun q => q.pid != pid, events := y.events.filter fun e => e.pid != pid, held := y.held.filter fun e => e.pid != pid
      run := match y.run with | some r => if r.ev.pid = pid then none else some r | none => none }
    cores := s.cores.map fun c => (c.1, { c.2 with
      xcache := c.2.xcache.filter fun e => e.1 != pid, lcache := c.2.lcache.filter fun e => e.1 != pid
      preempt := c.2.preempt.filter fun q => q.pid != pid }) }

/-- PARTITION_RELEASE. -/
def execPartitionRelease (pid : Nat) (s : State) : Out :=
  match part? s pid with
  | none => .next (toHost s (.status pid hREFUSED))
  | some p =>
    if !partIdle s p then .next (toHost s (.status pid hBUSY))
    else
      let units := (s.owner.filter fun o => o.2 == pid).map Prod.fst
      .next (toHost (admitAll (dropPartition (units.foldl freeUnit s) pid)) (.status pid hDONE))

/-! ## Pause, resume, reset (15 R377) -/

def execHostPause (pid : Nat) (s : State) : Out := .next (pausePart s pid)
def execHostResume (pid : Nat) (s : State) : Out := .next (resumePart s pid)

/-- The walks that stay in a die's queue; those that thereby come among its first 512 begin on the copies as they stand (08 R208, R209). -/
def keepWalks (y : Die) (keep : Walk → Bool) : List Walk :=
  let fresh (w : Walk) : Walk :=
    match y.parts.find? fun p => p.pid == w.part with
    | some p => { w with map := p.map, ltt := p.ltt }
    | none => w
  let run := (y.walks.take 512).filter keep
  let wait := (y.walks.drop 512).filter keep
  run ++ (wait.take (512 - run.length)).map fresh ++ wait.drop (512 - run.length)

/-- Every thread, command, launch and message of a partition ends without effect. -/
def killAll (s : State) (p : Partition) : State :=
  let mine (pid : Nat) : Bool := pid == p.pid
  let freed (x : Slot) : Slot :=
    if mine x.th.part then { x with st := .free, halting := none, atCkpt := none, tpcHeld := none, th := { x.th with outs := [], pendTrap := none } } else x
  let core (l : Loc) (c : Core) : Core :=
    let c := { c with
      slots := c.slots.map freed
      ieq := c.ieq.filter fun q => !mine q.part, teq := c.teq.filter fun q => !mine q.part, peq := c.peq.filter fun q => !mine q.part
      meq := c.meq.filter fun q => !mine q.part, nmq := c.nmq.filter fun q => !mine q.part
      spill := c.spill.filter fun a => !mine a.th.part, spillSpoil := c.spillSpoil.filter fun a => !mine a.th.part
      inbox := c.inbox.filter fun a => !mine a.th.part, launchq := c.launchq.filter fun q => !mine q.pid
      ringSpoil := c.ringSpoil.filter fun m => !mine m.pid, preempt := c.preempt.filter fun q => !mine q.pid }
    let c := match c.task with
      | some t => if mine t.pid then setReserved { bindTiles c with task := none, rings := Core.reset.rings } t.slots false else c
      | none => c
    match l with
    | .core d i => if ownsCore p d i ∧ p.st ≠ .descheduled then { c with links := Core.reset.links, fwd := [], rings := Core.reset.rings } else c
    | _ => c
  rearmAll (admitAll { s with
    cores := s.cores.map fun c => (c.1, core c.1 c.2)
    reqs := s.reqs.filter fun r => !mine r.part
    msgs := s.msgs.filter fun m => !mine m.part
    msgReplies := s.msgReplies.filter fun m => !mine m.part
    probes := s.probes.filter fun b => !mine b.part
    kswaps := s.kswaps.filter fun r => !mine r.part
    ltts := s.ltts.filter fun r => !mine r.part
    svcs := s.svcs.filter fun r => !mine r.part
    starts := s.starts.filter fun y => !mine y.entry.pid
    reports := s.reports.filter fun r => !mine r.pid
    preReqs := s.preReqs.filter fun q => !mine q.pid
    flash := s.flash.filter fun f => !mine f.pid
    dies := s.dies.map fun y => { y with
      events := y.events.filter fun e => !mine e.pid, held := y.held.filter fun e => !mine e.pid, ready := y.ready.filter fun e => !mine e.pid
      walks := keepWalks y fun w => !mine w.part
      run := match y.run with | some r => if mine r.ev.pid then none else some r | none => none } }) p.pid

/-- The cores that a sharer runs on or is to be saved from. -/
def heldByMate (s : State) (p : Partition) (l : Loc) : Bool :=
  (matesOf s p).any fun q => q.st == .running || (core s l).preempt.any fun r => r.pid == q.pid

/-- HOST_RESET: RESETTING begins: every thread and command is killed, and the launches that were queued fail (09 R233). Cores that the partition is still
leaving pass to the sharer that runs with cleared LM. -/
def execHostReset (pid : Nat) (s : State) : Out :=
  match part? s pid with
  | none => .next (toHost s (.status pid hREFUSED))
  | some p =>
    let queued := s.cores.flatMap fun c => (c.2.launchq.filter fun q => q.pid == pid).map fun q => (c.1, q)
    let leaving := (coreLocs s p).filter fun l => (core s l).preempt.any (fun q => q.pid == pid && !q.victim) && (matesOf s p).any fun q => q.st == .running
    .next (queued.foldl (fun s q => launchFault s q.1 q.2) (modPart (leaving.foldl clearLm (killAll s p)) pid fun p => { p with st := .resetting }))

def emptyNode (n : Node) : Node := { freshNode n.node with kilnver := n.kilnver, gens := n.gens }

/-- PARTITION_RESET_COMPLETE: LM and slice units are zeroed, map and tables are empty, caches invalid, STAMP has advanced, and the partition runs, a
sharer that ran giving way (08 R215; 15 R377). -/
def execPartitionResetComplete (pid : Nat) (s : State) : Out :=
  match part? s pid with
  | none => .next s
  | some p =>
    if p.st ≠ .resetting then .next s
    else
      let s := killAll s p
      let s := forget (((coreLocs s p).filter fun l => !heldByMate s p l).foldl clearLm s) pid isLm
      let s := ((s.owner.filter fun o => o.2 == pid && 2 ^ 32 ≤ o.1).map Prod.fst).foldl (fun s u => clearUnit s pid u) s
      let s := modPart s pid fun p => { p with
        dllimit := 0x0010_0000, agemax := 0x0004_0000, map := [], ltt := [], compute := p.compute.map emptyNode, attention := p.attention.map emptyNode
        ckptTable := 0, ckptCount := 0, lttRun := none, saves := [], st := .descheduled }
      let s := (dieList p).foldl (fun s d => modDiePart s d pid fun _ =>
        { DiePart.fresh pid with sliceFrom := s.cycle, snapAt := (s.cycle / 2 ^ 20 + 1) * 2 ^ 20 }) s
      let own (l : Loc) : Bool := match l with | .core d i => ownsCore p d i | _ => false
      let s := { s with cores := s.cores.map fun c => (c.1, { c.2 with
        xcache := c.2.xcache.filter fun e => e.1 != pid, lcache := c.2.lcache.filter fun e => e.1 != pid
        ifetch := if own c.1 then none else c.2.ifetch }) }
      let s := advanceStamp s pid
      match part? s pid with
      | some p => .next (switchTo s p)
      | none => .next s

/-! ## Services (15 R366) -/

/-- The request that a service event names: its message, service core, service, block and destination. -/
structure SvcCall where
  m : Msg
  sc : Loc
  svc : Nat
  block : Option Nat
  d : SReg

def svcMsg (s : State) (id : Nat) (ok : Nat → Bool) : Option SvcCall :=
  (headMsg? s id).bind fun m => match m.body with
    | .pcall sc svc b d => if ok svc then some ⟨m, sc, svc, b, d⟩ else none
    | _ => none

/-- The status goes to the thread. -/
def svcReply (s : State) (c : SvcCall) (st : Nat) : State := msgReply s c.m [.s c.d (BitVec.ofNat 64 st) false]

/-- Where own LM of a thread that waits for message `id` stands: the core it is parked on, or the save it is part of (15 R372, R376). -/
inductive LmPlace where
  | core (l : Loc)
  | save (v : Save)

def lmPlace (s : State) (pid id : Nat) (l : Loc) : LmPlace :=
  match parkedOn s id with
  | some (l, _) => .core l
  | none => match ((part? s pid).bind fun p => p.saves.find? fun v => v.slots.any fun q => q.2.st == .parkMem (.message id)) with
    | some v => .save v
    | none => .core l

/-- Bytes of own LM or of other memory for the thread that waits for a message, issued at `l`; none where a granule is poisoned. -/
def ownBytes (s : State) (pid id : Nat) (l : Loc) (key n : Nat) : Option (List Byte) :=
  let from' (key : Nat) : Option (List Byte) :=
    if (List.range ((key % 16 + n + 15) / 16)).any fun i => poisoned s (granule key + 16 * i) then none else some (s.mem.readN key n)
  if isLm key then
    let off := key - lmBase l
    match lmPlace s pid id l with
    | .core l => from' (lmBase l + off)
    | .save v => if (List.range ((off % 16 + n + 15) / 16)).any fun i => v.lmPoison.contains (granule off + 16 * i) then none else some (Mem.readN v.lm off n)
  else from' key

/-- Writes a reply field of a request block where the block stands. -/
def putOwn (s : State) (pid id : Nat) (l : Loc) (key : Nat) (b : List Byte) : State :=
  if isLm key then
    let off := key - lmBase l
    match lmPlace s pid id l with
    | .core l => writeSeen s pid (lmBase l + off) b
    | .save v => modSave s pid v.id fun v => { v with lm := Mem.writeN v.lm off b }
  else writeSeen s pid key b

/-- The eight dwords of a request block, none where a granule of it is poisoned. -/
def blockWords (s : State) (m : Msg) (key : Nat) : Option (List Nat) :=
  (ownBytes s m.part m.id m.src key 64).map fun l => (List.range 8).map fun i => ofBytes (bytesAt l (8 * i) 8)

/-- A service that reads a block: FORMAT without one, REFUSED where it cannot be read. -/
def withBlock (s : State) (id svc : Nat) (f : SvcCall → Partition → Nat → List Nat → State) : State :=
  match svcMsg s id (· == svc) with
  | none => s
  | some c =>
    match c.block, part? s c.m.part with
    | _, none => dropMsg s id
    | none, _ => svcReply s c 3
    | some key, some p => match blockWords s c.m key with
      | some w => f c p key w
      | none => svcReply s c 1

def allZero (w : List Nat) (from' : Nat) : Bool := (w.drop from').all (· == 0)

def sortedInsert (e : ExtEntry) (l : List ExtEntry) : List ExtEntry := l.filter (fun y => y.vbase < e.vbase) ++ e :: l.filter fun y => e.vbase < y.vbase

/-- The conditions of R206 on a new extent. -/
def mapOk (s : State) (p : Partition) (e : ExtEntry) : Bool :=
  p.map.length < 4096 && 2 ^ 31 ≤ e.vbase && e.vbase + 2 ^ e.size ≤ 2 ^ 35 && e.vbase % 2 ^ e.size == 0 && e.pbase % 2 ^ e.size == 0
    && (p.map.all fun y => y.vbase + 2 ^ y.size ≤ e.vbase || e.vbase + 2 ^ e.size ≤ y.vbase)
    && (List.range (2 ^ e.size)).all fun i => ownedBy s (e.pbase + i) p.pid

def svcReq (c : SvcCall) (p : Partition) (removed : Option ExtEntry) : SvcReq :=
  ⟨c.m.id, c.sc, c.m.src, c.m.slot, c.m.thid, c.m.part, c.svc, c.block, c.d, p.stamp, 0, removed⟩

def svcEnd (s : State) (v : SvcReq) (st : Nat) : State :=
  { s with svcs := s.svcs.filter fun y => y.id != v.id
           msgReplies := s.msgReplies ++ [⟨v.id, v.loc, v.slot, v.thid, v.part, [.s v.d (BitVec.ofNat 64 st) false], none, none⟩] }

/-- A map entry in the device addresses it covers. -/
def extCovers (e : ExtEntry) (va : Nat) : Bool := e.vbase * 2 ^ 21 ≤ va && va < (e.vbase + 2 ^ e.size) * 2 ^ 21

/-- Whether a host request that has begun holds a translation of an address of which `f` holds. -/
def hostUses (s : State) (pid : Nat) (f : Nat → Bool) : Bool :=
  s.svcCores.any fun c => c.queue.any fun r => r.pid == pid && match r.xl with | some xl => xl.any fun t => f t.1 | none => false

/-- The physical places of an engine command's writes to come, and of the fields of nodes that it has read. -/
def EngIO.places (io : EngIO) : List Nat :=
  io.posts.flatMap (fun p => p.at_.map Prod.fst) ++ io.nodes.filterMap fun n => match n.res with
    | some (.ok _ _ _ key) => some key
    | _ => Option.none

/-- Whether an engine command of a partition holds a translation or a place of which `xl` or `at_` holds. -/
def cmdHolds (pid : Nat) (xl : Nat × Nat × Nat → Bool) (at_ : Nat → Bool) (q : EngCmd) : Bool :=
  q.part == pid && (q.xl.any xl || q.io.places.any at_)

/-- Whether one does, on a core or in a save. -/
def anyCmdHolds (s : State) (p : Partition) (xl : Nat × Nat × Nat → Bool) (at_ : Nat → Bool) : Bool :=
  (s.cores.any fun c => engines.any fun g => (engQ c.2 g).any (cmdHolds p.pid xl at_))
    || p.saves.any fun v => engines.any fun g => (engQ v.core g).any (cmdHolds p.pid xl at_)

/-- Whether a physical address lies in an extent's units. -/
def extHolds (e : ExtEntry) (key : Nat) : Bool := hbmKey (e.pbase * 2 ^ 21) ≤ key && key < hbmKey ((e.pbase + 2 ^ e.size) * 2 ^ 21)

/-- Engine commands that hold a translation of the extent, host requests that do, and accesses translated through it that are not performed (08 R209 step 4). -/
def extInUse (s : State) (pid : Nat) (e : ExtEntry) : Bool :=
  (s.reqs.any fun r => r.part == pid && r.undone && (extCovers e r.va || r.op.held.any fun h => extCovers e h.1)) || (hostUses s pid (extCovers e))
    || match part? s pid with
      | some p => anyCmdHolds s p (fun t => extCovers e t.1) (extHolds e)
      | none => false

/-- Extents that are gone from what a walk has brought. -/
def WalkState.purge (gone : ExtEntry → Bool) (w : WalkState) : WalkState := { w with exts := w.exts.filter fun e => !gone e }

/-- The extent caches of the cores of a die, or of all, lose extents of a partition, and so does what the walks there have brought (08 R208, R209). -/
def purgeExts (s : State) (pid : Nat) (gone : ExtEntry → Bool) (at_ : Loc → Bool) : State :=
  let f := WalkState.purge gone
  let inCore (c : Core) : Core :=
    let c := modWalks pid f c
    { c with xcache := c.xcache.filter fun y => !(y.1 == pid && gone y.2)
             launchq := c.launchq.map fun q => if q.pid = pid then { q with walk := f q.walk } else q }
  let save (v : Save) : Save := if at_ v.loc then { v with
      core := inCore v.core, slots := v.slots.map fun q => (q.1, { q.2 with th := { q.2.th with walk := f q.2.th.walk } }) } else v
  modPart { s with
    cores := s.cores.map fun c => (c.1, if at_ c.1 then inCore c.2 else c.2)
    reqs := s.reqs.map fun r => if r.part = pid ∧ at_ r.loc then { r with walk := f r.walk } else r
    ltts := s.ltts.map fun r => if r.part = pid ∧ at_ r.loc then { r with walk := f r.walk } else r } pid fun p => { p with saves := p.saves.map save }

/-- The next step of a change of the map: die by die the walker takes the new copy, then, for a removal, die by die the extent caches are purged,
then the uses of the extent end (08 R209). -/
def mapStep (s : State) (v : SvcReq) : State :=
  match part? s v.part with
  | none => { s with svcs := s.svcs.filter fun y => y.id != v.id }
  | some p =>
    let l := dieList p
    let n := l.length
    let next (s : State) : State := { s with svcs := s.svcs.map fun y => if y.id = v.id then { y with phase := v.phase + 1 } else y }
    if v.phase < n then next (modDiePart s (l.getD v.phase 0) p.pid fun q => { q with map := p.map })
    else match v.removed with
      | none => svcEnd s v 0
      | some e =>
        if v.phase < 2 * n then
          let d := l.getD (v.phase - n) 0
          if (die s d).walks.any fun w => w.part == p.pid && w.va.isSome && w.map.contains e then s
          else next (purgeExts s p.pid (· == e) fun l => dieOf l == d)
        else if extInUse s p.pid e then s
        else svcEnd s v 0

def svcStep (s : State) (id svc : Nat) : Option State := (s.svcs.find? fun v => v.id == id && v.svc == svc).map (mapStep s)

/-- SERVICE_MAP. -/
def execServiceMap (id : Nat) (s : State) : Out :=
  match svcStep s id 1 with
  | some t => .next t
  | none => .next (withBlock s id 1 fun c p _ w =>
      let w0 := w.getD 0 0
      let w1 := w.getD 1 0
      let off := w.getD 3 0
      let size := w1 % 32
      if 2 ^ 56 ≤ w0 || 2 ^ 11 ≤ w1 || w1 / 2 ^ 5 % 8 ≠ 0 || 19 < size || 2 ^ 20 ≤ off || !allZero w 4 then svcReply s c 3
      else match p.grants.find? fun g => g.handle.toNat == w.getD 2 0 with
        | none => svcReply s c 1
        | some g =>
          let e : ExtEntry := ⟨w0 / 2 ^ 21, size, g.g.first + off, w1 / 2 ^ 10 % 2 = 1, w1 / 2 ^ 9 % 2 = 1, w1 / 2 ^ 8 % 2 = 1⟩
          if w0 % 2 ^ 21 ≠ 0 || off % 2 ^ size ≠ 0 || 2 ^ g.g.log2 < off + 2 ^ size || !mapOk s p e then svcReply s c 1
          else
            let t := modPart (dropMsg s c.m.id) p.pid fun p => { p with map := sortedInsert e p.map }
            { t with svcs := t.svcs ++ [svcReq c p none] })

/-- SERVICE_UNMAP. -/
def execServiceUnmap (id : Nat) (s : State) : Out :=
  match svcStep s id 2 with
  | some t => .next t
  | none => .next (withBlock s id 2 fun c p _ w =>
      let w0 := w.getD 0 0
      if 2 ^ 56 ≤ w0 || !allZero w 1 then svcReply s c 3
      else match p.map.find? fun e => e.vbase * 2 ^ 21 == w0 with
        | none => svcReply s c 1
        | some e =>
          let t := modPart (dropMsg s c.m.id) p.pid fun p => { p with map := p.map.filter fun y => y != e }
          { t with svcs := t.svcs ++ [svcReq c p (some e)] })

/-- SERVICE_GRANT: the host is asked for units. -/
def execServiceGrant (id : Nat) (s : State) : Out :=
  .next (withBlock s id 3 fun c p _ w =>
    if 32 ≤ w.getD 0 0 || w.getD 1 0 ≠ 0 || !allZero w 3 then svcReply s c 3
    else
      let t := dropMsg s c.m.id
      toHost { t with svcs := t.svcs ++ [svcReq c p none] } (.grantRequest c.m.id p.pid (partIdWord p) (w.getD 0 0) p.stamp))

/-- HOST_GRANT_RESPONSE: a response of another tenancy is dropped and counted (15 R380). -/
def execHostGrantResponse (id : Nat) (stamp : BitVec 16) (g : GrantReply) (s : State) : Out :=
  match s.svcs.find? fun v => v.id == id && v.svc == 3 with
  | none =>
    let named := s.host.findSome? fun m => match m with | .grantRequest i _ w _ _ => if i = id then some w else none | _ => none
    match s.parts.find? fun p => named == some (partIdWord p) && p.stamp != stamp with
    | some p => .next (count s (masterDie s p false) p.pid 22 1)
    | none => .next s
  | some v =>
    match part? s v.part with
    | none => .next s
    | some p =>
      if stamp ≠ p.stamp then .next (count s (masterDie s p false) p.pid 22 1)
      else match g with
        | .refused => .next (svcEnd s v 1)
        | .busy => .next (svcEnd s v 4)
        | .granted g =>
          if !grantOk g || !(grantUnits g).all (unitFree s) then .next (svcEnd s v 1)
          else
            let t := (grantUnits g).foldl (fun s u => giveUnit s p.pid u) s
            let h := BitVec.ofNat 64 t.handles
            let t := modPart { t with handles := t.handles + 1 } p.pid fun p => { p with grants := p.grants ++ [⟨h, g⟩] }
            let t := match v.block with | some key => putOwn t p.pid v.id v.loc (key + 16) (toBytes 8 h.toNat) | none => t
            .next (svcEnd t v 0)

/-! ## KLOAD (12 R297, R298) -/

/-- The image's bytes at a device address of the issuer, in own LM, a slice or HBM; none where one cannot be read (15 R366). -/
def imageBytes (s : State) (p : Partition) (m : Msg) (va n : Nat) : Option (List Byte) :=
  match xlateRange s p m.src (mapWalk s (dieOf m.src) p.pid) .read 8 va n with
  | .error _ => none
  | .ok xl => xl.foldr (fun t acc =>
      if isLm t.2.2 && servedAt t.2.2 != m.src then none
      else (ownBytes s p.pid m.id m.src t.2.2 t.2.1).bind fun b => acc.map fun r => b ++ r) (some [])

/-- Whether half `w`, at index `i` of `n`, is accepted by R298. -/
def kilnLegal (n i w : Nat) : Bool :=
  let op := w / 2 ^ 11 % 32
  let d := w / 2 ^ 8 % 8
  let s := w / 2 ^ 5 % 8
  let m := w % 32
  match op with
  | 2 | 3 => s == 0
  | 14 | 15 => s == 0 && i + 1 + m < n
  | 16 => m < 8
  | 18 => m ≤ 24
  | 20 => d == 0 && 28 ≤ m
  | 21 => d == 0
  | 22 => d == 0 && s == 0 && m == 0
  | _ => 1 ≤ op && op ≤ 19

/-- A kiln image, none where firmware refuses it. -/
def parseImage (l : List Byte) : Option KImage :=
  let h := ofBytes (l.take 16)
  let n := h % 256 + 1
  let code := (List.range n).map fun i => ofBytes (bytesAt l (16 + 2 * i) 2)
  let entry (bit lo : Nat) : Option Nat := if h / 2 ^ bit % 2 = 1 then some (h / 2 ^ lo % 256) else none
  let ok (e : Option Nat) : Bool := match e with | some i => decide (i < n) | none => true
  let good (q : Nat × Nat) : Bool := kilnLegal n q.2 q.1
  if h / 2 ^ 35 ≠ 0 || !ok (entry 32 8) || !ok (entry 33 16) || !ok (entry 34 24) || !code.zipIdx.all good then none
  else some ⟨entry 32 8, entry 33 16, entry 34 24, code.map (BitVec.ofNat 16)⟩

/-- MEASi := SHAKE256(MEASi ‖ SHAKE256(item)) (16 R392). -/
def measExtend (s : State) (i : Fin 4) (item : List Byte) : State :=
  { s with meas := s.meas.set i (shake256 (s.meas[i] ++ shake256 item)) }

/-- SERVICE_KLOAD: while a swap of the node is in progress the request waits. -/
def execServiceKload (id : Nat) (s : State) : Out :=
  let attnOf (m : Msg) : Bool := isAttn (dieOf m.src)
  let waits : Bool := match svcMsg s id (· == 4) with
    | some c => (match node? s c.m.part (attnOf c.m) with | some (_, n) => n.swap.isSome | none => false)
    | none => false
  if waits then .next s
  else .next (withBlock s id 4 fun c p _ w =>
    if 2 ^ 56 ≤ w.getD 0 0 || !allZero w 1 then svcReply s c 3
    else
      let va := w.getD 0 0
      match (if va % 64 = 0 then imageBytes s p c.m va 16 else none) with
      | none => svcReply s c 1
      | some h =>
        match imageBytes s p c.m va (18 + 2 * (ofBytes (h.take 1))) with
        | none => svcReply s c 1
        | some l => match parseImage l with
          | none => svcReply s c 1
          | some i =>
            let t := (nodeDies p (attnOf c.m)).foldl (fun s x => modDiePart s x p.pid fun q => { q with shadow := some i }) s
            svcReply (measExtend t 2 l) c 0)

/-- SERVICE_CKPTTAB. -/
def execServiceCkpttab (id : Nat) (s : State) : Out :=
  .next (withBlock s id 5 fun c p _ w =>
    let va := w.getD 0 0
    if 2 ^ 56 ≤ va || 2 ^ 16 ≤ w.getD 1 0 || !allZero w 2 then svcReply s c 3
    else if va % 64 ≠ 0 then svcReply s c 1
    else svcReply (modPart s p.pid fun p => { p with ckptTable := va, ckptCount := w.getD 1 0 }) c 0)

/-- SERVICE_INTR. -/
def execServiceIntr (id : Nat) (s : State) : Out :=
  .next (withBlock s id 6 fun c p _ w =>
    if 59 < w.getD 0 0 || !allZero w 1 then svcReply s c 3 else svcReply (setIrq s p.pid (w.getD 0 0)) c 0)

/-- SERVICE_UNKNOWN: NOSERVICE. -/
def execServiceUnknown (id : Nat) (s : State) : Out :=
  match svcMsg s id fun n => n == 0 || 6 < n with
  | some c => .next (svcReply s c 2)
  | none => .next s

/-- RELEASE_REQUEST: a unit is released after every extent that covers it is removed, in the order of R209: the map, die by die the walkers' copies,
then, once no walk is left on an old copy, the extent caches, then the uses (08 R209, R211). Each event takes one of these steps. -/
def execReleaseRequest (pid unit : Nat) (s : State) : Out :=
  match part? s pid with
  | none => .next (toHost s (.status pid hREFUSED))
  | some p =>
    if !ownedBy s unit pid then .next (toHost s (.status pid hREFUSED))
    else
      let covers (e : ExtEntry) : Bool := unit < 2 ^ 32 && e.pbase ≤ unit && unit < e.pbase + 2 ^ e.size
      let r := unitRange unit
      let hit (a n : Nat) : Bool := a < r.1 + r.2 && r.1 < a + n
      if p.map.any covers then .next (modPart s pid fun p => { p with map := p.map.filter fun e => !covers e })
      else match (dieList p).find? fun d => (diePart s d pid).map.any covers with
      | some d => .next (modDiePart s d pid fun q => { q with map := q.map.filter fun e => !covers e })
      | none =>
        if (List.range 20).any fun d => (die s d).walks.any fun w => w.part == pid && w.va.isSome && w.map.any covers then .next s
        else
          let s := purgeExts s pid covers fun _ => true
          if (s.reqs.any fun q => q.part == pid && q.undone && (hit q.key q.size || q.op.held.any fun h => hit h.2 64))
              || anyCmdHolds s p (fun t => hit t.2.2 t.2.1) (fun k => hit k 1)
              || (s.svcCores.any fun c => c.queue.any fun q => q.pid == pid && match q.xl with | some xl => xl.any fun t => hit t.2.2 t.2.1 | none => false)
          then .next s
          else .next (toHost (freeUnit s unit) (.status pid hDONE))

end Sys2Proof.Machine
end

