-- ==== Sys2Proof/Machine/Links.lean ====
section
/-! DEFINITION. Counters, links, soft errors, bring-up, attestation and management events (00 R13; 08 R212, R213, R217; 16 R382 to R394). -/

namespace Sys2Proof.Machine

/-! ## Counters -/

/-- COUNTER_SNAPSHOT: the next write of a snapshot that is due or has begun (16 R383). -/
def execCounterSnapshot (d pid : Nat) (s : State) : Out :=
  match part? s pid with
  | none => .next s
  | some p => .next (if (dieList p).contains d && !(die s d).fenced then snapStep s p d else s)

/-- The physical counters d0 to d48 of a die (16 R385). -/
def physBlock (y : Die) : List Nat :=
  y.phys.toList ++ y.ports.toList.flatMap fun p => p.cntFlit.toList ++ [p.cntReplay, p.cntDemote]

/-- HOST_COUNTER_READ. -/
def execHostCounterRead (d : Nat) (s : State) : Out := .next (toHost s (.counters d (physBlock (die s d))))

/-! ## Links (00 R7, R13; 16 R386 to R388) -/

def sat48 (n : Nat) : Nat := min n (2 ^ 48 - 1)

/-- Whether a die has link L (16 R386). -/
def hasLink (d l : Nat) : Bool :=
  if isAttn d then l < 6
  else match l with
    | 0 => 4 ≤ d
    | 1 => d % 4 != 3
    | 2 => d < 12
    | 3 => d % 4 != 0
    | 4 => true
    | 5 => true
    | 6 => d == 0 || d == 8
    | _ => false

/-- An eighth of the flits (units of 64 bytes on Ethernet and Igmund Link) that a link carries in 4,096 cycles at its rate (00 R3, R7, R13). DESIGN
CHOICE: of UCIe's two rates, the 1 TB/s of R7 and the 1.024 TB/s of 16 R387, the second (log 8). -/
def shareOf (d l : Nat) : Nat :=
  let perWindow (rate size : Nat) : Nat := rate * 4096 / 600000000 / size / 8
  if isAttn d then (if l < 2 then perWindow 2000000000000 80 else perWindow 1024000000000 80)
  else if l < 4 then perWindow 2000000000000 80
  else if l = 4 then perWindow 1024000000000 80
  else if l = 5 then perWindow 100000000000 64
  else perWindow 448000000000 64

def modPort (s : State) (d l : Nat) (f : Port → Port) : State :=
  if h : l < 7 then modDie s d fun y => { y with ports := y.ports.set l (f y.ports[l]) } else s
def port (s : State) (d l : Nat) : Port := if h : l < 7 then (die s d).ports[l] else Port.reset

/-- The class at which a flit is carried: class 3 beyond the partition's share travels as class 2 (00 R13). -/
def carried (d l : Nat) (p : Port) (f : Flit) : Fin 4 :=
  if f.cls = 3 ∧ !f.preempting ∧ shareOf d l ≤ assocGet p.use3 f.pid 0 then 2 else f.cls

/-- The class that sends: one that has waited 64 flit times, else the highest with a flit ready (16 R388). -/
def sendClass (d l : Nat) (p : Port) : Option (Fin 4) :=
  let ready (c : Fin 4) : Bool := p.queued.any fun f => carried d l p f == c
  let order : List (Fin 4) := [3, 2, 1, 0]
  match order.find? fun c => ready c && 64 ≤ p.waited[c] with
  | some c => some c
  | none => order.find? ready

/-- A class-3 window that has passed counts no more. -/
def freshWindow (now : Nat) (p : Port) : Port := if p.window < now / 4096 then { p with window := now / 4096, use3 := [] } else p

/-- One flit leaves for the far end, which by then has accepted the one before it (16 R387). -/
def sendFlit (d l : Nat) (p : Port) (c : Fin 4) (f : Flit) : Port :=
  let ready (k : Fin 4) : Bool := p.queued.any fun g => carried d l p g == k
  { p with
    queued := p.queued.erase f
    waited := Vector.ofFn fun k => if k = c then 0 else if ready k then p.waited[k] + 1 else 0
    use3 := if f.cls = 3 ∧ c = 3 ∧ !f.preempting then assocSet p.use3 f.pid (assocGet p.use3 f.pid 0 + 1) else p.use3
    cntFlit := p.cntFlit.set c (sat48 (p.cntFlit[c] + 1))
    cntDemote := if f.cls ≠ c then sat48 (p.cntDemote + 1) else p.cntDemote
    replay := some f
    arrived := p.arrived ++ p.replay.toList }

/-- The header of a flit that carries traffic of a partition at a class, from a core that is being pre-empted for it or not (15 R372). -/
structure FlitHead where
  cls : Fin 4
  pid : Nat
  dest : Nat
  preempting : Bool

def coreHead (s : State) (l : Loc) (pid : Nat) (cls : BitVec 2) (dest : Nat) : FlitHead :=
  let pre := (core s l).preempt.any fun q => q.pid == pid
  ⟨if pre then 3 else cls.toFin, pid, dest, pre⟩

/-- The die a message goes to. -/
def msgDest (s : State) (m : Msg) : Nat :=
  match m.body with
  | .spawn d _ => dieOf d
  | .migrate d _ => dieOf d
  | .ring r _ => dieOf r.dest
  | .launch a _ _ => match part? s m.part with | some p => masterDie s p a | none => 0
  | .signal a _ _ => match part? s m.part with | some p => masterDie s p a | none => 0
  | .pcall sc _ _ _ => dieOf sc

/-- Where a flit comes from: a die, a service core's host, or another module. -/
inductive FlitFrom where
  | die (d : Nat)
  | host (port : Nat)
  | module
  deriving DecidableEq, Repr

/-- The die whose Igmund Link port serves the service cores of a die (16 R387). -/
def hostPort (d : Nat) : Nat := if d < 8 then 0 else 8

/-- The die that control traffic comes from, while it is under way, and whether it may go to `dest`. -/
def ctlFrom (s : State) (p : Partition) (dest : Nat) : CtlSrc → Option Nat
  | .commit attn back =>
    match nodeOf p attn, deputyDie s p attn with
    | some n, some b =>
      let a := masterDie s p attn
      if n.sentVersion ≤ n.acked then none else if back then (if dest = a then some b else none) else if dest = b then some a else none
    | _, _ => none
  | .report id => (s.reports.find? fun r => r.id == id && r.pid == p.pid && dest == masterDie s p r.attn).map Report.die
  | .labelAsk id => (s.ltts.find? fun r => r.id == id && r.part == p.pid && dest == masterDie s p false).map fun r => dieOf r.loc
  | .labelTable => if p.lttRun.isSome && (dieList p).contains dest then some (masterDie s p false) else none
  | .map id => (s.svcs.find? fun v => v.id == id && v.part == p.pid && (dieList p).contains dest).map fun v => dieOf v.sc
  | .kiln attn => match nodeOf p attn with
    | some n => if n.swap.isSome && (nodeDies p attn).contains dest then some (masterDie s p attn) else none
    | none => none
  | .reply id => (s.msgReplies.find? fun r => r.id == id && r.part == p.pid && dest == dieOf r.loc).map fun _ => masterDie s p false

/-- Where a flit comes from and its header, none where nothing of that name is in flight: an access travels to its serving point and its reply back
(16 R387, R388). -/
def flitWay (s : State) : FlitSrc → Option (FlitFrom × FlitHead)
  | .request id => (req? s id).bind fun r =>
      let here := dieOf r.loc
      let there := dieOf (servedAt r.key)
      match r.op, r.st with
      | .agent, _ => none
      | _, .xlate _ => none
      | _, .walking _ => none
      | _, .replied _ => some (.die there, coreHead s r.loc r.part r.cls here)
      | _, _ => some (.die here, coreHead s r.loc r.part r.cls there)
  | .message id => (s.msgs.find? fun m => m.id == id).map fun m => (.die (dieOf m.src), coreHead s m.src m.part m.cls (msgDest s m))
  | .command l e dest _ => (engQ (core s l) e).head?.map fun q => (.die (dieOf l), coreHead s l q.part q.cls dest)
  | .launch id => (s.starts.find? fun y => y.id == id).bind fun y => (part? s y.entry.pid).map fun p =>
      (.die (masterDie s p y.entry.attn), ⟨y.entry.t.tclass.toFin, y.entry.pid, dieOf y.loc, false⟩)
  | .control pid what dest cls => (part? s pid).bind fun p => (ctlFrom s p dest what).map fun d => (.die d, ⟨cls, pid, dest, false⟩)
  | .host pid sc back cls =>
    let d := sc.val / 4
    some (if back then (.die d, ⟨cls, pid, hostPort d, false⟩) else (.host (hostPort d), ⟨cls, pid, d, false⟩))
  | .transport cls => some (.module, ⟨cls, 0, 0, false⟩)

/-- The kinds of link (16 R386, R387). -/
inductive LinkKind where
  | seam | ucie | igmund | ethernet
  deriving DecidableEq, Repr

def linkKind (d l : Nat) : LinkKind :=
  if isAttn d then (if l < 2 then .seam else .ucie) else if l < 4 then .seam else if l = 4 then .ucie else if l = 5 then .ethernet else .igmund

/-- What a link of die `d` carries (00 R8; 16 R387): a seam the device traffic between dies and the deputy commits; UCIe that between a compute and an
attention die, but never pages; Igmund Link what the host sends and receives; Ethernet the transport. DEDUCED: the host's traffic with a service core of
another die than the port's crosses seams (log 8). -/
def linkCarries (d l : Nat) (src : FlitSrc) (from_ : FlitFrom) (h : FlitHead) : Bool :=
  match linkKind d l, src, from_ with
  | .ethernet, .transport _, _ => true
  | .ethernet, _, _ => false
  | _, .transport _, _ => false
  | .igmund, .host _ _ back _, .die _ => back && d == h.dest
  | .igmund, .host _ _ _ _, .host a => d == a
  | .igmund, _, _ => false
  | .seam, _, .host a => a != h.dest
  | .seam, _, .die o => o != h.dest
  | .ucie, .host _ _ _ _, _ => false
  | .ucie, .command _ _ _ true, _ => false
  | .ucie, .control _ (.commit _ _) _ _, _ => false
  | .ucie, _, .die o => isAttn o != isAttn h.dest
  | _, _, .module => false
  | .ucie, _, .host _ => false

/-- The header of a flit that a link takes from its source, none where nothing of that name is in flight or the link does not carry it. -/
def flitHead (s : State) (d l : Nat) (src : FlitSrc) : Option FlitHead :=
  (flitWay s src).bind fun w => if linkCarries d l src w.1 w.2 then some w.2 else none

/-- The header's bytes before its CRC, as the model lays them out (log 8). -/
def flitBytes (h : FlitHead) (kind : Nat) : List Byte := toBytes 1 h.cls.val ++ toBytes 4 h.pid ++ toBytes 1 h.dest ++ toBytes 6 kind

/-- A flit: the CRC-32C covers the header's other fields and the payload. -/
def flitOf (h : FlitHead) (o : FlitOffer) : Flit :=
  ⟨h.cls, h.pid, h.dest, o.kind, crc32c (flitBytes h o.kind ++ o.payload.toList), o.payload, h.preempting⟩

/-- The links that carry flits: all once bring-up has trained them, and Igmund Link, over which firmware arrives, from the start (16 R393). -/
def linkUp (s : State) (d l : Nat) : Bool := hasLink d l && !(die s d).fenced && (s.boot == .ready || (!isAttn d && l == 6))

/-- FLIT_SEND: offered flits join the port's queue and one flit is sent. -/
def execFlitSend (d l : Nat) (offered : List FlitOffer) (s : State) : Out :=
  if 20 ≤ d || !linkUp s d l then .next s
  else
    let p := freshWindow s.cycle (port s d l)
    let p := { p with queued := p.queued ++ offered.filterMap fun o => (flitHead s d l o.src).map fun h => flitOf h o }
    match sendClass d l p with
    | none => .next (modPort s d l fun _ => p)
    | some c =>
      match p.queued.find? fun f => carried d l p f == c with
      | none => .next s
      | some f =>
        let t := modPort s d l fun _ => sendFlit d l p c f
        .next (if f.cls ≠ c then count t d f.pid 9 1 else t)

/-- FLIT_CRC_REPLAY: the far end received the last flit with a bad CRC; the sender sends it again from its replay buffer (16 R387). -/
def execFlitCrcReplay (d l : Nat) (s : State) : Out :=
  .next (modPort s d l fun p => if p.replay.isSome then { p with cntReplay := sat48 (p.cntReplay + 1) } else p)

/-- CLASS3_WINDOW_END: the next window of 4,096 cycles begins (00 R13). -/
def execClass3WindowEnd (d l : Nat) (s : State) : Out := .next (modPort s d l (freshWindow s.cycle))

/-- ETHERNET_FRAME_RECEIVE: a frame of the transport is delivered in order, once the link is trained (16 R387, R393). -/
def execEthernetFrameReceive (p : Fin 16) (frame : List Byte) (s : State) : Out :=
  if s.boot == .ready && frame.length ≤ 9216 && bytesAt frame 12 2 == [0x88#8, 0xB5#8] && 14 ≤ frame.length then .next { s with frames := s.frames ++ [(p, frame)] } else .next s

/-! ## The scrubber (08 R212, R213; 15 R381) -/

/-- Granules of a location's memory. -/
def scrubSize : Loc → Nat
  | .core _ _ => 24576
  | .slice d _ => if isAttn d then 131072 else 65536
  | .svc _ _ => 1

def realLoc : Loc → Bool
  | .core d i => d < 20 && i < coresOn d
  | .slice d i => d < 20 && i < slicesOn d
  | .svc _ _ => false

/-- The partition that a granule belongs to, and its device address there. -/
def granuleOwner (s : State) (l : Loc) (off : Nat) : Option (Nat × Nat) :=
  match l with
  | .core d i => (s.parts.find? fun p => ownsCore p d i && p.st != .descheduled).map fun p =>
      (p.pid, (if isAttn d then 3 else 1) * 2 ^ 48 + relCore p d i % 2 ^ 16 * 2 ^ 32 + off)
  | .slice d i => (ownerOf s (sliceUnit d i off)).bind fun pid => (part? s pid).map fun p =>
      (pid, 2 * 2 ^ 48 + userDie p d * 2 ^ 40 + i * (if isAttn d then 2 ^ 21 else 2 ^ 20) + off)
  | .svc _ _ => none

/-- The unit of the ownership table at a flat address (08 R210); LM has none. -/
def unitAt (key : Nat) : Option Nat :=
  let k := key % 2 ^ 60
  if isHbm key then some (k / 2 ^ 21)
  else if isSlice key then some (sliceUnit (k / 2 ^ 40) (k % 2 ^ 40 / 2 ^ 24) (k % 2 ^ 24))
  else none

/-- A granule, or a block of HBM, is poisoned: counted, and noted against its unit (08 R213, R214). -/
def markPoison (s : State) (key : Nat) : State :=
  let t := countPhys { s with poison := insertNat (poisonUnit key) s.poison } (dieOf (servedAt key)) 3 1
  match unitAt key with
  | some u => { t with poisonings := assocSet t.poisonings u (assocGet t.poisonings u 0 + 1) }
  | none => t

/-- The scrubber finds an uncorrectable error: the granule is poisoned and checked to its partition. -/
def poisonGranule (s : State) (l : Loc) (off : Nat) : State :=
  let key := lmAt l off
  if s.poison.contains key then s
  else
    let t := markPoison s key
    match granuleOwner t l off with
    | some (pid, va) => machineCheck t pid [BitVec.ofNat 64 va]
    | none => t

/-- A flat address of LM, a slice or HBM that the module has (00 R4). -/
def memoryAt (key : Nat) : Bool :=
  let k := key % 2 ^ 60
  if isHbm key then k < 2 ^ 41
  else (isLm key && k % 2 ^ 20 < 0x60000 || isSlice key && k % 2 ^ 24 < 16 * scrubSize (servedAt key)) && realLoc (servedAt key)

/-- What an access that is about to be made finds: an error corrected and counted, or one that poisons (08 R212 to R214; log 12). -/
def softError (s : State) (key : Nat) (found : SoftError) : State :=
  match found with
  | .none => s
  | .corrected => if memoryAt key then countPhys s (dieOf (servedAt key)) (if isHbm key then 2 else if isSlice key then 1 else 0) 1 else s
  | .uncorrectable => if memoryAt key && !poisoned s key then markPoison s key else s

/-- Scrub passes completed over all LMs and slices of a die. -/
def scrubPasses (s : State) (d : Nat) : Nat :=
  let passes (l : Loc) : Nat := (core s l).scrubAt / scrubSize l
  let locs := (List.range (coresOn d)).map (Loc.core d) ++ (List.range (slicesOn d)).map (Loc.slice d)
  (locs.map passes).foldl min (passes (.core d 0))

/-- SCRUB_READ: a scrubber reads one granule every 64 cycles; `scrubAt` counts its reads. -/
def execScrubRead (l : Loc) (found : SoftError) (s : State) : Out :=
  let c := core s l
  if !realLoc l || s.cycle < 64 * c.scrubAt then .next s
  else
    let off := 16 * (c.scrubAt % scrubSize l)
    let t := modCore s l fun c => { c with scrubAt := c.scrubAt + 1 }
    let t := match found with
      | .none => t
      | .corrected => countPhys t (dieOf l) (if isSliceCore l then 1 else 0) 1
      | .uncorrectable => poisonGranule t l off
    let n := scrubPasses t (dieOf l)
    .next (modDie t (dieOf l) fun y => { y with phys := y.phys.set 5 (sat48 (max n y.phys[5])) })

/-! ## Bring-up, measurement, attestation, management (16 R390 to R394) -/

/-- The module right after module reset; flash keeps its contents, and the boot ROM of die 0 has measured itself (16 R393 steps 1 and 2). -/
def afterReset (s : State) : State :=
  measExtend { State.reset with
    mem := s.mem.filter fun x => 4 * 2 ^ 60 ≤ x.1
    boot := .awaiting, stepNo := s.stepNo, nextId := s.nextId, free := s.free } 0 Config.romImage

/-- MODULE_RESET. -/
def execModuleReset (s : State) : Out := .next (afterReset s)

/-- The vendor's signature over an image and its 64-bit version, under the key whose digest is fused (16 R390, R391). DESIGN CHOICE: the signed message is
the image with the 8 bytes of its version behind it, the least significant first, and no image has a version of 2^64 or more, since R391 says only that
the signature covers both (log 62). -/
def signedImage (image : List Byte) (version : Nat) (sig : List Byte) : Bool :=
  version < 2 ^ 64 && shake256 Config.vendorKey.toList == Config.vendorDigest.toList
    && slhVerify Config.vendorKey.toList (image ++ toBytes 8 version) sig

/-- The device's public key, derived from the identity secret (16 R390). -/
def devicePublic : List Byte := slhPublic Config.identitySecret.toList

/-- FIRMWARE_IMAGE_RECEIVE: an image with a valid signature and no older than the minimum is taken, and bring-up ends; another is refused
(16 R391, R393). -/
def execFirmwareImageReceive (image : List Byte) (version : Nat) (sig : List Byte) (s : State) : Out :=
  if s.boot = .ready then .next s
  else
    let s := if s.boot = .reset then measExtend s 0 Config.romImage else s
    if signedImage image version sig && Config.minVersion ≤ version then
      let t := measExtend (measExtend s 0 image) 1 Config.fwConfig
      .next (toHost { t with boot := .ready, fwVersion := version, drives := Config.drivesPresent } .ready)
    else .next { s with boot := .awaiting }

/-- HOST_MEASUREMENT. -/
def execHostMeasurement (item : List Byte) (s : State) : Out := .next (measExtend s 3 item)

/-- The signed part of an attestation report (16 R392). -/
def reportBody (s : State) (nonce : List Byte) (pid : Nat) : List Byte :=
  let p := part? s pid
  let kv : Nat := match p.bind fun p => p.compute with | some n => n.kilnver.toNat | none => 0
  bytesAt nonce 0 64 ++ (s.meas.toList.flatMap fun m => bytesAt m 0 64)
    ++ toBytes 4 (match p with | some p => partIdWord p | none => 0)
    ++ toBytes 2 (match p with | some p => p.stamp.toNat | none => 0) ++ toBytes 2 kv

/-- ATTESTATION_REQUEST: the report is signed with the identity key (16 R392). -/
def execAttestationRequest (nonce : List Byte) (pid : Nat) (s : State) : Out :=
  let b := reportBody s nonce pid
  let sig := slhSign Config.identitySecret.toList (Config.signRand s.free).toList b
  .next (toHost { s with free := s.free + 1 } (.report (b ++ sig)))

/-- TEMPERATURE_ALARM: 105 °C. -/
def execTemperatureAlarm (d : Nat) (s : State) : Out := .next (toHost (modDie s d fun y => { y with alarmed := true }) (.alarm d))

/-- THERMAL_RESET: 115 °C on a die; the module enters module reset. -/
def execThermalReset (_d : Nat) (s : State) : Out := .next (afterReset s)

/-- HOT_REMOVAL: a drive is absent from now on; its transfers end with a status other than success (08 R216, R217). -/
def execHotRemoval (d : Nat) (drive : Fin 8) (s : State) : Out :=
  .next { s with drives := s.drives.filter fun t => !(t.1 == d && t.2.1 == drive.val) }

end Sys2Proof.Machine
end

