-- ==== Sys2Proof/Machine/Mem.lean ====
section
/-! DEFINITION. The meanings of LD, ST, FE, FENCE, VMEM, AMO, CAS, RED and AMOK (09 R220 to R232). -/

namespace Sys2Proof.Machine

/-! ## LD and ST (09 R220, R221) -/

def loadAcc (v : Word) (imm : Imm31) (k : LoadKind) (m : Option MPfx) (d : SReg) (sz : Size) (uns : Bool) : Acc :=
  { va := eaOf v imm, size := Size.bytes sz, kind := .read, fe := k != .plain, relaxed := rxOf m, scope := scopeArg m, op := .load k d sz uns,
    ws := [.s d 0 false] }

def execLd (h : Hdr) (m : Option MPfx) (d a : SReg) (imm : Imm31) (sz : Size) (uns : Bool) (s : State) : Out :=
  issue s (mlen m) h { a := some a, rd := some d, dfu := [a] } fun x v s => access s x (loadAcc v.a imm .plain m d sz uns)

def execLdSync (h : Hdr) (d a : SReg) (imm : Imm31) (sz : Size) (uns : Bool) (s : State) : Out :=
  issue s 8 h { a := some a, rd := some d, dfu := [a] } fun x v s => access s x (loadAcc v.a imm .sync none d sz uns)

def execLdTake (h : Hdr) (d a : SReg) (imm : Imm31) (sz : Size) (uns : Bool) (s : State) : Out :=
  issue s 8 h { a := some a, rd := some d, dfu := [a] } fun x v s => access s x (loadAcc v.a imm .take none d sz uns)

/-- A DF-set base, misalignment and a translation or permission fault are deferred into DF. -/
def execLdSpec (h : Hdr) (m : Option MPfx) (d a : SReg) (imm : Imm31) (sz : Size) (uns : Bool) (s : State) : Out :=
  issue s (mlen m) h { a := some a, rd := some d } fun x v s =>
    let q := loadAcc v.a imm .plain m d sz uns
    if v.df then .go (putS s x d 0 true)
    else match addrCheck s x q.va q.size .read with
      | .fault _ => .go (putS s x d 0 true)
      | .walk => .wait (startWalk x q.va.toNat)
      | .ok key => accessAt (touch s x q.va.toNat) x q key false

def storeAcc (v : Word) (imm : Imm31) (k : FillKind) (m : Option MPfx) (w : Word) (sz : Size) : Acc :=
  { va := eaOf v imm, size := Size.bytes sz, kind := .write, fe := k != .plain, relaxed := rxOf m, scope := scopeArg m, write := true,
    op := .store k w sz }

def storeUses (d a : SReg) : Uses := { a := some a, d := some d, dfu := [a, d] }

def execSt (h : Hdr) (m : Option MPfx) (d a : SReg) (imm : Imm31) (sz : Size) (s : State) : Out :=
  issue s (mlen m) h (storeUses d a) fun x v s => access s x (storeAcc v.a imm .plain m v.d sz)

def execStFill (h : Hdr) (d a : SReg) (imm : Imm31) (sz : Size) (s : State) : Out :=
  issue s 8 h (storeUses d a) fun x v s => access s x (storeAcc v.a imm .fill none v.d sz)

def execStXfill (h : Hdr) (d a : SReg) (imm : Imm31) (sz : Size) (s : State) : Out :=
  issue s 8 h (storeUses d a) fun x v s => access s x (storeAcc v.a imm .xfill none v.d sz)

/-! ## FE (09 R223) -/

def feAcc (v : Word) (imm : Imm31) (w : Bool) (op : MemOp) : Acc :=
  { va := eaOf v imm, size := 16, kind := .any, fe := true, write := w, op := op }

def execFeSet (h : Hdr) (a : SReg) (imm : Imm31) (s : State) : Out :=
  issue s 8 h { a := some a, dfu := [a] } fun x v s => access s x (feAcc v.a imm true .feSet)

def execFeClr (h : Hdr) (a : SReg) (imm : Imm31) (s : State) : Out :=
  issue s 8 h { a := some a, dfu := [a] } fun x v s => access s x (feAcc v.a imm true .feClr)

def execFeGet (h : Hdr) (d a : SReg) (imm : Imm31) (s : State) : Out :=
  issue s 8 h { a := some a, rd := some d, dfu := [a] } fun x v s => access s x (feAcc v.a imm false (.feGet d))

def execFeWait (h : Hdr) (a : SReg) (imm : Imm31) (s : State) : Out :=
  issue s 8 h { a := some a, dfu := [a] } fun x v s => access s x (feAcc v.a imm false .feWait)

/-! ## FENCE (09 R224; 10 R248, R251) -/

/-- Whether fence `k` has nothing left to wait for. -/
def fenceDone (s : State) (th : Thread) (k : Fin 5) : Bool :=
  let upTo (n : Nat) : Bool := (relaxedOpen s th).all fun r => n < Scope.rank r.scope
  match k with
  | 0 => upTo 1
  | 1 => upTo 2
  | 2 => upTo 3
  | 3 => (relaxedOpen s th).isEmpty && !storesOpen s th
  | 4 => !anyCmds s th

def fence (s : State) (h : Hdr) (k : Fin 5) (after : Thread → State → State) : Out :=
  issue s 8 h {} fun x _ s => if fenceDone s (me s x) k then .go (after (me s x) s) else .block (.fence k)

/-- The unfenced writes that are left when a thread's `fence.sys` completes: at each byte, neither its own last write nor any before it (10 R258). -/
def publish (part : Nat) (thid : Word) : List HostOld → List HostOld
  | [] => []
  | e :: r => if (e :: r).any fun x => x.key == e.key && x.part == part && x.thid == thid then publish part thid r else e :: publish part thid r

/-- What follows a thread's `fence.sys`: the host's reads observe its writes (09 R224). -/
def hostSync (th : Thread) (s : State) : State := { s with hostOld := publish th.part th.thid s.hostOld }

def execFenceCore (h : Hdr) (s : State) : Out := fence s h 0 fun _ => id
def execFenceDie (h : Hdr) (s : State) : Out := fence s h 1 fun _ => id
def execFenceMod (h : Hdr) (s : State) : Out := fence s h 2 fun _ => id
def execFenceSys (h : Hdr) (s : State) : Out := fence s h 3 hostSync

/-- The thread's guarded commands whose slot is UNSET are discarded first. -/
def execFenceEng (h : Hdr) (s : State) : Out :=
  issue s 8 h {} fun x _ s =>
    let t := dropGuards s x.loc x.slot false
    if fenceDone t (me t x) 4 then .go t else .wait fun s => setSt (dropGuards s x.loc x.slot false) x.loc x.slot (.block (.fence 4) s.cycle)

/-! ## VMEM (09 R225) -/

def RowPfx.vec : RowPfx → Option VPfx
  | .vector p => some p
  | _ => none
def RowPfx.memp : RowPfx → Option MPfx
  | .memory m => some m
  | _ => none
def RowPfx.len : RowPfx → Nat
  | .none => 8
  | _ => 12

def vmemUses (p : Option VPfx) (d : VReg) (a : SReg) : Uses := { a := some a, vs := d :: pfxRegs p, tile := true, dfu := [a] }

/-- The bits of the active lanes. -/
def activeBits (s : State) (x : Cur) (p : Option VPfx) (d : VReg) : Row :=
  let c := core s x.loc
  laneBits (typeOf c d).bits fun i => (activeMask c p).getLsbD i

def vloadAcc (s : State) (x : Cur) (p : Option VPfx) (m : Option MPfx) (sync : Bool) (d : VReg) (v : Word) (imm : Imm31) : Acc :=
  let act := activeBits s x p d
  let zero : Row := match p with | some q => if q.z then ~~~ act else 0 | none => 0
  { va := eaOf v imm, size := 64, kind := .read, fe := sync, relaxed := rxOf m, scope := scopeArg m,
    op := .vload sync d act zero (granulesOf act) 0, ws := [.v d 0 0] }

def vstoreAcc (s : State) (x : Cur) (p : Option VPfx) (m : Option MPfx) (fill : Bool) (d : VReg) (v : Word) (imm : Imm31) : Acc :=
  let act := activeBits s x p d
  let lanes : Row := match p with | some q => if q.z then BitVec.allOnes 512 else act | none => act
  { va := eaOf v imm, size := 64, kind := .write, fe := fill, relaxed := rxOf m, scope := scopeArg m, write := true,
    op := .vstore fill lanes ((core s x.loc).tiles[d] &&& act) (granulesOf lanes) }

def execVld (h : Hdr) (q : RowPfx) (d : VReg) (a : SReg) (imm : Imm31) (s : State) : Out :=
  issue s (RowPfx.len q) h (vmemUses (RowPfx.vec q) d a) fun x v s => access s x (vloadAcc s x (RowPfx.vec q) (RowPfx.memp q) false d v.a imm)

def execVst (h : Hdr) (q : RowPfx) (d : VReg) (a : SReg) (imm : Imm31) (s : State) : Out :=
  issue s (RowPfx.len q) h (vmemUses (RowPfx.vec q) d a) fun x v s => access s x (vstoreAcc s x (RowPfx.vec q) (RowPfx.memp q) false d v.a imm)

def execVldSync (h : Hdr) (p : Option VPfx) (d : VReg) (a : SReg) (imm : Imm31) (s : State) : Out :=
  issue s (vlen p) h (vmemUses p d a) fun x v s => access s x (vloadAcc s x p none true d v.a imm)

def execVstFill (h : Hdr) (p : Option VPfx) (d : VReg) (a : SReg) (imm : Imm31) (s : State) : Out :=
  issue s (vlen p) h (vmemUses p d a) fun x v s => access s x (vstoreAcc s x p none true d v.a imm)

/-! ## AMO, CAS and RED (09 R226 to R228) -/

def wBytes (w64 : Bool) : Nat := if w64 then 8 else 4

def amo (s : State) (h : Hdr) (m : Option MPfx) (op : AmoOp) (w64 : Bool) (d a b : SReg) : Out :=
  issue s (mlen m) h { a := some a, b := some b, rd := some d, dfu := [a, b] } fun x v s =>
    access s x { va := v.a, size := wBytes w64, kind := .rmw, relaxed := rxOf m, scope := scopeArg m,
                 op := .amo op w64 v.b (some d), ws := [.s d 0 false] }

def execAmoAdd (h : Hdr) (m : Option MPfx) (w64 : Bool) (d a b : SReg) (s : State) : Out := amo s h m .add w64 d a b
def execAmoAnd (h : Hdr) (m : Option MPfx) (w64 : Bool) (d a b : SReg) (s : State) : Out := amo s h m .and w64 d a b
def execAmoOr (h : Hdr) (m : Option MPfx) (w64 : Bool) (d a b : SReg) (s : State) : Out := amo s h m .or w64 d a b
def execAmoXor (h : Hdr) (m : Option MPfx) (w64 : Bool) (d a b : SReg) (s : State) : Out := amo s h m .xor w64 d a b
def execAmoMin (h : Hdr) (m : Option MPfx) (w64 : Bool) (d a b : SReg) (s : State) : Out := amo s h m .min w64 d a b
def execAmoMax (h : Hdr) (m : Option MPfx) (w64 : Bool) (d a b : SReg) (s : State) : Out := amo s h m .max w64 d a b
def execAmoMinn (h : Hdr) (m : Option MPfx) (w64 : Bool) (d a b : SReg) (s : State) : Out := amo s h m .minn w64 d a b
def execAmoMaxn (h : Hdr) (m : Option MPfx) (w64 : Bool) (d a b : SReg) (s : State) : Out := amo s h m .maxn w64 d a b
def execAmoSwap (h : Hdr) (m : Option MPfx) (w64 : Bool) (d a b : SReg) (s : State) : Out := amo s h m .swap w64 d a b
def execAmoFadd (h : Hdr) (m : Option MPfx) (d a b : SReg) (s : State) : Out := amo s h m .fadd false d a b

/-- D is compared and receives the old value. -/
def cas (s : State) (h : Hdr) (m : Option MPfx) (w64 : Bool) (d a b : SReg) : Out :=
  issue s (mlen m) h { a := some a, b := some b, d := some d, rd := some d, dfu := [a, b, d] } fun x v s =>
    access s x { va := v.a, size := wBytes w64, kind := .rmw, relaxed := rxOf m, scope := scopeArg m,
                 op := .cas w64 v.d v.b d, ws := [.s d 0 false] }

def execCas32 (h : Hdr) (m : Option MPfx) (d a b : SReg) (s : State) : Out := cas s h m false d a b
def execCas64 (h : Hdr) (m : Option MPfx) (d a b : SReg) (s : State) : Out := cas s h m true d a b

def red (s : State) (h : Hdr) (m : Option MPfx) (op : AmoOp) (w64 : Bool) (a b : SReg) : Out :=
  issue s (mlen m) h { a := some a, b := some b, dfu := [a, b] } fun x v s =>
    access s x { va := v.a, size := wBytes w64, kind := .rmw, relaxed := rxOf m, scope := scopeArg m, write := true, op := .amo op w64 v.b none }

def execRedAdd (h : Hdr) (m : Option MPfx) (w64 : Bool) (a b : SReg) (s : State) : Out := red s h m .add w64 a b
def execRedAnd (h : Hdr) (m : Option MPfx) (w64 : Bool) (a b : SReg) (s : State) : Out := red s h m .and w64 a b
def execRedOr (h : Hdr) (m : Option MPfx) (w64 : Bool) (a b : SReg) (s : State) : Out := red s h m .or w64 a b
def execRedXor (h : Hdr) (m : Option MPfx) (w64 : Bool) (a b : SReg) (s : State) : Out := red s h m .xor w64 a b
def execRedMin (h : Hdr) (m : Option MPfx) (w64 : Bool) (a b : SReg) (s : State) : Out := red s h m .min w64 a b
def execRedMax (h : Hdr) (m : Option MPfx) (w64 : Bool) (a b : SReg) (s : State) : Out := red s h m .max w64 a b
def execRedMinn (h : Hdr) (m : Option MPfx) (w64 : Bool) (a b : SReg) (s : State) : Out := red s h m .minn w64 a b
def execRedMaxn (h : Hdr) (m : Option MPfx) (w64 : Bool) (a b : SReg) (s : State) : Out := red s h m .maxn w64 a b
def execRedSwap (h : Hdr) (m : Option MPfx) (w64 : Bool) (a b : SReg) (s : State) : Out := red s h m .swap w64 a b
def execRedFadd (h : Hdr) (m : Option MPfx) (a b : SReg) (s : State) : Out := red s h m .fadd false a b

/-- A count of 0 is PARAM_FORMAT, once the checks of R219 have passed. -/
def execRedArrive (h : Hdr) (m : Option MPfx) (a b : SReg) (s : State) : Out :=
  issue s (mlen m) h { a := some a, b := some b, dfu := [a, b] } fun x v s =>
    match addrCheck s x v.a 4 .rmw with
    | .fault c => .trap c 0 v.a.toNat
    | .walk => .wait (startWalk x v.a.toNat)
    | .ok key =>
      if isHbm key then .trap cPERMISSION 1 v.a.toNat
      else if v.b.setWidth 32 = 0#32 then .trap cPARAM 0 0
      else accessAt s x { va := v.a, size := 4, kind := .rmw, relaxed := rxOf m, scope := scopeArg m, write := true, op := .arrive (v.b.setWidth 32) } key false

/-! ## AMOK (09 R230, R231) -/

def contAtomic (s : State) (h : Hdr) (isCas : Bool) (d a b : SReg) (c : Option SReg) (k : Punty) : Out :=
  issue s 16 h { a := some a, b := some b, c := c, rd := some d, dfu := a :: b :: c.toList } fun x v s =>
    match addrCheck s x v.a (wBytes k.w64) .rmw with
    | .fault e => .trap e 0 v.a.toNat
    | .walk => .wait (startWalk x v.a.toNat)
    | .ok key =>
      if isLm key then .trap cPARAM 0 0
      else accessAt (touch s x v.a.toNat) x
        { va := v.a, size := wBytes k.w64, kind := .rmw, write := true, op := .contK isCas k v.b v.c d } key true

def execCasK (h : Hdr) (d a b c : SReg) (k : Punty) (s : State) : Out := contAtomic s h true d a b (some c) k
def execDecK (h : Hdr) (d a b : SReg) (k : Punty) (s : State) : Out := contAtomic s h false d a b none k

end Sys2Proof.Machine
end

