-- ==== Sys2Proof/Machine/Vector.lean ====
section
/-! DEFINITION. The meanings of VINT, VFLT, VCMP, VMOV, VCVT and VMASK (06 R153 to R164, R173 to R175). -/

namespace Sys2Proof.Machine

/-! ## Shared forms -/

/-- Registers of a vector instruction with row operands under a prefix. -/
def vuses (p : Option VPfx) (regs : List VReg) (lm : List (VReg × LaneMod)) : Uses := { vs := regs ++ pfxRegs p, lm := lm, tile := true }

/-- The tiles of all operands have one lane width (06 R153). -/
def sameWidth (c : Core) (d : VReg) (l : List VReg) : Bool := l.all fun v => (typeOf c v).bits == (typeOf c d).bits

/-- The tiles of all operands have one floating-point type that is not of 8 bits (06 R153). -/
def floatType (c : Core) (d : VReg) (l : List VReg) : Option FpFmt :=
  let t := typeOf c d
  if (t == .fp32 || t == .bf16 || t == .fp16) && l.all fun v => typeOf c v == t then Fmt.fp? t else none

/-- A VINT form with two operands: f takes the lane width and the two lanes (06 R156). -/
def vint2 (s : State) (h : Hdr) (p : Option VPfx) (d a b : VReg) (ma mb : LaneMod) (f : Nat → Nat → Nat → Nat) : Out :=
  issue s (vlen p) h (vuses p [d, a, b] [(a, ma), (b, mb)]) fun x _ s =>
    let c := core s x.loc
    if !sameWidth c d [a, b] then .trap cELEM 0 0
    else
      let w := (typeOf c d).bits
      .go (putRow s x d p w (List.zipWith (f w) (readLanes c a ma) (readLanes c b mb)))

def vint1 (s : State) (h : Hdr) (p : Option VPfx) (d a : VReg) (ma : LaneMod) (f : Nat → Nat → Nat) : Out :=
  issue s (vlen p) h (vuses p [d, a] [(a, ma)]) fun x _ s =>
    let c := core s x.loc
    if !sameWidth c d [a] then .trap cELEM 0 0
    else
      let w := (typeOf c d).bits
      .go (putRow s x d p w ((readLanes c a ma).map (f w)))

/-- The flags of the active lanes (06 R154, R158). -/
def activeFlags (c : Core) (p : Option VPfx) (l : List (BitVec 5)) : BitVec 5 :=
  (l.zipIdx.foldl (fun acc q => if (activeMask c p).getLsbD q.2 then acc ||| q.1 else acc) 0)

/-- Writes a row of floating-point results with the flags of its active lanes. -/
def putRowF (s : State) (x : Cur) (d : VReg) (p : Option VPfx) (w : Nat) (r : List (Nat × BitVec 5)) : State :=
  let fl := activeFlags (core s x.loc) p (r.map Prod.snd)
  modTh (putRow s x d p w (r.map Prod.fst)) x.loc x.slot (orFlags fl)

def vmode (th : Thread) (p : Option VPfx) : Rnd := match p with | some q => rndOf th q.rnd | none => modeOf th

/-- A VFLT form with two operands (06 R158). -/
def vflt2 (s : State) (h : Hdr) (p : Option VPfx) (d a b : VReg) (ma mb : LaneMod) (f : FpFmt → Rnd → Nat → Nat → Nat × BitVec 5) : Out :=
  issue s (vlen p) h (vuses p [d, a, b] [(a, ma), (b, mb)]) fun x _ s =>
    let c := core s x.loc
    match floatType c d [a, b] with
    | none => .trap cELEM 0 0
    | some t => .go (putRowF s x d p (typeOf c d).bits (List.zipWith (f t (vmode (me s x) p)) (readLanes c a ma) (readLanes c b mb)))

def vflt1 (s : State) (h : Hdr) (p : Option VPfx) (d a : VReg) (ma : LaneMod) (f : FpFmt → Nat → Nat) : Out :=
  issue s (vlen p) h (vuses p [d, a] [(a, ma)]) fun x _ s =>
    let c := core s x.loc
    match floatType c d [a] with
    | none => .trap cELEM 0 0
    | some t => .go (putRow s x d p (typeOf c d).bits ((readLanes c a ma).map (f t)))

/-- A mask result under the prefix; bits beyond the lanes are written as zero (06 R154, R160). -/
def maskedMask (c : Core) (p : Option VPfx) (d : MReg) (l : List Bool) : BitVec 64 :=
  BitVec.ofNat 64 ((l.zipIdx.map fun q =>
    let v := if (activeMask c p).getLsbD q.2 then q.1
      else match p with
        | some y => !y.z && (readM c d).getLsbD q.2
        | none => q.1
    if v then 2 ^ q.2 else 0).sum)

/-- Puts a mask register (m0 discards). -/
def putM (s : State) (x : Cur) (d : MReg) (v : BitVec 64) : State := modCore s x.loc fun c => writeM c d v

/-- An integer VCMP form: f takes the lane width. -/
def vcmp2 (s : State) (h : Hdr) (p : Option VPfx) (d : MReg) (a b : VReg) (ma mb : LaneMod) (f : Nat → Nat → Nat → Bool) : Out :=
  issue s (vlen p) h (vuses p [a, b] [(a, ma), (b, mb)]) fun x _ s =>
    let c := core s x.loc
    if !sameWidth c a [b] then .trap cELEM 0 0
    else .go (putM s x d (maskedMask c p d (List.zipWith (f (typeOf c a).bits) (readLanes c a ma) (readLanes c b mb))))

def vfcmp2 (s : State) (h : Hdr) (p : Option VPfx) (d : MReg) (a b : VReg) (ma mb : LaneMod) (k : FpCmp) : Out :=
  issue s (vlen p) h (vuses p [a, b] [(a, ma), (b, mb)]) fun x _ s =>
    let c := core s x.loc
    match floatType c a [b] with
    | none => .trap cELEM 0 0
    | some t =>
      let r := List.zipWith (fpCompare t k) (readLanes c a ma) (readLanes c b mb)
      .go (modTh (putM s x d (maskedMask c p d (r.map Prod.fst))) x.loc x.slot (orFlags (activeFlags c p (r.map Prod.snd))))

/-! ## VINT (06 R156) -/

def sat (w : Nat) (i : Int) : Nat := patOf w (max (intMin w true) (min (intMax w true) i))

def execVadd (h : Hdr) (p : Option VPfx) (d a b : VReg) (ma mb : LaneMod) (s : State) : Out := vint2 s h p d a b ma mb fun w x y => (x + y) % 2 ^ w
def execVsub (h : Hdr) (p : Option VPfx) (d a b : VReg) (ma mb : LaneMod) (s : State) : Out :=
  vint2 s h p d a b ma mb fun w x y => (x + 2 ^ w - y) % 2 ^ w
def execVmul (h : Hdr) (p : Option VPfx) (d a b : VReg) (ma mb : LaneMod) (s : State) : Out := vint2 s h p d a b ma mb fun w x y => x * y % 2 ^ w
def execVmulh (h : Hdr) (p : Option VPfx) (d a b : VReg) (ma mb : LaneMod) (s : State) : Out :=
  vint2 s h p d a b ma mb fun w x y => patOf w ((sintOf w x * sintOf w y).fdiv ((2 ^ w : Nat) : Int))
def execVmin (h : Hdr) (p : Option VPfx) (d a b : VReg) (ma mb : LaneMod) (s : State) : Out :=
  vint2 s h p d a b ma mb fun w x y => if sintOf w x < sintOf w y then x else y
def execVmax (h : Hdr) (p : Option VPfx) (d a b : VReg) (ma mb : LaneMod) (s : State) : Out :=
  vint2 s h p d a b ma mb fun w x y => if sintOf w x < sintOf w y then y else x
def execVminn (h : Hdr) (p : Option VPfx) (d a b : VReg) (ma mb : LaneMod) (s : State) : Out := vint2 s h p d a b ma mb fun _ x y => min x y
def execVmaxn (h : Hdr) (p : Option VPfx) (d a b : VReg) (ma mb : LaneMod) (s : State) : Out := vint2 s h p d a b ma mb fun _ x y => max x y
def execVand (h : Hdr) (p : Option VPfx) (d a b : VReg) (ma mb : LaneMod) (s : State) : Out := vint2 s h p d a b ma mb fun _ x y => Nat.land x y
def execVor (h : Hdr) (p : Option VPfx) (d a b : VReg) (ma mb : LaneMod) (s : State) : Out := vint2 s h p d a b ma mb fun _ x y => Nat.lor x y
def execVxor (h : Hdr) (p : Option VPfx) (d a b : VReg) (ma mb : LaneMod) (s : State) : Out := vint2 s h p d a b ma mb fun _ x y => Nat.xor x y
def execVandn (h : Hdr) (p : Option VPfx) (d a b : VReg) (ma mb : LaneMod) (s : State) : Out :=
  vint2 s h p d a b ma mb fun w x y => Nat.land x (2 ^ w - 1 - y)
def execVshl (h : Hdr) (p : Option VPfx) (d a b : VReg) (ma mb : LaneMod) (s : State) : Out :=
  vint2 s h p d a b ma mb fun w x y => x * 2 ^ (y % w) % 2 ^ w
def execVshr (h : Hdr) (p : Option VPfx) (d a b : VReg) (ma mb : LaneMod) (s : State) : Out :=
  vint2 s h p d a b ma mb fun w x y => x / 2 ^ (y % w)
def execVsra (h : Hdr) (p : Option VPfx) (d a b : VReg) (ma mb : LaneMod) (s : State) : Out :=
  vint2 s h p d a b ma mb fun w x y => patOf w ((sintOf w x).fdiv ((2 ^ (y % w) : Nat) : Int))
def execVabs (h : Hdr) (p : Option VPfx) (d a : VReg) (ma : LaneMod) (s : State) : Out :=
  vint1 s h p d a ma fun w x => patOf w ((sintOf w x).natAbs : Int)
def execVneg (h : Hdr) (p : Option VPfx) (d a : VReg) (ma : LaneMod) (s : State) : Out := vint1 s h p d a ma fun w x => (2 ^ w - x) % 2 ^ w
def execVsadd (h : Hdr) (p : Option VPfx) (d a b : VReg) (ma mb : LaneMod) (s : State) : Out :=
  vint2 s h p d a b ma mb fun w x y => sat w (sintOf w x + sintOf w y)
def execVssub (h : Hdr) (p : Option VPfx) (d a b : VReg) (ma mb : LaneMod) (s : State) : Out :=
  vint2 s h p d a b ma mb fun w x y => sat w (sintOf w x - sintOf w y)

/-! ## VFLT (06 R158) -/

def execVfadd (h : Hdr) (p : Option VPfx) (d a b : VReg) (ma mb : LaneMod) (s : State) : Out := vflt2 s h p d a b ma mb fpAdd
def execVfsub (h : Hdr) (p : Option VPfx) (d a b : VReg) (ma mb : LaneMod) (s : State) : Out := vflt2 s h p d a b ma mb fpSub
def execVfmul (h : Hdr) (p : Option VPfx) (d a b : VReg) (ma mb : LaneMod) (s : State) : Out := vflt2 s h p d a b ma mb fpMul

/-- The addend is E under a prefix with EV = 1, otherwise the old destination. -/
def execVfma (h : Hdr) (p : Option VPfx) (d a b : VReg) (ma mb : LaneMod) (s : State) : Out :=
  let e := match p with | some q => q.e.getD d | none => d
  issue s (vlen p) h (vuses p [d, a, b] [(a, ma), (b, mb)]) fun x _ s =>
    let c := core s x.loc
    match floatType c d [a, b, e] with
    | none => .trap cELEM 0 0
    | some t =>
      let ab := List.zip (readLanes c a ma) (readLanes c b mb)
      .go (putRowF s x d p (typeOf c d).bits (List.zipWith (fun q z => fpFma t (vmode (me s x) p) q.1 q.2 z) ab (readLanes c e .none)))

def execVfmin (h : Hdr) (p : Option VPfx) (d a b : VReg) (ma mb : LaneMod) (s : State) : Out :=
  vflt2 s h p d a b ma mb fun t _ x y => (fpMinMax t false x y, 0)
def execVfmax (h : Hdr) (p : Option VPfx) (d a b : VReg) (ma mb : LaneMod) (s : State) : Out :=
  vflt2 s h p d a b ma mb fun t _ x y => (fpMinMax t true x y, 0)
def execVfabs (h : Hdr) (p : Option VPfx) (d a : VReg) (ma : LaneMod) (s : State) : Out := vflt1 s h p d a ma fpAbs
def execVfneg (h : Hdr) (p : Option VPfx) (d a : VReg) (ma : LaneMod) (s : State) : Out := vflt1 s h p d a ma fpNeg

/-! ## VCMP (06 R160) -/

def execVcmpEq (h : Hdr) (p : Option VPfx) (d : MReg) (a b : VReg) (ma mb : LaneMod) (s : State) : Out := vcmp2 s h p d a b ma mb fun _ x y => x == y
def execVcmpNe (h : Hdr) (p : Option VPfx) (d : MReg) (a b : VReg) (ma mb : LaneMod) (s : State) : Out := vcmp2 s h p d a b ma mb fun _ x y => x != y
def execVcmpLt (h : Hdr) (p : Option VPfx) (d : MReg) (a b : VReg) (ma mb : LaneMod) (s : State) : Out :=
  vcmp2 s h p d a b ma mb fun w x y => decide (sintOf w x < sintOf w y)
def execVcmpLe (h : Hdr) (p : Option VPfx) (d : MReg) (a b : VReg) (ma mb : LaneMod) (s : State) : Out :=
  vcmp2 s h p d a b ma mb fun w x y => decide (sintOf w x ≤ sintOf w y)
def execVcmpLtn (h : Hdr) (p : Option VPfx) (d : MReg) (a b : VReg) (ma mb : LaneMod) (s : State) : Out :=
  vcmp2 s h p d a b ma mb fun _ x y => decide (x < y)
def execVcmpLen (h : Hdr) (p : Option VPfx) (d : MReg) (a b : VReg) (ma mb : LaneMod) (s : State) : Out :=
  vcmp2 s h p d a b ma mb fun _ x y => decide (x ≤ y)
def execVfcmpEq (h : Hdr) (p : Option VPfx) (d : MReg) (a b : VReg) (ma mb : LaneMod) (s : State) : Out := vfcmp2 s h p d a b ma mb .eq
def execVfcmpLt (h : Hdr) (p : Option VPfx) (d : MReg) (a b : VReg) (ma mb : LaneMod) (s : State) : Out := vfcmp2 s h p d a b ma mb .lt
def execVfcmpLe (h : Hdr) (p : Option VPfx) (d : MReg) (a b : VReg) (ma mb : LaneMod) (s : State) : Out := vfcmp2 s h p d a b ma mb .le
def execVfcmpUn (h : Hdr) (p : Option VPfx) (d : MReg) (a b : VReg) (ma mb : LaneMod) (s : State) : Out := vfcmp2 s h p d a b ma mb .un

/-! ## VMOV (06 R161) -/

def execVmov (h : Hdr) (p : Option VPfx) (d a : VReg) (ma : LaneMod) (s : State) : Out := vint1 s h p d a ma fun _ x => x

/-- Every lane is written: from A where the mask bit is 1, else from B. -/
def execVsel (h : Hdr) (p : VPfx) (d a b : VReg) (ma mb : LaneMod) (s : State) : Out :=
  issue s 12 h (vuses (some p) [d, a, b] [(a, ma), (b, mb)]) fun x _ s =>
    let c := core s x.loc
    if !sameWidth c d [a, b] then .trap cELEM 0 0
    else
      let m := readM c p.mask
      let r := (List.zip (readLanes c a ma) (readLanes c b mb)).zipIdx.map fun q => if m.getLsbD q.2 then q.1.1 else q.1.2
      .go (putRow s x d none (typeOf c d).bits r)

def execVsplat (h : Hdr) (p : Option VPfx) (d : VReg) (a : SReg) (s : State) : Out :=
  issue s (vlen p) h { vuses p [d] [] with a := some a, dfu := [a] } fun x v s =>
    let w := (typeOf (core s x.loc) d).bits
    .go (putRow s x d p w (List.replicate (512 / w) (v.a.toNat % 2 ^ w)))

/-- Lane k of A, sign-extended from an i8, i16 or i32 tile; a lane number that is too large gives 0. -/
def execVext (h : Hdr) (d : SReg) (a : VReg) (b : SReg) (ma : LaneMod) (s : State) : Out :=
  issue s 8 h { vuses none [a] [(a, ma)] with b := some b, rd := some d } fun x v s =>
    let c := core s x.loc
    let t := typeOf c a
    let n := (readLanes c a ma).getD v.b.toNat 0
    .go (putS s x d (if Fmt.signed t then BitVec.ofInt 64 (sintOf t.bits n) else BitVec.ofNat 64 n) v.df)

def execVins (h : Hdr) (d : VReg) (a b : SReg) (s : State) : Out :=
  issue s 8 h { vuses none [d] [] with a := some a, b := some b, dfu := [a, b] } fun x v s =>
    let w := (typeOf (core s x.loc) d).bits
    let k := v.b.toNat
    if k < 512 / w then
      .go (modCore s x.loc fun c => setRow c d (laneBits w fun i => i == k) (rowOf w ((List.range (512 / w)).map fun i => if i = k then v.a.toNat else 0)))
    else .go s

def execVidx (h : Hdr) (p : Option VPfx) (d : VReg) (a : SReg) (s : State) : Out :=
  issue s (vlen p) h { vuses p [d] [] with a := some a } fun x v s =>
    let w := (typeOf (core s x.loc) d).bits
    .go (putRow s x d p w ((List.range (512 / w)).map fun i => (v.a.toNat + i) % 2 ^ w))

/-! ## VCVT (06 R163) -/

/-- Adds to the clamp and NaN-conversion counts of a tile, each stopping at its maximum (02 R62). -/
def countTstat (c : Core) (t : TReg) (clamps nans : Nat) : Core :=
  let q := c.tstat[t]
  { c with tstat := c.tstat.set t { q with clamp := min (q.clamp + clamps) 0xFFFF, nancv := min (q.nancv + nans) 0xFFFF } }

/-- The tile type a `vcvt` target needs. -/
def cvtTile : Fmt → Fmt
  | .i64 => .i32
  | .n64 => .n32
  | t => t

/-- The clamp bound at TPRA: none without a record or where its OFMT is another format (02 R61). -/
def tpraBound (s : State) (x : Cur) (t : Fmt) : Except (Nat × Nat) (Option (BitVec 32)) :=
  let th := me s x
  if th.tpra = 0 then .ok none
  else (readTpr s x.loc th.part th.walk (modeOf th) th.tpra.toNat).map fun r => if r.ofmt = t then some r.clampb else none

/-- The record at TPRA as a range of addresses, and the use of its extent (08 R208). -/
def tpraRange (th : Thread) : List (Nat × Nat) := if th.tpra = 0 then [] else [(th.tpra.toNat, 32)]
def useTpra (s : State) (x : Cur) : State :=
  match part? s (me s x).part with
  | some p => if (me s x).tpra = 0 then s else useExtent s p x.loc (me s x).tpra.toNat
  | none => s

def execVcvt (h : Hdr) (p : Option VPfx) (t : Fmt) (d a : VReg) (part : Fin 64) (ma : LaneMod) (s : State) : Out :=
  issue s (vlen p) h (vuses p [d, a] [(a, ma)]) fun x _ s =>
    let c := core s x.loc
    let src := typeOf c a
    if vcvtParts src t ≤ part.val then .trap cILLEGAL 3 0
    else if typeOf c d != cvtTile t then .trap cELEM 0 0
    else withExtents s x (tpraRange (me s x)) (match tpraBound s x t with
    | .error e => .trap e.1 0 e.2
    | .ok b =>
      let ns := laneCount src
      let nd := laneCount t
      let w := t.bits
      let lanes := readLanes c a ma
      let from_ : Nat := if ns ≤ nd then part.val * ns else 0
      let cnt := min ns nd
      let get (i : Nat) : Nat := if ns ≤ nd then lanes.getD i 0 else lanes.getD (part.val * nd + i) 0
      let act (i : Nat) : Bool := from_ ≤ i && i < from_ + cnt && (activeMask c p).getLsbD i
      let z : Bool := match p with | some q => q.z | none => false
      let res := (List.range cnt).map fun i => convert (vmode (me s x) p) b src t (get i)
      let on := res.zipIdx.filter fun q => act (from_ + q.2)
      let val := rowOf w ((List.range nd).map fun i => if act i then (res.getD (i - from_) ⟨0, 0, 0, 0⟩).pat else 0)
      let bits := laneBits w fun i => if z then from_ ≤ i && i < from_ + cnt else act i
      let s := modCore (useTpra s x) x.loc fun c =>
        countTstat (setRow c d bits val) d.tile (on.map fun q => q.1.clamps).sum (on.map fun q => q.1.nans).sum
      .go (modTh s x.loc x.slot (orFlags (on.foldl (fun f q => f ||| q.1.flags) 0))))

/-! ## VMASK (06 R173, R174) -/

/-- The lanes that a mask selects, in order. -/
def packLanes (m : BitVec 64) (l : List Nat) : List Nat := (l.zipIdx.filter fun q => m.getLsbD q.2).map Prod.fst

def execVcompress (h : Hdr) (p : Option VPfx) (d a : VReg) (b : SReg) (ma : LaneMod) (s : State) : Out :=
  issue s (vlen p) h { vuses p [d, a] [(a, ma)] with rd := some b } fun x _ s =>
    let c := core s x.loc
    if !sameWidth c d [a] then .trap cELEM 0 0
    else
      let w := (typeOf c d).bits
      let t := packLanes (activeMask c p) (readLanes c a ma)
      let z : Bool := match p with | some q => q.z | none => false
      let s := modCore s x.loc fun c =>
        let c := setRow c d (laneBits w fun j => z || j < t.length) (rowOf w ((List.range (512 / w)).map fun j => t.getD j 0))
        if t.isEmpty then { c with tstat := c.tstat.set d.tile { c.tstat[d.tile] with cempty := true } } else c
      .go (putS s x b (BitVec.ofNat 64 t.length) false)

/-- Each selected lane takes the next lane of the source. -/
def expandLanes (m : BitVec 64) : Nat → List Nat → List Nat → List Nat
  | _, [], _ => []
  | i, _ :: r, src => if m.getLsbD i then src.headD 0 :: expandLanes m (i + 1) r src.tail else 0 :: expandLanes m (i + 1) r src

def execVexpand (h : Hdr) (p : Option VPfx) (d a : VReg) (ma : LaneMod) (s : State) : Out :=
  issue s (vlen p) h (vuses p [d, a] [(a, ma)]) fun x _ s =>
    let c := core s x.loc
    if !sameWidth c d [a] then .trap cELEM 0 0
    else
      let l := readLanes c a ma
      .go (putRow s x d p (typeOf c d).bits (expandLanes (activeMask c p) 0 l l))

/-- A mask-logic form is the tile task's, whichever masks it names (06 R175). -/
def muses : Uses := { tile := true }

def mask2 (s : State) (h : Hdr) (d a b : MReg) (f : BitVec 64 → BitVec 64 → BitVec 64) : Out :=
  issue s 8 h muses fun x _ s => .go (putM s x d (f (readM (core s x.loc) a) (readM (core s x.loc) b)))

def maskGet (s : State) (h : Hdr) (d : SReg) (a : MReg) (f : BitVec 64 → Word) : Out :=
  issue s 8 h { muses with rd := some d } fun x _ s => .go (putS s x d (f (readM (core s x.loc) a)) false)

def execMpopc (h : Hdr) (d : SReg) (a : MReg) (s : State) : Out := maskGet s h d a fun v => BitVec.ofNat 64 (popCount v)
def execMand (h : Hdr) (d a b : MReg) (s : State) : Out := mask2 s h d a b fun x y => x &&& y
def execMor (h : Hdr) (d a b : MReg) (s : State) : Out := mask2 s h d a b fun x y => x ||| y
def execMxor (h : Hdr) (d a b : MReg) (s : State) : Out := mask2 s h d a b fun x y => x ^^^ y
def execMnot (h : Hdr) (d a : MReg) (s : State) : Out := mask2 s h d a a fun x _ => ~~~ x
def execMset (h : Hdr) (d : MReg) (a : SReg) (s : State) : Out :=
  issue s 8 h { muses with a := some a, dfu := [a] } fun x v s => .go (putM s x d v.a)
def execMget (h : Hdr) (d : SReg) (a : MReg) (s : State) : Out := maskGet s h d a fun v => v
def execMfirst (h : Hdr) (d : SReg) (a : MReg) (s : State) : Out :=
  maskGet s h d a fun v => match lowBit v with | some i => BitVec.ofNat 64 i | none => 64

end Sys2Proof.Machine
end

