-- ==== Sys2Proof/Machine/Sfu.lean ====
section
/-! DEFINITION. The special-function unit, the reduction unit and the writing of long-latency results (06 R165 to R172; 01 R24 to R28): the SFU and VRED instructions, SFU_RESULT_WRITE, VRED_RESULT_WRITE, LONG_RESULT_WRITE. -/

namespace Sys2Proof.Machine

/-- The row of a long vector result under the prefix, as register bits and value (06 R154). -/
def rowWrite (c : Core) (p : Option VPfx) (d : VReg) (w : Nat) (vals : List Nat) : RegWrite :=
  let r := maskedRow c p w vals
  .v d r.1 r.2

/-- An SFU request: it takes a FIFO entry, enters service after the entries before it, and its result is written 23 cycles later
(06 R167). -/
def sfuOp (s : State) (h : Hdr) (p : Option VPfx) (d a : VReg) (ma : LaneMod) (f : FpFmt → Fmt → Rnd → Nat → Nat × BitVec 5) : Out :=
  issue s (vlen p) h (vuses p [d, a] [(a, ma)]) fun x _ s =>
    let c := core s x.loc
    match floatType c d [a] with
    | none => .trap cELEM 0 0
    | some t =>
      if 8 ≤ c.sfu.length then .block .sfu
      else
        let w := (typeOf c d).bits
        let service := max (s.cycle + 1) c.sfuFree
        let r := (readLanes c a ma).map (f t (typeOf c d) (vmode (me s x) p))
        let s := modCore s x.loc fun c => { c with sfu := c.sfu ++ [service + 23], sfuFree := service + (if w = 32 then 1 else 2) }
        goLong s x .sfu (service + 23) [rowWrite c p d w (r.map Prod.fst)] (activeFlags c p (r.map Prod.snd))

/-- The choice among the admitted results is the same for identical lanes, type and form on every core (06 R165; log 6). -/
def execVexp2 (h : Hdr) (p : Option VPfx) (d a : VReg) (ma : LaneMod) (s : State) : Out :=
  sfuOp s h p d a ma fun t f _ v => sfuExp2 t (Config.sfuPick 0 f v) v
def execVlog2 (h : Hdr) (p : Option VPfx) (d a : VReg) (ma : LaneMod) (s : State) : Out :=
  sfuOp s h p d a ma fun t f _ v => sfuLog2 t (Config.sfuPick 1 f v) v
def execVrcp (h : Hdr) (p : Option VPfx) (d a : VReg) (ma : LaneMod) (s : State) : Out :=
  sfuOp s h p d a ma fun t _ m v => fpDiv t m (t.bias * 2 ^ t.mb) v
def execVrsqrt (h : Hdr) (p : Option VPfx) (d a : VReg) (ma : LaneMod) (s : State) : Out :=
  sfuOp s h p d a ma fun t f _ v => sfuRsqrt t (Config.sfuPick 3 f v) v
def execVtanh (h : Hdr) (p : Option VPfx) (d a : VReg) (ma : LaneMod) (s : State) : Out :=
  sfuOp s h p d a ma fun t f _ v => sfuTanh t (Config.sfuPick 4 f v) v
def execVsigm (h : Hdr) (p : Option VPfx) (d a : VReg) (ma : LaneMod) (s : State) : Out :=
  sfuOp s h p d a ma fun t f _ v => sfuSigm t (Config.sfuPick 5 f v) v

/-! ## Reductions (06 R169 to R172) -/

/-- The active lanes. -/
def activeLanes (c : Core) (p : Option VPfx) (l : List Nat) : List Nat := packLanes (activeMask c p) l

/-- An integer reduction to a scalar, written 12 cycles after issue. -/
def redInt (s : State) (h : Hdr) (p : Option VPfx) (d : SReg) (a : VReg) (ma : LaneMod) (f : Nat → List Int → Int) : Out :=
  issue s (vlen p) h { vuses p [a] [(a, ma)] with rd := some d } fun x _ s =>
    let c := core s x.loc
    let w := (typeOf c a).bits
    let l := (activeLanes c p (readLanes c a ma)).map (sintOf w)
    goLong s x .vred (s.cycle + 12) [.s d (BitVec.ofInt 64 (sintOf w (patOf w (f w l)))) false] 0

/-- One step of a floating-point tree: the value and the flags so far. -/
abbrev Flagged := Nat × BitVec 5

def treeAdd (mode : Rnd) (a b : Flagged) : Flagged := let r := fpAdd fp32 mode a.1 b.1; (r.1, a.2 ||| b.2 ||| r.2)

/-- +0 counts above −0; a NaN stays (06 R169). -/
def treeMax (a b : Flagged) : Flagged :=
  if (fp32.val a.1).isNan || (fp32.val b.1).isNan then (fp32.nanPat, fNV ||| a.2 ||| b.2) else (fpMinMax fp32 true a.1 b.1, a.2 ||| b.2)

/-- The fixed tree of 02 R74 over widened lanes; masked-off lanes hold the identity. -/
def fpTree (t : FpFmt) (m : BitVec 64) (ident : Nat) (op : Flagged → Flagged → Flagged) (l : List Nat) : Flagged :=
  ((treeFold op 6 (l.zipIdx.map fun q => (if m.getLsbD q.2 then (roundVal fp32 .rne (t.val q.1)).1 else ident, (0 : BitVec 5)))).headD (ident, 0))

def redFp (s : State) (h : Hdr) (p : Option VPfx) (d : SReg) (a : VReg) (ma : LaneMod) (ident : Nat) (op : Rnd → Flagged → Flagged → Flagged) : Out :=
  issue s (vlen p) h { vuses p [a] [(a, ma)] with rd := some d } fun x _ s =>
    let c := core s x.loc
    match floatType c a [] with
    | none => .trap cELEM 0 0
    | some t =>
      let r := fpTree t (activeMask c p) ident (op (vmode (me s x) p)) (readLanes c a ma)
      goLong s x .vred (s.cycle + 12) [.s d (BitVec.ofNat 64 r.1) false] r.2

def execVredadd (h : Hdr) (p : Option VPfx) (d : SReg) (a : VReg) (ma : LaneMod) (s : State) : Out :=
  redInt s h p d a ma fun _ l => l.foldl (· + ·) 0
def execVredmax (h : Hdr) (p : Option VPfx) (d : SReg) (a : VReg) (ma : LaneMod) (s : State) : Out :=
  redInt s h p d a ma fun w l => l.foldl max (intMin w true)
def execVredmin (h : Hdr) (p : Option VPfx) (d : SReg) (a : VReg) (ma : LaneMod) (s : State) : Out :=
  redInt s h p d a ma fun w l => l.foldl min (intMax w true)
def execVfredadd (h : Hdr) (p : Option VPfx) (d : SReg) (a : VReg) (ma : LaneMod) (s : State) : Out :=
  redFp s h p d a ma 0x80000000 treeAdd
def execVfredmax (h : Hdr) (p : Option VPfx) (d : SReg) (a : VReg) (ma : LaneMod) (s : State) : Out :=
  redFp s h p d a ma 0xFF800000 fun _ => treeMax

/-- Running sums; a masked-off lane contributes the identity (02 R75, 06 R170). -/
def scanInt (w : Nat) (m : BitVec 64) : Nat → Nat → List Nat → List Nat
  | _, _, [] => []
  | i, acc, v :: r => let acc := if m.getLsbD i then (acc + v) % 2 ^ w else acc; acc :: scanInt w m (i + 1) acc r

/-- `vscan.add` of floating-point lanes, one rounded addition a step. DESIGN CHOICE: an F8A step past 224 gives 224 with the sign, under R52, sets OF and NX
and counts nothing in TSTAT.CLAMP, since R170 names neither the flags nor the count (log 24). -/
def scanFp (t : FpFmt) (mode : Rnd) (m : BitVec 64) : Nat → Nat → List Nat → List Flagged
  | _, _, [] => []
  | i, acc, v :: r =>
    let q := fpAdd t mode acc (if m.getLsbD i then v else t.signBit)
    q :: scanFp t mode m (i + 1) q.1 r

def execVscanAdd (h : Hdr) (p : Option VPfx) (d a : VReg) (ma : LaneMod) (s : State) : Out :=
  issue s (vlen p) h (vuses p [d, a] [(a, ma)]) fun x _ s =>
    let c := core s x.loc
    let t := typeOf c d
    let l := readLanes c a ma
    let m := activeMask c p
    if typeOf c a != t then .trap cELEM 0 0
    else if Fmt.isInt t then goLong s x .vred (s.cycle + 12) [rowWrite c p d t.bits (scanInt t.bits m 0 0 l)] 0
    else match Fmt.fp? t with
      | none => .trap cELEM 0 0
      | some f =>
        let r := scanFp f (vmode (me s x) p) m 0 f.signBit l
        goLong s x .vred (s.cycle + 12) [rowWrite c p d t.bits (r.map Prod.fst)] (activeFlags c p (r.map Prod.snd))

/-- The factor of one triple: 1 where its maximum is the common one, else EXP2 of the rounded difference (02 R76). -/
def mergeFactor (mode : Rnd) (m1 m : Nat) : Flagged :=
  if (fp32.val m1).cmp (fp32.val m) == 0 then (0x3F800000, 0)
  else
    let d := fpSub fp32 mode m1 m
    let e := exp2Rne d.1
    (e.1, d.2 ||| e.2)

def mergeSum (mode : Rnd) (a f1 b f2 : Nat) : Flagged :=
  roundArith fp32 mode (((fp32.val a).mul (fp32.val f1)).add mode ((fp32.val b).mul (fp32.val f2)))

/-- One lane of `vmerge.sm`: m, l, o and the flags (02 R76). -/
def mergeLane (mode : Rnd) (m1 l1 o1 m2 l2 o2 : Nat) : Nat × Nat × Nat × BitVec 5 :=
  if [m1, l1, o1, m2, l2, o2].any fun v => (fp32.val v).isNan then (fp32.nanPat, fp32.nanPat, fp32.nanPat, fNV)
  else
    let m := fpMinMax fp32 true m1 m2
    let f1 := mergeFactor mode m1 m
    let f2 := mergeFactor mode m2 m
    let l := mergeSum mode l1 f1.1 l2 f2.1
    let o := mergeSum mode o1 f1.1 o2 f2.1
    (m, l.1, o.1, f1.2 ||| f2.2 ||| l.2 ||| o.2)

/-- The register `k` rows above `v`. -/
def rowAt (v : VReg) (k : Nat) : VReg := Fin.ofNat 64 (v.val + k)

def execVmergeSm (h : Hdr) (p : Option VPfx) (d a b : VReg) (ma mb : LaneMod) (s : State) : Out :=
  issue s (vlen p) h (vuses p [d, rowAt d 1, rowAt d 2, a, rowAt a 1, rowAt a 2, b, rowAt b 1, rowAt b 2] [(a, ma), (b, mb)]) fun x _ s =>
    let c := core s x.loc
    if 13 < d.val % 16 || 13 < a.val % 16 || 13 < b.val % 16 then .trap cILLEGAL 8 0
    else if typeOf c d != .fp32 || typeOf c a != .fp32 || typeOf c b != .fp32 then .trap cELEM 0 0
    else
      let ra (k : Nat) := readLanes c (rowAt a k) ma
      let rb (k : Nat) := readLanes c (rowAt b k) mb
      let r := (List.range 16).map fun i =>
        mergeLane (vmode (me s x) p) ((ra 0).getD i 0) ((ra 1).getD i 0) ((ra 2).getD i 0) ((rb 0).getD i 0) ((rb 1).getD i 0) ((rb 2).getD i 0)
      goLong s x .vred (s.cycle + 30)
        [rowWrite c p d 32 (r.map fun q => q.1), rowWrite c p (rowAt d 1) 32 (r.map fun q => q.2.1), rowWrite c p (rowAt d 2) 32 (r.map fun q => q.2.2.1)]
        (activeFlags c p (r.map fun q => q.2.2.2))

/-! ## Events: a result of fixed latency is written in its cycle -/

/-- The first occupied slot of a core with an outstanding result of the kinds `u` whose cycle has come. -/
def dueAt (s : State) (l : Loc) (u : LongUnit → Bool) : Option (Fin 16 × LongResult) :=
  ((List.finRange 16).filter fun k => match (slotAt s l k).st with | .free => false | .moving _ => false | _ => true).findSome? fun k =>
    ((thread s l k).outs.find? fun r => u r.unit && (match r.due with | some d => decide (d ≤ s.cycle) | none => false)).map fun r => (k, r)

/-- SFU_RESULT_WRITE: the oldest entry's result is written and its entry frees; a killed thread's results are discarded, since its slot keeps none
(06 R167, R168; the reduction unit's too, R172). -/
def execSfuResultWrite (l : Loc) (s : State) : Out :=
  match (core s l).sfu with
  | [] => .next s
  | d :: rest =>
    if s.cycle < d then .next s
    else
      let s := modCore s l fun c => { c with sfu := rest }
      match (List.finRange 16).findSome? fun k => ((thread s l k).outs.find? fun r => r.unit == .sfu && r.due == some d).map fun r => (k, r) with
      | some (k, r) => .next (writeLong s l k r)
      | none => .next s

/-- VRED_RESULT_WRITE (06 R172). -/
def execVredResultWrite (l : Loc) (s : State) : Out :=
  match dueAt s l fun u => u == .vred with
  | some (k, r) => .next (writeLong s l k r)
  | none => .next s

end Sys2Proof.Machine
end

