-- ==== Sys2Proof/Machine/Dispatch.lean ====
section
/-! DEFINITION. One arm per constructor of `Instr`. -/

namespace Sys2Proof.Machine

def exec (i : Instr) (s : State) : Host.Outcome State Fault Refusal :=
  match i with
  -- ALU (05 R132)
  | .add h d a b => Sys2Proof.Machine.execAdd h d a b s
  | .sub h d a b => Sys2Proof.Machine.execSub h d a b s
  | .and h d a b => Sys2Proof.Machine.execAnd h d a b s
  | .or h d a b => Sys2Proof.Machine.execOr h d a b s
  | .xor h d a b => Sys2Proof.Machine.execXor h d a b s
  | .andn h d a b => Sys2Proof.Machine.execAndn h d a b s
  | .shl h d a b => Sys2Proof.Machine.execShl h d a b s
  | .shr h d a b => Sys2Proof.Machine.execShr h d a b s
  | .sra h d a b => Sys2Proof.Machine.execSra h d a b s
  | .rol h d a b => Sys2Proof.Machine.execRol h d a b s
  | .min h d a b => Sys2Proof.Machine.execMin h d a b s
  | .max h d a b => Sys2Proof.Machine.execMax h d a b s
  | .minn h d a b => Sys2Proof.Machine.execMinn h d a b s
  | .maxn h d a b => Sys2Proof.Machine.execMaxn h d a b s
  | .mul h d a b => Sys2Proof.Machine.execMul h d a b s
  | .mulh h d a b => Sys2Proof.Machine.execMulh h d a b s
  | .mulhn h d a b => Sys2Proof.Machine.execMulhn h d a b s
  | .div h d a b => Sys2Proof.Machine.execDiv h d a b s
  | .divn h d a b => Sys2Proof.Machine.execDivn h d a b s
  | .rem h d a b => Sys2Proof.Machine.execRem h d a b s
  | .remn h d a b => Sys2Proof.Machine.execRemn h d a b s
  | .clz h d a => Sys2Proof.Machine.execClz h d a s
  | .ctz h d a => Sys2Proof.Machine.execCtz h d a s
  | .popc h d a => Sys2Proof.Machine.execPopc h d a s
  | .bswap h d a => Sys2Proof.Machine.execBswap h d a s
  -- ALUI (05 R134)
  | .addi h d a imm => Sys2Proof.Machine.execAddi h d a imm s
  | .andi h d a imm => Sys2Proof.Machine.execAndi h d a imm s
  | .ori h d a imm => Sys2Proof.Machine.execOri h d a imm s
  | .xori h d a imm => Sys2Proof.Machine.execXori h d a imm s
  | .shli h d a k => Sys2Proof.Machine.execShli h d a k s
  | .shri h d a k => Sys2Proof.Machine.execShri h d a k s
  | .srai h d a k => Sys2Proof.Machine.execSrai h d a k s
  | .roli h d a k => Sys2Proof.Machine.execRoli h d a k s
  | .mini h d a imm => Sys2Proof.Machine.execMini h d a imm s
  | .maxi h d a imm => Sys2Proof.Machine.execMaxi h d a imm s
  | .muli h d a imm => Sys2Proof.Machine.execMuli h d a imm s
  -- CMP and CMPI (05 R135)
  | .eq h d a b => Sys2Proof.Machine.execEq h d a b s
  | .ne h d a b => Sys2Proof.Machine.execNe h d a b s
  | .lt h d a b => Sys2Proof.Machine.execLt h d a b s
  | .le h d a b => Sys2Proof.Machine.execLe h d a b s
  | .ltn h d a b => Sys2Proof.Machine.execLtn h d a b s
  | .len h d a b => Sys2Proof.Machine.execLen h d a b s
  | .eqi h d a imm => Sys2Proof.Machine.execEqi h d a imm s
  | .nei h d a imm => Sys2Proof.Machine.execNei h d a imm s
  | .lti h d a imm => Sys2Proof.Machine.execLti h d a imm s
  | .lei h d a imm => Sys2Proof.Machine.execLei h d a imm s
  | .ltni h d a imm => Sys2Proof.Machine.execLtni h d a imm s
  | .leni h d a imm => Sys2Proof.Machine.execLeni h d a imm s
  -- PRED (05 R136)
  | .pand h d a b => Sys2Proof.Machine.execPand h d a b s
  | .por h d a b => Sys2Proof.Machine.execPor h d a b s
  | .pxor h d a b => Sys2Proof.Machine.execPxor h d a b s
  | .pandn h d a b => Sys2Proof.Machine.execPandn h d a b s
  | .pnot h d a => Sys2Proof.Machine.execPnot h d a s
  | .pmov h d a => Sys2Proof.Machine.execPmov h d a s
  | .sel h d a b p => Sys2Proof.Machine.execSel h d a b p s
  -- LI and BITS (05 R138, R139)
  | .li h d imm => Sys2Proof.Machine.execLi h d imm s
  | .lipc h d imm => Sys2Proof.Machine.execLipc h d imm s
  | .sext h d a wm1 => Sys2Proof.Machine.execSext h d a wm1 s
  | .zext h d a wm1 => Sys2Proof.Machine.execZext h d a wm1 s
  | .bfx h d a signed lsb wm1 => Sys2Proof.Machine.execBfx h d a signed lsb wm1 s
  | .bfi h d a lsb wm1 => Sys2Proof.Machine.execBfi h d a lsb wm1 s
  -- FALU, FCMP, FCVT (05 R140 to R143)
  | .fadd h d a b => Sys2Proof.Machine.execFadd h d a b s
  | .fsub h d a b => Sys2Proof.Machine.execFsub h d a b s
  | .fmul h d a b => Sys2Proof.Machine.execFmul h d a b s
  | .fdiv h d a b => Sys2Proof.Machine.execFdiv h d a b s
  | .fsqrt h d a => Sys2Proof.Machine.execFsqrt h d a s
  | .fmin h d a b => Sys2Proof.Machine.execFmin h d a b s
  | .fmax h d a b => Sys2Proof.Machine.execFmax h d a b s
  | .fabs h d a => Sys2Proof.Machine.execFabs h d a s
  | .fneg h d a => Sys2Proof.Machine.execFneg h d a s
  | .fma h d a b => Sys2Proof.Machine.execFma h d a b s
  | .feq h d a b => Sys2Proof.Machine.execFeq h d a b s
  | .flt h d a b => Sys2Proof.Machine.execFlt h d a b s
  | .fle h d a b => Sys2Proof.Machine.execFle h d a b s
  | .funord h d a b => Sys2Proof.Machine.execFunord h d a b s
  | .fcvt h src dst d a => Sys2Proof.Machine.execFcvt h src dst d a s
  -- BR, LOOP, CHK, MISC (05 R144 to R152)
  | .jmp h imm => Sys2Proof.Machine.execJmp h imm s
  | .call h imm => Sys2Proof.Machine.execCall h imm s
  | .jr h a => Sys2Proof.Machine.execJr h a s
  | .callr h a => Sys2Proof.Machine.execCallr h a s
  | .loop h a len => Sys2Proof.Machine.execLoop h a len s
  | .loopi h n len => Sys2Proof.Machine.execLoopi h n len s
  | .chk h a imm => Sys2Proof.Machine.execChk h a imm s
  | .chkl h a imm => Sys2Proof.Machine.execChkl h a imm s
  | .nop h => Sys2Proof.Machine.execNop h s
  | .yield h => Sys2Proof.Machine.execYield h s
  | .ckpt h code => Sys2Proof.Machine.execCkpt h code s
  | .trap h code => Sys2Proof.Machine.execTrap h code s
  | .brk h code => Sys2Proof.Machine.execBrk h code s
  | .tdone h => Sys2Proof.Machine.execTdone h s
  -- LD, ST, FE, FENCE, VMEM (09 R220 to R225)
  | .ld h m d a imm sz uns => Sys2Proof.Machine.execLd h m d a imm sz uns s
  | .ldSync h d a imm sz uns => Sys2Proof.Machine.execLdSync h d a imm sz uns s
  | .ldTake h d a imm sz uns => Sys2Proof.Machine.execLdTake h d a imm sz uns s
  | .ldSpec h m d a imm sz uns => Sys2Proof.Machine.execLdSpec h m d a imm sz uns s
  | .st h m d a imm sz => Sys2Proof.Machine.execSt h m d a imm sz s
  | .stFill h d a imm sz => Sys2Proof.Machine.execStFill h d a imm sz s
  | .stXfill h d a imm sz => Sys2Proof.Machine.execStXfill h d a imm sz s
  | .feSet h a imm => Sys2Proof.Machine.execFeSet h a imm s
  | .feClr h a imm => Sys2Proof.Machine.execFeClr h a imm s
  | .feGet h d a imm => Sys2Proof.Machine.execFeGet h d a imm s
  | .feWait h a imm => Sys2Proof.Machine.execFeWait h a imm s
  | .fenceCore h => Sys2Proof.Machine.execFenceCore h s
  | .fenceDie h => Sys2Proof.Machine.execFenceDie h s
  | .fenceMod h => Sys2Proof.Machine.execFenceMod h s
  | .fenceSys h => Sys2Proof.Machine.execFenceSys h s
  | .fenceEng h => Sys2Proof.Machine.execFenceEng h s
  | .vld h q d a imm => Sys2Proof.Machine.execVld h q d a imm s
  | .vst h q d a imm => Sys2Proof.Machine.execVst h q d a imm s
  | .vldSync h p d a imm => Sys2Proof.Machine.execVldSync h p d a imm s
  | .vstFill h p d a imm => Sys2Proof.Machine.execVstFill h p d a imm s
  -- AMO, CAS, RED, AMOK (09 R226 to R231)
  | .amoAdd h m w64 d a b => Sys2Proof.Machine.execAmoAdd h m w64 d a b s
  | .amoAnd h m w64 d a b => Sys2Proof.Machine.execAmoAnd h m w64 d a b s
  | .amoOr h m w64 d a b => Sys2Proof.Machine.execAmoOr h m w64 d a b s
  | .amoXor h m w64 d a b => Sys2Proof.Machine.execAmoXor h m w64 d a b s
  | .amoMin h m w64 d a b => Sys2Proof.Machine.execAmoMin h m w64 d a b s
  | .amoMax h m w64 d a b => Sys2Proof.Machine.execAmoMax h m w64 d a b s
  | .amoMinn h m w64 d a b => Sys2Proof.Machine.execAmoMinn h m w64 d a b s
  | .amoMaxn h m w64 d a b => Sys2Proof.Machine.execAmoMaxn h m w64 d a b s
  | .amoSwap h m w64 d a b => Sys2Proof.Machine.execAmoSwap h m w64 d a b s
  | .amoFadd h m d a b => Sys2Proof.Machine.execAmoFadd h m d a b s
  | .cas32 h m d a b => Sys2Proof.Machine.execCas32 h m d a b s
  | .cas64 h m d a b => Sys2Proof.Machine.execCas64 h m d a b s
  | .redAdd h m w64 a b => Sys2Proof.Machine.execRedAdd h m w64 a b s
  | .redAnd h m w64 a b => Sys2Proof.Machine.execRedAnd h m w64 a b s
  | .redOr h m w64 a b => Sys2Proof.Machine.execRedOr h m w64 a b s
  | .redXor h m w64 a b => Sys2Proof.Machine.execRedXor h m w64 a b s
  | .redMin h m w64 a b => Sys2Proof.Machine.execRedMin h m w64 a b s
  | .redMax h m w64 a b => Sys2Proof.Machine.execRedMax h m w64 a b s
  | .redMinn h m w64 a b => Sys2Proof.Machine.execRedMinn h m w64 a b s
  | .redMaxn h m w64 a b => Sys2Proof.Machine.execRedMaxn h m w64 a b s
  | .redSwap h m w64 a b => Sys2Proof.Machine.execRedSwap h m w64 a b s
  | .redFadd h m a b => Sys2Proof.Machine.execRedFadd h m a b s
  | .redArrive h m a b => Sys2Proof.Machine.execRedArrive h m a b s
  | .casK h d a b c k => Sys2Proof.Machine.execCasK h d a b c k s
  | .decK h d a b k => Sys2Proof.Machine.execDecK h d a b k s
  -- SPAWN, RING, QCTL, GRAPH (11)
  | .spawn h d a npay anch entry => Sys2Proof.Machine.execSpawn h d a npay anch entry s
  | .migrate h a => Sys2Proof.Machine.execMigrate h a s
  | .rbSend h d a b c len k => Sys2Proof.Machine.execRbSend h d a b c len k s
  | .rbGet h d k => Sys2Proof.Machine.execRbGet h d k s
  | .rbGetNb h d k => Sys2Proof.Machine.execRbGetNb h d k s
  | .rbFree h k => Sys2Proof.Machine.execRbFree h k s
  | .qsendc h q a => Sys2Proof.Machine.execQsendc h q a s
  | .qstat h d sel => Sys2Proof.Machine.execQstat h d sel s
  | .qret h => Sys2Proof.Machine.execQret h s
  | .tgLaunch h d a n => Sys2Proof.Machine.execTgLaunch h d a n s
  | .tgSignal h a t => Sys2Proof.Machine.execTgSignal h a t s
  -- LALU, LMEM, LTAB, TE (13)
  | .lroot h d a => Sys2Proof.Machine.execLroot h d a s
  | .lchild h d a b => Sys2Proof.Machine.execLchild h d a b s
  | .lparent h d a => Sys2Proof.Machine.execLparent h d a s
  | .lanc h d a b => Sys2Proof.Machine.execLanc h d a b s
  | .lpanc h d a b => Sys2Proof.Machine.execLpanc h d a b s
  | .ldepth h d a => Sys2Proof.Machine.execLdepth h d a s
  | .lcommon h d a b => Sys2Proof.Machine.execLcommon h d a b s
  | .ldig h d a b => Sys2Proof.Machine.execLdig h d a b s
  | .lend h d a => Sys2Proof.Machine.execLend h d a s
  | .lget h d a k => Sys2Proof.Machine.execLget h d a k s
  | .lset h d a k => Sys2Proof.Machine.execLset h d a k s
  | .lmov h d a => Sys2Proof.Machine.execLmov h d a s
  | .lld h m d a off sz uns spec => Sys2Proof.Machine.execLld h m d a off sz uns spec s
  | .lst h m d a off sz => Sys2Proof.Machine.execLst h m d a off sz s
  | .lldL h m d a off spec => Sys2Proof.Machine.execLldL h m d a off spec s
  | .lstL h m d a off => Sys2Proof.Machine.execLstL h m d a off s
  | .ltree h d a b c dsize => Sys2Proof.Machine.execLtree h d a b c dsize s
  | .ltreeV h d a b => Sys2Proof.Machine.execLtreeV h d a b s
  | .lnew h d a b c => Sys2Proof.Machine.execLnew h d a b c s
  | .lfree h a => Sys2Proof.Machine.execLfree h a s
  | .lmove h d a b => Sys2Proof.Machine.execLmove h d a b s
  | .lmoveF h d a b => Sys2Proof.Machine.execLmoveF h d a b s
  | .lrebase h d a => Sys2Proof.Machine.execLrebase h d a s
  | .lxlate h d a => Sys2Proof.Machine.execLxlate h d a s
  | .lxlateT h d a => Sys2Proof.Machine.execLxlateT h d a s
  | .lxlateTs h d a => Sys2Proof.Machine.execLxlateTs h d a s
  | .lxlateOld h d => Sys2Proof.Machine.execLxlateOld h d s
  | .lxlateNew h d => Sys2Proof.Machine.execLxlateNew h d s
  | .teSum h g d a f => Sys2Proof.Machine.execTeSum h g d a f s
  | .teCount h g d a maxd => Sys2Proof.Machine.execTeCount h g d a maxd s
  | .teCopy h g d a b f n => Sys2Proof.Machine.execTeCopy h g d a b f n s
  | .teFill h g d a b f => Sys2Proof.Machine.execTeFill h g d a b f s
  | .teVisit h g d a b c maxd anch => Sys2Proof.Machine.execTeVisit h g d a b c maxd anch s
  -- VINT, VFLT, VCMP, VMOV, VCVT, SFU, VRED, VMASK (06)
  | .vadd h p d a b ma mb => Sys2Proof.Machine.execVadd h p d a b ma mb s
  | .vsub h p d a b ma mb => Sys2Proof.Machine.execVsub h p d a b ma mb s
  | .vmul h p d a b ma mb => Sys2Proof.Machine.execVmul h p d a b ma mb s
  | .vmulh h p d a b ma mb => Sys2Proof.Machine.execVmulh h p d a b ma mb s
  | .vmin h p d a b ma mb => Sys2Proof.Machine.execVmin h p d a b ma mb s
  | .vmax h p d a b ma mb => Sys2Proof.Machine.execVmax h p d a b ma mb s
  | .vminn h p d a b ma mb => Sys2Proof.Machine.execVminn h p d a b ma mb s
  | .vmaxn h p d a b ma mb => Sys2Proof.Machine.execVmaxn h p d a b ma mb s
  | .vand h p d a b ma mb => Sys2Proof.Machine.execVand h p d a b ma mb s
  | .vor h p d a b ma mb => Sys2Proof.Machine.execVor h p d a b ma mb s
  | .vxor h p d a b ma mb => Sys2Proof.Machine.execVxor h p d a b ma mb s
  | .vandn h p d a b ma mb => Sys2Proof.Machine.execVandn h p d a b ma mb s
  | .vshl h p d a b ma mb => Sys2Proof.Machine.execVshl h p d a b ma mb s
  | .vshr h p d a b ma mb => Sys2Proof.Machine.execVshr h p d a b ma mb s
  | .vsra h p d a b ma mb => Sys2Proof.Machine.execVsra h p d a b ma mb s
  | .vabs h p d a ma => Sys2Proof.Machine.execVabs h p d a ma s
  | .vneg h p d a ma => Sys2Proof.Machine.execVneg h p d a ma s
  | .vsadd h p d a b ma mb => Sys2Proof.Machine.execVsadd h p d a b ma mb s
  | .vssub h p d a b ma mb => Sys2Proof.Machine.execVssub h p d a b ma mb s
  | .vfadd h p d a b ma mb => Sys2Proof.Machine.execVfadd h p d a b ma mb s
  | .vfsub h p d a b ma mb => Sys2Proof.Machine.execVfsub h p d a b ma mb s
  | .vfmul h p d a b ma mb => Sys2Proof.Machine.execVfmul h p d a b ma mb s
  | .vfma h p d a b ma mb => Sys2Proof.Machine.execVfma h p d a b ma mb s
  | .vfmin h p d a b ma mb => Sys2Proof.Machine.execVfmin h p d a b ma mb s
  | .vfmax h p d a b ma mb => Sys2Proof.Machine.execVfmax h p d a b ma mb s
  | .vfabs h p d a ma => Sys2Proof.Machine.execVfabs h p d a ma s
  | .vfneg h p d a ma => Sys2Proof.Machine.execVfneg h p d a ma s
  | .vcmpEq h p d a b ma mb => Sys2Proof.Machine.execVcmpEq h p d a b ma mb s
  | .vcmpNe h p d a b ma mb => Sys2Proof.Machine.execVcmpNe h p d a b ma mb s
  | .vcmpLt h p d a b ma mb => Sys2Proof.Machine.execVcmpLt h p d a b ma mb s
  | .vcmpLe h p d a b ma mb => Sys2Proof.Machine.execVcmpLe h p d a b ma mb s
  | .vcmpLtn h p d a b ma mb => Sys2Proof.Machine.execVcmpLtn h p d a b ma mb s
  | .vcmpLen h p d a b ma mb => Sys2Proof.Machine.execVcmpLen h p d a b ma mb s
  | .vfcmpEq h p d a b ma mb => Sys2Proof.Machine.execVfcmpEq h p d a b ma mb s
  | .vfcmpLt h p d a b ma mb => Sys2Proof.Machine.execVfcmpLt h p d a b ma mb s
  | .vfcmpLe h p d a b ma mb => Sys2Proof.Machine.execVfcmpLe h p d a b ma mb s
  | .vfcmpUn h p d a b ma mb => Sys2Proof.Machine.execVfcmpUn h p d a b ma mb s
  | .vmov h p d a ma => Sys2Proof.Machine.execVmov h p d a ma s
  | .vsel h p d a b ma mb => Sys2Proof.Machine.execVsel h p d a b ma mb s
  | .vsplat h p d a => Sys2Proof.Machine.execVsplat h p d a s
  | .vext h d a b ma => Sys2Proof.Machine.execVext h d a b ma s
  | .vins h d a b => Sys2Proof.Machine.execVins h d a b s
  | .vidx h p d a => Sys2Proof.Machine.execVidx h p d a s
  | .vcvt h p t d a part ma => Sys2Proof.Machine.execVcvt h p t d a part ma s
  | .vexp2 h p d a ma => Sys2Proof.Machine.execVexp2 h p d a ma s
  | .vlog2 h p d a ma => Sys2Proof.Machine.execVlog2 h p d a ma s
  | .vrcp h p d a ma => Sys2Proof.Machine.execVrcp h p d a ma s
  | .vrsqrt h p d a ma => Sys2Proof.Machine.execVrsqrt h p d a ma s
  | .vtanh h p d a ma => Sys2Proof.Machine.execVtanh h p d a ma s
  | .vsigm h p d a ma => Sys2Proof.Machine.execVsigm h p d a ma s
  | .vredadd h p d a ma => Sys2Proof.Machine.execVredadd h p d a ma s
  | .vredmax h p d a ma => Sys2Proof.Machine.execVredmax h p d a ma s
  | .vredmin h p d a ma => Sys2Proof.Machine.execVredmin h p d a ma s
  | .vfredadd h p d a ma => Sys2Proof.Machine.execVfredadd h p d a ma s
  | .vfredmax h p d a ma => Sys2Proof.Machine.execVfredmax h p d a ma s
  | .vscanAdd h p d a ma => Sys2Proof.Machine.execVscanAdd h p d a ma s
  | .vmergeSm h p d a b ma mb => Sys2Proof.Machine.execVmergeSm h p d a b ma mb s
  | .vcompress h p d a b ma => Sys2Proof.Machine.execVcompress h p d a b ma s
  | .vexpand h p d a ma => Sys2Proof.Machine.execVexpand h p d a ma s
  | .mpopc h d a => Sys2Proof.Machine.execMpopc h d a s
  | .mand h d a b => Sys2Proof.Machine.execMand h d a b s
  | .mor h d a b => Sys2Proof.Machine.execMor h d a b s
  | .mxor h d a b => Sys2Proof.Machine.execMxor h d a b s
  | .mnot h d a => Sys2Proof.Machine.execMnot h d a s
  | .mset h d a => Sys2Proof.Machine.execMset h d a s
  | .mget h d a => Sys2Proof.Machine.execMget h d a s
  | .mfirst h d a => Sys2Proof.Machine.execMfirst h d a s
  -- TILE, MATRIX, HM (07)
  | .tcfg h d fmt => Sys2Proof.Machine.execTcfg h d fmt s
  | .tzero h d => Sys2Proof.Machine.execTzero h d s
  | .tfree h d => Sys2Proof.Machine.execTfree h d s
  | .twm h d n => Sys2Proof.Machine.execTwm h d n s
  | .wload h g a b pitch sp => Sys2Proof.Machine.execWload h g a b pitch sp s
  | .mma h g d a b c stream pm => Sys2Proof.Machine.execMma h g d a b c stream pm s
  | .mmaZ h g d a b c stream pm => Sys2Proof.Machine.execMmaZ h g d a b c stream pm s
  | .mmaSp h g d a b c stream pm => Sys2Proof.Machine.execMmaSp h g d a b c stream pm s
  | .tstore h g d a b c pitch wrow0 rows => Sys2Proof.Machine.execTstore h g d a b c pitch wrow0 rows s
  | .tload h g d a pitch => Sys2Proof.Machine.execTload h g d a pitch s
  | .mparam h g a => Sys2Proof.Machine.execMparam h g a s
  | .hmGemv h g d a b c nv mm1 km1 => Sys2Proof.Machine.execHmGemv h g d a b c nv mm1 km1 s
  -- IE (09 R236)
  | .ieGather h g d a b c n => Sys2Proof.Machine.execIeGather h g d a b c n s
  | .ieScatter h g d a b c n opk => Sys2Proof.Machine.execIeScatter h g d a b c n opk s
  | .ieCopy h g d a b bytes => Sys2Proof.Machine.execIeCopy h g d a b bytes s
  | .ieFill h g d a b bytes => Sys2Proof.Machine.execIeFill h g d a b bytes s
  | .ieMcast h g d a b c bytes ntm1 => Sys2Proof.Machine.execIeMcast h g d a b c bytes ntm1 s
  | .ieCond h g d a b c n esz => Sys2Proof.Machine.execIeCond h g d a b c n esz s
  -- PG (14 R350)
  | .pgLoad h g d a b first nm1 => Sys2Proof.Machine.execPgLoad h g d a b first nm1 s
  | .pgLoadNb h g d a b first nm1 => Sys2Proof.Machine.execPgLoadNb h g d a b first nm1 s
  | .pgLoadList h g d a b c nm1 => Sys2Proof.Machine.execPgLoadList h g d a b c nm1 s
  | .pgLoadNbList h g d a b c nm1 => Sys2Proof.Machine.execPgLoadNbList h g d a b c nm1 s
  | .pgApp h g d a b => Sys2Proof.Machine.execPgApp h g d a b s
  | .pgFork h g d a b => Sys2Proof.Machine.execPgFork h g d a b s
  | .pgSel h g d a b c k kf kt => Sys2Proof.Machine.execPgSel h g d a b c k kf kt s
  | .pgSeal h g d a => Sys2Proof.Machine.execPgSeal h g d a s
  | .pgFree h g d a => Sys2Proof.Machine.execPgFree h g d a s
  | .pgExt h g d a order lns => Sys2Proof.Machine.execPgExt h g d a order lns s
  | .pgEvict h g d a b => Sys2Proof.Machine.execPgEvict h g d a b s
  -- SYS (15 R364 to R368)
  | .cget h d r => Sys2Proof.Machine.execCget h d r s
  | .cset h a r => Sys2Proof.Machine.execCset h a r s
  | .csetFpmode h a => Sys2Proof.Machine.execCsetFpmode h a s
  | .csetAgemax h a => Sys2Proof.Machine.execCsetAgemax h a s
  | .csetRingcfg h a k => Sys2Proof.Machine.execCsetRingcfg h a k s
  | .eret h => Sys2Proof.Machine.execEret h s
  | .pcall h d a svc => Sys2Proof.Machine.execPcall h d a svc s
  | .ifl h => Sys2Proof.Machine.execIfl h s
  | .lfl h => Sys2Proof.Machine.execLfl h s
  | .kswap h d => Sys2Proof.Machine.execKswap h d s
  -- Kiln instructions (12 R299)
  | .kld d st im => Sys2Proof.Machine.execKld d st im s
  | .kadd d st im => Sys2Proof.Machine.execKadd d st im s
  | .ksub d st im => Sys2Proof.Machine.execKsub d st im s
  | .kand d st im => Sys2Proof.Machine.execKand d st im s
  | .kor d st im => Sys2Proof.Machine.execKor d st im s
  | .kshl d st im => Sys2Proof.Machine.execKshl d st im s
  | .kshr d st im => Sys2Proof.Machine.execKshr d st im s
  | .kmin d st im => Sys2Proof.Machine.execKmin d st im s
  | .kmax d st im => Sys2Proof.Machine.execKmax d st im s
  | .kceq d st im => Sys2Proof.Machine.execKceq d st im s
  | .kcgt d st im => Sys2Proof.Machine.execKcgt d st im s
  | .kfirst d st im => Sys2Proof.Machine.execKfirst d st im s
  | .kamax d st im => Sys2Proof.Machine.execKamax d st im s
  | .kpop d st im => Sys2Proof.Machine.execKpop d st im s
  | .kldi d im => Sys2Proof.Machine.execKldi d im s
  | .klui d im => Sys2Proof.Machine.execKlui d im s
  | .kbz d im => Sys2Proof.Machine.execKbz d im s
  | .kbnz d im => Sys2Proof.Machine.execKbnz d im s
  | .ksel d st c => Sys2Proof.Machine.execKsel d st c s
  | .kstw st im => Sys2Proof.Machine.execKstw st im s
  | .kemit st im => Sys2Proof.Machine.execKemit st im s
  | .kend => Sys2Proof.Machine.execKend s
  -- Events without an encoding (95_what_each_step_holds)
  | .continuationAct id => Sys2Proof.Machine.execContinuationAct id s
  | .launchWaitReevaluate l => Sys2Proof.Machine.execLaunchWaitReevaluate l s
  | .puntyStart l => Sys2Proof.Machine.execPuntyStart l s
  | .ringMessagePlace id => Sys2Proof.Machine.execRingMessagePlace id s
  | .linkGrow l dir => Sys2Proof.Machine.execLinkGrow l dir s
  | .deadlockProbeSend l slot => Sys2Proof.Machine.execDeadlockProbeSend l slot s
  | .deadlockProbeReceive id => Sys2Proof.Machine.execDeadlockProbeReceive id s
  | .sfuResultWrite l => Sys2Proof.Machine.execSfuResultWrite l s
  | .vredResultWrite l => Sys2Proof.Machine.execVredResultWrite l s
  | .meCommandStart l => Sys2Proof.Machine.execMeCommandStart l s
  | .meRowWrite l => Sys2Proof.Machine.execMeRowWrite l s
  | .nmCommandRun l n => Sys2Proof.Machine.execNmCommandRun l n s
  | .ieCommandRun l n => Sys2Proof.Machine.execIeCommandRun l n s
  | .teCommandRun l n => Sys2Proof.Machine.execTeCommandRun l n s
  | .peCommandRun l n => Sys2Proof.Machine.execPeCommandRun l n s
  | .pgAppendAct l => Sys2Proof.Machine.execPgAppendAct l s
  | .nvmeWriteComplete id ok => Sys2Proof.Machine.execNvmeWriteComplete id ok s
  | .nvmeReadComplete id ok => Sys2Proof.Machine.execNvmeReadComplete id ok s
  | .engineCommandComplete l e => Sys2Proof.Machine.execEngineCommandComplete l e s
  | .longResultWrite l slot => Sys2Proof.Machine.execLongResultWrite l slot s
  | .accessPerform id => Sys2Proof.Machine.execAccessPerform id s
  | .accessReply id => Sys2Proof.Machine.execAccessReply id s
  | .requestResend id => Sys2Proof.Machine.execRequestResend id s
  | .extentWalkComplete id => Sys2Proof.Machine.execExtentWalkComplete id s
  | .labelWalkComplete id => Sys2Proof.Machine.execLabelWalkComplete id s
  | .migrationDepart l slot => Sys2Proof.Machine.execMigrationDepart l slot s
  | .migrationArrival id => Sys2Proof.Machine.execMigrationArrival id s
  | .replyForward id => Sys2Proof.Machine.execReplyForward id s
  | .spawnArrival id => Sys2Proof.Machine.execSpawnArrival id s
  | .arrivalSpillStart l reserved => Sys2Proof.Machine.execArrivalSpillStart l reserved s
  | .tdoneSlotFree l slot => Sys2Proof.Machine.execTdoneSlotFree l slot s
  | .taskStart id => Sys2Proof.Machine.execTaskStart id s
  | .taskComplete l => Sys2Proof.Machine.execTaskComplete l s
  | .readyAgeExpire die entry => Sys2Proof.Machine.execReadyAgeExpire die entry s
  | .timeSliceEnd pid => Sys2Proof.Machine.execTimeSliceEnd pid s
  | .kilnDecision die => Sys2Proof.Machine.execKilnDecision die s
  | .graphLaunchRequest id => Sys2Proof.Machine.execGraphLaunchRequest id s
  | .graphSignalReceive id => Sys2Proof.Machine.execGraphSignalReceive id s
  | .hostLaunchRequest pid sc handle t => Sys2Proof.Machine.execHostLaunchRequest pid sc handle t s
  | .completionReport id => Sys2Proof.Machine.execCompletionReport id s
  | .deputyCommit pid attn => Sys2Proof.Machine.execDeputyCommit pid attn s
  | .deputyCommitAck pid attn => Sys2Proof.Machine.execDeputyCommitAck pid attn s
  | .dieFence die => Sys2Proof.Machine.execDieFence die s
  | .kswapRequest id => Sys2Proof.Machine.execKswapRequest id s
  | .kswapPrepare pid attn die => Sys2Proof.Machine.execKswapPrepare pid attn die s
  | .kswapCommit pid attn => Sys2Proof.Machine.execKswapCommit pid attn s
  | .lttChangeRequest id => Sys2Proof.Machine.execLttChangeRequest id s
  | .lttPrepare pid l => Sys2Proof.Machine.execLttPrepare pid l s
  | .lttCommit pid l => Sys2Proof.Machine.execLttCommit pid l s
  | .preemptRequest l pid => Sys2Proof.Machine.execPreemptRequest l pid s
  | .threadHalt l slot => Sys2Proof.Machine.execThreadHalt l slot s
  | .coreSave l pid => Sys2Proof.Machine.execCoreSave l pid s
  | .coreRestore l id => Sys2Proof.Machine.execCoreRestore l id s
  | .hostRead pid sc va len => Sys2Proof.Machine.execHostRead pid sc va len s
  | .hostWrite pid sc va data => Sys2Proof.Machine.execHostWrite pid sc va data s
  | .hostPause pid => Sys2Proof.Machine.execHostPause pid s
  | .hostResume pid => Sys2Proof.Machine.execHostResume pid s
  | .hostReset pid => Sys2Proof.Machine.execHostReset pid s
  | .partitionResetComplete pid => Sys2Proof.Machine.execPartitionResetComplete pid s
  | .partitionAssign req => Sys2Proof.Machine.execPartitionAssign req s
  | .partitionSplit attn node => Sys2Proof.Machine.execPartitionSplit attn node s
  | .partitionMerge attn node => Sys2Proof.Machine.execPartitionMerge attn node s
  | .partitionRelease pid => Sys2Proof.Machine.execPartitionRelease pid s
  | .hostGrantResponse id stamp grant => Sys2Proof.Machine.execHostGrantResponse id stamp grant s
  | .serviceMap id => Sys2Proof.Machine.execServiceMap id s
  | .serviceUnmap id => Sys2Proof.Machine.execServiceUnmap id s
  | .serviceGrant id => Sys2Proof.Machine.execServiceGrant id s
  | .serviceKload id => Sys2Proof.Machine.execServiceKload id s
  | .serviceCkpttab id => Sys2Proof.Machine.execServiceCkpttab id s
  | .serviceIntr id => Sys2Proof.Machine.execServiceIntr id s
  | .serviceUnknown id => Sys2Proof.Machine.execServiceUnknown id s
  | .scrubRead l found => Sys2Proof.Machine.execScrubRead l found s
  | .counterSnapshot die pid => Sys2Proof.Machine.execCounterSnapshot die pid s
  | .hostCounterRead die => Sys2Proof.Machine.execHostCounterRead die s
  | .class3WindowEnd die link => Sys2Proof.Machine.execClass3WindowEnd die link s
  | .flitSend die link offered => Sys2Proof.Machine.execFlitSend die link offered s
  | .flitCrcReplay die link => Sys2Proof.Machine.execFlitCrcReplay die link s
  | .ethernetFrameReceive port frame => Sys2Proof.Machine.execEthernetFrameReceive port frame s
  | .moduleReset => Sys2Proof.Machine.execModuleReset s
  | .firmwareImageReceive image version sig => Sys2Proof.Machine.execFirmwareImageReceive image version sig s
  | .hostMeasurement item => Sys2Proof.Machine.execHostMeasurement item s
  | .attestationRequest nonce pid => Sys2Proof.Machine.execAttestationRequest nonce pid s
  | .temperatureAlarm die => Sys2Proof.Machine.execTemperatureAlarm die s
  | .thermalReset die => Sys2Proof.Machine.execThermalReset die s
  | .hotRemoval die drive => Sys2Proof.Machine.execHotRemoval die drive s
  | .releaseRequest pid unit => Sys2Proof.Machine.execReleaseRequest pid unit s

end Sys2Proof.Machine
end

