-- ==== Sys2Proof/Machine/Schedule.lean ====
section
/-! DEFINITION. The order of the agents' acts, which the spec leaves free (10 R245; log 3). -/

namespace Sys2Proof.Config

/-- The next act when none is named: the order of the agents' acts and what the host, the drives and the board do are free (10 R245; log 3). -/
opaque schedule : Nat → Option Machine.Turn

end Sys2Proof.Config
end

