-- ==== Sys2Proof/Machine/Fetch.lean ====
section
/-! DEFINITION. What one turn of an agent does: the barrel and fetch of a core, the next instruction of a kiln, an event, the advance of time; and how a word is placed to run next (01 R20 to R23; 03 R79, R80, R95 to R97; 12 R300). -/

namespace Sys2Proof.Machine

/-! ## The barrel (01 R20, R21) -/

/-- Whether what a BLOCK slot waits for has come (01 R20). -/
def blockCleared (s : State) (l : Loc) (k : Fin 16) (w : BlockWhy) : Bool :=
  let th := thread s l k
  match w with
  | .queues needs rooms => (needs.all fun p => p.2 ≤ (inWords s l p.1).length) && rooms.all fun p => hasRoom s l th.part p.1
  | .engine e => (engQ (core s l) e).length < ecap
  | .sfu => (core s l).sfu.length < 8
  | .relaxedLimit => (relaxedOpen s th).length < 8
  | .drain => (relaxedOpen s th).isEmpty
  | .migrate => mayLeave s l th
  | .send => sendRoom s l
  | .walk => th.walk.waits.isNone
  | .fence n => fenceDone s th n
  | .twm t n => n ≤ (core s l).twm[t].rows
  | .pins _ => match (part? s th.part).bind fun p => p.lttRun with
    | some r => r.commits.contains l || !(r.acks.contains l || r.written)
    | none => true

/-- A slot that may issue in this cycle; none does while cores of its partition are still to be restored (15 R376). -/
def candidate (s : State) (l : Loc) (k : Fin 16) : Bool :=
  let x := slotAt s l k
  let runs : Bool := match x.st with
    | .run => true
    | .block w _ => blockCleared s l k w
    | _ => false
  runs && (match x.last with | some t => decide (t + 8 ≤ s.cycle) | none => true) && decide (x.hold ≤ s.cycle)
    && x.th.pendTrap.isNone && !x.th.ended && x.halting != some 0 && (part? s x.th.part).isSome && !heldBack s x.th.part

/-- Whether a core has issued in this cycle. -/
def issued (s : State) (l : Loc) : Bool := (List.finRange 16).any fun k => (slotAt s l k).last == some s.cycle

/-- The slot that issues: the first candidate from the rotation pointer on (01 R21), in the part of a cycle in which cores issue. -/
def selectSlot (s : State) (l : Loc) : Option (Fin 16) :=
  if s.phase ≠ .issue || (die s (dieOf l)).fenced || issued s l then none
  else ((List.finRange 16).map fun i => (core s l).rot + i).find? (candidate s l)

/-! ## Fetch (03 R79, R80, R97; 08 R206, R213) -/

/-- The translation of a fetch: through the cache, or by a walk of the thread's (08 R207, R208). -/
def fetchKey (s : State) (l : Loc) (k : Fin 16) (p : Partition) (va : Nat) : Xlate :=
  xlateFor s p l (thread s l k).walk va 32 .fetch false

/-- The 32 bytes of a block; where it has changed since the core's last `ifl`, or since its first fetch where it has executed none, a free choice
between the two (log 5). -/
def blockBytes (s : State) (l : Loc) (key : Nat) : List Byte × State :=
  let now := s.mem.readN key 32
  match (core s l).ifetch with
  | none => (now, modCore s l fun c => { c with ifetch := some s.mem })
  | some m =>
    let old := Mem.readN m key 32
    if old = now then (now, s) else (if Config.freshBlock s.free then now else old, { s with free := s.free + 1 })

/-- What a fetch brings: a fault, a miss of the extent cache, or the bytes. -/
inductive FetchRes where
  | fault (cause : Nat)
  | walk
  | ok (b : List Byte) (s : State)

/-- The bytes of the next block, which a trap would record, or zeros where it cannot be fetched (03 R95; log 5). -/
def nextBytes (s : State) (l : Loc) (p : Partition) (va : Nat) : List Byte × State :=
  match (if va < 2 ^ 56 then xlateFor s p l (mapWalk s (dieOf l) p.pid) va 32 .fetch false else .miss) with
  | .ok key => if isHbm key && !poisoned s key then blockBytes s l key else (List.replicate 20 0, s)
  | _ => (List.replicate 20 0, s)

/-- The bytes from the program counter on: the rest of its block, then the next block. -/
def fetchBytes (s : State) (l : Loc) (k : Fin 16) (p : Partition) (pc : Nat) : FetchRes :=
  let va := pc - pc % 32
  match (if va < 2 ^ 56 then fetchKey s l k p va else .fault cTRANSLATION) with
  | .fault c => .fault c
  | .miss => .walk
  | .ok key =>
    if !isHbm key then .fault cPERMISSION
    else if poisoned s key then .fault cMEMERR
    else
      let r := blockBytes (touch s ⟨l, k, 0, 0⟩ va) l key
      let b := r.1.drop (pc % 32)
      if 20 ≤ b.length then .ok b r.2
      else
        let n := nextBytes r.2 l p (va + 32)
        .ok (b ++ n.1) n.2

/-- What the decoder of a location needs to know (03 R84, R94). DESIGN CHOICE: a slice core has its die's profile, so that it may issue the commands
of its die's engines, which queue there (log 57). -/
def decodeCtx (s : State) (l : Loc) (p : Partition) : DecodeCtx := ⟨isAttn (dieOf l), linksOf p l, (core s l).types⟩

/-- `qret` without a light handler and `eret` without a trap handler have detail 2 (11 R265, 15 R365), which stands above details 5, 3 and 8 in
03 R96. -/
def illegalDetail (th : Thread) (w d : Nat) : Nat :=
  let base := if w % 4 = 0 then w / 2 ^ 32 else w
  let early : Bool := d == 5 || d == 3 || d == 8
  let qret : Bool := base / 8 % 256 == 58 && base / 2 ^ 29 % 64 == 2
  let eret : Bool := base / 8 % 256 == 152 && base / 2 ^ 23 % 64 == 2
  if early && ((qret && !th.lact) || (eret && !th.thact)) then 2 else d

/-! ## Turns -/

/-- One more instruction of a thread that is to halt (15 R371). -/
def countHalt (s : State) (l : Loc) (k : Fin 16) : State :=
  modSlot { s with cur := none } l k fun x => { x with halting := x.halting.map fun n => n - 1 }

def afterIssue (l : Loc) (k : Fin 16) : Host.Outcome State Fault Refusal → Host.Outcome State Fault Refusal
  | .next t => .next (countHalt t l k)
  | o => o

/-- The slot takes the issue slot of this cycle (01 R21). -/
def takeIssue (s : State) (l : Loc) (k : Fin 16) : State :=
  modSlot (modCore s l fun c => { c with rot := k + 1 }) l k fun x => { x with st := .run, last := some s.cycle, atCkpt := none }

/-- The instruction whose bytes are `w` issues from slot `k` (03 R95, R96). -/
noncomputable def issueWord (s : State) (l : Loc) (k : Fin 16) (p : Partition) (w : Nat) : Host.Outcome State Fault Refusal :=
  let th := thread s l k
  let x : Cur := ⟨l, k, BitVec.ofNat 64 w, BitVec.ofNat 64 (w / 2 ^ 64)⟩
  match decode (decodeCtx s l p) (th.pc.toNat % 32) w with
  | .ok (i, _) => exec i { s with cur := some x }
  | .error d => .next (trapAt s x cILLEGAL (illegalDetail th w d) 0)

/-- A core's turn: its selected slot skips a pad parcel, waits for the walk of its fetch, or issues (01 R21; 03 R79; 08 R208; 15 R360, R362). -/
noncomputable def coreTurn (l : Loc) (s : State) : Host.Outcome State Fault Refusal :=
  match selectSlot s l with
  | none => .next s
  | some k =>
    let th := thread s l k
    let pc := th.pc.toNat
    match part? s th.part with
    | none => .next s
    | some p =>
      match fetchBytes s l k p pc with
      | .fault c => afterIssue l k (.next (trapAt (takeIssue s l k) ⟨l, k, 0, 0⟩ c 0 pc))
      | .walk => .next (startWalk ⟨l, k, 0, 0⟩ (pc - pc % 32) s)
      | .ok b t =>
        let w := ofBytes (b.take 20)
        if pc % 32 = 28 ∧ w % 2 ^ 32 = 4 then
          .next (modTh t l k fun th => { th with pc := (loopNext th.pc 4 th.loops).1, loops := (loopNext th.pc 4 th.loops).2 })
        else afterIssue l k (issueWord (takeIssue t l k) l k p w)

/-- A kiln's act: the next instruction of its decision, or the decision's end as failed (12 R300). -/
noncomputable def kilnAct (d : Nat) (s : State) : Host.Outcome State Fault Refusal :=
  match (die s d).run with
  | none => .next s
  | some r =>
    if (die s d).fenced then .next s
    else if 24 ≤ r.steps then .next (failRun s d r 13)
    else match (r.img.code[r.pc]?).bind fun h => decodeKiln h.toNat with
      | none => .next (failRun s d r 13)
      | some i => match exec i { s with kcur := some d } with
        | .next t => .next { t with kcur := none }
        | o => o

/-- Whether an act of a core belongs to the present cycle and is still to be done: an issue, the write of a result of fixed latency, a row of a
command whose rows have fixed cycles (01 R21, R24; 06 R167; 07 R179, R181). -/
def pendingAct (s : State) (l : Loc) : Bool :=
  let c := core s l
  let rows : Bool := c.meq.any fun q => match q.started, q.body with
    | some t0, .mma .. => !q.finished && decide (rowDue q t0 ≤ s.cycle)
    | some t0, .tzero _ => !q.finished && decide (rowDue q t0 ≤ s.cycle)
    | _, _ => false
  !(die s (dieOf l)).fenced
    && ((selectSlot s l).isSome || (dueAt s l fun _ => true).isSome || (match c.sfu with | d :: _ => decide (d ≤ s.cycle) | [] => false) || rows)

/-- The acts of the present cycle that are still to be done, over all cores. -/
def pending (s : State) : Bool := s.cores.any fun c => pendingAct s c.1

/-- The regular snapshots, every 1,048,576 cycles (16 R383). -/
def regularSnaps (s : State) : State :=
  { s with dies := s.dies.map fun y => { y with
    parts := y.parts.map fun q => if q.snapAt ≤ s.cycle then { q with snapDue := true, snapAt := (s.cycle / 2 ^ 20 + 1) * 2 ^ 20 } else q } }

/-- Time advances once nothing that belongs to the present cycle is left to do. -/
def tickTurn (s : State) : State :=
  if pending s || snapsDue s then s else regularSnaps { s with cycle := s.cycle + 1, phase := .issue }

/-- An instruction of the table that has no encoding is an event. -/
noncomputable def isEvent (i : Instr) : Bool := (encodeFields i).isEmpty

def isSnapshot : Instr → Bool
  | .counterSnapshot _ _ => true
  | _ => false

/-- An act that is not an issue: in each cycle the cores issue first, then come the other acts, and counter snapshots are taken once those that belong
to the cycle are done (04 R122; 05 R137; 11 R273; 16 R382; log 3). -/
def actTurn (last : Bool) (f : State → Host.Outcome State Fault Refusal) (s : State) : Host.Outcome State Fault Refusal :=
  match s.phase with
  | .close => if last then f s else .next s
  | .acts => if last && pending s then .next s else f s
  | .issue =>
    if (s.cores.any fun c => (selectSlot s c.1).isSome) || (last && pending s) then .next s else f { s with phase := .acts }

noncomputable def eventTurn (i : Instr) (s : State) : Host.Outcome State Fault Refusal :=
  if isEvent i then actTurn (isSnapshot i) (exec i) s else .next s

noncomputable def runTurn (t : Option Turn) (s : State) : Host.Outcome State Fault Refusal :=
  match t with
  | none => .next s
  | some (.core l) => coreTurn l s
  | some (.kiln d) => actTurn false (kilnAct d) s
  | some (.svc n) => actTurn false (fun s => .next (svcAct n s)) s
  | some (.event i) => eventTurn i s
  | some (.error key found) => .next (softError s key found)
  | some .tick => .next (tickTurn s)

/-! ## After every act -/

/-- Label-table changes that wait for pins go on as soon as the pins are gone (13 R323). -/
def settleMoves (s : State) : State := s.parts.foldl (fun s p => lttAdvance s p.pid) s

/-- The writes of an act are open to the host reads that have been received (10 R258; log 43). -/
def shareWrites (n : Nat) (t : State) : State :=
  match t.hostOld.filter fun e => e.act == n with
  | [] => t
  | new => { t with svcCores := t.svcCores.map fun c => ⟨c.queue.map fun r => if r.kind = .read then { r with view := r.view ++ new } else r⟩ }

/-- What follows an act at once. -/
def settleAct (t : State) : State := settlePrio (settleMoves (shareWrites t.stepNo t))

/-- The act that is due: the one the state names, else the schedule's (log 3). -/
def nextTurn (s : State) : Option Turn :=
  match s.turn with
  | some t => some t
  | none => Config.schedule s.stepNo

/-- The state as a turn finds it. -/
def beginTurn (s : State) : State := { s with turn := none, cur := none, kcur := none, stepNo := s.stepNo + 1 }

/-! ## A word placed to run next (log 4) -/

/-- A partition on the whole module, running, with one extent. -/
def loadPartition : Partition where
  pid := 1
  share := 0
  st := .running
  stamp := 0
  dllimit := 0
  agemax := 0
  map := [⟨2 ^ 31, 0, 0, true, true, true⟩]
  ltt := []
  compute := some ⟨1, 0, [], [], [], 0, 0, 0, [], [], none, []⟩
  attention := some ⟨1, 0, [], [], [], 0, 0, 0, [], [], none, []⟩
  grants := []
  quota := 65536
  spoilBase := 0
  counterArea := 0
  ckptTable := 0
  ckptCount := 0
  irq := []
  faultLog := []
  mcheckLog := []
  lttRun := none
  saves := []
  sliceLen := 0
  lost := false

/-- The thread of a loaded program: its program counter at the extent's first byte. -/
def loadThread : Thread := { Thread.reset with part := 1, inTask := true, thid := 1, pc := BitVec.ofNat 64 (2 ^ 52) }

/-- A 20-byte Gleral word at physical address 0, and a thread in slot 0 of a core of the profile that has the word's opcode. -/
def loadWord (s : State) (w : Nat) : State :=
  let l : Loc := if (tableCtx w).attn then .core 16 33 else .core 0 65
  let s := { s with
    phase := .issue, boot := .ready, turn := some (.core l), parts := [loadPartition], mem := s.mem.writeN (hbmKey 0) (toBytes 20 w)
    poison := s.poison.filter fun k => k != hbmKey 0 }
  let s := modDie s (dieOf l) fun d => { d with fenced := false, parts := [{ DiePart.fresh 1 with map := loadPartition.map }] }
  modCore s l fun c => { c with rot := 0, ifetch := none, xcache := [(1, ⟨2 ^ 31, 0, 0, true, true, true⟩)], slots := c.slots.set 0 { Slot.reset with st := .run, th := loadThread } }

/-- A one-instruction kiln program in the middle of a decision on die 0. -/
def loadHalf (s : State) (w : Nat) : State :=
  let s := { s with phase := .acts, boot := .ready, turn := some (.kiln 0), parts := [loadPartition] }
  modDie s 0 fun d => { d with
    fenced := false, parts := [DiePart.fresh 1]
    run := some ⟨{ KEvent.base with pid := 1 }, ⟨none, none, none, [BitVec.ofNat 16 w]⟩, Vector.replicate 32 0, Vector.replicate 8 0, 0, 0, none, []⟩ }

end Sys2Proof.Machine
end

