-- ==== Sys2Proof/Machine/Step.lean ====
section
/-! DEFINITION. One step: the act that is due, and what follows it at once. -/

namespace Sys2Proof.Machine

/-- One act of one agent, and what follows it (log 3). -/
noncomputable def step (s : State) : Host.Outcome State Fault Refusal :=
  match runTurn (nextTurn s) (beginTurn s) with
  | .next t => .next (settleAct t)
  | .fault r => .fault r
  | .refused r => .refused r

/-- The state with the instruction of bits `w` where the next step finds it (log 4). -/
def State.withFetchWord (s : State) (nbits w : Nat) : State :=
  if nbits ≤ 16 then loadHalf s w else loadWord s (w % 2 ^ nbits)

end Sys2Proof.Machine
end

