-- ==== Sys2Proof/Safety.lean ====
section
/-! DEFINITION. What counts as a safe run, and the terms that claims are stated in: what an instruction names, when it issues without a trap or a
wait, its operands and its end; what a register-only instruction leaves alone; the machine's invariant. -/

namespace Sys2Proof

open Sys2Proof.Machine

/-- A step that answers a next state. -/
def SafeStep (s : State) : Prop := ∃ t, step s = .next t

/-- `n` steps from a state, none of which ends in a fault or a refusal. -/
def SafeRun : Nat → State → Prop
  | 0, _ => True
  | n + 1, s => ∃ t, step s = .next t ∧ SafeRun n t

/-! ## What an instruction names -/

/-- The header of a Gleral instruction, its length in bytes, prefix included, and what it names. -/
structure Form where
  h : Hdr
  len : Nat
  u : Uses
  deriving DecidableEq, Repr

/-- Scalar sources A, B and destination D. -/
def useTwo (d a b : SReg) : Uses := { a := some a, b := some b, rd := some d }
def useOne (d a : SReg) : Uses := { a := some a, rd := some d }
/-- The same with D a source too. -/
def useThree (d a b : SReg) : Uses := { a := some a, b := some b, d := some d, rd := some d }
/-- Scalar sources that may not have DF set, and no scalar destination. -/
def useTest (l : List SReg) : Uses :=
  { a := l[0]?, b := l[1]?, c := l[2]?, dfu := l }
def useLoad (d a : SReg) : Uses := { a := some a, rd := some d, dfu := [a] }
def useStore (d a : SReg) : Uses := { a := some a, d := some d, dfu := [a, d] }
def useAmo (d a b : SReg) : Uses := { a := some a, b := some b, rd := some d, dfu := [a, b] }
def useCas (d a b : SReg) : Uses := { a := some a, b := some b, d := some d, rd := some d, dfu := [a, b, d] }
/-- Row operands under a prefix. -/
def useRows (p : Option VPfx) (regs : List VReg) (lm : List (VReg × LaneMod)) : Uses :=
  { vs := regs ++ (match p with | some q => q.e.toList | none => []), lm := lm, tile := true }
def useRow (q : Option VPfx) (d : VReg) (a : SReg) : Uses := { useRows q [d] [] with a := some a, dfu := [a] }
/-- Mask registers, m0 among them (01 R33, 06 R175). -/
def useMasks : Uses := { tile := true }
/-- The 16 rows of each of some tiles. -/
def useTiles (l : List TReg) : Uses := { vs := l.flatMap fun t => (List.range 16).map fun i => Fin.ofNat 64 (16 * t.val + i), tile := true }
/-- Operands of a PG command. -/
def usePg (d : SReg) (ls : List LReg) (b c : Option SReg) : Uses := { b := b, c := c, d := some d, ls := ls, dfu := d :: (b.toList ++ c.toList), dfl := ls }
def useTe (d : SReg) (a : LReg) (b c : Option SReg) : Uses := { b := b, c := c, d := some d, ls := [a], dfu := d :: (b.toList ++ c.toList), dfl := [a] }

/-- The rows of a `vmerge.sm` operand. -/
def threeRows (v : VReg) : List VReg := [v, Fin.ofNat 64 (v.val + 1), Fin.ofNat 64 (v.val + 2)]

/-- The form of every Gleral instruction; none for kiln instructions and events. -/
def formOf : Instr → Option Form
  | .add h d a b | .sub h d a b | .and h d a b | .or h d a b | .xor h d a b | .andn h d a b | .shl h d a b | .shr h d a b | .sra h d a b
  | .rol h d a b | .min h d a b | .max h d a b | .minn h d a b | .maxn h d a b | .mul h d a b | .mulh h d a b | .mulhn h d a b | .div h d a b
  | .divn h d a b | .rem h d a b | .remn h d a b | .fadd h d a b | .fsub h d a b | .fmul h d a b | .fdiv h d a b | .fmin h d a b
  | .fmax h d a b => some ⟨h, 8, useTwo d a b⟩
  | .clz h d a | .ctz h d a | .popc h d a | .bswap h d a | .fsqrt h d a | .fabs h d a | .fneg h d a => some ⟨h, 8, useOne d a⟩
  | .addi h d a _ | .andi h d a _ | .ori h d a _ | .xori h d a _ | .mini h d a _ | .maxi h d a _ | .muli h d a _ => some ⟨h, 8, useOne d a⟩
  | .shli h d a _ | .shri h d a _ | .srai h d a _ | .roli h d a _ | .sext h d a _ | .zext h d a _ => some ⟨h, 8, useOne d a⟩
  | .bfx h d a _ _ _ => some ⟨h, 8, useOne d a⟩
  | .bfi h d a _ _ => some ⟨h, 8, { a := some a, d := some d, rd := some d }⟩
  | .eq h _ a b | .ne h _ a b | .lt h _ a b | .le h _ a b | .ltn h _ a b | .len h _ a b | .feq h _ a b | .flt h _ a b | .fle h _ a b
  | .funord h _ a b => some ⟨h, 8, useTest [a, b]⟩
  | .eqi h _ a _ | .nei h _ a _ | .lti h _ a _ | .lei h _ a _ | .ltni h _ a _ | .leni h _ a _ => some ⟨h, 8, useTest [a]⟩
  | .pand h _ _ _ | .por h _ _ _ | .pxor h _ _ _ | .pandn h _ _ _ => some ⟨h, 8, {}⟩
  | .pnot h _ _ => some ⟨h, 8, {}⟩
  | .pmov h _ _ => some ⟨h, 8, {}⟩
  | .sel h d a b _ => some ⟨h, 8, useTwo d a b⟩
  | .li h d _ | .lipc h d _ => some ⟨h, 12, { rd := some d }⟩
  | .fma h d a b => some ⟨h, 8, useThree d a b⟩
  | .fcvt h _ _ d a => some ⟨h, 8, useOne d a⟩
  | .jmp h _ | .loopi h _ _ => some ⟨h, 8, {}⟩
  | .call h _ => some ⟨h, 8, { rd := some 31 }⟩
  | .jr h a => some ⟨h, 8, useTest [a]⟩
  | .callr h a => some ⟨h, 8, { useTest [a] with rd := some 31 }⟩
  | .loop h a _ => some ⟨h, 8, useTest [a]⟩
  | .chk h a _ => some ⟨h, 8, { a := some a }⟩
  | .chkl h a _ => some ⟨h, 8, { ls := [a] }⟩
  | .nop h | .yield h | .tdone h | .fenceCore h | .fenceDie h | .fenceMod h | .fenceSys h | .fenceEng h | .qret h | .eret h | .ifl h
  | .lfl h => some ⟨h, 8, {}⟩
  | .ckpt h _ | .trap h _ | .brk h _ => some ⟨h, 8, {}⟩
  | .ld h m d a _ _ _ => some ⟨h, mlen m, useLoad d a⟩
  | .ldSync h d a _ _ _ | .ldTake h d a _ _ _ => some ⟨h, 8, useLoad d a⟩
  | .ldSpec h m d a _ _ _ => some ⟨h, mlen m, useOne d a⟩
  | .st h m d a _ _ => some ⟨h, mlen m, useStore d a⟩
  | .stFill h d a _ _ | .stXfill h d a _ _ => some ⟨h, 8, useStore d a⟩
  | .feSet h a _ | .feClr h a _ | .feWait h a _ => some ⟨h, 8, useTest [a]⟩
  | .feGet h d a _ => some ⟨h, 8, useLoad d a⟩
  | .vld h q d a _ | .vst h q d a _ =>
    some ⟨h, (match q with | .none => 8 | _ => 12), useRow (match q with | .vector p => some p | _ => none) d a⟩
  | .vldSync h p d a _ | .vstFill h p d a _ => some ⟨h, vlen p, useRow p d a⟩
  | .amoAdd h m _ d a b | .amoAnd h m _ d a b | .amoOr h m _ d a b | .amoXor h m _ d a b | .amoMin h m _ d a b | .amoMax h m _ d a b
  | .amoMinn h m _ d a b | .amoMaxn h m _ d a b | .amoSwap h m _ d a b => some ⟨h, mlen m, useAmo d a b⟩
  | .amoFadd h m d a b => some ⟨h, mlen m, useAmo d a b⟩
  | .cas32 h m d a b | .cas64 h m d a b => some ⟨h, mlen m, useCas d a b⟩
  | .redAdd h m _ a b | .redAnd h m _ a b | .redOr h m _ a b | .redXor h m _ a b | .redMin h m _ a b | .redMax h m _ a b | .redMinn h m _ a b
  | .redMaxn h m _ a b | .redSwap h m _ a b => some ⟨h, mlen m, useTest [a, b]⟩
  | .redFadd h m a b | .redArrive h m a b => some ⟨h, mlen m, useTest [a, b]⟩
  | .casK h d a b c _ => some ⟨h, 16, { useTest [a, b, c] with rd := some d }⟩
  | .decK h d a b _ => some ⟨h, 16, { useTest [a, b] with rd := some d }⟩
  | .spawn h d a n _ _ => let pay := (List.range n.val).map fun i => Fin.ofNat 32 (a.val + i); some ⟨h, 16, { d := some d, xs := pay, dfu := d :: pay }⟩
  | .migrate h a => some ⟨h, 16, useTest [a]⟩
  | .rbSend h d a b c _ _ => some ⟨h, 16, { useTest [a, b, c] with rd := some d }⟩
  | .rbGet h d _ | .rbGetNb h d _ => some ⟨h, 16, { rd := some d }⟩
  | .rbFree h _ => some ⟨h, 16, {}⟩
  | .qsendc h q a => some ⟨h, 8, { useTest [a] with rd := some (Fin.ofNat 32 (24 + q.val)) }⟩
  | .qstat h d _ => some ⟨h, 8, { rd := some d }⟩
  | .tgLaunch h d a _ => some ⟨h, 16, useLoad d a⟩
  | .tgSignal h a _ => some ⟨h, 16, useTest [a]⟩
  | .lroot h d a => some ⟨h, 8, { a := some a, ld := some d }⟩
  | .lchild h d a b => some ⟨h, 8, { b := some b, ls := [a], ld := some d }⟩
  | .lparent h d a | .lend h d a | .lmov h d a => some ⟨h, 8, { ls := [a], ld := some d }⟩
  | .lanc h _ a b | .lpanc h _ a b => some ⟨h, 8, { ls := [a, b], dfl := [a, b] }⟩
  | .ldepth h d a => some ⟨h, 8, { ls := [a], rd := some d }⟩
  | .lcommon h d a b => some ⟨h, 8, { ls := [a, b], ld := some d }⟩
  | .ldig h d a b => some ⟨h, 8, { b := some b, ls := [a], rd := some d }⟩
  | .lget h d a _ => some ⟨h, 8, { ls := [a], rd := some d }⟩
  | .lset h d a _ => some ⟨h, 8, { a := some a, ls := [d], ld := some d }⟩
  | .lld h m d a _ _ _ spec => some ⟨h, mlen m, { ls := [a], rd := some d, dfl := if spec then [] else [a] }⟩
  | .lst h m d a _ _ => some ⟨h, mlen m, { d := some d, ls := [a], dfu := [d], dfl := [a] }⟩
  | .lldL h m d a _ spec => some ⟨h, mlen m, { ls := [a], ld := some d, dfl := if spec then [] else [a] }⟩
  | .lstL h m d a _ => some ⟨h, mlen m, { ls := [a, d], dfl := [a, d] }⟩
  | .ltree h d a b c _ => some ⟨h, 16, { useTest [a, b, c] with ld := some d }⟩
  | .ltreeV h d a b => some ⟨h, 16, { useTest [a] with ls := [b], ld := some d, dfl := [b] }⟩
  | .lnew h d a b c => some ⟨h, 16, { b := some b, c := some c, ls := [a], ld := some d, dfu := [b, c], dfl := [a] }⟩
  | .lfree h a => some ⟨h, 16, { ls := [a], dfl := [a] }⟩
  | .lmove h d a b | .lmoveF h d a b => some ⟨h, 16, { ls := [a, b], ld := some d, dfl := [a, b] }⟩
  | .lrebase h d a => some ⟨h, 16, { ls := [a], ld := some d }⟩
  | .lxlate h d a | .lxlateT h d a | .lxlateTs h d a => some ⟨h, 16, { ls := [a], rd := some d, dfl := [a] }⟩
  | .lxlateOld h d | .lxlateNew h d => some ⟨h, 16, { ld := some d }⟩
  | .teSum h g d a _ => some ⟨h, glen g, useTe d a none none⟩
  | .teCount h g d a _ => some ⟨h, glen g, useTe d a none none⟩
  | .teCopy h g d a b _ _ => some ⟨h, glen g, useTe d a (some b) none⟩
  | .teFill h g d a b _ => some ⟨h, glen g, useTe d a (some b) none⟩
  | .teVisit h g d a b c _ _ => some ⟨h, glen g, useTe d a (some b) (some c)⟩
  | .vadd h p d a b ma mb | .vsub h p d a b ma mb | .vmul h p d a b ma mb | .vmulh h p d a b ma mb | .vmin h p d a b ma mb | .vmax h p d a b ma mb
  | .vminn h p d a b ma mb | .vmaxn h p d a b ma mb | .vand h p d a b ma mb | .vor h p d a b ma mb | .vxor h p d a b ma mb
  | .vandn h p d a b ma mb | .vshl h p d a b ma mb | .vshr h p d a b ma mb | .vsra h p d a b ma mb | .vsadd h p d a b ma mb
  | .vssub h p d a b ma mb | .vfadd h p d a b ma mb | .vfsub h p d a b ma mb | .vfmul h p d a b ma mb | .vfma h p d a b ma mb
  | .vfmin h p d a b ma mb | .vfmax h p d a b ma mb => some ⟨h, vlen p, useRows p [d, a, b] [(a, ma), (b, mb)]⟩
  | .vabs h p d a ma | .vneg h p d a ma | .vfabs h p d a ma | .vfneg h p d a ma | .vmov h p d a ma | .vexp2 h p d a ma | .vlog2 h p d a ma
  | .vrcp h p d a ma | .vrsqrt h p d a ma | .vtanh h p d a ma | .vsigm h p d a ma | .vscanAdd h p d a ma
  | .vexpand h p d a ma => some ⟨h, vlen p, useRows p [d, a] [(a, ma)]⟩
  | .vcmpEq h p _ a b ma mb | .vcmpNe h p _ a b ma mb | .vcmpLt h p _ a b ma mb | .vcmpLe h p _ a b ma mb | .vcmpLtn h p _ a b ma mb
  | .vcmpLen h p _ a b ma mb | .vfcmpEq h p _ a b ma mb | .vfcmpLt h p _ a b ma mb | .vfcmpLe h p _ a b ma mb
  | .vfcmpUn h p _ a b ma mb => some ⟨h, vlen p, useRows p [a, b] [(a, ma), (b, mb)]⟩
  | .vsel h p d a b ma mb => some ⟨h, 12, useRows (some p) [d, a, b] [(a, ma), (b, mb)]⟩
  | .vsplat h p d a => some ⟨h, vlen p, useRow p d a⟩
  | .vext h d a b ma => some ⟨h, 8, { useRows none [a] [(a, ma)] with b := some b, rd := some d }⟩
  | .vins h d a b => some ⟨h, 8, { useRows none [d] [] with a := some a, b := some b, dfu := [a, b] }⟩
  | .vidx h p d a => some ⟨h, vlen p, { useRows p [d] [] with a := some a }⟩
  | .vcvt h p _ d a _ ma => some ⟨h, vlen p, useRows p [d, a] [(a, ma)]⟩
  | .vredadd h p d a ma | .vredmax h p d a ma | .vredmin h p d a ma | .vfredadd h p d a ma
  | .vfredmax h p d a ma => some ⟨h, vlen p, { useRows p [a] [(a, ma)] with rd := some d }⟩
  | .vmergeSm h p d a b ma mb => some ⟨h, vlen p, useRows p (threeRows d ++ threeRows a ++ threeRows b) [(a, ma), (b, mb)]⟩
  | .vcompress h p d a b ma => some ⟨h, vlen p, { useRows p [d, a] [(a, ma)] with rd := some b }⟩
  | .mpopc h d _ | .mget h d _ | .mfirst h d _ => some ⟨h, 8, { useMasks with rd := some d }⟩
  | .mand h _ _ _ | .mor h _ _ _ | .mxor h _ _ _ => some ⟨h, 8, useMasks⟩
  | .mnot h _ _ => some ⟨h, 8, useMasks⟩
  | .mset h _ a => some ⟨h, 8, { useMasks with a := some a, dfu := [a] }⟩
  | .tcfg h _ _ => some ⟨h, 8, { tile := true }⟩
  | .tzero h d | .tfree h d => some ⟨h, 8, useTiles [d]⟩
  | .twm h _ _ => some ⟨h, 8, { tile := true }⟩
  | .wload h g a b _ _ => some ⟨h, glen g, { useTest [a, b] with tile := true }⟩
  | .mma h g d a _ _ _ _ | .mmaZ h g d a _ _ _ _ | .mmaSp h g d a _ _ _ _ => some ⟨h, glen g, useTiles [d, a]⟩
  | .tstore h g d a b c _ _ _ => some ⟨h, glen g, { useTiles [a] with b := some b, c := some c, d := some d, dfu := [d, b, c] }⟩
  | .tload h g d a _ => some ⟨h, glen g, { useTiles [d] with a := some a, dfu := [a] }⟩
  | .mparam h g a => some ⟨h, glen g, { useTest [a] with tile := true }⟩
  | .hmGemv h g d a b c _ _ _ => some ⟨h, glen g, { a := some a, b := some b, c := some c, d := some d, tile := true, dfu := [d, a, b, c] }⟩
  | .ieGather h g d a b c _ => some ⟨h, glen g, { a := some a, b := some b, c := some c, d := some d, dfu := [d, a, b, c] }⟩
  | .ieScatter h g d a b c _ _ => some ⟨h, glen g, { a := some a, b := some b, c := some c, d := some d, dfu := [d, a, b, c] }⟩
  | .ieCopy h g d a b _ => some ⟨h, glen g, { a := some a, b := some b, d := some d, dfu := [d, a, b] }⟩
  | .ieFill h g d a b _ => some ⟨h, glen g, { a := some a, b := some b, d := some d, dfu := [d, a, b] }⟩
  | .ieMcast h g d a b c _ _ => some ⟨h, glen g, { a := some a, b := some b, c := some c, d := some d, dfu := [d, a, b, c] }⟩
  | .ieCond h g d a b c _ _ => some ⟨h, glen g, { a := some a, b := some b, c := some c, d := some d, dfu := [d, a, b, c] }⟩
  | .pgLoad h g d a b _ _ | .pgLoadNb h g d a b _ _ => some ⟨h, glen g, usePg d [a] (some b) none⟩
  | .pgLoadList h g d a b c _ | .pgLoadNbList h g d a b c _ => some ⟨h, glen g, usePg d [a] (some b) (some c)⟩
  | .pgApp h g d a b | .pgEvict h g d a b => some ⟨h, glen g, usePg d [a] (some b) none⟩
  | .pgFork h g d a b => some ⟨h, glen g, usePg d [a, b] none none⟩
  | .pgSel h g d a b c _ _ _ => some ⟨h, glen g, usePg d [a] (some b) (some c)⟩
  | .pgSeal h g d a | .pgFree h g d a => some ⟨h, glen g, usePg d [a] none none⟩
  | .pgExt h g d a _ _ => some ⟨h, glen g, usePg d [a] none none⟩
  | .cget h d _ => some ⟨h, 8, { rd := some d }⟩
  | .cset h a _ | .csetRingcfg h a _ => some ⟨h, 8, useTest [a]⟩
  | .csetFpmode h a | .csetAgemax h a => some ⟨h, 8, useTest [a]⟩
  | .pcall h d a _ => some ⟨h, 8, useLoad d a⟩
  | .kswap h d => some ⟨h, 8, { rd := some d }⟩
  | _ => none

/-! ## When an instruction issues to its own effect -/

/-- What stands between decoding and effect (03 R96 rows 9 and 10; 03 R83; 04 R112; 11 R263; 01 R26; 04 R113): the lane modifiers fit, tile state is
used by a tile task only, the guard lets the instruction execute, every queue operand is ready, no light handler is entered, no named register is
pending, no DF-set register is used where that traps. -/
def Form.clear (f : Form) (s : State) (x : Cur) : Bool :=
  let th := thread s x.loc x.slot
  (f.u.lm.all fun q => modOk (laneCount (typeOf (Machine.core s x.loc) q.1)) q.2)
    && (!f.u.tile || th.inTask) && executes th f.h && queuesReady s x.loc th.part f.u
    && (th.qhvec == 0 || th.lact || th.priv || (ctlHead s x.loc f.u.srcs).isNone)
    && !hazard th f.u && !dfUse th f.u

/-- Whether an instruction is legal in the thread's present state: `qret` and `eret` are so in a handler only (03 R83; 11 R265; 15 R365). -/
def legalNow : Instr → Thread → Bool
  | .qret _, th => th.lact
  | .eret _, th => th.thact
  | _, _ => true

/-- The instruction issues from `x` and has its own effect. -/
structure Ready (i : Instr) (s : State) (x : Cur) : Prop where
  cur : s.cur = some x
  clear : ∃ f, formOf i = some f ∧ f.clear s x = true

/-- The operands of an instruction as read, and the state after its source queues have given up their words. -/
def argsOf (i : Instr) (s : State) (x : Cur) : Args × State :=
  match formOf i with
  | some f => readArgs s x f.u
  | none => (⟨0, 0, 0, 0, false⟩, s)

/-- The instruction completes without a branch, its effect being `t`. -/
def ends (i : Instr) (x : Cur) (t : State) : State :=
  match formOf i with
  | some f => advance t x.loc x.slot f.len f.h.sw
  | none => t

/-- The instruction completes with a taken branch; `loops` is the loop stack after it. -/
def jumps (i : Instr) (x : Cur) (t : State) (target : Word) (loops : List LoopEntry) : State :=
  match formOf i with
  | some f => goto t x.loc x.slot target loops f.h.sw
  | none => t

/-- The instruction waits for a reply, the state after its issue being `t`. -/
def parks (i : Instr) (x : Cur) (t : State) : State :=
  match formOf i with
  | some f => modTh t x.loc x.slot fun th => { th with cont := some ⟨f.len, f.h.sw, x.w0, x.w1⟩ }
  | none => t

/-! ## Accesses to a core's own memory -/

/-- `n` bytes of a core's own LM below 0x5C000 at the address `va`, aligned and not poisoned, with no access waiting on a granule anywhere and, for
an access that is not relaxed, no relaxed access outstanding; `key` is their physical address. -/
structure OwnLm (s : State) (x : Cur) (relaxed : Bool) (va n key : Nat) : Prop where
  partition : (part? s (me s x).part).isSome = true
  place : ∃ d idx, x.loc = .core d idx ∧ d < 20 ∧ idx < coresOn d ∧ key = lmKey d idx va
  inside : va + n ≤ 0x5C000
  aligned : va % n = 0
  sound : ∀ i < n, poisoned s (key + i) = false
  quiet : ∀ r ∈ s.reqs, ∀ g, r.st ≠ .feList g
  order : relaxed = true ∨ drained s x = true
  canonical : s.mem.wf = true

/-- The little-endian number in `n` bytes of memory (00 R17). -/
def numAt (s : State) (key n : Nat) : Nat := ((List.range n).map fun i => (s.mem.read (key + i)).toNat * 256 ^ i).sum

/-- The number `v` of `n` bytes as a register takes it: zero- or sign-extended. -/
def extended (n : Nat) (uns : Bool) (v : Nat) : Word :=
  BitVec.ofInt 64 (if uns ∨ 2 * v < 256 ^ n then (v : Int) else (v : Int) - (256 ^ n : Nat))

def effective (base : Word) (imm : Imm31) : Nat := (BitVec.ofInt 64 (base.toNat + imm.toInt)).toNat

/-! ## Words written out from the encoding tables (03 R81 to R93, 12 R298) -/

/-- Words that the spec writes out: their bits, the word and its instruction. -/
noncomputable def specWords : List (Nat × Nat × Instr) :=
  let h : Hdr := ⟨false, 0, false⟩
  [(64, 0xFFFFFFFA000E3811, .addi h 7 7 (-3)),
   (96, 0x0123456789ABCDEF00004832, .li h 9 0x0123456789ABCDEF),
   (96, 0x0123456789ABCDEF00004836, .li ⟨true, 0, false⟩ 9 0x0123456789ABCDEF),
   (96, 0x00000000651242890004B530, .vfma h (some ⟨3, true, .rtz, some 11⟩) 8 9 10 .none .none),
   (96, 0x00000020010C210100000014, .ld h (some ⟨.narrowest⟩) 4 6 16 .b4 false),
   (160, 0x0000000000000100000000100616540300000018, .ieCopy h (some ⟨1, false⟩) 10 11 12 256),
   (64, 0x0012A00002881A81, .vadd h none 3 4 5 .rev (.rot 5)),
   (64, 0x00000000430A4819, .lt h (.g 1) 5 6),
   (64, 0x00000200C5944829, .sel h 9 10 11 4),
   (64, 0x0000259001043839, .bfx h 7 2 true 8 11),
   (128, 0x001000000000400000000008038C0193, .decK h 0 6 7 ⟨false, false, 0x4000000001000⟩),
   (128, 0x301000000000800000000000000A21C3, .spawn h 4 5 3 false 0x4000000002000),
   (64, 0x0000000061840A01, .lanc h 1 2 3),
   (128, 0x0000000003F40010000000000004521B, .teSum h none 10 2 ⟨16, 4, 63⟩),
   (64, 0x0000000C008804C1, .csetFpmode h 4),
   (16, 0x090E, .kld 1 0 14),
   (16, 0xB000, .kend)]

end Sys2Proof
end

