-- ==== Sys2Proof/Certificates/Slice0/Obligations.lean ====
section
/-! DEFINITION. The statements for the provers. -/

open Sys2Proof Sys2Proof.Machine

/-! ## The machine as a whole -/

/-- Every step answers a next state: every instruction and event has its effect, traps included, and nothing ends a run. -/
def Obligations.StepNeverStops : Prop := ∀ s : State, SafeStep s

/-- 03 R95, R97: the turn of a core whose slot `k` is selected runs the instruction that the bytes at its program counter decode to, with the issue
slot taken before and, after, the halt count, what the host has not been shown, the moves of the label table and the kiln's PRIORITY events settled. -/
def Obligations.StepRunsDecoded : Prop :=
  ∀ (s : State) (l : Loc) (k : Fin 16) (p : Partition) (b : List Byte) (t : State) (i : Instr) (n : Nat),
    nextTurn s = some (.core l) → selectSlot (beginTurn s) l = some k → part? s (thread s l k).part = some p →
    fetchBytes (beginTurn s) l k p (thread s l k).pc.toNat = .ok b t →
    ¬ ((thread s l k).pc.toNat % 32 = 28 ∧ ofBytes (b.take 20) % 2 ^ 32 = 4) →
    decode (decodeCtx s l p) ((thread s l k).pc.toNat % 32) (ofBytes (b.take 20)) = .ok (i, n) →
    step s =
      match exec i { takeIssue t l k with
          cur := some ⟨l, k, BitVec.ofNat 64 (ofBytes (b.take 20)), BitVec.ofNat 64 (ofBytes (b.take 20) / 2 ^ 64)⟩ } with
      | .next u => .next (settleAct (countHalt u l k))
      | o => o

/-- 03 R80, R97; 08 R207, R208: a core that has fetched nothing fetches the bytes that memory holds at the program counter's physical address, through
an extent that its cache holds or a walk of the thread has brought (that the walks of an instruction keep what they bring is the model's reading, log
9), from a block that is HBM and not poisoned; memory as it stood then is what later fetches may still see (before any `ifl` that is the model's
choice, log 5). Without the extent the fetch waits for a walk. -/
def Obligations.FetchReadsMemory : Prop :=
  ∀ (s : State) (l : Loc) (k : Fin 16) (p : Partition) (pc : Nat), pc < 2 ^ 56 →
    let va := pc - pc % 32
    (∀ key i, (Machine.core s l).ifetch = none → fetchKey s l k p va = .ok key → isHbm key = true → poisoned s key = false → pc % 32 ≤ 12 → i < 20 →
      ∃ b, fetchBytes s l k p pc = .ok b (modCore (touch s ⟨l, k, 0, 0⟩ va) l fun c => { c with ifetch := some s.mem }) ∧
        b.getD i 0 = s.mem.read (key + pc % 32 + i)) ∧
    (fetchKey s l k p va = .miss → fetchBytes s l k p pc = .walk ∧
      ((thread s l k).pc.toNat = pc → selectSlot s l = some k → part? s (thread s l k).part = some p →
        coreTurn l s = .next (startWalk ⟨l, k, 0, 0⟩ va s)))

/-- 12 R300: the turn of a kiln that is deciding runs the instruction that the next half of its program decodes to, in the part of a cycle that comes
after every core's issue (05 R137; log 3). -/
def Sys2Proof.stepRunsKilnRule : Prop :=
  ∀ (s : State) (d : Nat) (r : KRun) (h : BitVec 16) (i : Instr),
    nextTurn s = some (.kiln d) → (die s d).run = some r → (die s d).fenced = false → s.phase ≠ .close →
    (s.phase = .issue → ∀ c ∈ s.cores, selectSlot (beginTurn s) c.1 = none) → r.steps < 24 → r.img.code[r.pc]? = some h →
    decodeKiln h.toNat = some i →
    step s =
      match exec i { beginTurn s with phase := .acts, kcur := some d } with
      | .next t => .next (settleAct { t with kcur := none })
      | o => o

/-- The event that the schedule brings is run as the opcode table's row says, in the part of a cycle that comes after every core's issue (04 R122, 05
R137, 11 R273; log 3); a counter snapshot comes after every other act of its cycle (16 R382), and once one has begun nothing else follows in the
cycle. While a core has still to issue, the event waits. -/
def Sys2Proof.stepRunsEventRule : Prop :=
  ∀ (s : State) (i : Instr), nextTurn s = some (.event i) → encodeFields i = [] →
    (s.phase ≠ .close → (s.phase = .issue → ∀ c ∈ s.cores, selectSlot (beginTurn s) c.1 = none) →
      (isSnapshot i = true → pending (beginTurn s) = false) →
      step s =
        match exec i { beginTurn s with phase := .acts } with
        | .next t => .next (settleAct t)
        | o => o) ∧
    ((s.phase = .issue ∧ ∃ c ∈ s.cores, (selectSlot (beginTurn s) c.1).isSome = true) ∨ (s.phase = .close ∧ isSnapshot i = false) →
      step s = .next (settleAct (beginTurn s)))

/-- 10 R258: an act of a service core on its oldest host request is run in the part of a cycle that comes after every core's issue. -/
def Sys2Proof.stepRunsServiceRule : Prop :=
  ∀ (s : State) (n : Fin 64), nextTurn s = some (.svc n) → s.phase ≠ .close → (s.phase = .issue → ∀ c ∈ s.cores, selectSlot (beginTurn s) c.1 = none) →
    step s = .next (settleAct (svcAct n { beginTurn s with phase := .acts }))

/-- 16 R382, R383; log 3: time advances by one cycle, to its issues, once no act of the present cycle is pending and no snapshot that is due has still to
begin; until then it stands. -/
def Sys2Proof.stepTicksRule : Prop :=
  ∀ s : State, nextTurn s = some .tick →
    (pending (beginTurn s) = false → snapsDue s = false →
      ∃ t, step s = .next (settleAct t) ∧ t.cycle = s.cycle + 1 ∧ t.phase = .issue ∧ t.mem = s.mem ∧ t.cores = s.cores) ∧
    (pending (beginTurn s) = true ∨ snapsDue s = true → step s = .next (settleAct (beginTurn s)))

/-- 08 R212 to R214: a soft error that an access finds poisons its granule, or its block of HBM, where it cannot be corrected, and changes no byte, no
full/empty bit and no register (when errors strike is free: log 12). -/
def Sys2Proof.stepMeetsErrorRule : Prop :=
  ∀ (s : State) (key : Nat) (found : SoftError), nextTurn s = some (.error key found) → memoryAt key = true →
    ∃ t, step s = .next (settleAct t) ∧ t.mem = s.mem ∧ t.feEmpty = s.feEmpty ∧ t.cores = s.cores ∧
      ∀ b, poisoned t b = (poisoned s b || (decide (found = .uncorrectable) && poisonUnit b == poisonUnit key))

/-- 12 R300: the turn of a kiln that is deciding runs the instruction that the next half of its program decodes to, in the part of a cycle that comes
after every core's issue (05 R137; log 3). Beside: The event that the schedule brings is run as the opcode table's row says, in the part of a cycle
that comes after every core's issue (04 R122, 05 R137, 11 R273; log 3); a counter snapshot comes after every other act of its cycle (16 R382), and
once one has begun nothing else follows in the cycle. While a core has still to issue, the event waits. Beside: 10 R258: an act of a service core on
its oldest host request is run in the part of a cycle that comes after every core's issue. Beside: 16 R382, R383; log 3: time advances by one cycle,
to its issues, once no act of the present cycle is pending and no snapshot that is due has still to begin; until then it stands. Beside: 08 R212 to
R214: a soft error that an access finds poisons its granule, or its block of HBM, where it cannot be corrected, and changes no byte, no full/empty bit
and no register (when errors strike is free: log 12). -/
def Obligations.StepRunsTurn : Prop :=
  Sys2Proof.stepRunsKilnRule ∧ Sys2Proof.stepRunsEventRule ∧ Sys2Proof.stepRunsServiceRule ∧ Sys2Proof.stepTicksRule ∧ Sys2Proof.stepMeetsErrorRule

/-- 03 R81 to R93, 12 R298: words written out from the encoding tables decode to the instructions they stand for. -/
def Obligations.DecodeSpecWords : Prop :=
  ∀ q ∈ specWords, decodeTableWord q.1 q.2.1 = some q.2.2

/-- 03 R77 to R93: decoding the encoding of a well-formed Gleral instruction gives it back with its length, whatever follows it in its fetch block. -/
def Obligations.DecodeEncode : Prop :=
  ∀ (x : DecodeCtx) (i : Instr) (off rest : Nat),
    wellFormed x i = true → (formOf i).isSome = true → off + encodeBytes i ≤ 32 →
    decode x off (encode i + 2 ^ (8 * encodeBytes i) * rest) = .ok (i, encodeBytes i)

/-- 12 R298, R299: the same of kiln instructions, and every half that decodes is the encoding of what it decodes to. -/
def Obligations.KilnDecodeEncode : Prop :=
  (∀ (x : DecodeCtx) (i : Instr), wellFormed x i = true → formOf i = none → decodeKiln (encode i) = some i) ∧
  (∀ w < 2 ^ 16, ∀ i, decodeKiln w = some i → encode i = w ∧ ∀ x, wellFormed x i = true)

/-- The memory keeps its canonical form (addresses strictly rising, no listed byte equal to what an unlisted one reads as) in every step. -/
def Obligations.StepKeepsMemory : Prop :=
  ∀ s t : State, s.mem.wf = true → step s = .next t → t.mem.wf = true

/-- 01 R20, 08 R215, 13, 16 R392: module reset leaves no partition, every slot FREE, memory zero (LM and slices by R215; HBM and flash by the model's
choice, log 2) with every granule full and unpoisoned, the measurement registers zero; the canonical form of memory holds. -/
def Obligations.ResetState : Prop :=
  State.reset.mem.wf = true ∧ (∀ a, State.reset.mem.read a = 0) ∧ (∀ a, feFull State.reset a = true) ∧ (∀ a, poisoned State.reset a = false) ∧
  State.reset.parts = [] ∧ (∀ l k, (slotAt State.reset l k).st = .free) ∧ State.reset.cycle = 0 ∧
  (∀ i : Fin 4, State.reset.meas[i] = List.replicate 64 0) ∧ State.reset.reqs = [] ∧ State.reset.msgs = []

/-! ## Issue (03 R83, R84; 04 R111 to R113; 11 R263) -/

/-- 03 R83: an instruction does not execute where p[PG] XOR PN is false (p0 reads as true): it writes nothing, marks nothing pending, queues
nothing and raises no trap, and only the program counter, the loop rule and its S bit take effect. An illegal instruction is illegal all the same (`qret` and `eret` outside a
handler: the next statement). -/
def Sys2Proof.predicatedOffRule : Prop :=
  ∀ (i : Instr) (f : Form) (s : State) (x : Cur),
    s.cur = some x → formOf i = some f →
    (∀ q ∈ f.u.lm, modOk (laneCount (typeOf (Machine.core s x.loc) q.1)) q.2 = true) → (f.u.tile = true → (me s x).inTask = true) →
    (f.h.pn = true ↔ f.h.pg = 0 ∨ (me s x).p.getLsbD f.h.pg.val = true) → legalNow i (me s x) = true →
    exec i s = .next (ends i x s)

/-- 03 R83, R96 rows 2, 9 and 10; 01 R26; 04 R112, R113; 11 R263, R265; 15 R365: before its own effect an instruction meets, in this order, the ILLEGAL
traps of `qret` and `eret` outside a handler (detail 2), of a lane modifier (detail 9) and of tile state outside a tile task (detail 10), its guard, the wait for its queues, the light handler, HAZARD, and DF-use; each
has none of the instruction's effect. The order between the wait, the light handler and HAZARD is read as log 14 says. -/
def Sys2Proof.issueChecksRule : Prop :=
  ∀ (i : Instr) (f : Form) (s : State) (x : Cur),
    s.cur = some x → formOf i = some f →
    let modifiers := ∀ q ∈ f.u.lm, modOk (laneCount (typeOf (Machine.core s x.loc) q.1)) q.2 = true
    let tile := f.u.tile = true → (me s x).inTask = true
    let light := (me s x).qhvec ≠ 0 ∧ (me s x).lact = false ∧ (me s x).priv = false
    let legal := legalNow i (me s x) = true
    (¬ legal → exec i s = .next (trapAt s x cILLEGAL 2 0)) ∧
    (¬ modifiers → exec i s = .next (trapAt s x cILLEGAL 9 0)) ∧
    (modifiers → ¬ tile → exec i s = .next (trapAt s x cILLEGAL 10 0)) ∧
    (legal → modifiers → tile → executes (me s x) f.h = true → queuesReady s x.loc (me s x).part f.u = false →
      (∀ q, f.u.outQ = some q → (Machine.core s x.loc).links[q].growing = false) → (slotAt s x.loc x.slot).halting = none →
      exec i s = .next (setSt s x.loc x.slot (.block (.queues (queueNeeds f.u) (queueRooms f.u)) s.cycle))) ∧
    (legal → modifiers → tile → executes (me s x) f.h = true → queuesReady s x.loc (me s x).part f.u = true →
      (∀ q v, light → ctlHead s x.loc f.u.srcs = some (q, v) → exec i s = .next (lightEnter s x q v)) ∧
      (¬ (light ∧ (ctlHead s x.loc f.u.srcs).isSome = true) →
        (hazard (me s x) f.u = true → exec i s = .next (trapAt s x cHAZARD 0 0)) ∧
        (hazard (me s x) f.u = false → dfUse (me s x) f.u = true → exec i s = .next (trapAt s x cDFUSE 0 0))))

/-- 03 R83: an instruction does not execute where p[PG] XOR PN is false (p0 reads as true): it writes nothing, marks nothing pending, queues nothing
and raises no trap, and only the program counter, the loop rule and its S bit take effect. An illegal instruction is illegal all the same (`qret` and
`eret` outside a handler: the next statement). Beside: 03 R83, R96 rows 2, 9 and 10; 01 R26; 04 R112, R113; 11 R263, R265; 15 R365: before its own
effect an instruction meets, in this order, the ILLEGAL traps of `qret` and `eret` outside a handler (detail 2), of a lane modifier (detail 9) and of
tile state outside a tile task (detail 10), its guard, the wait for its queues, the light handler, HAZARD, and DF-use; each has none of the
instruction's effect. The order between the wait, the light handler and HAZARD is read as log 14 says. -/
def Obligations.IssueOrder : Prop :=
  Sys2Proof.predicatedOffRule ∧ Sys2Proof.issueChecksRule

/-- 11 R263: entry to the light handler dequeues the control word, saves it in LVAL, the queue in LDIR and the instruction's address in LRET, sets
LACT, and goes on at QHVEC; no scalar register, predicate, mode or loop entry changes. -/
def Sys2Proof.lightEntryRule : Prop :=
  ∀ (s : State) (x : Cur) (q : Fin 4) (v : Word),
    let t := thread (lightEnter s x q v) x.loc x.slot
    let o := me (dequeue s x.loc (me s x).part q) x
    t = { o with lval := v, ldir := BitVec.ofNat 2 q.val, lret := o.pc.setWidth 56, lact := true, pc := o.qhvec, walk := .none } ∧
      (lightEnter s x q v).mem = s.mem ∧ thread (dequeue s x.loc (me s x).part q) x.loc x.slot = me s x

/-- 03 R84, 04 R111: a source register that is no queue reads as it stands and changes nothing; s0 reads as zero. -/
def Sys2Proof.readRegisterRule : Prop :=
  ∀ (s : State) (x : Cur) (r : SReg),
    ¬ (24 ≤ r.val ∧ r.val ≤ 27) → readSrc s x (some r) = (if r = 0 then 0 else (me s x).s[r], s)

/-- 04 R112, 11 R261: a source that names a queue takes the oldest word of the link toward this core, and the next word follows it. -/
def Sys2Proof.readQueueRule : Prop :=
  ∀ (s : State) (x : Cur) (q : Fin 4) (m : Loc) (e : Fin 4) (w : LinkWord) (rest : List LinkWord),
    inboundOf x.loc q = some (m, e) → (Machine.core s m).links[e].words = w :: rest → w.ready ≤ s.cycle →
    let r := readSrc s x (some (Fin.ofNat 32 (24 + q.val)))
    r.1 = w.v ∧ (Machine.core r.2 m).links[e].words = rest ∧ r.2.mem = s.mem ∧ me r.2 x = me s x

/-- 03 R84; 04 R111, R113: a scalar result is written with its DF bit, s0 discards it, and every other register, DF bit, flag and byte stands. -/
def Sys2Proof.writeRegisterRule : Prop :=
  ∀ (s : State) (x : Cur) (r r' : SReg) (v : Word) (df : Bool),
    ¬ (24 ≤ r.val ∧ r.val ≤ 27) →
    let t := putS s x r v df
    t.mem = s.mem ∧
    (me t x).s[r'] = (if r' = r ∧ r ≠ 0 then v else (me s x).s[r']) ∧
    (me t x).sdf.getLsbD r'.val = (if r' = r ∧ r ≠ 0 then df else (me s x).sdf.getLsbD r'.val) ∧
    (∃ g d, me t x = { me s x with s := g, sdf := d }) ∧
    ∀ l k, (l, k) ≠ (x.loc, x.slot) → slotAt t l k = slotAt s l k

/-- 04 R112; 11 R260 to R262: a result for a queue is one data word at the end of the outbound link, or of its spoil while it grows, which the
neighbour may take two cycles later. -/
def Sys2Proof.writeQueueRule : Prop :=
  ∀ (s : State) (x : Cur) (q : Fin 4) (v : Word) (df : Bool),
    let t := putS s x (Fin.ofNat 32 (24 + q.val)) v df
    let o := (Machine.core s x.loc).links[q]
    let n := (Machine.core t x.loc).links[q]
    t.mem = s.mem ∧ me t x = me s x ∧
    n.words ++ n.spoiled = (if o.growing then o.words ++ (o.spoiled ++ [⟨v, false, s.cycle + 2⟩]) else (o.words ++ [⟨v, false, s.cycle + 2⟩]) ++ o.spoiled) ∧
    (o.growing = false → n.spoiled = o.spoiled)

/-- 03 R84, 04 R111: a source register that is no queue reads as it stands and changes nothing; s0 reads as zero. Beside: 04 R112, 11 R261: a source
that names a queue takes the oldest word of the link toward this core, and the next word follows it. Beside: 03 R84; 04 R111, R113: a scalar result is
written with its DF bit, s0 discards it, and every other register, DF bit, flag and byte stands. Beside: 04 R112; 11 R260 to R262: a result for a
queue is one data word at the end of the outbound link, or of its spoil while it grows, which the neighbour may take two cycles later. -/
def Obligations.Operands : Prop :=
  Sys2Proof.readRegisterRule ∧ Sys2Proof.readQueueRule ∧ Sys2Proof.writeRegisterRule ∧ Sys2Proof.writeQueueRule

/-- 05 R147: an instruction of `len` bytes whose parcels include END of the innermost loop entry, and that took no branch, goes on at START with
COUNT one less, or, where COUNT is 0, at END + 4 with the entry popped; any other goes on at the next instruction. -/
def Sys2Proof.loopEndRule : Prop :=
  ∀ (i : Instr) (f : Form) (x : Cur) (t : State),
    formOf i = some f → f.h.sw = false →
    let th := thread t x.loc x.slot
    let u := thread (ends i x t) x.loc x.slot
    (∀ e r, th.loops = e :: r → th.pc ≤ e.fin ∧ e.fin < th.pc + BitVec.ofNat 64 f.len →
      (e.count ≠ 0 → u.pc = e.start ∧ u.loops = ⟨e.start, e.fin, e.count - 1⟩ :: r) ∧ (e.count = 0 → u.pc = e.fin + 4 ∧ u.loops = r)) ∧
    ((∀ e r, th.loops = e :: r → ¬ (th.pc ≤ e.fin ∧ e.fin < th.pc + BitVec.ofNat 64 f.len)) →
      u.pc = th.pc + BitVec.ofNat 64 f.len ∧ u.loops = th.loops)

/-- 01 R25, R28: the end of an instruction without its S bit changes the program counter and the loop stack only; with it and nothing
outstanding, the pending marks clear too; with results outstanding the slot enters PARK-SW. -/
def Sys2Proof.runEndRule : Prop :=
  ∀ (i : Instr) (f : Form) (x : Cur) (t : State),
    formOf i = some f →
    let th := thread t x.loc x.slot
    let n := loopNext th.pc f.len th.loops
    (f.h.sw = false → ends i x t = modTh t x.loc x.slot fun th => { th with pc := n.1, loops := n.2, cont := none, walk := .none }) ∧
    (f.h.sw = true → th.outs = [] → th.runErr = none →
      me (ends i x t) x = { th with pc := n.1, loops := n.2, cont := none, walk := .none, spnd := 0, lpnd := 0, vpnd := 0, runErr := none } ∧
        (slotAt (ends i x t) x.loc x.slot).st = (slotAt t x.loc x.slot).st) ∧
    (f.h.sw = true → th.outs ≠ [] →
      me (ends i x t) x = { th with pc := n.1, loops := n.2, cont := none, walk := .none } ∧ (slotAt (ends i x t) x.loc x.slot).st = .parkSw)

/-- 05 R147: an instruction of `len` bytes whose parcels include END of the innermost loop entry, and that took no branch, goes on at START with COUNT
one less, or, where COUNT is 0, at END + 4 with the entry popped; any other goes on at the next instruction. Beside: 01 R25, R28: the end of an
instruction without its S bit changes the program counter and the loop stack only; with it and nothing outstanding, the pending marks clear too; with
results outstanding the slot enters PARK-SW. -/
def Obligations.InstructionEnd : Prop :=
  Sys2Proof.loopEndRule ∧ Sys2Proof.runEndRule

/-! ## Trap entry and return (15 R362 to R365; 05 R150) -/

/-- What the trap registers hold after a trap (15 R362). -/
def Sys2Proof.savedBy (s : State) (x : Cur) (cause detail : Nat) (addr : Word) (t : State) : Prop :=
  let u := me t x
  u.tcause = BitVec.ofNat 64 (cause + detail * 65536) ∧ u.tpc = (me s x).pc ∧ u.tword0 = x.w0 ∧ u.tword1 = x.w1 ∧ u.taddr = addr ∧
    u.spnd = 0 ∧ u.lpnd = 0 ∧ u.vpnd = 0

/-- What a trap leaves alone: the registers, their DF bits, the loop stack, the light state, the guard slots, the mode, every other slot of every core,
and memory (15 R362). -/
def Sys2Proof.keptBy (s : State) (x : Cur) (t : State) : Prop :=
  let o := me s x
  let u := me t x
  u.s = o.s ∧ u.l = o.l ∧ u.p = o.p ∧ u.g = o.g ∧ u.loops = o.loops ∧ u.sdf = o.sdf ∧ u.ldf = o.ldf ∧ u.fpmode = o.fpmode ∧ u.qos = o.qos ∧
    u.tvec = o.tvec ∧ u.qhvec = o.qhvec ∧ u.tpra = o.tpra ∧ u.ckptid = o.ckptid ∧ u.lact = o.lact ∧ u.ldir = o.ldir ∧ u.lret = o.lret ∧
    u.lval = o.lval ∧ u.priv = o.priv ∧ t.mem = s.mem ∧ ∀ l k, (l, k) ≠ (x.loc, x.slot) → slotAt t l k = slotAt s l k

/-- 15 R362: a precise trap saves its cause, detail, the instruction's address and 128 bits and the faulting address, clears the pending marks, and
goes on at PVEC in privileged mode, at TVEC in user mode where the cause is routed there and TVEC is not 0 (THACT is then 1), and otherwise
halts the slot; a trap while THACT is 1 is DOUBLE, its DETAIL[7:0] the second trap's cause (R363). It waits while a long-latency result is outstanding. -/
def Sys2Proof.trapEntryRule : Prop :=
  ∀ (s : State) (x : Cur) (cause detail addr : Nat),
    cause < 256 → detail < 65536 → addr < 2 ^ 56 → (me s x).outs = [] →
    let t := trapAt s x cause detail addr
    let toVector := cause ≠ cMEMERR ∧ cause ≠ cBRK ∧ cause ≠ cDOUBLE
    keptBy s x t ∧
    ((me s x).thact = false → savedBy s x cause detail (BitVec.ofNat 64 addr) t) ∧
    ((me s x).thact = false → (me s x).priv = true →
      (me t x).pc = (Machine.core s x.loc).pvec ∧ (me t x).thact = true ∧ (slotAt t x.loc x.slot).st = .run) ∧
    ((me s x).thact = false → (me s x).priv = false → toVector → (me s x).tvec ≠ 0 →
      (me t x).pc = (me s x).tvec ∧ (me t x).thact = true ∧ (slotAt t x.loc x.slot).st = .run) ∧
    ((me s x).thact = false → (me s x).priv = false → ¬ (toVector ∧ (me s x).tvec ≠ 0) →
      (slotAt t x.loc x.slot).st = .halt ∧ (me t x).thact = false) ∧
    ((me s x).thact = true →
      savedBy s x cDOUBLE (cause + detail / 256 * 256) (BitVec.ofNat 64 addr) t ∧ (slotAt t x.loc x.slot).st = .halt ∧ (me t x).thact = true)

/-- 01 R26; 15 R362: with a long-latency result outstanding the trap waits, entered by the write of the last of them. -/
def Sys2Proof.trapWaitsRule : Prop :=
  ∀ (s : State) (x : Cur) (cause detail addr : Nat),
    (me s x).outs ≠ [] →
    let t := trapAt s x cause detail addr
    (me t x).pendTrap = some ⟨cause, detail, (me s x).pc, x.w0, x.w1, BitVec.ofNat 64 (addr % 2 ^ 56), none, none, false⟩ ∧
      (me t x).outs = (me s x).outs ∧ (me t x).pc = (me s x).pc ∧
      ∀ l k p, (thread s l k).outs = [] → (thread s l k).pendTrap = some p → lastResult s l k = enterTrap s l k p

/-- 12 R290, R291; 15 R362: a trap that halts its slot puts a FAULT event with the cause and detail in its die's queue. -/
def Sys2Proof.trapEventRule : Prop :=
  ∀ (s : State) (x : Cur) (cause detail addr : Nat),
    (me s x).outs = [] → (me s x).thact = false → (me s x).priv = false → ¬ (routesToVector cause = true ∧ (me s x).tvec ≠ 0) →
    dieOf x.loc < 20 → (die s (dieOf x.loc)).events.length < 64 → (die s (dieOf x.loc)).held = [] →
    ∃ e, (die (trapAt s x cause detail addr) (dieOf x.loc)).events = (die s (dieOf x.loc)).events ++ [e] ∧
      e.kind = .fault ∧ e.pid = (me s x).part ∧ e.cause = cause ∧ e.detail = detail ∧ e.who = some (x.loc, x.slot.val) ∧ e.thid = (me s x).thid

/-- 15 R365: `eret` with THACT = 1 clears THACT and goes on at TPC with bits [1:0] zero; it changes no mode, no register and no loop entry. With
THACT = 0 it raises ILLEGAL with detail 2. -/
def Sys2Proof.eretRule : Prop :=
  ∀ (h : Hdr) (s : State) (x : Cur), Ready (.eret h) s x →
    ((me s x).thact = true →
      exec (.eret h) s = .next (jumps (.eret h) x (modTh s x.loc x.slot fun th => { th with thact := false })
        ((me s x).tpc - BitVec.ofNat 64 ((me s x).tpc.toNat % 4)) (me s x).loops)) ∧
    ((me s x).thact = false → exec (.eret h) s = .next (trapAt s x cILLEGAL 2 0))

/-- 15 R362: a precise trap saves its cause, detail, the instruction's address and 128 bits and the faulting address, clears the pending marks, and
goes on at PVEC in privileged mode, at TVEC in user mode where the cause is routed there and TVEC is not 0 (THACT is then 1), and otherwise halts the
slot; a trap while THACT is 1 is DOUBLE, its DETAIL[7:0] the second trap's cause (R363). It waits while a long-latency result is outstanding. Beside:
01 R26; 15 R362: with a long-latency result outstanding the trap waits, entered by the write of the last of them. Beside: 12 R290, R291; 15 R362: a
trap that halts its slot puts a FAULT event with the cause and detail in its die's queue. Beside: 15 R365: `eret` with THACT = 1 clears THACT and goes
on at TPC with bits [1:0] zero; it changes no mode, no register and no loop entry. With THACT = 0 it raises ILLEGAL with detail 2. -/
def Obligations.Traps : Prop :=
  Sys2Proof.trapEntryRule ∧ Sys2Proof.trapWaitsRule ∧ Sys2Proof.trapEventRule ∧ Sys2Proof.eretRule

/-! ## The scalar families (05) -/

/-- Wherever `i` issues it completes with the value `f` of its operands in `d`, the DF bit being the OR of its sources' DF bits (04 R113). -/
def Sys2Proof.computes (i : Instr) (d : SReg) (f : Args → Word) : Prop :=
  ∀ s x, Ready i s x → exec i s = .next (ends i x (putS (argsOf i s x).2 x d (f (argsOf i s x).1) (argsOf i s x).1.df))

/-- The same of a long result: `lat` cycles after issue the value and the flags are written (05 R131). -/
def Sys2Proof.computesLong (i : Instr) (d : SReg) (lat : Nat) (f : Thread → Args → Word × BitVec 5) : Prop :=
  ∀ s x, Ready i s x →
    let r := argsOf i s x
    let v := f (me s x) r.1
    exec i s = .next (ends i x (addLong r.2 x.loc x.slot ⟨.alu, some (s.cycle + lat), [.s d v.1 r.1.df], v.2⟩))

/-- Wherever `i` issues it completes with the truth value `f` of its operands in the predicate or guard slot `d`. -/
def Sys2Proof.decides (i : Instr) (d : PDst) (f : Thread → Args → Bool) : Prop :=
  ∀ s x, Ready i s x → exec i s = .next (ends i x (putP (argsOf i s x).2 x d (f (me s x) (argsOf i s x).1)))

/-- Wherever `i` issues it completes with an FP32 value in `d`, bits [63:32] zero, and ORs its flags into FPMODE. -/
def Sys2Proof.computesFp (i : Instr) (d : SReg) (f : Rnd → Args → Nat × BitVec 5) : Prop :=
  ∀ s x, Ready i s x →
    let r := argsOf i s x
    let v := f (modeOf (me s x)) r.1
    exec i s = .next (ends i x (modTh (putS r.2 x d (BitVec.ofNat 64 (v.1 % 2 ^ 32)) r.1.df) x.loc x.slot (orFlags v.2)))

/-- 05 R132: the results of ALU but for the long divisions. -/
def Sys2Proof.aluResultsRule : Prop :=
  ∀ (h : Hdr) (d a b : SReg),
    computes (.add h d a b) d (fun v => BitVec.ofNat 64 (v.a.toNat + v.b.toNat)) ∧
    computes (.sub h d a b) d (fun v => BitVec.ofInt 64 ((v.a.toNat : Int) - (v.b.toNat : Int))) ∧
    computes (.and h d a b) d (fun v => v.a &&& v.b) ∧
    computes (.or h d a b) d (fun v => v.a ||| v.b) ∧
    computes (.xor h d a b) d (fun v => v.a ^^^ v.b) ∧
    computes (.andn h d a b) d (fun v => v.a &&& (v.b ^^^ BitVec.allOnes 64)) ∧
    computes (.shl h d a b) d (fun v => BitVec.ofNat 64 (v.a.toNat * 2 ^ (v.b.toNat % 64))) ∧
    computes (.shr h d a b) d (fun v => BitVec.ofNat 64 (v.a.toNat / 2 ^ (v.b.toNat % 64))) ∧
    computes (.sra h d a b) d (fun v => BitVec.ofInt 64 (v.a.toInt / (2 ^ (v.b.toNat % 64) : Nat))) ∧
    computes (.rol h d a b) d (fun v => BitVec.ofNat 64 (v.a.toNat * 2 ^ (v.b.toNat % 64) + v.a.toNat / 2 ^ (64 - v.b.toNat % 64))) ∧
    computes (.min h d a b) d (fun v => if v.a.toInt ≤ v.b.toInt then v.a else v.b) ∧
    computes (.max h d a b) d (fun v => if v.a.toInt ≤ v.b.toInt then v.b else v.a) ∧
    computes (.minn h d a b) d (fun v => if v.a.toNat ≤ v.b.toNat then v.a else v.b) ∧
    computes (.maxn h d a b) d (fun v => if v.a.toNat ≤ v.b.toNat then v.b else v.a) ∧
    computes (.mul h d a b) d (fun v => BitVec.ofNat 64 (v.a.toNat * v.b.toNat)) ∧
    computes (.mulh h d a b) d (fun v => (v.a.signExtend 128 * v.b.signExtend 128).extractLsb' 64 64) ∧
    computes (.mulhn h d a b) d (fun v => (v.a.setWidth 128 * v.b.setWidth 128).extractLsb' 64 64) ∧
    computes (.clz h d a) d (fun v => BitVec.ofNat 64 ((List.range 64).takeWhile fun i => !v.a.getLsbD (63 - i)).length) ∧
    computes (.ctz h d a) d (fun v => BitVec.ofNat 64 ((List.range 64).takeWhile fun i => !v.a.getLsbD i).length) ∧
    computes (.popc h d a) d (fun v => BitVec.ofNat 64 ((List.range 64).filter fun i => v.a.getLsbD i).length) ∧
    computes (.bswap h d a) d (fun v => BitVec.ofNat 64 ((List.range 8).map fun i => v.a.toNat / 2 ^ (56 - 8 * i) % 256 * 2 ^ (8 * i)).sum)

/-- 05 R134: the immediate forms, b being IMM sign-extended, and the shifts by an immediate of 0 to 63. -/
def Sys2Proof.aluImmediateResultsRule : Prop :=
  ∀ (h : Hdr) (d a : SReg) (imm : Imm31) (k : Fin 64),
    computes (.addi h d a imm) d (fun v => BitVec.ofInt 64 (v.a.toNat + imm.toInt)) ∧
    computes (.andi h d a imm) d (fun v => v.a &&& BitVec.ofInt 64 imm.toInt) ∧
    computes (.ori h d a imm) d (fun v => v.a ||| BitVec.ofInt 64 imm.toInt) ∧
    computes (.xori h d a imm) d (fun v => v.a ^^^ BitVec.ofInt 64 imm.toInt) ∧
    computes (.shli h d a k) d (fun v => BitVec.ofNat 64 (v.a.toNat * 2 ^ k.val)) ∧
    computes (.shri h d a k) d (fun v => BitVec.ofNat 64 (v.a.toNat / 2 ^ k.val)) ∧
    computes (.srai h d a k) d (fun v => BitVec.ofInt 64 (v.a.toInt / (2 ^ k.val : Nat))) ∧
    computes (.roli h d a k) d (fun v => BitVec.ofNat 64 (v.a.toNat * 2 ^ k.val + v.a.toNat / 2 ^ (64 - k.val))) ∧
    computes (.mini h d a imm) d (fun v => if v.a.toInt ≤ imm.toInt then v.a else BitVec.ofInt 64 imm.toInt) ∧
    computes (.maxi h d a imm) d (fun v => if v.a.toInt ≤ imm.toInt then BitVec.ofInt 64 imm.toInt else v.a) ∧
    computes (.muli h d a imm) d (fun v => BitVec.ofInt 64 (v.a.toInt * imm.toInt))

/-- 05 R131 to R133: the long divisions, with division by zero, the overflow of the signed quotient, and DZ. -/
def Sys2Proof.divisionResultsRule : Prop :=
  ∀ (h : Hdr) (d a b : SReg),
    let dz (v : Args) : BitVec 5 := if v.b = 0 then 2 else 0
    computesLong (.div h d a b) d 28 (fun _ v => (if v.b = 0 then BitVec.allOnes 64 else v.a.sdiv v.b, dz v)) ∧
    computesLong (.divn h d a b) d 28 (fun _ v => (if v.b = 0 then BitVec.allOnes 64 else v.a.udiv v.b, dz v)) ∧
    computesLong (.rem h d a b) d 28 (fun _ v => (if v.b = 0 then v.a else v.a - v.b * v.a.sdiv v.b, dz v)) ∧
    computesLong (.remn h d a b) d 28 (fun _ v => (if v.b = 0 then v.a else v.a - v.b * v.a.udiv v.b, dz v))

/-- 05 R132: the results of ALU but for the long divisions. Beside: 05 R134: the immediate forms, b being IMM sign-extended, and the shifts by an
immediate of 0 to 63. Beside: 05 R131 to R133: the long divisions, with division by zero, the overflow of the signed quotient, and DZ. -/
def Obligations.ArithmeticResults : Prop :=
  Sys2Proof.aluResultsRule ∧ Sys2Proof.aluImmediateResultsRule ∧ Sys2Proof.divisionResultsRule

/-- 05 R135: the comparisons, the immediate being sign-extended in every form. -/
def Sys2Proof.compareResultsRule : Prop :=
  ∀ (h : Hdr) (d : PDst) (a b : SReg) (imm : Imm31),
    decides (.eq h d a b) d (fun _ v => decide (v.a.toNat = v.b.toNat)) ∧
    decides (.ne h d a b) d (fun _ v => decide (v.a.toNat ≠ v.b.toNat)) ∧
    decides (.lt h d a b) d (fun _ v => decide (v.a.toInt < v.b.toInt)) ∧
    decides (.le h d a b) d (fun _ v => decide (v.a.toInt ≤ v.b.toInt)) ∧
    decides (.ltn h d a b) d (fun _ v => decide (v.a.toNat < v.b.toNat)) ∧
    decides (.len h d a b) d (fun _ v => decide (v.a.toNat ≤ v.b.toNat)) ∧
    decides (.eqi h d a imm) d (fun _ v => decide (v.a.toInt = imm.toInt)) ∧
    decides (.nei h d a imm) d (fun _ v => decide (v.a.toInt ≠ imm.toInt)) ∧
    decides (.lti h d a imm) d (fun _ v => decide (v.a.toInt < imm.toInt)) ∧
    decides (.lei h d a imm) d (fun _ v => decide (v.a.toInt ≤ imm.toInt)) ∧
    decides (.ltni h d a imm) d (fun _ v => decide (v.a.toNat < (BitVec.ofInt 64 imm.toInt).toNat)) ∧
    decides (.leni h d a imm) d (fun _ v => decide (v.a.toNat ≤ (BitVec.ofInt 64 imm.toInt).toNat))

/-- 03 R84; 05 R136, R137: the predicate forms, `pmov` to UNSET, and what a write of a predicate or guard slot changes: p0 discards it. -/
def Sys2Proof.predicateResultsRule : Prop :=
  (∀ (h : Hdr) (d : PDst) (a b : PReg) (k : GReg),
    let p (th : Thread) (r : PReg) : Bool := r == 0 || th.p.getLsbD r.val
    decides (.pand h d a b) d (fun th _ => p th a && p th b) ∧
    decides (.por h d a b) d (fun th _ => p th a || p th b) ∧
    decides (.pxor h d a b) d (fun th _ => p th a != p th b) ∧
    decides (.pandn h d a b) d (fun th _ => p th a && !p th b) ∧
    decides (.pnot h d a) d (fun th _ => !p th a) ∧
    decides (.pmov h d (.p a)) d (fun th _ => p th a) ∧
    ∀ s x, Ready (.pmov h (.g k) .unset) s x →
      exec (.pmov h (.g k) .unset) s =
        .next (ends (.pmov h (.g k) .unset) x (modTh s x.loc x.slot fun th => { th with g := th.g.set k .unset }))) ∧
  (∀ (s : State) (x : Cur) (v : Bool) (r r' : PReg),
    let t := putP s x (.p r) v
    (∃ p, t = modTh s x.loc x.slot fun th => { th with p := p }) ∧
    (me t x).p.getLsbD r'.val = if r' = r ∧ r ≠ 0 then v else (me s x).p.getLsbD r'.val) ∧
  (∀ (s : State) (x : Cur) (v : Bool) (k : GReg),
    let t := putP s x (.g k) v
    t.mem = s.mem ∧ me t x = { me s x with g := (me s x).g.set k (if v then .tt else .ff) } ∧
    ∀ l j, (l, j) ≠ (x.loc, x.slot) → slotAt t l j = slotAt s l j)

/-- 05 R135: the comparisons, the immediate being sign-extended in every form. Beside: 03 R84; 05 R136, R137: the predicate forms, `pmov` to UNSET,
and what a write of a predicate or guard slot changes: p0 discards it. -/
def Obligations.ComparesAndPredicates : Prop :=
  Sys2Proof.compareResultsRule ∧ Sys2Proof.predicateResultsRule

/-- 05 R138: `li` gives IMM, `lipc` the sum of the instruction's address and IMM modulo 2^64, with the DF bit clear. -/
def Sys2Proof.loadImmediateRule : Prop :=
  ∀ (h : Hdr) (d : SReg) (imm : Word) (s : State) (x : Cur),
    (Ready (.li h d imm) s x → exec (.li h d imm) s = .next (ends (.li h d imm) x (putS s x d imm false))) ∧
    (Ready (.lipc h d imm) s x →
      exec (.lipc h d imm) s = .next (ends (.lipc h d imm) x (putS s x d (BitVec.ofNat 64 ((me s x).pc.toNat + imm.toNat)) false)))

/-- 05 R136, R139: `sel` and the bit fields; fields run on above bit 63 as zeros, and are cut there when inserted. -/
def Sys2Proof.bitFieldResultsRule : Prop :=
  ∀ (h : Hdr) (d a b : SReg) (p : PReg) (sg : Bool) (lsb wm1 : Fin 64),
    let w := wm1.val + 1
    let signed (n : Nat) : Word := BitVec.ofInt 64 (if n < 2 ^ wm1.val then (n : Int) else (n : Int) - (2 ^ w : Nat))
    (∀ s x, Ready (.sel h d a b p) s x →
      let r := argsOf (.sel h d a b p) s x
      exec (.sel h d a b p) s =
        .next (ends (.sel h d a b p) x (putS r.2 x d (if p = 0 ∨ (me s x).p.getLsbD p.val = true then r.1.a else r.1.b) r.1.df))) ∧
    computes (.sext h d a wm1) d (fun v => signed (v.a.toNat % 2 ^ w)) ∧
    computes (.zext h d a wm1) d (fun v => BitVec.ofNat 64 (v.a.toNat % 2 ^ w)) ∧
    computes (.bfx h d a sg lsb wm1) d (fun v =>
      let n := v.a.toNat / 2 ^ lsb.val % 2 ^ w
      if sg then signed n else BitVec.ofNat 64 n) ∧
    computes (.bfi h d a lsb wm1) d (fun v =>
      BitVec.ofNat 64 (v.d.toNat % 2 ^ lsb.val + v.a.toNat % 2 ^ w * 2 ^ lsb.val + v.d.toNat / 2 ^ (lsb.val + w) * 2 ^ (lsb.val + w)))

/-- 05 R138: `li` gives IMM, `lipc` the sum of the instruction's address and IMM modulo 2^64, with the DF bit clear. Beside: 05 R136, R139: `sel` and
the bit fields; fields run on above bit 63 as zeros, and are cut there when inserted. -/
def Obligations.ImmediatesAndFields : Prop :=
  Sys2Proof.loadImmediateRule ∧ Sys2Proof.bitFieldResultsRule

/-- 05 R140, R141: FALU, exactly and then rounded once; its special operands. -/
def Obligations.FpResults : Prop :=
  (∀ (h : Hdr) (d a b : SReg),
    computesFp (.fadd h d a b) d (fun m v => roundArith fp32 m ((fp32.val (f32 v.a)).add m (fp32.val (f32 v.b)))) ∧
    computesFp (.fsub h d a b) d (fun m v => roundArith fp32 m ((fp32.val (f32 v.a)).add m (fp32.val (f32 v.b)).neg)) ∧
    computesFp (.fmul h d a b) d (fun m v => roundArith fp32 m ((fp32.val (f32 v.a)).mul (fp32.val (f32 v.b)))) ∧
    computesFp (.fma h d a b) d (fun m v =>
      roundArith fp32 m (((fp32.val (f32 v.a)).mul (fp32.val (f32 v.b))).add m (fp32.val (f32 v.d)))) ∧
    computesFp (.fmin h d a b) d (fun _ v => (fpMinMax fp32 false (f32 v.a) (f32 v.b), 0)) ∧
    computesFp (.fmax h d a b) d (fun _ v => (fpMinMax fp32 true (f32 v.a) (f32 v.b), 0)) ∧
    computesFp (.fabs h d a) d (fun _ v => (if 0x7F800000 < f32 v.a % 2 ^ 31 then 0x7FC00000 else f32 v.a % 2 ^ 31, 0)) ∧
    computesFp (.fneg h d a) d (fun _ v => (if 0x7F800000 < f32 v.a % 2 ^ 31 then 0x7FC00000 else (f32 v.a + 2 ^ 31) % 2 ^ 32, 0)) ∧
    computesLong (.fdiv h d a b) d 16 (fun th v =>
      let r := fpDiv fp32 (modeOf th) (f32 v.a) (f32 v.b)
      (BitVec.ofNat 64 (r.1 % 2 ^ 32), r.2)) ∧
    computesLong (.fsqrt h d a) d 16 (fun th v =>
      let r := fpSqrt fp32 (modeOf th) (f32 v.a)
      (BitVec.ofNat 64 (r.1 % 2 ^ 32), r.2))) ∧
  (∀ (m : Rnd) (a b c : Nat),
    let nan (n : Nat) : Prop := 0x7F800000 < n % 2 ^ 31
    let inf (n : Nat) : Prop := n % 2 ^ 31 = 0x7F800000
    let zero (n : Nat) : Prop := n % 2 ^ 31 = 0
    let neg (n : Nat) : Prop := n / 2 ^ 31 % 2 = 1
    (nan a ∨ nan b → fpAdd fp32 m a b = (0x7FC00000, 1) ∧ fpSub fp32 m a b = (0x7FC00000, 1) ∧ fpMul fp32 m a b = (0x7FC00000, 1) ∧
      fpDiv fp32 m a b = (0x7FC00000, 1)) ∧
    (nan a ∨ nan b ∨ nan c → fpFma fp32 m a b c = (0x7FC00000, 1)) ∧
    (inf a ∧ zero b ∨ zero a ∧ inf b → fpMul fp32 m a b = (0x7FC00000, 1) ∧ fpFma fp32 m a b c = (0x7FC00000, 1)) ∧
    (zero a ∧ zero b ∨ inf a ∧ inf b → fpDiv fp32 m a b = (0x7FC00000, 1)) ∧
    (¬ nan a → ¬ inf a → ¬ zero a → zero b →
      fpDiv fp32 m a b = (if neg a ↔ neg b then 0x7F800000 else 0xFF800000, 2)) ∧
    (inf a ∧ inf b → (neg a ↔ ¬ neg b) → fpAdd fp32 m a b = (0x7FC00000, 1)) ∧
    (nan a → fpSqrt fp32 m a = (0x7FC00000, 1)) ∧
    (zero a → neg a → fpSqrt fp32 m a = (0x80000000, 0)) ∧
    (neg a → ¬ nan a → ¬ zero a → fpSqrt fp32 m a = (0x7FC00000, 1)) ∧
    (nan a → ¬ nan b → fpMinMax fp32 false a b = b ∧ fpMinMax fp32 true a b = b ∧ fpMinMax fp32 false b a = b ∧ fpMinMax fp32 true b a = b) ∧
    (nan a → nan b → fpMinMax fp32 false a b = 0x7FC00000 ∧ fpMinMax fp32 true a b = 0x7FC00000)) ∧
  fpMinMax fp32 false 0 0x80000000 = 0x80000000 ∧ fpMinMax fp32 false 0x80000000 0 = 0x80000000 ∧
  fpMinMax fp32 true 0 0x80000000 = 0 ∧ fpMinMax fp32 true 0x80000000 0 = 0

/-- 05 R142, R143: FCMP and FCVT, with the table of R143. -/
def Obligations.FpCompareConvert : Prop :=
  (∀ (h : Hdr) (d : PDst) (a b : SReg),
    let cmp (i : Instr) (f : FpVal → FpVal → Bool) (nv : Bool) : Prop :=
      ∀ s x, Ready i s x →
        let r := argsOf i s x
        let u := fp32.val (f32 r.1.a)
        let v := fp32.val (f32 r.1.b)
        exec i s = .next (ends i x (modTh (putP r.2 x d (f u v)) x.loc x.slot (orFlags (if nv ∧ (u.isNan = true ∨ v.isNan = true) then 1 else 0))))
    cmp (.feq h d a b) (fun u v => !u.isNan && !v.isNan && decide (u.cmp v = 0)) false ∧
    cmp (.flt h d a b) (fun u v => !u.isNan && !v.isNan && decide (u.cmp v < 0)) true ∧
    cmp (.fle h d a b) (fun u v => !u.isNan && !v.isNan && decide (u.cmp v ≤ 0)) true ∧
    cmp (.funord h d a b) (fun u v => u.isNan || v.isNan) false) ∧
  (∀ (h : Hdr) (src dst : CvtFmt) (d a : SReg) (s : State) (x : Cur), Ready (.fcvt h src dst d a) s x →
    let r := argsOf (.fcvt h src dst d a) s x
    let v := cvtDst (modeOf (me s x)) dst (cvtSrc src r.1.a)
    exec (.fcvt h src dst d a) s = .next (ends (.fcvt h src dst d a) x (modTh (putS r.2 x d v.1 r.1.df) x.loc x.slot (orFlags v.2)))) ∧
  cvtDst .rne .i32 (cvtSrc .fp32 0x40200000) = (2, 16) ∧
  (∀ m, cvtDst m .i32 (cvtSrc .fp32 0x4F32D05E) = (0x7FFFFFFF, 1)) ∧
  cvtDst .rup .i32 (cvtSrc .fp32 0xBF000000) = (0, 16) ∧
  (∀ m, cvtDst m .n32 (cvtSrc .fp32 0xBF800000) = (0, 1)) ∧
  (∀ m, cvtDst m .i64 (cvtSrc .fp32 0x7FC00000) = (0, 1)) ∧
  cvtDst .rne .bf16 (cvtSrc .fp32 0x7F7FFFFF) = (0x7F80, 20) ∧
  cvtDst .rtz .bf16 (cvtSrc .fp32 0x7F7FFFFF) = (0x7F7F, 16) ∧
  cvtDst .rne .fp32 (cvtSrc .i64 16777217) = (0x4B800000, 16) ∧
  cvtDst .rne .fp16 (cvtSrc .bf16 0x3080) = (0, 24)

/-- 05 R144, R145: the targets of the branches, the link register, the misaligned register target (TADDR 0: log 13), and the loop entries that
`jmp` and `jr` pop. -/
def Sys2Proof.branchesRule : Prop :=
  ∀ (h : Hdr) (imm : Imm31) (a : SReg) (s : State) (x : Cur),
    let pc := (me s x).pc
    let loops := (me s x).loops
    let near : Word := BitVec.ofInt 64 (pc.toNat + 4 * imm.toInt)
    let out (target : Word) := loops.dropWhile fun e => decide (e.start ≤ pc ∧ pc ≤ e.fin) && !decide (e.start ≤ target ∧ target ≤ e.fin)
    (Ready (.jmp h imm) s x → exec (.jmp h imm) s = .next (jumps (.jmp h imm) x s near (out near))) ∧
    (Ready (.call h imm) s x → exec (.call h imm) s = .next (jumps (.call h imm) x (putS s x 31 (pc + 8) false) near loops)) ∧
    (Ready (.jr h a) s x →
      let r := argsOf (.jr h a) s x
      exec (.jr h a) s = .next (if r.1.a.toNat % 4 = 0 then jumps (.jr h a) x r.2 r.1.a (out r.1.a) else trapAt s x cMISALIGN 0 0)) ∧
    (Ready (.callr h a) s x →
      let r := argsOf (.callr h a) s x
      exec (.callr h a) s =
        .next (if r.1.a.toNat % 4 = 0 then jumps (.callr h a) x (putS r.2 x 31 (pc + 8) false) r.1.a loops else trapAt s x cMISALIGN 0 0))

/-- 05 R146: a LOOP instruction skips the body for a count of 0, traps with four entries on the stack, and else pushes its entry. -/
def Sys2Proof.loopPushRule : Prop :=
  ∀ (h : Hdr) (a : SReg) (cnt len : Fin 65536) (len' : Fin 32768) (s : State) (x : Cur),
    let start : Word := (me s x).pc + 8
    let act (i : Instr) (t : State) (n : BitVec 32) (len : Nat) : Prop :=
      let fin : Word := start + BitVec.ofNat 64 (4 * len) - 4
      (n = 0 → exec i s = .next (jumps i x t (fin + 4) (me s x).loops)) ∧
      (n ≠ 0 → (me s x).loops.length < 4 → exec i s = .next (jumps i x t start (⟨start, fin, n - 1⟩ :: (me s x).loops))) ∧
      (n ≠ 0 → 4 ≤ (me s x).loops.length → exec i s = .next (trapAt s x cLOOP 0 0))
    (Ready (.loop h a len) s x →
      act (.loop h a len) (argsOf (.loop h a len) s x).2 (BitVec.ofNat 32 (argsOf (.loop h a len) s x).1.a.toNat) len.val) ∧
    (Ready (.loopi h cnt len') s x → act (.loopi h cnt len') s (BitVec.ofNat 32 cnt.val) len'.val)

/-- 05 R144, R145: the targets of the branches, the link register, the misaligned register target (TADDR 0: log 13), and the loop entries that `jmp`
and `jr` pop. Beside: 05 R146: a LOOP instruction skips the body for a count of 0, traps with four entries on the stack, and else pushes its entry. -/
def Obligations.BranchesAndLoops : Prop :=
  Sys2Proof.branchesRule ∧ Sys2Proof.loopPushRule

/-- 05 R149: `chk` and `chkl` branch where the DF bit of A is set, pop nothing and leave the bit; s0 and a queue have none (a queue's word is taken, log 19). -/
def Sys2Proof.checkDeferredRule : Prop :=
  ∀ (h : Hdr) (a : SReg) (l : LReg) (imm : Imm31) (s : State) (x : Cur),
    let target : Word := BitVec.ofInt 64 ((me s x).pc.toNat + 4 * imm.toInt)
    let scalar : Prop := a ≠ 0 ∧ ¬ (24 ≤ a.val ∧ a.val ≤ 27) ∧ (me s x).sdf.getLsbD a.val = true
    (Ready (.chk h a imm) s x →
      let t := (argsOf (.chk h a imm) s x).2
      (scalar → exec (.chk h a imm) s = .next (jumps (.chk h a imm) x s target (me s x).loops)) ∧
      (¬ scalar → exec (.chk h a imm) s = .next (ends (.chk h a imm) x t))) ∧
    (Ready (.chkl h l imm) s x →
      exec (.chkl h l imm) s =
        .next (if (me s x).ldf.getLsbD l.val then jumps (.chkl h l imm) x s target (me s x).loops else ends (.chkl h l imm) x s))

/-- 05 R150 to R152, 01 R38: `nop`, `yield` (not eligible until 16 cycles after issue), `ckpt` (CKPTID but for 0xFFFF; a thread asked to halt
halts here), `tdone` (the thread ends, its registers' marks and its loop stack discarded). -/
def Sys2Proof.threadControlRule : Prop :=
  ∀ (h : Hdr) (code : BitVec 16) (s : State) (x : Cur),
    (Ready (.nop h) s x → exec (.nop h) s = .next (ends (.nop h) x s)) ∧
    (Ready (.yield h) s x →
      exec (.yield h) s = .next (ends (.yield h) x (modSlot s x.loc x.slot fun y => { y with hold := s.cycle + 16 }))) ∧
    (Ready (.ckpt h code) s x →
      let y := slotAt s x.loc x.slot
      let id := if code = 0xFFFF then (me s x).ckptid else code
      exec (.ckpt h code) s = .next (ends (.ckpt h code) x (setSlot s x.loc x.slot
        { y with
          th := { y.th with ckptid := id }, halting := if y.halting.isSome then some 0 else none
          atCkpt := if y.halting.isSome then some (decide (code ≠ 0xFFFF)) else y.atCkpt }))) ∧
    (Ready (.tdone h) s x →
      ∃ t, exec (.tdone h) s = .next t ∧ t.mem = s.mem ∧
        me t x = { me s x with ended := true, spnd := 0, lpnd := 0, vpnd := 0, loops := [] } ∧
        ∀ l k, (l, k) ≠ (x.loc, x.slot) → slotAt t l k = slotAt s l k)

/-- 05 R150; 15 R362, R363: `trap` and `brk` name the next address in TPC; `trap` goes on at TVEC with THACT set or, with TVEC 0, halts the slot;
`brk` halts it, in a handler too, with THACT as it was. -/
def Sys2Proof.softwareTrapsRule : Prop :=
  ∀ (h : Hdr) (code : BitVec 16) (s : State) (x : Cur),
    (me s x).outs = [] →
    let th := me s x
    let next := loopNext th.pc 8 th.loops
    let saved (cause : Nat) (u : Thread) : Prop :=
      u.tcause = BitVec.ofNat 64 (cause + code.toNat * 65536) ∧ u.tpc = next.1 ∧ u.tword0 = x.w0 ∧ u.tword1 = x.w1 ∧ u.taddr = 0 ∧
        u.loops = next.2 ∧ u.s = th.s ∧ u.l = th.l ∧ u.p = th.p ∧ u.g = th.g ∧ u.priv = th.priv
    (Ready (.trap h code) s x → th.thact = false →
      ∃ t, exec (.trap h code) s = .next t ∧ t.mem = s.mem ∧ saved 19 (me t x) ∧
        (th.priv = false → th.tvec ≠ 0 → (me t x).pc = th.tvec ∧ (me t x).thact = true ∧ (slotAt t x.loc x.slot).st = .run) ∧
        (th.priv = true → (me t x).pc = (Machine.core s x.loc).pvec ∧ (me t x).thact = true ∧ (slotAt t x.loc x.slot).st = .run) ∧
        (th.priv = false → th.tvec = 0 → (me t x).pc = next.1 ∧ (me t x).thact = false ∧ (slotAt t x.loc x.slot).st = .halt)) ∧
    (Ready (.brk h code) s x →
      ∃ t, exec (.brk h code) s = .next t ∧ t.mem = s.mem ∧ saved 20 (me t x) ∧ (me t x).pc = next.1 ∧ (me t x).thact = th.thact ∧
        (slotAt t x.loc x.slot).st = .halt)

/-! ## Memory accesses (09 R218 to R231; 10 R246 to R251) -/

/-- `i` completes with the `n` bytes at `key` holding the number `v`, every other byte of memory as it was, and `f` of that state; what the bytes held
before is kept for the reads of the host, until the thread's `fence.sys` (10 R258; log 43). -/
def Sys2Proof.stores (i : Instr) (s : State) (x : Cur) (key n v : Nat) (f : State → State) : Prop :=
  ∃ m old, exec i s = .next (ends i x (f { (argsOf i s x).2 with mem := m, hostOld := s.hostOld ++ old })) ∧ m.wf = true ∧
    (∀ a, m.read a = if key ≤ a ∧ a < key + n then BitVec.ofNat 8 (v / 256 ^ (a - key)) else s.mem.read a) ∧
    ∀ e ∈ old, e.part = (me s x).part ∧ e.thid = (me s x).thid ∧ key ≤ e.key ∧ e.key < key + n ∧ e.old = s.mem.read e.key

/-- 09 R220: loads from a core's own LM give the little-endian value there, sign- or zero-extended; `ld.sync` and `ld.take` act on a full granule,
which `ld.take` leaves empty. Memory is left as it is. -/
def Sys2Proof.loadOwnLmRule : Prop :=
  ∀ (h : Hdr) (m : Option MPfx) (d a : SReg) (imm : Imm31) (sz : Size) (uns : Bool) (s : State) (x : Cur) (key : Nat),
    let n := Size.bytes sz
    let v := extended n uns (numAt s key n)
    let put (t : State) : State := modTh t x.loc x.slot (setS d v false)
    (let i : Instr := .ld h m d a imm sz uns
     Ready i s x → OwnLm s x m.isSome (effective (argsOf i s x).1.a imm) n key → exec i s = .next (ends i x (put (argsOf i s x).2))) ∧
    (let i : Instr := .ldSpec h m d a imm sz uns
     Ready i s x → (argsOf i s x).1.df = false → OwnLm s x m.isSome (effective (argsOf i s x).1.a imm) n key →
       exec i s = .next (ends i x (put (argsOf i s x).2))) ∧
    (let i : Instr := .ldSync h d a imm sz uns
     Ready i s x → OwnLm s x false (effective (argsOf i s x).1.a imm) n key → feFull s key = true →
       exec i s = .next (ends i x (put (argsOf i s x).2))) ∧
    (let i : Instr := .ldTake h d a imm sz uns
     Ready i s x → OwnLm s x false (effective (argsOf i s x).1.a imm) n key → feFull s key = true →
       exec i s = .next (ends i x (put (setEmpty (argsOf i s x).2 key))))

/-- 04 R113, 09 R220: `ld.spec` of a DF-set base, a misaligned address, an address above the device space or the reserved part of LM writes zero
with the DF bit set, and traps nothing. -/
def Sys2Proof.loadSpeculativeRule : Prop :=
  ∀ (h : Hdr) (m : Option MPfx) (d a : SReg) (imm : Imm31) (sz : Size) (uns : Bool) (s : State) (x : Cur),
    let i : Instr := .ldSpec h m d a imm sz uns
    let r := argsOf i s x
    let va := effective r.1.a imm
    let n := Size.bytes sz
    Ready i s x →
    (r.1.df = true ∨ va % n ≠ 0 ∨ 2 ^ 56 ≤ va ∨ ((∃ d k, x.loc = .core d k) ∧ 0x5C000 < va + n ∧ va < 2 ^ 48)) →
    exec i s = .next (ends i x (putS r.2 x d 0 true))

/-- 09 R220: loads from a core's own LM give the little-endian value there, sign- or zero-extended; `ld.sync` and `ld.take` act on a full granule,
which `ld.take` leaves empty. Memory is left as it is. Beside: 04 R113, 09 R220: `ld.spec` of a DF-set base, a misaligned address, an address above
the device space or the reserved part of LM writes zero with the DF bit set, and traps nothing. -/
def Obligations.Loads : Prop :=
  Sys2Proof.loadOwnLmRule ∧ Sys2Proof.loadSpeculativeRule

/-- 09 R221: stores to a core's own LM write the low bytes of D at the address, little-endian, and nothing else in memory; `st.fill` sets the
granule full, `st.xfill` fills one that is empty. -/
def Sys2Proof.storeOwnLmRule : Prop :=
  ∀ (h : Hdr) (m : Option MPfx) (d a : SReg) (imm : Imm31) (sz : Size) (s : State) (x : Cur) (key : Nat),
    let n := Size.bytes sz
    (let i : Instr := .st h m d a imm sz
     Ready i s x → OwnLm s x m.isSome (effective (argsOf i s x).1.a imm) n key → stores i s x key n (argsOf i s x).1.d.toNat id) ∧
    (let i : Instr := .stFill h d a imm sz
     Ready i s x → OwnLm s x false (effective (argsOf i s x).1.a imm) n key →
       stores i s x key n (argsOf i s x).1.d.toNat fun t => setFull t key) ∧
    (let i : Instr := .stXfill h d a imm sz
     Ready i s x → OwnLm s x false (effective (argsOf i s x).1.a imm) n key → feFull s key = false →
       stores i s x key n (argsOf i s x).1.d.toNat fun t => setFull t key)

/-- The new value of an atomic on `n` bytes (09 R226). -/
def Sys2Proof.atomic (op : AmoOp) (n old b : Nat) : Nat :=
  let m := 256 ^ n
  let b := b % m
  let signed (v : Nat) : Int := if 2 * v < m then (v : Int) else (v : Int) - (m : Int)
  match op with
  | .add => (old + b) % m
  | .and => Nat.land old b
  | .or => Nat.lor old b
  | .xor => Nat.xor old b
  | .min => if signed old ≤ signed b then old else b
  | .max => if signed old ≤ signed b then b else old
  | .minn => if old ≤ b then old else b
  | .maxn => if old ≤ b then b else old
  | .swap => b
  | .fadd => (fpAdd fp32 .rne old b).1

/-- 09 R226: atomics on a core's own LM return the old value (a word sign-extended, an FP32 value zero-extended) and write the new one. -/
def Sys2Proof.atomicOwnLmRule : Prop :=
  ∀ (h : Hdr) (m : Option MPfx) (w64 : Bool) (d a b : SReg) (s : State) (x : Cur) (key : Nat),
    let does (i : Instr) (op : AmoOp) (n : Nat) (uns : Bool) : Prop :=
      Ready i s x → OwnLm s x m.isSome (argsOf i s x).1.a.toNat n key →
        let old := numAt s key n
        stores i s x key n (atomic op n old (argsOf i s x).1.b.toNat) fun t => modTh t x.loc x.slot (setS d (extended n uns old) false)
    let n := if w64 then 8 else 4
    does (.amoAdd h m w64 d a b) .add n w64 ∧ does (.amoAnd h m w64 d a b) .and n w64 ∧ does (.amoOr h m w64 d a b) .or n w64 ∧
    does (.amoXor h m w64 d a b) .xor n w64 ∧ does (.amoMin h m w64 d a b) .min n w64 ∧ does (.amoMax h m w64 d a b) .max n w64 ∧
    does (.amoMinn h m w64 d a b) .minn n w64 ∧ does (.amoMaxn h m w64 d a b) .maxn n w64 ∧ does (.amoSwap h m w64 d a b) .swap n w64 ∧
    does (.amoFadd h m d a b) .fadd 4 true

/-- 09 R227, R228: `cas` writes B where the old value equals D and returns the old value; reductions write and return nothing; `red.arrive` counts up,
and at the count B writes zero and sets the granule full, a count of zero trapping. -/
def Sys2Proof.casAndReduceOwnLmRule : Prop :=
  ∀ (h : Hdr) (m : Option MPfx) (w64 : Bool) (d a b : SReg) (s : State) (x : Cur) (key : Nat),
    let cas (i : Instr) (n : Nat) : Prop :=
      Ready i s x → OwnLm s x m.isSome (argsOf i s x).1.a.toNat n key →
        let r := argsOf i s x
        let old := numAt s key n
        stores i s x key n (if old = r.1.d.toNat % 256 ^ n then r.1.b.toNat else old) fun t =>
          modTh t x.loc x.slot (setS d (extended n (n == 8) old) false)
    let red (i : Instr) (op : AmoOp) (n : Nat) : Prop :=
      Ready i s x → OwnLm s x m.isSome (argsOf i s x).1.a.toNat n key →
        stores i s x key n (atomic op n (numAt s key n) (argsOf i s x).1.b.toNat) id
    let n := if w64 then 8 else 4
    cas (.cas32 h m d a b) 4 ∧ cas (.cas64 h m d a b) 8 ∧
    red (.redAdd h m w64 a b) .add n ∧ red (.redAnd h m w64 a b) .and n ∧ red (.redOr h m w64 a b) .or n ∧ red (.redXor h m w64 a b) .xor n ∧
    red (.redMin h m w64 a b) .min n ∧ red (.redMax h m w64 a b) .max n ∧ red (.redMinn h m w64 a b) .minn n ∧
    red (.redMaxn h m w64 a b) .maxn n ∧ red (.redSwap h m w64 a b) .swap n ∧ red (.redFadd h m a b) .fadd 4 ∧
    (let i : Instr := .redArrive h m a b
     Ready i s x → OwnLm s x m.isSome (argsOf i s x).1.a.toNat 4 key →
       let c := (argsOf i s x).1.b.toNat % 2 ^ 32
       let w := (numAt s key 4 + 1) % 2 ^ 32
       (c = 0 → exec i s = .next (trapAt s x cPARAM 0 0)) ∧
       (c ≠ 0 → w = c → stores i s x key 4 0 fun t => setFull t key) ∧
       (c ≠ 0 → w ≠ c → stores i s x key 4 w id))

/-- 09 R226: atomics on a core's own LM return the old value (a word sign-extended, an FP32 value zero-extended) and write the new one. Beside: 09
R227, R228: `cas` writes B where the old value equals D and returns the old value; reductions write and return nothing; `red.arrive` counts up, and at
the count B writes zero and sets the granule full, a count of zero trapping. -/
def Obligations.Atomics : Prop :=
  Sys2Proof.atomicOwnLmRule ∧ Sys2Proof.casAndReduceOwnLmRule

/-- 09 R223, 08 R196: the FE forms set, clear, read and wait for the bit of a granule of the core's own LM. -/
def Sys2Proof.fullEmptyOwnLmRule : Prop :=
  ∀ (h : Hdr) (d a : SReg) (imm : Imm31) (s : State) (x : Cur) (key : Nat),
    let own (i : Instr) : Prop := Ready i s x ∧ OwnLm s x false (effective (argsOf i s x).1.a imm) 16 key
    (own (.feSet h a imm) → exec (.feSet h a imm) s = .next (ends (.feSet h a imm) x (setFull (argsOf (.feSet h a imm) s x).2 key))) ∧
    (own (.feClr h a imm) → exec (.feClr h a imm) s = .next (ends (.feClr h a imm) x (setEmpty (argsOf (.feClr h a imm) s x).2 key))) ∧
    (own (.feGet h d a imm) →
      exec (.feGet h d a imm) s = .next (ends (.feGet h d a imm) x
        (modTh (argsOf (.feGet h d a imm) s x).2 x.loc x.slot (setS d (if feFull s key then 1 else 0) false)))) ∧
    (own (.feWait h a imm) → feFull s key = true →
      exec (.feWait h a imm) s = .next (ends (.feWait h a imm) x (argsOf (.feWait h a imm) s x).2)) ∧
    (∀ (t : State) (b : Nat), feFull (setFull t key) b = (granule b == granule key || feFull t b) ∧
      feFull (setEmpty t key) b = (granule b != granule key && feFull t b))

/-- 08 R196; 09 R220, R221, R223, R225; 11 R281: an FE access to the core's own LM whose granule is in the wrong state enters that granule's list and parks its
thread, and so does a request at its serving point, in the order of arrival. The act that fills the granule serves the list in that order: `ld.take` of
the first waiter empties it again, so that the others stay; the act that empties it lets a waiting `st.xfill` store and fill it. -/
def Sys2Proof.fullEmptyWaitsRule : Prop :=
  (∀ (h : Hdr) (p : Option VPfx) (d a : SReg) (v : VReg) (imm : Imm31) (sz : Size) (uns : Bool) (s : State) (x : Cur) (key : Nat),
    let waits (i : Instr) (n g : Nat) : Prop :=
      Ready i s x → OwnLm s x false (effective (argsOf i s x).1.a imm) n key → (slotAt s x.loc x.slot).halting = none → (∀ y ∈ s.reqs, y.id < s.nextId) →
        ∃ t r, exec i s = .next t ∧ t.mem = s.mem ∧ t.feEmpty = s.feEmpty ∧ t.reqs = s.reqs ++ [r] ∧ r.st = .feList (granule g) ∧ r.key = key ∧ r.loc = x.loc ∧
          r.thid = (me s x).thid ∧ r.part = (me s x).part ∧ (slotAt t x.loc x.slot).st = .parkMem (.access r.id) ∧ ∃ c, me t x = { me s x with cont := some c }
    let n := Size.bytes sz
    (feFull s key = false → waits (.ldSync h d a imm sz uns) n key ∧ waits (.ldTake h d a imm sz uns) n key ∧ waits (.feWait h a imm) 16 key) ∧
    (feFull s key = true → waits (.stXfill h d a imm sz) n key) ∧
    (∀ j : Fin 4, p = none → (∀ i < j, feFull s (key + 16 * i.val) = true) → feFull s (key + 16 * j.val) = false →
      waits (.vldSync h p v a imm) 64 (key + 16 * j.val))) ∧
  (∀ (s : State) (id : Nat) (r : Request),
    req? s id = some r → (part? s r.part).isSome = true → canAct s r = true → (feListAt s (servedAt r.key)).length < 16 →
    let lists (g : Nat) : Prop := ∃ t q, exec (.accessPerform id) s = .next t ∧ t.mem = s.mem ∧ t.feEmpty = s.feEmpty ∧ t.reqs.getLast? = some q ∧ q.id = id ∧
      q.st = .feList (granule g) ∧ (∀ l k, slotAt t l k = slotAt s l k) ∧ (t.reqs.filter fun y => y.id != id) = s.reqs.filter fun y => y.id != id
    (∀ k d sz uns, r.op = .load k d sz uns → k ≠ .plain → poisoned s r.key = false → feFull s r.key = false → lists r.key) ∧
    (∀ v sz, r.op = .store .xfill v sz → poisoned s r.key = false → feFull s r.key = true → lists r.key) ∧
    (r.op = .feWait → poisoned s r.key = false → feFull s r.key = false → lists r.key)) ∧
  (∀ (s : State) (id g : Nat) (r w : Request) (rest : List Request),
    req? s id = some r → canAct s r = true → (part? s r.part).isSome = true → poisoned s r.key = false → granule r.key = g → r.size ≤ 16 → 1 ≤ r.size →
    (s.reqs.filter fun y => decide (y.st = .feList g)) = w :: rest → (s.reqs.map fun y => y.id).Nodup → poisoned s w.key = false → granule w.key = g →
    s.mem.wf = true →
    let replied (t : State) (y : Reply) : Prop := (req? t w.id).map (fun y => y.st) = some (.replied y)
    (∀ k d sz uns, r.op = .feSet → w.op = .load k d sz uns → k ≠ .plain → (∀ y ∈ rest, poisoned s y.key = false ∧ granule y.key = g ∧ ∃ d sz uns, y.op = .load .sync d sz uns) →
      ∃ t, exec (.accessPerform id) s = .next t ∧ t.mem = s.mem ∧
        replied t (.writes [.s d (extended (Size.bytes sz) uns (numAt s w.key (Size.bytes sz))) false]) ∧ (feFull t g = true ↔ k = .sync) ∧
        ∀ y ∈ rest, ∃ st, (req? t y.id).map (fun y => y.st) = some st ∧ (k = .take ↔ st = .feList g)) ∧
    (∀ v sz, r.op = .feClr → w.op = .store .xfill v sz → rest = [] →
      ∃ t, exec (.accessPerform id) s = .next t ∧ replied t .ack ∧ feFull t g = true ∧
        ∀ b, t.mem.read b = if w.key ≤ b ∧ b < w.key + Size.bytes sz then BitVec.ofNat 8 (v.toNat / 256 ^ (b - w.key)) else s.mem.read b))

/-- 09 R221: stores to a core's own LM write the low bytes of D at the address, little-endian, and nothing else in memory; `st.fill` sets the granule
full, `st.xfill` fills one that is empty. Beside: 09 R223, 08 R196: the FE forms set, clear, read and wait for the bit of a granule of the core's own
LM. Beside: 08 R196; 09 R220, R221, R223, R225; 11 R281: an FE access to the core's own LM whose granule is in the wrong state enters that granule's
list and parks its thread, and so does a request at its serving point, in the order of arrival. The act that fills the granule serves the list in that
order: `ld.take` of the first waiter empties it again, so that the others stay; the act that empties it lets a waiting `st.xfill` store and fill it. -/
def Obligations.StoresAndFullEmpty : Prop :=
  Sys2Proof.storeOwnLmRule ∧ Sys2Proof.fullEmptyOwnLmRule ∧ Sys2Proof.fullEmptyWaitsRule

/-- 09 R225, 03 R86: row loads from the core's own LM write the active lanes, and zero the others under zeroing; row stores write the bytes of the
active lanes, and zeros for the others under zeroing; the sync form acts on full granules, the fill form sets the granules it writes full. -/
def Obligations.RowsOwnLm : Prop :=
  ∀ (h : Hdr) (q : RowPfx) (p : Option VPfx) (d : VReg) (a : SReg) (imm : Imm31) (s : State) (x : Cur) (key : Nat),
    let active (v : Option VPfx) : Row := laneBits (typeOf (Machine.core s x.loc) d).bits fun j => (activeMask (Machine.core s x.loc) v).getLsbD j
    let zeroing (v : Option VPfx) : Bool := match v with | some w => w.z | none => false
    let load (i : Instr) (v : Option VPfx) : Prop :=
      ∃ u, exec i s = .next (ends i x u) ∧ u.mem = s.mem ∧
        (Machine.core u x.loc).tiles = (Machine.core s x.loc).tiles.set d
          (((Machine.core s x.loc).tiles[d] &&& ~~~ (if zeroing v then BitVec.allOnes 512 else active v))
            ||| (BitVec.ofNat 512 (numAt s key 64) &&& active v)) ∧
        ∀ l k, slotAt u l k = slotAt s l k
    let store (i : Instr) (v : Option VPfx) (fill : Bool) : Prop :=
      ∃ u, exec i s = .next (ends i x u) ∧ u.mem.wf = true ∧
        (∀ b, u.mem.read b =
          if key ≤ b ∧ b < key + 64 then
            if (active v).getLsbD (8 * (b - key)) then BitVec.ofNat 8 ((Machine.core s x.loc).tiles[d].toNat / 256 ^ (b - key))
            else if zeroing v then 0 else s.mem.read b
          else s.mem.read b) ∧
        (∀ b, feFull u b = (feFull s b || (fill && decide (key ≤ b ∧ b < key + 64) &&
          (zeroing v || (List.range 128).any fun j => (active v).getLsbD (128 * ((b - key) / 16) + j))))) ∧
        ∀ l k, slotAt u l k = slotAt s l k
    let own (i : Instr) (relaxed : Bool) : Prop := Ready i s x ∧ OwnLm s x relaxed (effective (argsOf i s x).1.a imm) 64 key
    (own (.vld h q d a imm) (RowPfx.memp q).isSome → load (.vld h q d a imm) (RowPfx.vec q)) ∧
    (own (.vldSync h p d a imm) false → (∀ j < 64, feFull s (key + j) = true) → load (.vldSync h p d a imm) p) ∧
    (own (.vst h q d a imm) (RowPfx.memp q).isSome → store (.vst h q d a imm) (RowPfx.vec q) false) ∧
    (own (.vstFill h p d a imm) false → store (.vstFill h p d a imm) p true)

/-- 09 R224; 10 R248, R251, R258: a fence completes where no relaxed access of the thread up to its scope is outstanding (`fence.sys`: nor a store;
what host reads may still return in place of the thread's writes, and of earlier ones, is then gone, log 43), and otherwise waits. `fence.eng`
discards the thread's guarded commands with an UNSET slot, and then completes where no command of the thread is left on any core, the one it has left
among them, and otherwise waits. -/
def Obligations.Fences : Prop :=
  ∀ (h : Hdr) (s : State) (x : Cur),
    let open' := s.reqs.filter fun r => r.thid == (me s x).thid && r.part == (me s x).part
    let undone := open'.filter fun r => r.relaxed && (match r.st with | .replied _ => false | _ => true)
    let wide (l : List Scope) : Prop := ∀ r ∈ undone, r.scope ∉ l
    let does (i : Instr) (k : Fin 5) (free : Prop) : Prop :=
      Ready i s x →
        (free → exec i s = .next (ends i x s)) ∧
        (¬ free → (slotAt s x.loc x.slot).halting = none → exec i s = .next (setSt s x.loc x.slot (.block (.fence k) s.cycle)))
    does (.fenceCore h) 0 (wide [.narrowest, .core]) ∧
    does (.fenceDie h) 1 (wide [.narrowest, .core, .die]) ∧
    does (.fenceMod h) 2 (wide [.narrowest, .core, .die, .module]) ∧
    (Ready (.fenceSys h) s x →
      let free : Prop := undone = [] ∧ ∀ r ∈ open', r.write = false
      let own (e : HostOld) : Prop := e.part = (me s x).part ∧ e.thid = (me s x).thid
      (free → ∃ old, exec (.fenceSys h) s = .next (ends (.fenceSys h) x { s with hostOld := old }) ∧ old.Sublist s.hostOld ∧ (∀ e ∈ old, ¬ own e) ∧
        ∀ key, (∀ e ∈ s.hostOld, e.key = key → ¬ own e) → old.filter (fun e => e.key == key) = s.hostOld.filter fun e => e.key == key) ∧
      (¬ free → (slotAt s x.loc x.slot).halting = none → exec (.fenceSys h) s = .next (setSt s x.loc x.slot (.block (.fence 3) s.cycle)))) ∧
    (Ready (.fenceEng h) s x →
      let u := dropGuards s x.loc x.slot false
      let noneOf (c : Core) : Prop := ∀ e, ∀ q ∈ engQ c e, ¬ (q.thid = (me s x).thid ∧ q.part = (me s x).part)
      let idle : Prop := (∀ c ∈ u.cores, noneOf c.2) ∧ ∀ p ∈ u.parts, ∀ v ∈ p.saves, noneOf v.core
      (idle → exec (.fenceEng h) s = .next (ends (.fenceEng h) x u)) ∧
      (¬ idle → (slotAt s x.loc x.slot).halting = none → exec (.fenceEng h) s = .next (setSt u x.loc x.slot (.block (.fence 4) s.cycle))) ∧
      (∀ e, ∀ q ∈ engQ (Machine.core u x.loc) e, ∀ g, q.thid = (me s x).thid → q.part = (me s x).part → q.slot = x.slot.val → q.decided = none →
        q.guard = some g → (me s x).g[g.slot] ≠ .unset) ∧
      u.mem = s.mem ∧ ∀ l k, slotAt u l k = slotAt s l k)

/-- 09 R219: a misaligned address traps before anything else of the access (`ld.spec` apart), then one above the device space, and the access has no
effect; an FE access to HBM traps with detail 1. That TADDR is the effective address is read as log 13 says. -/
def Obligations.AccessTraps : Prop :=
  ∀ (h : Hdr) (m : Option MPfx) (q : RowPfx) (p : Option VPfx) (w64 uns : Bool) (d a b c : SReg) (v : VReg) (imm : Imm31) (sz : Size) (k : Punty)
      (s : State) (x : Cur),
    let traps (i : Instr) (off : Bool) (n : Nat) (fe : Bool) : Prop :=
      let base := (argsOf i s x).1.a
      let va := if off then effective base imm else base.toNat
      Ready i s x →
        (va % n ≠ 0 → exec i s = .next (trapAt s x cMISALIGN 0 va)) ∧
        (va % n = 0 → 2 ^ 56 ≤ va → exec i s = .next (trapAt s x cTRANSLATION 0 va)) ∧
        (fe = true → va % n = 0 → ∀ key part, part? s (me s x).part = some part →
          xlateCached s part x.loc va n .any = .ok key → isHbm key = true →
          (∀ e, cached (Machine.core s x.loc) part.pid va = some e → e.rd = true ∧ e.w = true) → va < 2 ^ 56 →
          exec i s = .next (trapAt s x cPERMISSION 1 va))
    let n := Size.bytes sz
    let w := if w64 then 8 else 4
    let wk := if k.w64 then 8 else 4
    traps (.ld h m d a imm sz uns) true n false ∧ traps (.ldSync h d a imm sz uns) true n true ∧ traps (.ldTake h d a imm sz uns) true n true ∧
    traps (.st h m d a imm sz) true n false ∧ traps (.stFill h d a imm sz) true n true ∧ traps (.stXfill h d a imm sz) true n true ∧
    traps (.feSet h a imm) true 16 true ∧ traps (.feClr h a imm) true 16 true ∧ traps (.feGet h d a imm) true 16 true ∧
    traps (.feWait h a imm) true 16 true ∧
    traps (.vld h q v a imm) true 64 false ∧ traps (.vst h q v a imm) true 64 false ∧ traps (.vldSync h p v a imm) true 64 true ∧
    traps (.vstFill h p v a imm) true 64 true ∧
    traps (.amoAdd h m w64 d a b) false w false ∧ traps (.amoAnd h m w64 d a b) false w false ∧ traps (.amoOr h m w64 d a b) false w false ∧
    traps (.amoXor h m w64 d a b) false w false ∧ traps (.amoMin h m w64 d a b) false w false ∧ traps (.amoMax h m w64 d a b) false w false ∧
    traps (.amoMinn h m w64 d a b) false w false ∧ traps (.amoMaxn h m w64 d a b) false w false ∧ traps (.amoSwap h m w64 d a b) false w false ∧
    traps (.amoFadd h m d a b) false 4 false ∧ traps (.cas32 h m d a b) false 4 false ∧ traps (.cas64 h m d a b) false 8 false ∧
    traps (.redAdd h m w64 a b) false w false ∧ traps (.redAnd h m w64 a b) false w false ∧ traps (.redOr h m w64 a b) false w false ∧
    traps (.redXor h m w64 a b) false w false ∧ traps (.redMin h m w64 a b) false w false ∧ traps (.redMax h m w64 a b) false w false ∧
    traps (.redMinn h m w64 a b) false w false ∧ traps (.redMaxn h m w64 a b) false w false ∧ traps (.redSwap h m w64 a b) false w false ∧
    traps (.redFadd h m a b) false 4 false ∧
    traps (.redArrive h m a b) false 4 true ∧ traps (.casK h d a b c k) false wk false ∧ traps (.decK h d a b k) false wk false

/-- 01 R29, R30; 09 R231, R220, R221, R223, R225 to R228; 10 R247: an access to memory that is not this location's own LM sends one request with the
instruction's own address, act and scope. Unless it is relaxed, it waits for the thread's relaxed accesses and parks the thread until the reply, or,
where the thread roams and the memory is another location's, the thread goes there instead, unless its loop stack cannot be packed; `cas.k` and
`dec.k` never move it. A relaxed one completes, its result outstanding, unless eight are so already. No register or memory byte changes at issue. -/
def Obligations.RemoteAccessParks : Prop :=
  ∀ (h : Hdr) (m : Option MPfx) (q : RowPfx) (p : Option VPfx) (w64 uns : Bool) (d a b c : SReg) (v : VReg) (imm : Imm31) (sz : Size) (k : Punty)
      (s : State) (x : Cur) (key : Nat) (part : Partition),
    let th := me s x
    let undone := s.reqs.filter fun r => r.thid == th.thid && r.part == th.part && r.relaxed && (match r.st with | .replied _ => false | _ => true)
    let moves : Prop := th.roaming = true ∧ th.thact = false ∧ th.lact = false ∧ servedAt key ≠ x.loc ∧ (∀ e ∈ th.loops, packable th.pc e = true)
    let remote (i : Instr) (m : Option MPfx) (off inPlace : Bool) (n : Nat) (kind : XKind) (fe write : Bool) (op : Args → MemOp) (ws : List RegWrite) : Prop :=
      let r0 := (argsOf i s x).1
      let va := if off then effective r0.a imm else r0.a.toNat
      let sends (t : State) : Prop := ∃ r, t.reqs = s.reqs ++ [r] ∧
        r.id = s.nextId ∧ r.loc = x.loc ∧ r.slot = x.slot.val ∧ r.thid = th.thid ∧ r.part = th.part ∧ r.cls = th.qos ∧ r.key = key ∧ r.va = va ∧ r.size = n ∧
        r.write = write ∧ r.op = op r0 ∧ r.relaxed = m.isSome ∧ r.scope = scopeOf x.loc key (match m with | some y => y.scope | none => .narrowest) ∧ r.st = .sent
      Ready i s x → part? s th.part = some part → va % n = 0 → va < 2 ^ 56 → xlateCached s part x.loc va n kind = .ok key → isLm key = false →
        (fe = true → isHbm key = false) → (slotAt s x.loc x.slot).halting = none →
        (m = none → undone ≠ [] → exec i s = .next (setSt s x.loc x.slot (.block .drain s.cycle))) ∧
        (m = none → undone = [] → inPlace = true ∨ ¬ moves → ∃ t, exec i s = .next t ∧ t.mem = s.mem ∧
          (slotAt t x.loc x.slot).st = .parkMem (.access s.nextId) ∧ (∃ n, me t x = { th with cont := n }) ∧ sends t) ∧
        (m = none → undone = [] → inPlace = false → moves → (∀ r ∈ s.reqs, r.thid = th.thid → r.part = th.part → r.write = false) →
          (Machine.core s x.loc).fwd.length < 16 → hasWaitingGuard (Machine.core s x.loc) th = false →
          exec i s = .next (setSt s x.loc x.slot (.moving (servedAt key)))) ∧
        (m.isSome = true → undone.length < 8 → ∃ t, exec i s = .next (ends i x t) ∧ t.mem = s.mem ∧ (slotAt t x.loc x.slot).st = (slotAt s x.loc x.slot).st ∧
          (me t x).s = th.s ∧ (me t x).pc = th.pc ∧ (me t x).outs = th.outs ++ (if ws = [] then [] else [⟨.access s.nextId, none, ws, 0⟩]) ∧ sends t) ∧
        (m.isSome = true → 8 ≤ undone.length → exec i s = .next (setSt s x.loc x.slot (.block .relaxedLimit s.cycle)))
    let n := Size.bytes sz
    let w := if w64 then 8 else 4
    let wk := if k.w64 then 8 else 4
    let active (y : Option VPfx) : Row := laneBits (typeOf (Machine.core s x.loc) v).bits fun j => (activeMask (Machine.core s x.loc) y).getLsbD j
    let zeroing (y : Option VPfx) : Bool := match y with | some z => z.z | none => false
    let vload (sync : Bool) (y : Option VPfx) : MemOp :=
      .vload sync v (active y) (if zeroing y then ~~~ (active y) else 0) (granulesOf (active y)) 0
    let lanes (y : Option VPfx) : Row := if zeroing y then BitVec.allOnes 512 else active y
    let vstore (fill : Bool) (y : Option VPfx) : MemOp :=
      .vstore fill (lanes y) ((Machine.core s x.loc).tiles[v] &&& active y) (granulesOf (lanes y))
    let load (i : Instr) (m : Option MPfx) (l : LoadKind) : Prop := remote i m true false n .read (l != .plain) false (fun _ => .load l d sz uns) [.s d 0 false]
    let store (i : Instr) (m : Option MPfx) (l : FillKind) : Prop := remote i m true false n .write (l != .plain) true (fun r => .store l r.d sz) []
    let fe (i : Instr) (write : Bool) (op : MemOp) : Prop := remote i none true false 16 .any true write (fun _ => op) []
    let amo (i : Instr) (w64 : Bool) (op : AmoOp) : Prop :=
      remote i m false false (if w64 then 8 else 4) .rmw false false (fun r => .amo op w64 r.b (some d)) [.s d 0 false]
    let cas (i : Instr) (w64 : Bool) : Prop := remote i m false false (if w64 then 8 else 4) .rmw false false (fun r => .cas w64 r.d r.b d) [.s d 0 false]
    let red (i : Instr) (w64 : Bool) (op : AmoOp) : Prop := remote i m false false (if w64 then 8 else 4) .rmw false true (fun r => .amo op w64 r.b none) []
    load (.ld h m d a imm sz uns) m .plain ∧ ((argsOf (.ldSpec h m d a imm sz uns) s x).1.df = false → load (.ldSpec h m d a imm sz uns) m .plain) ∧
    load (.ldSync h d a imm sz uns) none .sync ∧ load (.ldTake h d a imm sz uns) none .take ∧
    store (.st h m d a imm sz) m .plain ∧ store (.stFill h d a imm sz) none .fill ∧ store (.stXfill h d a imm sz) none .xfill ∧
    fe (.feSet h a imm) true .feSet ∧ fe (.feClr h a imm) true .feClr ∧ fe (.feGet h d a imm) false (.feGet d) ∧ fe (.feWait h a imm) false .feWait ∧
    remote (.vld h q v a imm) (RowPfx.memp q) true false 64 .read false false (fun _ => vload false (RowPfx.vec q)) [.v v 0 0] ∧
    remote (.vldSync h p v a imm) none true false 64 .read true false (fun _ => vload true p) [.v v 0 0] ∧
    remote (.vst h q v a imm) (RowPfx.memp q) true false 64 .write false true (fun _ => vstore false (RowPfx.vec q)) [] ∧
    remote (.vstFill h p v a imm) none true false 64 .write true true (fun _ => vstore true p) [] ∧
    amo (.amoAdd h m w64 d a b) w64 .add ∧ amo (.amoAnd h m w64 d a b) w64 .and ∧ amo (.amoOr h m w64 d a b) w64 .or ∧ amo (.amoXor h m w64 d a b) w64 .xor ∧
    amo (.amoMin h m w64 d a b) w64 .min ∧ amo (.amoMax h m w64 d a b) w64 .max ∧ amo (.amoMinn h m w64 d a b) w64 .minn ∧
    amo (.amoMaxn h m w64 d a b) w64 .maxn ∧ amo (.amoSwap h m w64 d a b) w64 .swap ∧ amo (.amoFadd h m d a b) false .fadd ∧
    cas (.cas32 h m d a b) false ∧ cas (.cas64 h m d a b) true ∧
    red (.redAdd h m w64 a b) w64 .add ∧ red (.redAnd h m w64 a b) w64 .and ∧ red (.redOr h m w64 a b) w64 .or ∧ red (.redXor h m w64 a b) w64 .xor ∧
    red (.redMin h m w64 a b) w64 .min ∧ red (.redMax h m w64 a b) w64 .max ∧ red (.redMinn h m w64 a b) w64 .minn ∧ red (.redMaxn h m w64 a b) w64 .maxn ∧
    red (.redSwap h m w64 a b) w64 .swap ∧ red (.redFadd h m a b) false .fadd ∧
    ((argsOf (.redArrive h m a b) s x).1.b.toNat % 2 ^ 32 ≠ 0 →
      remote (.redArrive h m a b) m false false 4 .rmw true true (fun r => .arrive (BitVec.ofNat 32 r.b.toNat)) []) ∧
    remote (.casK h d a b c k) none false true wk .rmw false true (fun r => .contK true k r.b r.c d) [] ∧
    remote (.decK h d a b k) none false true wk .rmw false true (fun r => .contK false k r.b r.c d) []

/-! ## Messages, rings and queues (11) -/

/-- A send-queue entry is free at a location (11 R259). -/
def Sys2Proof.canSend (s : State) (x : Cur) : Prop :=
  drained s x = true ∧ (s.msgs.filter fun m => m.src == x.loc).length < 4 ∧ (slotAt s x.loc x.slot).halting = none

/-- `i` puts one message of its thread, with the body `b`, at the end of the send queue, and completes; the addresses it names become the most recent
of the extent cache. -/
def Sys2Proof.sendsOn (i : Instr) (s : State) (x : Cur) (vas : List Nat) (b : MsgBody) : Prop :=
  let th := me s x
  let t := vas.foldl (fun t va => touch t x va) (argsOf i s x).2
  exec i s = .next (ends i x { t with nextId := s.nextId + 1, msgs := s.msgs ++ [⟨s.nextId, x.loc, x.slot.val, th.thid, th.part, th.qos, b⟩] })

/-- The same, and its thread waits in PARK-MEM for the reply. -/
def Sys2Proof.sendsAndWaits (i : Instr) (s : State) (x : Cur) (b : MsgBody) : Prop :=
  let th := me s x
  ∃ t, exec i s = .next t ∧ t.mem = s.mem ∧ t.msgs = s.msgs ++ [⟨s.nextId, x.loc, x.slot.val, th.thid, th.part, th.qos, b⟩] ∧
    (slotAt t x.loc x.slot).st = .parkMem (.message s.nextId) ∧ ∃ c, me t x = { th with cont := some c }

/-- 11 R278, R283: `spawn` sends a fresh user thread with its payload in s1 onward to the location its address names, and `tg.signal` its signal;
the issuer goes on. A spawn of a task's thread onto its own core is the task's and anchored (log 17). -/
def Sys2Proof.spawnAndSignalRule : Prop :=
  ∀ (h : Hdr) (d a : SReg) (npay : Fin 9) (anch : Bool) (entry : BitVec 54) (t : BitVec 8) (s : State) (x : Cur) (key : Nat),
    (let i : Instr := .spawn h d a npay anch entry
     Ready i s x → canSend s x → firstWalk s x [((argsOf i s x).1.d.toNat, 1), (4 * entry.toNat, 4)] = none →
       namedAt s x (argsOf i s x).1.d = .ok key → fetchable s (me s x).part x.loc (me s x).walk (4 * entry.toNat) = .ok () → a.val + npay.val ≤ 24 →
       let own : Bool := (me s x).inTask && decide (servedAt key = x.loc)
       let th : Thread := { Thread.reset with
         part := (me s x).part, roaming := !anch && !own, inTask := own, pc := BitVec.ofNat 64 (4 * entry.toNat), qos := (me s x).qos
         s := Vector.ofFn fun j => if 1 ≤ j.val ∧ j.val ≤ npay.val then (me s x).s[(Fin.ofNat 32 (a.val + j.val - 1) : Fin 32)] else 0 }
       sendsOn i s x [(argsOf i s x).1.d.toNat, 4 * entry.toNat] (.spawn (servedAt key) ⟨th, false, own⟩)) ∧
    (let i : Instr := .tgSignal h a t
     Ready i s x → canSend s x → sendsOn i s x [] (.signal (isAttn (dieOf x.loc)) (argsOf i s x).1.a t.toNat))

/-- 11 R279, 01 R30, R31; 10 R254: `migrate` is PARAM_FORMAT for a thread that does not roam, costs its slot at home, and else moves the thread, whose
instruction issues again at the destination (log 17); it waits for the thread's relaxed accesses, at home too. -/
def Sys2Proof.migratesRule : Prop :=
  ∀ (h : Hdr) (a : SReg) (s : State) (x : Cur) (key : Nat),
    let i : Instr := .migrate h a
    let th := me s x
    let roams := th.roaming = true ∧ th.thact = false ∧ th.lact = false
    Ready i s x →
    (¬ roams → exec i s = .next (trapAt s x cPARAM 0 0)) ∧
    (roams → firstWalk s x [((argsOf i s x).1.a.toNat, 1)] = none → namedAt s x (argsOf i s x).1.a = .ok key →
      (drained s x = false → (slotAt s x.loc x.slot).halting = none → exec i s = .next (setSt s x.loc x.slot (.block .drain s.cycle))) ∧
      (drained s x = true → servedAt key = x.loc → exec i s = .next (ends i x (touch (argsOf i s x).2 x (argsOf i s x).1.a.toNat)))) ∧
    (roams → firstWalk s x [((argsOf i s x).1.a.toNat, 1)] = none → namedAt s x (argsOf i s x).1.a = .ok key → servedAt key ≠ x.loc → th.loops = [] →
      drained s x = true →
      (∀ r ∈ s.reqs, r.thid = th.thid → r.part = th.part → r.write = false) → (Machine.core s x.loc).fwd.length < 16 →
      hasWaitingGuard (Machine.core s x.loc) th = false → (slotAt s x.loc x.slot).halting = none →
      exec i s = .next (setSt s x.loc x.slot (.moving (servedAt key))))

/-- 11 R275, R282; 15 R366; 12 R303: `rb.send` with its payload read at issue, `tg.launch`, `pcall` (whose block address 0 means none) and
`kswap` send one request and park their thread until its reply. -/
def Sys2Proof.requestsParkRule : Prop :=
  ∀ (h : Hdr) (d a b c : SReg) (len : BitVec 18) (k : Fin 8) (n : BitVec 9) (svc : BitVec 16) (s : State) (x : Cur) (p : Partition) (key : Nat)
      (dest : Loc) (xl : List (Nat × Nat × Nat)),
    part? s (me s x).part = some p →
    (let i : Instr := .rbSend h d a b c len ⟨k, 0, 0⟩
     let r := (argsOf i s x).1
     Ready i s x → canSend s x → OwnLm s x false r.a.toNat 16 key → r.a.toNat + len.toNat ≤ 0x5C000 → len.toNat ≤ 262112 →
       (∀ j < len.toNat, poisoned s (key + j) = false) → r.c.toNat < 2 ^ 17 → coreOfRel p r.c.toNat = some dest →
       sendsAndWaits i s x (.ring ⟨s.nextId, p.pid, x.loc, x.slot.val, (me s x).thid, dest, k, r.b, (List.range len.toNat).map fun j => s.mem.read (key + j)⟩ d)) ∧
    (let i : Instr := .tgLaunch h d a n
     let r := (argsOf i s x).1
     Ready i s x → canSend s x → 1 ≤ n.toNat → n.toNat ≤ 256 → r.a.toNat % 64 = 0 →
       firstWalk s x [(r.a.toNat, 64 * n.toNat)] = none → xlateRange s p x.loc (me s x).walk .read 8 r.a.toNat (64 * n.toNat) = .ok xl →
       sendsAndWaits i s x (.launch (isAttn (dieOf x.loc)) ((List.range n.toNat).map fun j => (xlFind xl (r.a.toNat + 64 * j)).getD 0) d)) ∧
    (let i : Instr := .pcall h d a svc
     let r := (argsOf i s x).1
     Ready i s x → canSend s x → (me s x).priv = false →
       (r.a = 0 → sendsAndWaits i s x (.pcall (svcCoreOf x.loc) svc.toNat none d)) ∧
       (r.a ≠ 0 → blockKey s p x.loc r.a.toNat = some key → sendsAndWaits i s x (.pcall (svcCoreOf x.loc) svc.toNat (some key) d))) ∧
    (let i : Instr := .kswap h d
     Ready i s x → (slotAt s x.loc x.slot).halting = none →
       ∃ t c, exec i s = .next t ∧ t.mem = s.mem ∧ me t x = { me s x with cont := some c } ∧
         (slotAt t x.loc x.slot).st = .parkMem (.message s.nextId) ∧
         t.kswaps = s.kswaps ++ [⟨s.nextId, x.loc, x.slot.val, (me s x).thid, (me s x).part, isAttn (dieOf x.loc), d⟩])

/-- 11 R278, R283: `spawn` sends a fresh user thread with its payload in s1 onward to the location its address names, and `tg.signal` its signal; the
issuer goes on. A spawn of a task's thread onto its own core is the task's and anchored (log 17). Beside: 11 R275, R282; 15 R366; 12 R303: `rb.send`
with its payload read at issue, `tg.launch`, `pcall` (whose block address 0 means none) and `kswap` send one request and park their thread until its
reply. Beside: 11 R279, 01 R30, R31; 10 R254: `migrate` is PARAM_FORMAT for a thread that does not roam, costs its slot at home, and else moves the
thread, whose instruction issues again at the destination (log 17); it waits for the thread's relaxed accesses, at home too. -/
def Obligations.Messages : Prop :=
  Sys2Proof.spawnAndSignalRule ∧ Sys2Proof.requestsParkRule ∧ Sys2Proof.migratesRule

/-- 11 R272, R276, R277: `rb.get` gives the LM address of the header at HEAD, 0 under NB where it is empty, and passes over a skip header to offset 0;
`rb.free` empties the header's granule and moves HEAD past the message; a disabled ring is PARAM_FORMAT, and so is `rb.free` of one whose HEAD is
TAIL, whose header is empty, or of a skip header. -/
def Obligations.Rings : Prop :=
  ∀ (h : Hdr) (d : SReg) (k : Fin 8) (s : State) (x : Cur) (die idx : Nat),
    let r := (Machine.core s x.loc).rings[k]
    let base := r.base.toNat * 1024
    let key (off : Nat) := lmKey die idx (base + off)
    let kind (off : Nat) := numAt s (key off) 16 / 2 ^ 39 % 16
    let len (off : Nat) := numAt s (key off) 16 % 2 ^ 18
    let usable (off : Nat) : Prop := poisoned s (key off) = false
    let quiet : Prop := ∀ q ∈ s.reqs, ∀ g, q.st ≠ .feList g
    x.loc = .core die idx →
    (r.en = false → (Ready (.rbGet h d k) s x → exec (.rbGet h d k) s = .next (trapAt s x cPARAM 0 0)) ∧
      (Ready (.rbGetNb h d k) s x → exec (.rbGetNb h d k) s = .next (trapAt s x cPARAM 0 0)) ∧
      (Ready (.rbFree h k) s x → exec (.rbFree h k) s = .next (trapAt s x cPARAM 0 0))) ∧
    (r.en = true → drained s x = true → usable r.head.toNat →
      let empty : Prop := feFull s (key r.head.toNat) = false
      let gives (i : Instr) : Prop :=
        (¬ empty → kind r.head.toNat = 0 →
          exec i s = .next (ends i x (putS s x d (BitVec.ofNat 64 (base + r.head.toNat)) false))) ∧
        (quiet → ¬ empty → kind r.head.toNat = 1 → r.head.toNat ≠ 0 → r.head.toNat % 16 = 0 → base % 16 = 0 → usable 0 → feFull s (key 0) = true → kind 0 = 0 →
          exec i s = .next (ends i x (putS (setRing (setEmpty s (key r.head.toNat)) x.loc k { r with head := 0 }) x d (BitVec.ofNat 64 base) false))) ∧
        (¬ empty → 1 < kind r.head.toNat → exec i s = .next (trapAt s x cPARAM 0 0))
      (Ready (.rbGet h d k) s x → gives (.rbGet h d k)) ∧
      (Ready (.rbGetNb h d k) s x → gives (.rbGetNb h d k) ∧
        (empty → exec (.rbGetNb h d k) s = .next (ends (.rbGetNb h d k) x (putS s x d 0 false)))) ∧
      (Ready (.rbFree h k) s x → quiet → (∀ l ∈ s.cores, l.2.ringSpoil = []) →
        (r.head ≠ r.tail → ¬ empty → kind r.head.toNat = 0 →
          let m := 16 + 16 * ((len r.head.toNat + 15) / 16)
          exec (.rbFree h k) s = .next (ends (.rbFree h k) x (setRing (setEmpty s (key r.head.toNat)) x.loc k
            { r with head := BitVec.ofNat 18 ((r.head.toNat + m) % (1024 * 2 ^ (r.size.toNat - 1))) }))) ∧
        (r.head = r.tail ∨ empty ∨ kind r.head.toNat ≠ 0 → exec (.rbFree h k) s = .next (trapAt s x cPARAM 0 0))))

/-- 11 R265 to R267: `qsendc` puts a control value on an outbound link; `qstat` reads the status word, LVAL and the light word with DF clear;
`qret` ends the light handler at LRET and is ILLEGAL with detail 2 outside one. -/
def Sys2Proof.queueControlRule : Prop :=
  (∀ (h : Hdr) (q : Fin 4) (a : SReg) (s : State) (x : Cur), Ready (.qsendc h q a) s x →
    let r := argsOf (.qsendc h q a) s x
    ∃ u, exec (.qsendc h q a) s = .next (ends (.qsendc h q a) x u) ∧ u.mem = s.mem ∧ (∀ l k, slotAt u l k = slotAt s l k) ∧
      let o := (Machine.core r.2 x.loc).links[q]
      let n := (Machine.core u x.loc).links[q]
      n.words ++ n.spoiled =
        if o.growing then o.words ++ (o.spoiled ++ [⟨r.1.a, true, s.cycle + 2⟩]) else (o.words ++ [⟨r.1.a, true, s.cycle + 2⟩]) ++ o.spoiled) ∧
  (∀ (h : Hdr) (d : SReg) (s : State) (x : Cur),
    (Ready (.qstat h d 0) s x → exec (.qstat h d 0) s = .next (ends (.qstat h d 0) x (putS s x d (queueStatus s x) false))) ∧
    (Ready (.qstat h d 1) s x → exec (.qstat h d 1) s = .next (ends (.qstat h d 1) x (putS s x d (me s x).lval false))) ∧
    (Ready (.qstat h d 2) s x →
      exec (.qstat h d 2) s = .next (ends (.qstat h d 2) x (putS s x d
        (BitVec.ofNat 64 ((me s x).lret.toNat + (me s x).ldir.toNat * 2 ^ 56 + (if (me s x).lact then 2 ^ 63 else 0))) false)))) ∧
  (∀ (h : Hdr) (s : State) (x : Cur), Ready (.qret h) s x →
    ((me s x).lact = true → h.sw = false →
      exec (.qret h) s = .next (modTh s x.loc x.slot fun th =>
        { th with lact := false, pc := BitVec.ofNat 64 th.lret.toNat, cont := none, walk := .none })) ∧
    ((me s x).lact = false → exec (.qret h) s = .next (trapAt s x cILLEGAL 2 0))) ∧
  -- the status word of a core with links to all four neighbours, its fields for queue q as R266 lays them out
  (∀ (s : State) (x : Cur) (q : Fin 4) (m : Loc) (e : Fin 4) (p : Partition),
    part? s (me s x).part = some p → (linksOf p x.loc).getLsbD q.val = true → inboundOf x.loc q = some (m, e) →
    (∀ l r, (Machine.core s l).links[(r : Fin 4)].words.length ≤ 8) →
    let w := (queueStatus s x).toNat
    let inn := (Machine.core s m).links[e]
    let out := (Machine.core s x.loc).links[q]
    w / 2 ^ (8 * q.val) % 16 = inn.words.length ∧
      w / 2 ^ (4 + 8 * q.val) % 2 = (match inn.words ++ inn.spoiled with | v :: _ => v.ctl.toNat | [] => 0) ∧ w / 2 ^ (5 + 8 * q.val) % 2 = (if inn.spoiled = [] then 0 else 1) ∧
      w / 2 ^ (6 + 8 * q.val) % 2 = 0 ∧ w / 2 ^ (32 + 8 * q.val) % 16 = 8 - out.words.length ∧
      w / 2 ^ (36 + 8 * q.val) % 2 = (if out.spoiled = [] then 0 else 1))

/-- 11 R265 to R267: `qsendc` puts a control value on an outbound link; `qstat` reads the status word, LVAL and the light word with DF clear; `qret`
ends the light handler at LRET and is ILLEGAL with detail 2 outside one. Beside: 11 R263: entry to the light handler dequeues the control word, saves
it in LVAL, the queue in LDIR and the instruction's address in LRET, sets LACT, and goes on at QHVEC; no scalar register, predicate, mode or loop
entry changes. -/
def Obligations.QueuesAndLightHandler : Prop :=
  Sys2Proof.queueControlRule ∧ Sys2Proof.lightEntryRule

/-! ## Path labels (13) -/

/-- A label register of the issuing thread. -/
def Sys2Proof.labelOf (s : State) (x : Cur) (r : LReg) : Label := (me s x).l[r]

/-- A state of which only the label cache of the issuing core, where sets have become the most recent, may differ from `s` (13 R314). -/
def Sys2Proof.usedSets (s : State) (x : Cur) (lc : List (Nat × Nat × List LttEntry)) : State := modCore s x.loc fun c => { c with lcache := lc }

/-- 13 R308, R317: the LALU forms on well-formed labels, the order key and END by their bits; the dword forms check nothing. -/
def Obligations.LabelResults : Prop :=
  ∀ (h : Hdr) (d a b : LReg) (r r' : SReg) (p : PReg) (s : State) (x : Cur),
    let la := labelOf s x a
    let lb := labelOf s x b
    let ok (v : Label) : Prop := lFault v = none
    let gives (i : Instr) (v : Args → Label) : Prop :=
      exec i s = .next (ends i x (putL (argsOf i s x).2 x d (v (argsOf i s x).1) (argsOf i s x).1.df))
    let answers (i : Instr) (v : Args → Word) : Prop :=
      exec i s = .next (ends i x (putS (argsOf i s x).2 x r (v (argsOf i s x).1) (argsOf i s x).1.df))
    let hi (v : Label) : Word := v.extractLsb' 64 64
    let lo (v : Label) : Word := v.extractLsb' 0 64
    let key (v : Label) : Label := v.extractLsb' 108 20 ++ v.extractLsb' 0 100 ++ (0 : BitVec 1) ++ v.extractLsb' 100 7
    (let i : Instr := .lroot h d r
     Ready i s x → (argsOf i s x).1.a.toNat < 2 ^ 20 → gives i fun v => BitVec.ofNat 128 (v.a.toNat * 2 ^ 108)) ∧
    (let i : Instr := .lchild h d a r
     Ready i s x → ok la → ∀ y, (argsOf i s x).1.b.toNat ≤ 16843018 → lAppend la (argsOf i s x).1.b.toNat = some y → gives i fun _ => y) ∧
    (Ready (.lparent h d a) s x → ok la → gives (.lparent h d a) fun _ => lParentOf la) ∧
    (Ready (.lcommon h d a b) s x → ok la → ok lb → lTid la = lTid lb → gives (.lcommon h d a b) fun _ => lCommonOf la lb) ∧
    (Ready (.lend h d a) s x → ok la →
      gives (.lend h d a) fun _ => la.extractLsb' 107 21 ++ (100 : BitVec 7) ++ (la.extractLsb' 0 100 ||| BitVec.ofNat 100 (2 ^ (100 - lLen la) - 1))) ∧
    (Ready (.lmov h d a) s x → gives (.lmov h d a) fun _ => la) ∧
    (Ready (.lset h d r 0) s x → gives (.lset h d r 0) fun v => hi (labelOf s x d) ++ v.a) ∧
    (Ready (.lset h d r 1) s x → gives (.lset h d r 1) fun v => v.a ++ lo (labelOf s x d)) ∧
    (Ready (.lget h r a 0) s x → answers (.lget h r a 0) fun _ => lo la) ∧
    (Ready (.lget h r a 1) s x → answers (.lget h r a 1) fun _ => hi la) ∧
    (Ready (.lget h r a 2) s x → answers (.lget h r a 2) fun _ => hi (key la)) ∧
    (Ready (.lget h r a 3) s x → answers (.lget h r a 3) fun _ => lo (key la)) ∧
    (Ready (.ldepth h r a) s x → ok la → answers (.ldepth h r a) fun _ => BitVec.ofNat 64 ((lDigits la).getD []).length) ∧
    (Ready (.ldig h r a r') s x → ok la → answers (.ldig h r a r') fun v =>
      match ((lDigits la).getD [])[v.b.toNat]? with
      | some q => BitVec.ofNat 64 q.1
      | none => BitVec.allOnes 64) ∧
    (Ready (.lanc h p a b) s x → ok la → ok lb →
      exec (.lanc h p a b) s = .next (ends (.lanc h p a b) x (putP s x (.p p) (isAnc la lb)))) ∧
    (Ready (.lpanc h p a b) s x → ok la → ok lb →
      exec (.lpanc h p a b) s = .next (ends (.lpanc h p a b) x (putP s x (.p p) (isAnc la lb && decide (lLen la < lLen lb)))))

/-- 13 R307 to R309, R317: appending an ordinal's code to a well-formed label gives, within 100 bits, a well-formed label below it, one digit deeper,
whose last digit is the ordinal and whose parent is the label. -/
def Sys2Proof.childAndParentRule : Prop :=
  ∀ (v y : Label) (n : Nat) (ds : List (Nat × Nat)),
    lFault v = none → n ≤ 16843018 → lDigits v = some ds → lAppend v n = some y →
    lFault y = none ∧ lParentOf y = v ∧ isAnc v y = true ∧ lTid y = lTid v ∧ lDigits y = some (ds ++ [(n, lLen v)])

/-- 13 R309: the descendants-or-self of a well-formed label are the well-formed labels whose order key lies from its own to its END's. -/
def Sys2Proof.labelRangeRule : Prop :=
  ∀ a b : Label, lFault a = none → lFault b = none →
    (isAnc a b = true ↔ (okey a).toNat ≤ (okey b).toNat ∧ (okey b).toNat ≤ (okey (endOf a)).toNat)

/-- 13 R307 to R309, R317: appending an ordinal's code to a well-formed label gives, within 100 bits, a well-formed label below it, one digit deeper,
whose last digit is the ordinal and whose parent is the label. Beside: 13 R309: the descendants-or-self of a well-formed label are the well-formed
labels whose order key lies from its own to its END's. -/
def Obligations.LabelTree : Prop :=
  Sys2Proof.childAndParentRule ∧ Sys2Proof.labelRangeRule

/-- 13 R308, R316, R317, R320: LABEL_FORMAT names the register and the reason; an ordinal or a tree id out of range, labels of two trees, a path
beyond 100 bits; no serving entry is NO_NODE; a stale label records birth and current prefix and names the entry; none has any other effect. -/
def Obligations.LabelTraps : Prop :=
  ∀ (h : Hdr) (d a b : LReg) (r : SReg) (p : PReg) (off : BitVec 16) (sz : Size) (m : Option MPfx) (uns : Bool) (s : State) (x : Cur) (n : Nat),
    let la := labelOf s x a
    let lb := labelOf s x b
    let format (i : Instr) (reg reason : Nat) : Prop := exec i s = .next (trapAt s x cLFORMAT (reason * 16 + reg) 0)
    (lFault la = some n →
      (Ready (.lchild h d a r) s x → format (.lchild h d a r) a.val n) ∧ (Ready (.lparent h d a) s x → format (.lparent h d a) a.val n) ∧
      (Ready (.lanc h p a b) s x → format (.lanc h p a b) a.val n) ∧ (Ready (.lpanc h p a b) s x → format (.lpanc h p a b) a.val n) ∧
      (Ready (.lcommon h d a b) s x → format (.lcommon h d a b) a.val n) ∧ (Ready (.lend h d a) s x → format (.lend h d a) a.val n) ∧
      (Ready (.ldepth h r a) s x → format (.ldepth h r a) a.val n) ∧ (Ready (.lrebase h d a) s x → format (.lrebase h d a) a.val n) ∧
      (Ready (.lfree h a) s x → format (.lfree h a) a.val n) ∧ (Ready (.lxlate h r a) s x → format (.lxlate h r a) a.val n) ∧
      (Ready (.lmove h d a b) s x → format (.lmove h d a b) a.val n)) ∧
    (lFault la = none → lFault lb = some n →
      (Ready (.lanc h p a b) s x → format (.lanc h p a b) b.val n) ∧ (Ready (.lcommon h d a b) s x → format (.lcommon h d a b) b.val n)) ∧
    (let i : Instr := .lroot h d r
     Ready i s x → 2 ^ 20 ≤ (argsOf i s x).1.a.toNat → format i d.val 6) ∧
    (let i : Instr := .lchild h d a r
     Ready i s x → lFault la = none →
       (16843018 < (argsOf i s x).1.b.toNat → format i d.val 6) ∧
       ((argsOf i s x).1.b.toNat ≤ 16843018 → lAppend la (argsOf i s x).1.b.toNat = none → exec i s = .next (trapAt s x cLDEPTH 1 0))) ∧
    (Ready (.lcommon h d a b) s x → lFault la = none → lFault lb = none → lTid la ≠ lTid lb → format (.lcommon h d a b) d.val 5) ∧
    (let i : Instr := .lld h m r a off sz uns false
     Ready i s x →
       (off.toNat % Size.bytes sz ≠ 0 → exec i s = .next (trapAt s x cMISALIGN 0 0)) ∧
       (off.toNat % Size.bytes sz = 0 → ∀ set, lFault la = none → setFor s x (lTid la) = some set →
         (∀ k, lTranslate set false la = .noNode k → ∃ lc, exec i s = .next (trapAt (usedSets s x lc) x cNONODE k 0)) ∧
         (∀ y, lTranslate set false la = .stale y → (me s x).outs = [] → ∃ t, exec i s = .next t ∧ t.mem = s.mem ∧
           (me t x).lfOld = y.birth ∧ (me t x).lfNew = y.cur ∧
           ((me s x).thact = false → (me t x).tcause = BitVec.ofNat 64 (cSTALE + (y.num % 1024 + a.val * 1024) % 65536 * 65536)))))

/-- 13 R312, R315, R319, R325, R326, R329: a label access on a resident set sends one request, which begins with the lookup of the birth label at the
first slot that its hash names in its directory; the thread parks, or goes on under a relaxed prefix. What a store or `lfree` may not do to the node goes with the request as the fault that follows the lookup;
a relaxed store takes it at issue (the model's choice: log 47). -/
def Sys2Proof.labelAccessRule : Prop :=
  ∀ (h : Hdr) (m : Option MPfx) (d a c : LReg) (r r' : SReg) (off : BitVec 16) (sz : Size) (uns spec : Bool) (s : State) (x : Cur)
      (set : List LttEntry) (e : LttEntry) (b : Label),
    let la := labelOf s x a
    let sends (i : Instr) (relaxed write : Bool) (op : MemOp) : Prop :=
      ∃ t q, exec i s = .next t ∧ t.reqs = s.reqs ++ [q] ∧ t.mem = s.mem ∧ q.id = s.nextId ∧ q.loc = x.loc ∧ q.slot = x.slot.val ∧
        q.thid = (me s x).thid ∧ q.part = (me s x).part ∧ q.relaxed = relaxed ∧ q.write = write ∧ q.op = op ∧ q.st = .xlate .read ∧
        q.va = probeVa b e.dbase e.dsize 0 % 2 ^ 64 ∧ q.size = 32 ∧
        (relaxed = false → (slotAt t x.loc x.slot).st = .parkMem (.access s.nextId))
    let deny : Option Nat := if e.view then some 3 else if off.toNat < 16 then some 2 else none
    let mayFree : Option (Nat × Nat) :=
      if e.view then some (cPERMISSION, 3)
      else if (diePart s (dieOf x.loc) (me s x).part).ltt.any fun q => q.birth == b then some (cLTABLE, 7) else none
    lFault la = none → setFor s x (lTid la) = some set → (∀ strict, lTranslate set strict la = .ok e b) →
    (slotAt s x.loc x.slot).halting = none → drained s x = true →
    (let i : Instr := .lld h m r a off sz uns spec
     Ready i s x → (argsOf i s x).1.df = false → off.toNat % Size.bytes sz = 0 →
       sends i m.isSome false (.look b e.dbase e.dsize 0 (.load r sz uns off.toNat spec))) ∧
    (let i : Instr := .lldL h m d a off spec
     Ready i s x → (argsOf i s x).1.df = false → off.toNat % 16 = 0 →
       sends i m.isSome false (.look b e.dbase e.dsize 0 (.loadL d off.toNat spec))) ∧
    (let i : Instr := .lst h m r a off sz
     Ready i s x → off.toNat % Size.bytes sz = 0 → (m = none ∨ deny = none) →
       sends i m.isSome true (.look b e.dbase e.dsize 0 (.store (argsOf i s x).1.d sz off.toNat deny))) ∧
    (let i : Instr := .lstL h m d a off
     Ready i s x → off.toNat % 16 = 0 → (m = none ∨ deny = none) →
       sends i m.isSome true (.look b e.dbase e.dsize 0 (.storeL (labelOf s x d) off.toNat deny))) ∧
    (∀ k, deny = some k → m.isSome = true →
      (Ready (.lst h m r a off sz) s x → off.toNat % Size.bytes sz = 0 → ∃ lc, exec (.lst h m r a off sz) s = .next (trapAt (usedSets s x lc) x cPERMISSION k 0)) ∧
      (Ready (.lstL h m d a off) s x → off.toNat % 16 = 0 → ∃ lc, exec (.lstL h m d a off) s = .next (trapAt (usedSets s x lc) x cPERMISSION k 0))) ∧
    (Ready (.lxlate h r a) s x → sends (.lxlate h r a) false false (.look b e.dbase e.dsize 0 (.xlate false e.view r))) ∧
    (Ready (.lxlateT h r a) s x → sends (.lxlateT h r a) false false (.look b e.dbase e.dsize 0 (.xlate true e.view r))) ∧
    (Ready (.lxlateTs h r a) s x → sends (.lxlateTs h r a) false false (.look b e.dbase e.dsize 0 (.xlate true e.view r))) ∧
    (let i : Instr := .lnew h d a r r'
     let v := (argsOf i s x).1
     Ready i s x → e.view = false → v.b.toNat % 16 = 0 → v.b.toNat < 2 ^ 56 → notTableMem v.b.toNat = false →
       ∀ key, addrCheck s x v.b 16 .write = .ok key →
         sends i false true (.look b e.dbase e.dsize 0 (.new la v.b.toNat key v.c d))) ∧
    (Ready (.lfree h a) s x → sends (.lfree h a) false true (.look b e.dbase e.dsize 0 (.free mayFree))) ∧
    -- a status in place of a trap, in mode 1, for a label that is not well-formed or has no entry
    (Ready (.lxlateT h r c) s x →
      ((lFault (labelOf s x c)).isSome = true → exec (.lxlateT h r c) s = .next (ends (.lxlateT h r c) x (putS s x r (BitVec.ofNat 64 (3 * 2 ^ 56)) false))) ∧
      (∀ t k, lFault (labelOf s x c) = none → setFor s x (lTid (labelOf s x c)) = some t → lTranslate t false (labelOf s x c) = .noNode k →
        ∃ lc, exec (.lxlateT h r c) s = .next (ends (.lxlateT h r c) x (putS (usedSets s x lc) x r (BitVec.ofNat 64 (2 * 2 ^ 56)) false))))

/-- 13 R316, R323, R324, R327, R328: `lrebase` gives the rebased label; `lxlate` of the fault record reads it; `ltree`, `ltree.v` and `lmove` send their
change to the master and park. -/
def Sys2Proof.labelTablesRule : Prop :=
  ∀ (h : Hdr) (d a b : LReg) (ra rb rc : SReg) (dsize : Fin 32) (s : State) (x : Cur) (p : Partition),
    let asks (i : Instr) (k : LttKind) (d a b : LReg) : Prop :=
      ∃ t, exec i s = .next t ∧ t.mem = s.mem ∧ (slotAt t x.loc x.slot).st = .parkMem (.message s.nextId) ∧ (∃ c, me t x = { me s x with cont := some c }) ∧
        t.ltts = s.ltts ++ [⟨s.nextId, x.loc, x.slot.val, (me s x).thid, (me s x).part, k, d, a, b, .none⟩]
    let free : Prop := drained s x = true ∧ (slotAt s x.loc x.slot).halting = none
    (∀ y, Ready (.lrebase h d a) s x → lFault (labelOf s x a) = none → rebase (setFor s x) false (labelOf s x a) = .ok y →
      ∃ lc, exec (.lrebase h d a) s = .next (ends (.lrebase h d a) x (putL (usedSets s x lc) x d y ((me s x).ldf.getLsbD a.val)))) ∧
    (Ready (.lxlateOld h d) s x → exec (.lxlateOld h d) s = .next (ends (.lxlateOld h d) x (putL s x d (me s x).lfOld false))) ∧
    (Ready (.lxlateNew h d) s x → exec (.lxlateNew h d) s = .next (ends (.lxlateNew h d) x (putL s x d (me s x).lfNew false))) ∧
    (let i : Instr := .ltree h d ra rb rc dsize
     let v := (argsOf i s x).1
     Ready i s x → free → part? s (me s x).part = some p → v.a.toNat < 2 ^ 20 → 7 ≤ dsize.val → dsize.val ≤ 24 → v.b.toNat % (32 * 2 ^ dsize.val) = 0 →
       v.c.toNat % 16 = 0 → notTableMem v.b.toNat = false → notTableMem v.c.toNat = false → v.b.toNat < 2 ^ 56 → v.c.toNat < 2 ^ 56 →
       firstWalk s x [(v.b.toNat, 32 * 2 ^ dsize.val), (v.c.toNat, 16)] = none →
       ∀ l l', xlateRange s p x.loc (me s x).walk .rmw 8200 v.b.toNat (32 * 2 ^ dsize.val) = .ok l → xlateRange s p x.loc (me s x).walk .write 2 v.c.toNat 16 = .ok l' →
         asks i (.tree v.a.toNat v.b.toNat dsize.val v.c.toNat) d 0 0) ∧
    (let i : Instr := .ltreeV h d ra b
     Ready i s x → free → (argsOf i s x).1.a.toNat < 2 ^ 20 → lFault (labelOf s x b) = none →
       asks i (.view (argsOf i s x).1.a.toNat (labelOf s x b)) d 0 b) ∧
    (Ready (.lmove h d a b) s x → free → lFault (labelOf s x a) = none → lFault (labelOf s x b) = none →
      asks (.lmove h d a b) (.move (labelOf s x a) (labelOf s x b) false) d a b) ∧
    (Ready (.lmoveF h d a b) s x → free → lFault (labelOf s x a) = none → lFault (labelOf s x b) = none →
      asks (.lmoveF h d a b) (.move (labelOf s x a) (labelOf s x b) true) d a b)

/-- 13 R312, R315, R319, R325, R326, R329: a label access on a resident set sends one request, which begins with the lookup of the birth label at the
first slot that its hash names in its directory; the thread parks, or goes on under a relaxed prefix. What a store or `lfree` may not do to the node
goes with the request as the fault that follows the lookup; a relaxed store takes it at issue (the model's choice: log 47). Beside: 13 R316, R323,
R324, R327, R328: `lrebase` gives the rebased label; `lxlate` of the fault record reads it; `ltree`, `ltree.v` and `lmove` send their change to the
master and park. -/
def Obligations.LabelInstructions : Prop :=
  Sys2Proof.labelAccessRule ∧ Sys2Proof.labelTablesRule

/-! ## Vector instructions (06) -/

/-- Lane `j` of a row operand read through its modifier (03 R90, 04 R120). -/
def Sys2Proof.laneIn (s : State) (x : Cur) (v : VReg) (m : LaneMod) (j : Nat) : Nat :=
  let c := Machine.core s x.loc
  let w := (typeOf c v).bits
  lane c.tiles[v] w (srcLane (512 / w) m j)

/-- Lane `j` is active under the prefix; m0 reads as all ones (03 R86, 06 R154). -/
def Sys2Proof.activeLane (s : State) (x : Cur) (p : Option VPfx) (j : Nat) : Bool :=
  match p with
  | none => true
  | some q => q.mask == 0 || (Machine.core s x.loc).m[q.mask].getLsbD j

def Sys2Proof.zeroes (p : Option VPfx) : Bool := match p with | none => false | some q => q.z

/-- The bits written and their value for a row of lanes of `w` bits under the prefix: active lanes `r`, the others zero or kept (06 R154). -/
def Sys2Proof.rowUnder (s : State) (x : Cur) (p : Option VPfx) (w : Nat) (r : Nat → Nat) (bits val : Row) : Prop :=
  ∀ j < 512 / w,
    lane bits w j = (if activeLane s x p j || zeroes p then 2 ^ w - 1 else 0) ∧
    (activeLane s x p j = true → lane val w j = r j) ∧ (activeLane s x p j = false → zeroes p = true → lane val w j = 0)

/-- `i` completes with the row `r` in `d` under the prefix, and `f` of that state. -/
def Sys2Proof.writesRow (i : Instr) (s : State) (x : Cur) (p : Option VPfx) (d : VReg) (r : Nat → Nat) (f : State → State) : Prop :=
  ∃ bits val, rowUnder s x p (typeOf (Machine.core s x.loc) d).bits r bits val ∧
    exec i s = .next (ends i x (f (modCore (argsOf i s x).2 x.loc fun c => setRow c d bits val)))

/-- A lane of `w` bits read signed, and an integer modulo 2^w. -/
def Sys2Proof.signedLane (w n : Nat) : Int := if 2 * n < 2 ^ w then (n : Int) else (n : Int) - (2 ^ w : Nat)
def Sys2Proof.wrapLane (w : Nat) (i : Int) : Nat := (i % (2 ^ w : Nat)).toNat

def Sys2Proof.widthOf (s : State) (x : Cur) (v : VReg) : Nat := (typeOf (Machine.core s x.loc) v).bits

/-- 06 R153, R154, R156: the VINT forms lane by lane on operands of one lane width, and ELEM_TYPE on others; what writing a row changes. -/
def Obligations.VectorIntegerResults : Prop :=
  (∀ (h : Hdr) (p : Option VPfx) (d a b : VReg) (ma mb : LaneMod) (s : State) (x : Cur),
    let w := widthOf s x d
    let A := laneIn s x a ma
    let B := laneIn s x b mb
    let S (n : Nat) : Int := signedLane w n
    let two (i : Instr) (r : Nat → Nat) : Prop :=
      Ready i s x →
        if widthOf s x a = w ∧ widthOf s x b = w then writesRow i s x p d r id else exec i s = .next (trapAt s x cELEM 0 0)
    let one (i : Instr) (r : Nat → Nat) : Prop :=
      Ready i s x → if widthOf s x a = w then writesRow i s x p d r id else exec i s = .next (trapAt s x cELEM 0 0)
    let top : Int := (2 ^ (w - 1) : Nat)
    let clamp (v : Int) : Int := if v < -top then -top else if top - 1 < v then top - 1 else v
    two (.vadd h p d a b ma mb) (fun j => wrapLane w (A j + B j)) ∧
    two (.vsub h p d a b ma mb) (fun j => wrapLane w (A j - B j)) ∧
    two (.vmul h p d a b ma mb) (fun j => wrapLane w (A j * B j)) ∧
    two (.vmulh h p d a b ma mb) (fun j => wrapLane w (S (A j) * S (B j) / (2 ^ w : Nat))) ∧
    two (.vmin h p d a b ma mb) (fun j => if S (A j) ≤ S (B j) then A j else B j) ∧
    two (.vmax h p d a b ma mb) (fun j => if S (A j) ≤ S (B j) then B j else A j) ∧
    two (.vminn h p d a b ma mb) (fun j => if A j ≤ B j then A j else B j) ∧
    two (.vmaxn h p d a b ma mb) (fun j => if A j ≤ B j then B j else A j) ∧
    two (.vand h p d a b ma mb) (fun j => Nat.land (A j) (B j)) ∧
    two (.vor h p d a b ma mb) (fun j => Nat.lor (A j) (B j)) ∧
    two (.vxor h p d a b ma mb) (fun j => Nat.xor (A j) (B j)) ∧
    two (.vandn h p d a b ma mb) (fun j => Nat.land (A j) (Nat.xor (B j) (2 ^ w - 1))) ∧
    two (.vshl h p d a b ma mb) (fun j => wrapLane w (A j * 2 ^ (B j % w))) ∧
    two (.vshr h p d a b ma mb) (fun j => A j / 2 ^ (B j % w)) ∧
    two (.vsra h p d a b ma mb) (fun j => wrapLane w (S (A j) / (2 ^ (B j % w) : Nat))) ∧
    two (.vsadd h p d a b ma mb) (fun j => wrapLane w (clamp (S (A j) + S (B j)))) ∧
    two (.vssub h p d a b ma mb) (fun j => wrapLane w (clamp (S (A j) - S (B j)))) ∧
    one (.vabs h p d a ma) (fun j => wrapLane w (S (A j)).natAbs) ∧
    one (.vneg h p d a ma) (fun j => wrapLane w (-(S (A j)))) ∧
    one (.vmov h p d a ma) A) ∧
  (∀ (c : Core) (d v : VReg) (bits val : Row) (w j : Nat), (w = 8 ∨ w = 16 ∨ w = 32) → j < 512 / w →
    (v ≠ d → (setRow c d bits val).tiles[v] = c.tiles[v]) ∧
    (lane bits w j = 2 ^ w - 1 → lane (setRow c d bits val).tiles[d] w j = lane val w j) ∧
    (lane bits w j = 0 → lane (setRow c d bits val).tiles[d] w j = lane c.tiles[d] w j))

/-- The floating-point format of rows that VFLT takes (06 R153). -/
def Sys2Proof.rowFormat (s : State) (x : Cur) (v : VReg) : Option FpFmt :=
  match typeOf (Machine.core s x.loc) v with
  | .fp32 => some fp32
  | .bf16 => some bf16
  | .fp16 => some fp16
  | _ => none

/-- The OR over the active lanes (06 R158). -/
def Sys2Proof.flagsOver (s : State) (x : Cur) (p : Option VPfx) (n : Nat) (fl : Nat → BitVec 5) : BitVec 5 :=
  (List.range n).foldl (fun acc j => if activeLane s x p j then acc ||| fl j else acc) 0

/-- The rounding mode of a vector instruction: its prefix's, or the thread's (02 R57). -/
def Sys2Proof.rowMode (s : State) (x : Cur) (p : Option VPfx) : Rnd :=
  match p with
  | none => modeOf (me s x)
  | some q => if q.rnd = .thread then modeOf (me s x) else q.rnd

/-- 06 R153, R154, R158: the VFLT forms lane by lane, rounded once by the prefix's mode or the thread's, the flags of the active lanes set; ELEM_TYPE
on operands of another or no such type. -/
def Sys2Proof.vectorFloatResultsRule : Prop :=
  ∀ (h : Hdr) (p : Option VPfx) (d a b : VReg) (ma mb : LaneMod) (s : State) (x : Cur),
    let ty (v : VReg) := typeOf (Machine.core s x.loc) v
    let A := laneIn s x a ma
    let B := laneIn s x b mb
    let m := rowMode s x p
    let does (i : Instr) (same : Prop) (r : FpFmt → Nat → Nat × BitVec 5) : Prop :=
      Ready i s x →
        (∀ f, rowFormat s x d = some f → same →
          writesRow i s x p d (fun j => (r f j).1) fun t =>
            modTh t x.loc x.slot (orFlags (flagsOver s x p (512 / widthOf s x d) fun j => (r f j).2))) ∧
        (rowFormat s x d = none ∨ ¬ same → exec i s = .next (trapAt s x cELEM 0 0))
    let exact (i : Instr) (r : FpFmt → Nat → Nat) : Prop :=
      Ready i s x →
        (∀ f, rowFormat s x d = some f → ty a = ty d → writesRow i s x p d (r f) id) ∧
        (rowFormat s x d = none ∨ ty a ≠ ty d → exec i s = .next (trapAt s x cELEM 0 0))
    let both := ty a = ty d ∧ ty b = ty d
    let e : VReg := match p with | some q => q.e.getD d | none => d
    does (.vfadd h p d a b ma mb) both (fun f j => fpAdd f m (A j) (B j)) ∧
    does (.vfsub h p d a b ma mb) both (fun f j => fpSub f m (A j) (B j)) ∧
    does (.vfmul h p d a b ma mb) both (fun f j => fpMul f m (A j) (B j)) ∧
    does (.vfma h p d a b ma mb) (both ∧ ty e = ty d) (fun f j => fpFma f m (A j) (B j) (laneIn s x e .none j)) ∧
    does (.vfmin h p d a b ma mb) both (fun f j => (fpMinMax f false (A j) (B j), 0)) ∧
    does (.vfmax h p d a b ma mb) both (fun f j => (fpMinMax f true (A j) (B j), 0)) ∧
    exact (.vfabs h p d a ma) (fun f j => fpAbs f (A j)) ∧
    exact (.vfneg h p d a ma) (fun f j => fpNeg f (A j))

/-- 06 R160: the VCMP forms write a mask under the prefix, bits beyond the lanes zero; m0 discards it; `vfcmp.lt` and `vfcmp.le` set NV for a NaN in
an active lane. -/
def Sys2Proof.vectorCompareResultsRule : Prop :=
  ∀ (h : Hdr) (p : Option VPfx) (d : MReg) (a b : VReg) (ma mb : LaneMod) (s : State) (x : Cur),
    let w := widthOf s x a
    let n := 512 / w
    let A := laneIn s x a ma
    let B := laneIn s x b mb
    let S (v : Nat) : Int := signedLane w v
    let masks (i : Instr) (r : Nat → Bool) (f : State → State) : Prop :=
      ∃ v : BitVec 64, (∀ j < 64, v.getLsbD j =
          (decide (j < n) && if activeLane s x p j then r j else !zeroes p && (d == 0 || (Machine.core s x.loc).m[d].getLsbD j))) ∧
        exec i s = .next (ends i x (f (modCore (argsOf i s x).2 x.loc fun c => if d = 0 then c else { c with m := c.m.set d v })))
    let int (i : Instr) (r : Nat → Bool) : Prop :=
      Ready i s x → if widthOf s x b = w then masks i r id else exec i s = .next (trapAt s x cELEM 0 0)
    let flt (i : Instr) (k : FpCmp) : Prop :=
      Ready i s x →
        (∀ f, rowFormat s x a = some f → typeOf (Machine.core s x.loc) b = typeOf (Machine.core s x.loc) a →
          masks i (fun j => (fpCompare f k (A j) (B j)).1) fun t =>
            modTh t x.loc x.slot (orFlags (flagsOver s x p n fun j => (fpCompare f k (A j) (B j)).2))) ∧
        (rowFormat s x a = none ∨ typeOf (Machine.core s x.loc) b ≠ typeOf (Machine.core s x.loc) a → exec i s = .next (trapAt s x cELEM 0 0))
    int (.vcmpEq h p d a b ma mb) (fun j => decide (A j = B j)) ∧ int (.vcmpNe h p d a b ma mb) (fun j => decide (A j ≠ B j)) ∧
    int (.vcmpLt h p d a b ma mb) (fun j => decide (S (A j) < S (B j))) ∧ int (.vcmpLe h p d a b ma mb) (fun j => decide (S (A j) ≤ S (B j))) ∧
    int (.vcmpLtn h p d a b ma mb) (fun j => decide (A j < B j)) ∧ int (.vcmpLen h p d a b ma mb) (fun j => decide (A j ≤ B j)) ∧
    flt (.vfcmpEq h p d a b ma mb) .eq ∧ flt (.vfcmpLt h p d a b ma mb) .lt ∧ flt (.vfcmpLe h p d a b ma mb) .le ∧ flt (.vfcmpUn h p d a b ma mb) .un

/-- 06 R153, R154, R158: the VFLT forms lane by lane, rounded once by the prefix's mode or the thread's, the flags of the active lanes set; ELEM_TYPE
on operands of another or no such type. Beside: 06 R160: the VCMP forms write a mask under the prefix, bits beyond the lanes zero; m0 discards it;
`vfcmp.lt` and `vfcmp.le` set NV for a NaN in an active lane. -/
def Obligations.VectorFloat : Prop :=
  Sys2Proof.vectorFloatResultsRule ∧ Sys2Proof.vectorCompareResultsRule

/-- 06 R161, R163: selection, splats, lane access and conversion; a lane number beyond the lanes reads as zero and writes nothing. -/
def Sys2Proof.vectorMovesRule : Prop :=
  ∀ (h : Hdr) (p : Option VPfx) (q : VPfx) (d a b : VReg) (r r' : SReg) (ma mb : LaneMod) (t : Fmt) (part : Fin 64) (s : State) (x : Cur),
    let w := widthOf s x d
    let A := laneIn s x a ma
    let B := laneIn s x b mb
    (Ready (.vsel h q d a b ma mb) s x → widthOf s x a = w → widthOf s x b = w →
      writesRow (.vsel h q d a b ma mb) s x none d (fun j => if activeLane s x (some q) j then A j else B j) id) ∧
    (let i : Instr := .vsplat h p d r
     Ready i s x → writesRow i s x p d (fun _ => (argsOf i s x).1.a.toNat % 2 ^ w) id) ∧
    (let i : Instr := .vidx h p d r
     Ready i s x → writesRow i s x p d (fun j => ((argsOf i s x).1.a.toNat + j) % 2 ^ w) id) ∧
    (let i : Instr := .vext h r a r' ma
     let k := (argsOf i s x).1.b.toNat
     let wa := widthOf s x a
     let v : Int := if k < 512 / wa then
         (match typeOf (Machine.core s x.loc) a with | .i8 | .i16 | .i32 => signedLane wa (A k) | _ => (A k : Int)) else 0
     Ready i s x → typeOf (Machine.core s x.loc) a ≠ .i64 → exec i s = .next (ends i x (putS (argsOf i s x).2 x r (BitVec.ofInt 64 v) (argsOf i s x).1.df))) ∧
    (let i : Instr := .vins h d r r'
     let k := (argsOf i s x).1.b.toNat
     Ready i s x →
       (512 / w ≤ k → exec i s = .next (ends i x (argsOf i s x).2)) ∧
       (k < 512 / w → ∃ bits val, exec i s = .next (ends i x (modCore (argsOf i s x).2 x.loc fun c => setRow c d bits val)) ∧
         ∀ j < 512 / w, lane bits w j = (if j = k then 2 ^ w - 1 else 0) ∧ (j = k → lane val w j = (argsOf i s x).1.a.toNat % 2 ^ w))) ∧
    (let i : Instr := .vcvt h p t d a part ma
     let src := typeOf (Machine.core s x.loc) a
     let ns := 512 / src.bits
     let nd := 512 / t.bits
     let from' := if ns ≤ nd then part.val * ns else 0
     let inPart (j : Nat) : Bool := decide (from' ≤ j ∧ j < from' + min ns nd)
     let res (j : Nat) : Narrow := convert (rowMode s x p) none src t (if ns ≤ nd then A (j - from') else A (part.val * nd + j))
     Ready i s x → part.val < vcvtParts src t → t ≠ .i64 → t ≠ .n64 → typeOf (Machine.core s x.loc) d = t → (me s x).tpra = 0 → nd ≤ 64 → ns ≤ 64 →
       ∃ u, exec i s = .next (ends i x u) ∧ u.mem = s.mem ∧
         (∀ j < nd, lane (Machine.core u x.loc).tiles[d] w j =
           if inPart j && activeLane s x p j then (res j).pat % 2 ^ w
           else if inPart j && zeroes p then 0 else lane (Machine.core s x.loc).tiles[d] w j) ∧
         (∀ v, v ≠ d → (Machine.core u x.loc).tiles[(v : VReg)] = (Machine.core s x.loc).tiles[v]) ∧
         ∃ fl, me u x = { me s x with fpmode := (me s x).fpmode ||| fl })

/-- 04 R120; 06 R173 to R175: mask logic and reads, m0 constant; `vcompress` packs the active lanes to the bottom, counts them in B and sets CEMPTY for
none; `vexpand` deals the lanes out to the active ones. -/
def Sys2Proof.maskResultsRule : Prop :=
  ∀ (h : Hdr) (p : Option VPfx) (d a : VReg) (r : SReg) (m k l : MReg) (ma : LaneMod) (s : State) (x : Cur),
    let M (q : MReg) : BitVec 64 := if q = 0 then BitVec.allOnes 64 else (Machine.core s x.loc).m[q]
    let puts (i : Instr) (v : Args → BitVec 64) : Prop :=
      Ready i s x → exec i s = .next (ends i x (modCore (argsOf i s x).2 x.loc fun c =>
        if m = 0 then c else { c with m := c.m.set m (v (argsOf i s x).1) }))
    let gets (i : Instr) (v : Nat) : Prop := Ready i s x → exec i s = .next (ends i x (putS s x r (BitVec.ofNat 64 v) false))
    let w := widthOf s x d
    let n := 512 / w
    let A := laneIn s x a ma
    let on := (List.range n).filter fun j => activeLane s x p j
    puts (.mand h m k l) (fun _ => M k &&& M l) ∧ puts (.mor h m k l) (fun _ => M k ||| M l) ∧ puts (.mxor h m k l) (fun _ => M k ^^^ M l) ∧
    puts (.mnot h m k) (fun _ => BitVec.allOnes 64 ^^^ M k) ∧ puts (.mset h m r) (fun v => v.a) ∧
    gets (.mpopc h r k) ((List.range 64).filter fun j => (M k).getLsbD j).length ∧
    gets (.mget h r k) (M k).toNat ∧
    gets (.mfirst h r k) ((List.range 64).takeWhile fun j => !(M k).getLsbD j).length ∧
    (let i : Instr := .vcompress h p d a r ma
     Ready i s x → widthOf s x a = w →
       ∃ bits val, exec i s = .next (ends i x (putS (modCore s x.loc fun c =>
           let c := setRow c d bits val
           if on = [] then { c with tstat := c.tstat.set d.tile { c.tstat[d.tile] with cempty := true } } else c) x r (BitVec.ofNat 64 on.length) false)) ∧
         ∀ j < n, lane bits w j = (if j < on.length ∨ zeroes p = true then 2 ^ w - 1 else 0) ∧
           (∀ q, on[j]? = some q → lane val w j = A q) ∧ (on.length ≤ j → zeroes p = true → lane val w j = 0)) ∧
    (let i : Instr := .vexpand h p d a ma
     Ready i s x → widthOf s x a = w →
       writesRow i s x p d (fun j => A ((List.range j).filter fun q => activeLane s x p q).length) id)

/-- 06 R161, R163: selection, splats, lane access and conversion; a lane number beyond the lanes reads as zero and writes nothing. Beside: 04 R120; 06
R173 to R175: mask logic and reads, m0 constant; `vcompress` packs the active lanes to the bottom, counts them in B and sets CEMPTY for none;
`vexpand` deals the lanes out to the active ones. -/
def Obligations.VectorMovesAndMasks : Prop :=
  Sys2Proof.vectorMovesRule ∧ Sys2Proof.maskResultsRule

/-- 06 R153, R165 to R172; 01 R24, R25: SFU and VRED results are outstanding until their fixed cycle: an SFU result 23 cycles after it enters service,
in turn; a reduction or scan 12 and a softmax merge 30 cycles after issue; a full SFU FIFO makes the instruction wait. Which admitted result the SFU
gives is free (log 6). -/
def Obligations.LongVectorResults : Prop :=
  ∀ (h : Hdr) (p : Option VPfx) (d a b : VReg) (r : SReg) (ma mb : LaneMod) (s : State) (x : Cur),
    let w := widthOf s x a
    let n := 512 / w
    let A := laneIn s x a ma
    let S (j : Nat) : Int := signedLane w (A j)
    let on := (List.range n).filter fun j => activeLane s x p j
    let c := Machine.core s x.loc
    let long (i : Instr) (t : State) (u : LongUnit) (due : Nat) (ws : List RegWrite) (fl : BitVec 5) : Prop :=
      exec i s = .next (ends i x (addLong t x.loc x.slot ⟨u, some due, ws, fl⟩))
    let sfu (i : Instr) (g : FpFmt → Nat → Nat × BitVec 5) : Prop :=
      Ready i s x → ∀ f, rowFormat s x d = some f → typeOf c a = typeOf c d →
        (c.sfu.length < 8 →
          let service := max (s.cycle + 1) c.sfuFree
          ∃ bits val, rowUnder s x p w (fun j => (g f (A j)).1) bits val ∧
            long i (modCore s x.loc fun c => { c with sfu := c.sfu ++ [service + 23], sfuFree := service + (if w = 32 then 1 else 2) }) .sfu (service + 23)
              [.v d bits val] (flagsOver s x p n fun j => (g f (A j)).2)) ∧
        (8 ≤ c.sfu.length → (slotAt s x.loc x.slot).halting = none → exec i s = .next (setSt s x.loc x.slot (.block .sfu s.cycle)))
    let red (i : Instr) (v : Int) : Prop :=
      Ready i s x → long i s .vred (s.cycle + 12) [.s r (BitVec.ofInt 64 (signedLane w (wrapLane w v))) false] 0
    let fred (i : Instr) (ident : Nat) (op : Flagged → Flagged → Flagged) : Prop :=
      Ready i s x → ∀ f, rowFormat s x a = some f →
        let v := fpTree f (activeMask c p) ident op (readLanes c a ma)
        long i s .vred (s.cycle + 12) [.s r (BitVec.ofNat 64 v.1) false] v.2
    let ty := typeOf c a
    sfu (.vexp2 h p d a ma) (fun f v => sfuExp2 f (Config.sfuPick 0 ty v) v) ∧ sfu (.vlog2 h p d a ma) (fun f v => sfuLog2 f (Config.sfuPick 1 ty v) v) ∧
    sfu (.vrcp h p d a ma) (fun f v => fpDiv f (rowMode s x p) (f.bias * 2 ^ f.mb) v) ∧
    sfu (.vrsqrt h p d a ma) (fun f v => sfuRsqrt f (Config.sfuPick 3 ty v) v) ∧ sfu (.vtanh h p d a ma) (fun f v => sfuTanh f (Config.sfuPick 4 ty v) v) ∧
    sfu (.vsigm h p d a ma) (fun f v => sfuSigm f (Config.sfuPick 5 ty v) v) ∧
    red (.vredadd h p r a ma) (on.map S).sum ∧
    red (.vredmax h p r a ma) (on.foldl (fun m j => if m ≤ S j then S j else m) (-(2 ^ (w - 1) : Nat))) ∧
    red (.vredmin h p r a ma) (on.foldl (fun m j => if S j ≤ m then S j else m) ((2 ^ (w - 1) : Nat) - 1)) ∧
    fred (.vfredadd h p r a ma) 0x80000000 (treeAdd (rowMode s x p)) ∧ fred (.vfredmax h p r a ma) 0xFF800000 treeMax ∧
    (let i : Instr := .vscanAdd h p d a ma
     Ready i s x → typeOf c d = ty →
       (Fmt.isInt ty = true → ∃ bits val,
         rowUnder s x p w (fun j => ((on.filter fun q => decide (q ≤ j)).map A).sum % 2 ^ w) bits val ∧ long i s .vred (s.cycle + 12) [.v d bits val] 0) ∧
       (∀ f, Fmt.fp? ty = some f →
         let q := scanFp f (rowMode s x p) (activeMask c p) 0 f.signBit (readLanes c a ma)
         ∃ bits val fl, rowUnder s x p w (fun j => (q.getD j (0, 0)).1) bits val ∧ long i s .vred (s.cycle + 12) [.v d bits val] fl)) ∧
    (let i : Instr := .vmergeSm h p d a b ma mb
     let up (v : VReg) (k : Nat) : VReg := Fin.ofNat 64 (v.val + k)
     let lane3 (j : Nat) := mergeLane (rowMode s x p) (A j) (laneIn s x (up a 1) ma j) (laneIn s x (up a 2) ma j)
       (laneIn s x b mb j) (laneIn s x (up b 1) mb j) (laneIn s x (up b 2) mb j)
     Ready i s x → d.val % 16 ≤ 13 → a.val % 16 ≤ 13 → b.val % 16 ≤ 13 → typeOf c d = .fp32 → ty = .fp32 → typeOf c b = .fp32 →
       ∃ b0 v0 b1 v1 b2 v2, rowUnder s x p 32 (fun j => (lane3 j).1) b0 v0 ∧ rowUnder s x p 32 (fun j => (lane3 j).2.1) b1 v1 ∧
         rowUnder s x p 32 (fun j => (lane3 j).2.2.1) b2 v2 ∧
         long i s .vred (s.cycle + 30) [.v d b0 v0, .v (up d 1) b1 v1, .v (up d 2) b2 v2] (flagsOver s x p 16 fun j => (lane3 j).2.2.2))

/-! ## Engine commands (07, 09, 13, 14) -/

/-- A state of which only the extent cache of the issuing core may differ from `t` (08 R208). -/
def Sys2Proof.usedExtents (t : State) (x : Cur) (xc : List (Nat × ExtEntry)) : State := modCore t x.loc fun c => { c with xcache := xc }

/-- A state of which only the label and extent caches of the issuing core may differ from `t` (08 R208, 13 R314). -/
def Sys2Proof.usedCaches (t : State) (x : Cur) (lc : List (Nat × Nat × List LttEntry)) (xc : List (Nat × ExtEntry)) : State :=
  modCore t x.loc fun c => { c with lcache := lc, xcache := xc }

/-- Every extent of some ranges is at hand, so that the instruction waits for no walk (08 R208). -/
def Sys2Proof.atHand (t : State) (x : Cur) (recs : List (Nat × Nat)) (needs : List Need) : Prop :=
  firstWalk t x (recs ++ needs.map fun n => (n.1, n.2.1)) = none

/-- A command of an engine passes its checks with its record's range `recs`, the ranges `needs` and the work `b`: it translates the ranges, whose
extents are at hand, and joins the queue of its engine if fewer than two commands stand there, the issuer going on; else the thread waits for room. -/
def Sys2Proof.queues (i : Instr) (s : State) (x : Cur) (e : Engine) (fn : Nat) (g : Option GPfx) (needs : List Need) (b : EngBody)
    (recs : List (Nat × Nat) := []) : Prop :=
  let t := (argsOf i s x).2
  Ready i s x → drained s x = true → atHand t x recs needs → ∀ p xl, part? t (me t x).part = some p → xlAll t p x.loc (me t x).walk needs = .ok xl →
    ((engQ (Machine.core t x.loc) e).length < 2 → ∃ xc, exec i s = .next (ends i x (queueCmd (usedExtents t x xc) x e fn g xl b))) ∧
    (2 ≤ (engQ (Machine.core t x.loc) e).length → (slotAt s x.loc x.slot).halting = none →
      exec i s = .next (setSt s x.loc x.slot (.block (.engine e) s.cycle)))

/-- 03 R88; 04 R115; 07 R181, R191: a command takes the engine's next sequence number and the class, mode and thread of its issuer; alone in its queue
it runs if it has no guard or its guard slot lets it, is discarded if the slot says so, and waits while the slot is UNSET. -/
def Obligations.CommandQueues : Prop :=
  ∀ (s : State) (x : Cur) (e : Engine) (fn : Nat) (g : Option GPfx) (xl : List (Nat × Nat × Nat)) (b : EngBody),
    (∀ y, engQ (Machine.core s x.loc) y = []) →
    let t := queueCmd s x e fn g xl b
    let n := (Machine.core s x.loc).engSeq[engNum e]
    let q : EngCmd := ⟨n.toNat, fn, x.slot.val, (me s x).thid, (me s x).part, (me s x).qos, modeOf (me s x), g, none, none, xl, [], 0, false, false, [], .none, b⟩
    t.mem = s.mem ∧ (∀ l k, slotAt t l k = slotAt s l k) ∧ (Machine.core t x.loc).engSeq = (Machine.core s x.loc).engSeq.set (engNum e) (n + 1) ∧
      (∀ y, y ≠ e → engQ (Machine.core t x.loc) y = []) ∧
      engQ (Machine.core t x.loc) e =
        match g with
        | none => [{ q with decided := some true }]
        | some w =>
          match (me s x).g[w.slot] with
          | .unset => [q]
          | v => if (v == .tt) = w.gn then [] else [{ q with decided := some true }]

/-- A record's address: the register, or TPRA under field 0 (07 R182). -/
def Sys2Proof.recordOf (s : State) (x : Cur) (r : SReg) (v : Word) (t : Tpr) : Prop := commandTpr s x r v = .ok t

/-- 07 R177 to R179, R181 to R184, R186, R188 to R190: the tile and matrix commands, `tstore`, `tload`, `mparam` and `hm.gemv` among them, with the
ranges they translate at issue and the place they take in their engine's queue. -/
def Sys2Proof.matrixCommandsRule : Prop :=
  ∀ (h : Hdr) (g : Option GPfx) (d a : TReg) (ra rb rc rd : SReg) (b c : MReg) (st : Fin 4) (pm sp : Bool) (pitch : BitVec 24) (w0 rows : BitVec 16)
      (s : State) (x : Cur) (tp : Tpr),
    let k := Machine.core s x.loc
    let sixteen (f : Fmt) := f = .fp16 ∨ f = .bf16
    queues (.tzero h d) s x .me 1 none [] (.tzero d) ∧
    queues (.tfree h d) s x .me 2 none [] (.tfree d) ∧
    (let i : Instr := .wload h g ra rb pitch sp
     let v := (argsOf i s x).1
     recordOf (argsOf i s x).2 x rb v.b tp → pitch.toNat % 64 = 0 → v.a.toNat % 64 = 0 →
       queues i s x .me 0 g ((List.range 16).map fun j => (v.a.toNat + j * pitch.toNat, 64, .read)) (.wload v.a.toNat tp pitch.toNat sp)
         (tprRange (argsOf i s x).2 x rb v.b)) ∧
    (∀ wf spw, recordOf s x 0 0 tp → k.types[a] = tp.afmt[st] → k.shadow = some (wf, spw) → d ≠ a → (sixteen tp.afmt[st] ↔ sixteen wf) →
      let whole : Prop := (tp.afmt[st] = .i8 ∨ tp.afmt[st] = .n8) ∧ (wf = .i8 ∨ wf = .n8)
      let row := (readM k b).setWidth 16
      let col := (readM k c).setWidth 16
      k.types[d] = (if whole then .i32 else .fp32) → (pm = true → ¬ whole) →
      (spw = false → queues (.mma h g d a b c st pm) s x .me 1 g [] (.mma .add d a st pm (!decide whole) row col wf spw tp)
        (tprRange s x 0 0)) ∧
      (spw = false → queues (.mmaZ h g d a b c st pm) s x .me 2 g [] (.mma .zero d a st pm (!decide whole) row col wf spw tp)
        (tprRange s x 0 0)) ∧
      (spw = true → queues (.mmaSp h g d a b c st pm) s x .me 3 g [] (.mma .sparse d a st pm (!decide whole) row col wf spw tp)
        (tprRange s x 0 0))) ∧
    (let i : Instr := .tstore h g rd a rb rc pitch w0 rows
     let v := (argsOf i s x).1
     let sz := Fmt.size tp.ofmt
     let cv := v.c.toNat
     k.types[a] = .i32 ∨ k.types[a] = .fp32 → recordOf (argsOf i s x).2 x rb v.b tp → pitch.toNat % sz = 0 → cv < 2 ^ 50 → v.d.toNat % sz = 0 → cv % 16 = 0 →
       queues i s x .me 4 g
         (((List.range 16).filter fun j => rows.getLsbD j).map (fun j => (v.d.toNat + j * pitch.toNat, 16 * sz, .write))
           ++ (if cv = 0 then [] else [(cv, 16, .write)]) ++ (if tp.scalep = 0 then [] else [(tp.scalep + 2 * w0.toNat, 32, .read)]))
         (.tstore v.d.toNat cv tp pitch.toNat w0.toNat rows.toNat a (k.types[a] == .fp32))
         (tprRange (argsOf i s x).2 x rb v.b)) ∧
    (let i : Instr := .tload h g d ra pitch
     let v := (argsOf i s x).1
     pitch.toNat % 64 = 0 → v.a.toNat % 64 = 0 →
       queues i s x .me 5 g ((List.range 16).map fun j => (v.a.toNat + j * pitch.toNat, 64, .read)) (.tload d v.a.toNat pitch.toNat)) ∧
    (let i : Instr := .mparam h g ra
     let v := (argsOf i s x).1
     v.a.toNat % 64 = 0 → queues i s x .me 6 g [(v.a.toNat, 128, .read)] (.mparam v.a.toNat)) ∧
    (∀ (n : Fin 16) (m1 k1 : BitVec 16),
     let i : Instr := .hmGemv h g rd ra rb rc n m1 k1
     let v := (argsOf i s x).1
     let m := m1.toNat + 1
     let kk := k1.toNat + 1
     recordOf (argsOf i s x).2 x rc v.c tp → 1 ≤ n.val → n.val ≤ 8 → m % 4 = 0 → kk % 64 = 0 → tp.afmt[0] = .i8 → tp.wfmt = .i8 ∨ tp.wfmt = .ds8 →
       tp.ofmt = .fp32 → v.a.toNat + n.val * kk ≤ 0x5C000 → v.d.toNat + 4 * n.val * m ≤ 0x5C000 → 2 ^ 52 ≤ v.b.toNat → v.b.toNat % 64 = 0 →
       v.d.toNat % 16 = 0 → ∀ p q, part? (argsOf i s x).2 (me (argsOf i s x).2 x).part = some p → xlAll (argsOf i s x).2 p x.loc (me s x).walk [(v.b.toNat, m * kk, .read)] = .ok q →
       oneStack q = true →
       queues i s x .nm 0 g
         ([(v.b.toNat, m * kk, .read), (v.d.toNat, 4 * n.val * m, .write), (v.a.toNat, n.val * kk, .read)]
           ++ (if tp.scalep = 0 then [] else [(tp.scalep, 2 * m, .read)]))
         (.gemv v.d.toNat v.a.toNat v.b.toNat n.val m kk tp)
         (tprRange (argsOf i s x).2 x rc v.c ++ [(v.b.toNat, m * kk)]))

/-- 07 R177, R179: `tcfg` sets the type of a tile to one of the formats with codes 0 to 5 and 8 to 12; `twm` waits until N rows, 1 to 16, are written;
other values are PARAM_FORMAT. -/
def Sys2Proof.tileControlRule : Prop :=
  ∀ (h : Hdr) (d : TReg) (c : Fin 16) (n : Fin 32) (s : State) (x : Cur),
    (Ready (.tcfg h d c) s x →
      (∀ f, (c.val ≤ 5 ∨ 8 ≤ c.val ∧ c.val ≤ 12) → Fmt.ofNum c.val = some f →
        exec (.tcfg h d c) s = .next (ends (.tcfg h d c) x (modCore s x.loc fun k => { k with types := k.types.set d f }))) ∧
      (¬ (c.val ≤ 5 ∨ 8 ≤ c.val ∧ c.val ≤ 12) → exec (.tcfg h d c) s = .next (trapAt s x cPARAM 0 0))) ∧
    (Ready (.twm h d n) s x →
      (1 ≤ n.val → n.val ≤ 16 → n.val ≤ (Machine.core s x.loc).twm[d].rows → exec (.twm h d n) s = .next (ends (.twm h d n) x s)) ∧
      (1 ≤ n.val → n.val ≤ 16 → (Machine.core s x.loc).twm[d].rows < n.val → (slotAt s x.loc x.slot).halting = none →
        exec (.twm h d n) s = .next (setSt s x.loc x.slot (.block (.twm d n.val) s.cycle))) ∧
      (n.val = 0 ∨ 16 < n.val → exec (.twm h d n) s = .next (trapAt s x cPARAM 0 0)))

/-- 07 R177, R179: `tcfg` sets the type of a tile to one of the formats with codes 0 to 5 and 8 to 12; `twm` waits until N rows, 1 to 16, are written;
other values are PARAM_FORMAT. Beside: 07 R177 to R179, R181 to R184, R186, R188 to R190: the tile and matrix commands, `tstore`, `tload`, `mparam`
and `hm.gemv` among them, with the ranges they translate at issue and the place they take in their engine's queue. -/
def Obligations.TilesAndMatrix : Prop :=
  Sys2Proof.tileControlRule ∧ Sys2Proof.matrixCommandsRule

/-- 09 R235 to R237, R239: the index-engine commands, with the ranges they translate at issue. -/
def Obligations.IndexCommands : Prop :=
  ∀ (h : Hdr) (g : Option GPfx) (d a b c : SReg) (n : BitVec 32) (op nt esz : Fin 4) (s : State) (x : Cur) (sh : Shape),
    let fits (va : Nat) : Prop := va % 16 = 0 ∧ va < 2 ^ 50
    -- an address of 0 names no completion granule and no index output
    let also (va m : Nat) : List Need := if va = 0 then [] else [(va, m, .write)]
    let table (t : State) (va : Nat) : Prop := tableAt t x va = .ok sh ∧ sh.ndim ≤ 1
    let item := Fmt.size sh.fmt * (if sh.ndim = 0 then 1 else sh.ext[0])
    (let i : Instr := .ieGather h g d a b c n
     let v := (argsOf i s x).1
     let cv := v.c.toNat
     table (argsOf i s x).2 v.a.toNat → fits cv → v.b.toNat % 4 = 0 → v.d.toNat % Fmt.size sh.fmt = 0 →
       queues i s x .ie 0 g
         ([(v.d.toNat, n.toNat * item, .write), (v.b.toNat, 4 * n.toNat, .read), (sh.base, sh.bound * 4096, .read)] ++ also cv 16)
         (.gather v.d.toNat v.b.toNat cv sh n.toNat 0 0) [(v.a.toNat, 32)]) ∧
    (let i : Instr := .ieScatter h g d a b c n op
     let v := (argsOf i s x).1
     let cv := v.c.toNat
     table (argsOf i s x).2 v.d.toNat → (op ≠ 0 → sh.fmt ≠ .ds8 ∧ sh.fmt ≠ .e8) → fits cv → v.b.toNat % 4 = 0 → v.a.toNat % Fmt.size sh.fmt = 0 →
       queues i s x .ie 1 g
         ([(v.a.toNat, n.toNat * item, .read), (v.b.toNat, 4 * n.toNat, .read), (sh.base, sh.bound * 4096, if op = 0 then .write else .rmw)]
           ++ also cv 16)
         (.scatter v.a.toNat v.b.toNat cv sh n.toNat op.val 0 0) [(v.d.toNat, 32)]) ∧
    (let i : Instr := .ieCopy h g d a b n
     let v := (argsOf i s x).1
     let cv := v.b.toNat
     fits cv → v.d.toNat % 16 = 0 → v.a.toNat % 16 = 0 → n.toNat % 16 = 0 →
       (n.toNat = 0 ∨ v.d.toNat + n.toNat ≤ v.a.toNat ∨ v.a.toNat + n.toNat ≤ v.d.toNat) →
       queues i s x .ie 2 g ([(v.d.toNat, n.toNat, .write), (v.a.toNat, n.toNat, .read)] ++ also cv 16) (.copy v.d.toNat v.a.toNat cv n.toNat 0)) ∧
    (let i : Instr := .ieFill h g d a b n
     let v := (argsOf i s x).1
     let cv := v.b.toNat
     fits cv → v.d.toNat % 16 = 0 → n.toNat % 16 = 0 →
       queues i s x .ie 3 g ([(v.d.toNat, n.toNat, .write)] ++ also cv 16) (.fill v.d.toNat cv n.toNat v.a 0)) ∧
    (let i : Instr := .ieMcast h g d a b c n nt
     let v := (argsOf i s x).1
     let cv := v.c.toNat
     let target (j : Nat) : Nat := v.b.toNat / 2 ^ (16 * j) % 2 ^ 16
     ∀ p, part? s (me s x).part = some p → fits cv → v.d.toNat % 16 = 0 → v.a.toNat % 16 = 0 → n.toNat % 16 = 0 → v.d.toNat + n.toNat ≤ 0x5C000 →
       (∀ j ≤ nt.val, target j < coreCount p (isAttn (dieOf x.loc))) → (∀ j < 4, nt.val < j → target j = 0) →
       queues i s x .ie 4 g
         ((v.a.toNat, n.toNat, .read) ::
           (List.range (nt.val + 1)).map (fun j => ((if isAttn (dieOf x.loc) then 3 else 1) * 2 ^ 48 + target j * 2 ^ 32 + v.d.toNat, n.toNat, .write))
             ++ also cv 16)
         (.mcast v.d.toNat v.a.toNat cv n.toNat ((List.range (nt.val + 1)).map target) 0)) ∧
    (let i : Instr := .ieCond h g d a b c n esz
     let v := (argsOf i s x).1
     let cv := v.c.toNat
     let bv := v.b.toNat
     let sz := 2 ^ esz.val
     fits cv → v.d.toNat % sz = 0 → v.a.toNat % sz = 0 → bv % 4 = 0 →
       queues i s x .ie 5 g
         ([(v.d.toNat, n.toNat * sz, .write), (v.a.toNat, n.toNat * sz, .read)] ++ also bv (4 * n.toNat) ++ also cv 16)
         (.cond v.d.toNat v.a.toNat cv bv n.toNat esz.val 0 0))

/-- The state in which the sets that a label needed, and the one that serves it, have been used (13 R314). -/
def Sys2Proof.labelUsed (t : State) (x : Cur) (v y : Label) : State := useSet (rebaseUse t x true 51 v) x (lTid y)

/-- A label register that is well-formed, is rebased to `y` through forward entries, and translates through the resident set of its tree, by the entry
`e` to the birth label `b` (13 R315, R328). -/
def Sys2Proof.rebasesTo (t : State) (x : Cur) (r : LReg) (y : Label) (e : LttEntry) (b : Label) : Prop :=
  let v := labelOf t x r
  lFault v = none ∧ rebase (setFor t x) true v = .ok y ∧
    ∃ set, setFor (rebaseUse t x true 51 v) x (lTid y) = some set ∧ lTranslate set false y = .ok e b

/-- 13 R331 to R334: the tree-engine commands of a resident tree, whose root is rebased through forward entries. -/
def Obligations.TreeCommands : Prop :=
  ∀ (h : Hdr) (g : Option GPfx) (d b c : SReg) (a : LReg) (f : TeForm) (m : Fin 64) (anch : Bool) (n : BitVec 32) (s : State) (x : Cur) (r bl : Label)
      (e : LttEntry) (fm : Fmt),
    let sz := Fmt.size fm
    let depth (m : Fin 64) : Prop := m.val ≤ 50 ∨ m.val = 63
    let form : Prop := f.fmt.val ≤ 8 ∧ Fmt.ofNum f.fmt.val = some fm ∧ f.off.toNat % sz = 0 ∧ f.off.toNat + sz ≤ 65536 ∧ depth f.maxd
    let ok (i : Instr) (t : State) : Prop :=
      Ready i s x ∧ drained s x = true ∧ (argsOf i s x).1.d.toNat % 32 = 0 ∧ (argsOf i s x).1.d.toNat < 2 ^ 50 ∧ rebasesTo t x a r e bl
    let gives (i : Instr) (t : State) (fn : Nat) (needs : List Need) (b : EngBody) : Prop :=
      let u := labelUsed t x (labelOf t x a) r
      let all : List Need := ((argsOf i s x).1.d.toNat, 32, .write) :: needs
      ok i t → heldByMove u x.loc (me u x).part r = false → (engQ (Machine.core u x.loc) .te).length < 2 → atHand u x [] all →
      ∀ p xl, part? u (me u x).part = some p → xlAll u p x.loc (me u x).walk all = .ok xl →
        ∃ xc, exec i s = .next (ends i x (queueCmd (usedExtents u x xc) x .te fn g xl b))
    let te (i : Instr) (k : Fin 5) (bval p : Word) (off : Nat) (fm : Fmt) (m : Nat) (anch : Bool) (n : Nat) : EngBody :=
      .te k r 0 (argsOf i s x).1.d.toNat bval p off fm m anch n 0 0 [] false
    (let i : Instr := .teSum h g d a f
     form → gives i (argsOf i s x).2 0 [] (te i 0 0 (if fm = .fp32 then 0x80000000 else 0) f.off.toNat fm f.maxd.val false 0)) ∧
    (let i : Instr := .teCount h g d a m
     depth m → gives i (argsOf i s x).2 1 [] (te i 1 0 0 0 .i8 m.val false 0)) ∧
    (let i : Instr := .teCopy h g d a b f n
     let bv := (argsOf i s x).1.b
     form → bv.toNat % sz = 0 → (bv.toNat + n.toNat * sz ≤ 0x5C000 ∨ (bv.toNat / 2 ^ 48 = 2 ∧ bv.toNat % 2 ^ 26 + n.toNat * sz ≤ 2 ^ 26)) →
       gives i (argsOf i s x).2 2 [(bv.toNat, n.toNat * sz, .write)] (te i 2 bv 0 f.off.toNat fm f.maxd.val false n.toNat)) ∧
    (let i : Instr := .teFill h g d a b f
     form → 16 ≤ f.off.toNat →
       (e.view = false → gives i (argsOf i s x).2 3 [] (te i 3 (argsOf i s x).1.b 0 f.off.toNat fm f.maxd.val false 0)) ∧
       (e.view = true → ok i (argsOf i s x).2 → ∃ lc xc, exec i s = .next (trapAt (usedCaches s x lc xc) x cPERMISSION 3 0))) ∧
    (let i : Instr := .teVisit h g d a b c m anch
     let v := (argsOf i s x).1
     let t := (argsOf i s x).2
     depth m → fetchable t (me t x).part x.loc (me t x).walk v.b.toNat = .ok () → v.b.toNat % 4 = 0 → firstWalk t x [(v.b.toNat, 4)] = none →
       gives i (touch t x v.b.toNat) 4 [] (te i 4 v.b v.c 0 .i8 m.val anch 0))

/-- 14 R349 to R356: the page-engine commands on the segment that a label names, whose record the command reads, or reads and writes; `pg.load`
empties its destination at issue, guarded or not (log 23), `pg.load.nb` does not. -/
def Obligations.PageCommands : Prop :=
  ∀ (h : Hdr) (g : Option GPfx) (d b c : SReg) (a : LReg) (first : BitVec 16) (nm1 : Fin 32) (k : BitVec 7) (kf kt : Bool) (order : Fin 16) (lns : Fin 4)
      (s : State) (x : Cur) (y bl : Label) (e : LttEntry) (p : Partition) (raddr slot : Nat),
    let n := nm1.val + 1
    let compl (cv : Nat) : List Need := if cv = 0 then [] else [(cv, 16, .write)]
    -- the segment's record as the issue finds it from state `t`
    let found (t : State) (r : LReg) (y : Label) (e : LttEntry) (bl : Label) (p : Partition) (raddr slot : Nat) (views : Bool) (kd : XKind) (w : State) :
        Prop :=
      let u := labelUsed t x (labelOf t x r) y
      rebasesTo t x r y e bl ∧ (views = true ∨ e.view = false) ∧ part? u (me u x).part = some p ∧
        lookup u p x.loc (me u x).walk .read bl e.dbase e.dsize = (.found raddr slot, w) ∧ ∃ key, recordKey w p x.loc (me u x).walk raddr 16 kd = .ok key
    let joins (i : Instr) (w : State) (fn : Nat) (needs : List Need) (prep : State → State) (body : EngBody) : Prop :=
      let cv := (argsOf i s x).1.d.toNat
      let all := needs ++ compl cv
      Ready i s x → drained s x = true → cv % 16 = 0 → cv < 2 ^ 50 → atHand w x [] all →
      ∀ p xl, part? w (me w x).part = some p → xlAll w p x.loc (me w x).walk all = .ok xl →
        ((engQ (Machine.core w x.loc) .pe).length < 2 → ∃ xc, exec i s = .next (ends i x (prep (queueCmd (usedExtents w x xc) x .pe fn g xl body)))) ∧
        (2 ≤ (engQ (Machine.core w x.loc) .pe).length → (slotAt s x.loc x.slot).halting = none →
          exec i s = .next (setSt s x.loc x.slot (.block (.engine .pe) s.cycle)))
    let gives (i : Instr) (views : Bool) (kd : XKind) (fn : Nat) (needs : List Need) (a0 a1 bval imm cnt : Nat) (prep : State → State) : Prop :=
      ∀ w, found (argsOf i s x).2 a y e bl p raddr slot views kd w →
        joins i w fn ((raddr, 112, kd) :: needs) prep (.pe fn raddr 0 a0 a1 (argsOf i s x).1.d.toNat bval imm cnt 0 0 0 y .fresh)
    (let i : Instr := .pgLoad h g d a b first nm1
     let bv := (argsOf i s x).1.b.toNat
     n ≤ 16 → first.toNat + n ≤ 65536 → bv % 64 = 0 → bv + n * pageBytes ≤ 0x5C000 →
       gives i true .read 0 [(bv, n * pageBytes, .write)] bv 0 0 first.toNat n (emptyRange x.loc bv (n * pageBytes))) ∧
    (let i : Instr := .pgLoadNb h g d a b first nm1
     let bv := (argsOf i s x).1.b.toNat
     n ≤ 16 → first.toNat + n ≤ 65536 → bv % 64 = 0 → bv + n * pageBytes ≤ 0x5C000 →
       gives i true .read 8 [(bv, n * pageBytes, .write)] bv 0 0 first.toNat n id) ∧
    (let i : Instr := .pgLoadList h g d a b c nm1
     let bv := (argsOf i s x).1.b.toNat
     let lv := (argsOf i s x).1.c.toNat
     n ≤ 16 → bv % 64 = 0 → bv + n * pageBytes ≤ 0x5C000 → lv % 4 = 0 → lv + 4 * n ≤ 0x5C000 →
       gives i true .read 0 [(bv, n * pageBytes, .write), (lv, 4 * n, .read)] bv lv 0 (2 ^ 24) n (emptyRange x.loc bv (n * pageBytes))) ∧
    (let i : Instr := .pgLoadNbList h g d a b c nm1
     let bv := (argsOf i s x).1.b.toNat
     let lv := (argsOf i s x).1.c.toNat
     n ≤ 16 → bv % 64 = 0 → bv + n * pageBytes ≤ 0x5C000 → lv % 4 = 0 → lv + 4 * n ≤ 0x5C000 →
       gives i true .read 8 [(bv, n * pageBytes, .write), (lv, 4 * n, .read)] bv lv 0 (2 ^ 24) n id) ∧
    (let i : Instr := .pgApp h g d a b
     let bv := (argsOf i s x).1.b.toNat
     bv % 64 = 0 → bv + 512 ≤ 0x5C000 → gives i false .rmw 1 [(bv, 512, .read)] bv 0 0 0 0 id) ∧
    (let i : Instr := .pgSel h g d a b c k kf kt
     let bv := (argsOf i s x).1.b.toNat
     let lv := (argsOf i s x).1.c.toNat
     1 ≤ k.toNat → k.toNat ≤ 64 → bv % 64 = 0 → bv + 256 ≤ 0x5C000 → lv % 4 = 0 → lv + 4 * k.toNat ≤ 0x5C000 →
       gives i true .read 3 [(bv, 256, .read), (lv, 4 * max k.toNat (kf.toNat + kt.toNat), .write)] bv lv 0 (k.toNat + 256 * kf.toNat + 512 * kt.toNat) 0 id) ∧
    gives (.pgSeal h g d a) false .read 4 [] 0 0 0 0 0 id ∧
    gives (.pgFree h g d a) false .rmw 5 [] 0 0 0 0 0 id ∧
    (order.val ≤ 12 → lns.val ≤ order.val → gives (.pgExt h g d a order lns) false .rmw 6 [] 0 0 0 (order.val + 16 * lns.val) 0 id) ∧
    (let i : Instr := .pgEvict h g d a b
     gives i false .read 7 [] 0 0 (argsOf i s x).1.b.toNat 0 0 id) ∧
    -- `pg.fork` names two segments, the parent's only read
    (∀ (a' : LReg) (y' bl' : Label) (e' : LttEntry) (p' : Partition) (child slot' : Nat) (w w' : State),
     let i : Instr := .pgFork h g d a a'
     found (argsOf i s x).2 a y e bl p raddr slot false .read w → found w a' y' e' bl' p' child slot' false .rmw w' →
       joins i w' 2 [(raddr, 112, .read), (child, 112, .rmw)] id (.pe 2 raddr child 0 0 (argsOf i s x).1.d.toNat 0 0 0 0 0 0 y .fresh))

/-! ## Control registers and caches (04 R121 to R130; 11 R272; 15 R367; 03 R97) -/

/-- 04 R121 to R130: `cget` gives the register's value in the issuing thread's view with DF clear, and PRIV where the register is absent from that
view, as PVEC is from the user view. -/
def Sys2Proof.readControlRule : Prop :=
  (∀ (h : Hdr) (d : SReg) (r : CReg) (s : State) (x : Cur), Ready (.cget h d r) s x →
    (∀ v, cregRead s x r = some v → exec (.cget h d r) s = .next (ends (.cget h d r) x (putS s x d v false))) ∧
    (cregRead s x r = none → exec (.cget h d r) s = .next (trapAt s x cPRIV 0 0))) ∧
  (∀ (s : State) (x : Cur) (k : Fin 8) (j : Fin 4),
    let th := me s x
    let c := Machine.core s x.loc
    let n (v : Nat) : Option Word := some (BitVec.ofNat 64 v)
    (∀ r, cregRead s x r = none ↔ r = .pvec ∧ th.priv = false) ∧
    cregRead s x .thid = some th.thid ∧ cregRead s x .cycle = n s.cycle ∧ cregRead s x .fpmode = some (th.fpmode.setWidth 64) ∧
    cregRead s x .qos = some (th.qos.setWidth 64) ∧ cregRead s x .tvec = some th.tvec ∧ cregRead s x .tcause = some th.tcause ∧
    cregRead s x .tpc = some th.tpc ∧ cregRead s x .tword0 = some th.tword0 ∧ cregRead s x .tword1 = some th.tword1 ∧
    cregRead s x .taddr = some th.taddr ∧ cregRead s x .qhvec = some th.qhvec ∧ cregRead s x .tpra = some th.tpra ∧
    cregRead s x .ckptid = some (th.ckptid.setWidth 64) ∧ (th.priv = true → cregRead s x .pvec = some c.pvec) ∧
    cregRead s x (.twm j) = n (c.twm[j].rows % 32 + 2 ^ 8 * c.twm[j].seq.toNat) ∧
    cregRead s x (.tstat j) =
      n (c.tstat[j].clamp % 2 ^ 16 + c.tstat[j].nancv % 2 ^ 16 * 2 ^ 16 + c.tstat[j].sat.toNat * 2 ^ 32 + c.tstat[j].cempty.toNat * 2 ^ 33) ∧
    cregRead s x (.ringcfg k) =
      n (c.rings[k].en.toNat + 2 ^ 5 * c.rings[k].size.toNat + 2 ^ 9 * c.rings[k].base.toNat + 2 ^ 18 * c.rings[k].head.toNat
        + 2 ^ 36 * c.rings[k].tail.toNat))

/-- 04 R121 to R130; 11 R272: `cset` of a register that the view may write, with reserved bits written as zero and an unsupported rounding mode
keeping the old one; PRIV of any other; RINGCFG is refused where an enabled ring holds messages or the new one does not fit in LM. -/
def Sys2Proof.writeControlRule : Prop :=
  (∀ (h : Hdr) (a : SReg) (s : State) (x : Cur),
    let does (i : Instr) (ok : Bool) (f : State → Word → State) : Prop :=
      Ready i s x →
        (ok = true → exec i s = .next (ends i x (f (argsOf i s x).2 (argsOf i s x).1.a))) ∧ (ok = false → exec i s = .next (trapAt s x cPRIV 0 0))
    let priv := (me s x).priv
    let th (s : State) (f : Thread → Thread) : State := modTh s x.loc x.slot f
    let aligned (v : Word) (n : Nat) : Word := BitVec.ofNat 64 (v.toNat - v.toNat % n)
    does (.cset h a .qos) true (fun s v => th s fun t => { t with qos := BitVec.ofNat 2 v.toNat }) ∧
    does (.cset h a .tvec) true (fun s v => th s fun t => { t with tvec := aligned v 4 }) ∧
    does (.cset h a .tpc) true (fun s v => th s fun t => { t with tpc := v }) ∧
    does (.cset h a .tword0) true (fun s v => th s fun t => { t with tword0 := v }) ∧
    does (.cset h a .tword1) true (fun s v => th s fun t => { t with tword1 := v }) ∧
    does (.cset h a .taddr) true (fun s v => th s fun t => { t with taddr := BitVec.ofNat 64 (v.toNat % 2 ^ 56) }) ∧
    does (.cset h a .qhvec) true (fun s v => th s fun t => { t with qhvec := aligned v 4 }) ∧
    does (.cset h a .tpra) true (fun s v => th s fun t => { t with tpra := aligned v 32 }) ∧
    does (.cset h a .tcause) true (fun s v => th s fun t => { t with tcause := v &&& 0xFFFF00FF }) ∧
    (∀ j : Fin 4, does (.cset h a (.tstat j)) true (fun s v => modCore s x.loc fun c =>
      { c with tstat := c.tstat.set j ⟨v.toNat % 2 ^ 16, v.toNat / 2 ^ 16 % 2 ^ 16, v.getLsbD 32, v.getLsbD 33⟩ })) ∧
    does (.cset h a .pvec) priv (fun s v => modCore s x.loc fun c => { c with pvec := aligned v 4 }) ∧
    does (.cset h a .ckptid) priv (fun s v => th s fun t => { t with ckptid := BitVec.ofNat 16 v.toNat }) ∧
    does (.cset h a .stamp) priv (fun s v => modPart s (me s x).part fun p => { p with stamp := BitVec.ofNat 16 v.toNat }) ∧
    does (.cset h a .dllimit) priv (fun s v => modPart s (me s x).part fun p => { p with dllimit := BitVec.ofNat 32 v.toNat }) ∧
    does (.csetAgemax h a) priv (fun s v => modPart s (me s x).part fun p => { p with agemax := BitVec.ofNat 32 (max 4096 (v.toNat % 2 ^ 32)) }) ∧
    does (.csetFpmode h a) true (fun s v => th s fun t =>
      let rm := if 1 ≤ v.toNat / 32 % 8 ∧ v.toNat / 32 % 8 ≤ 4 then v.toNat / 32 % 8 else t.fpmode.toNat / 32
      { t with fpmode := BitVec.ofNat 8 (v.toNat % 32 + 32 * rm) }) ∧
    (∀ r, r = .thid ∨ r = .coreid ∨ r = .dieid ∨ r = .partid ∨ r = .cycle ∨ (∃ j, r = .twm j) ∨ r = .kilnver → does (.cset h a r) false fun s _ => s)) ∧
  (∀ (h : Hdr) (a : SReg) (k : Fin 8) (s : State) (x : Cur),
    let i : Instr := .csetRingcfg h a k
    let n := (argsOf i s x).1.a.toNat
    let r : Ring := ⟨n % 2 == 1, BitVec.ofNat 4 (n / 2 ^ 5), BitVec.ofNat 9 (n / 2 ^ 9), BitVec.ofNat 18 (n / 2 ^ 18), BitVec.ofNat 18 (n / 2 ^ 36)⟩
    let o := (Machine.core s x.loc).rings[k]
    let bytes := 1024 * 2 ^ (r.size.toNat - 1)
    let start := 1024 * r.base.toNat
    let fits : Prop := 1 ≤ r.size.toNat ∧ r.size.toNat ≤ 9 ∧ start % bytes = 0 ∧ start + bytes ≤ 0x5C000 ∧ r.head.toNat < bytes ∧ r.tail.toNat < bytes ∧
      r.head.toNat % 16 = 0 ∧ r.tail.toNat % 16 = 0
    Ready i s x → ringSpoiled s (me s x).part x.loc k = [] →
      (r.en = true → ¬ fits → exec i s = .next (trapAt s x cPARAM 0 0)) ∧
      (o.en = true → o.head ≠ o.tail → exec i s = .next (trapAt s x cPARAM 0 0)) ∧
      ((r.en = true → fits) → (o.en = true → o.head = o.tail) →
        ∃ u, exec i s = .next (ends i x u) ∧ (Machine.core u x.loc).rings = (Machine.core s x.loc).rings.set k r ∧ u.mem = s.mem ∧
          ∀ d j b, x.loc = .core d j → (∀ q ∈ s.reqs, ∀ g, q.st ≠ .feList g) → b < bytes →
            feFull u (lmKey d j (start + b)) = (feFull s (lmKey d j (start + b)) && !(r.en && !o.en))))

/-- 04 R121 to R130: `cget` gives the register's value in the issuing thread's view with DF clear, and PRIV where the register is absent from that
view, as PVEC is from the user view. Beside: 04 R121 to R130; 11 R272: `cset` of a register that the view may write, with reserved bits written as
zero and an unsupported rounding mode keeping the old one; PRIV of any other; RINGCFG is refused where an enabled ring holds messages or the new one
does not fit in LM. -/
def Obligations.ControlRegisters : Prop :=
  Sys2Proof.readControlRule ∧ Sys2Proof.writeControlRule

/-- 03 R97; 15 R367: `ifl` lets later fetches of its core see the stores performed before it, once no relaxed access of the thread is outstanding; `lfl`
empties the label cache of its core. -/
def Sys2Proof.cacheFlushesRule : Prop :=
  ∀ (h : Hdr) (s : State) (x : Cur),
    (Ready (.ifl h) s x → drained s x = true →
      exec (.ifl h) s = .next (ends (.ifl h) x (modCore s x.loc fun c => { c with ifetch := some s.mem }))) ∧
    (Ready (.lfl h) s x → exec (.lfl h) s = .next (ends (.lfl h) x (modCore s x.loc fun c => { c with lcache := [] })))

/-- 05 R149: `chk` and `chkl` branch where the DF bit of A is set, pop nothing and leave the bit; s0 and a queue have none (a queue's word is taken,
log 19). Beside: 05 R150 to R152, 01 R38: `nop`, `yield` (not eligible until 16 cycles after issue), `ckpt` (CKPTID but for 0xFFFF; a thread asked to
halt halts here), `tdone` (the thread ends, its registers' marks and its loop stack discarded). Beside: 05 R150; 15 R362, R363: `trap` and `brk` name
the next address in TPC; `trap` goes on at TVEC with THACT set or, with TVEC 0, halts the slot; `brk` halts it, in a handler too, with THACT as it
was. Beside: 03 R97; 15 R367: `ifl` lets later fetches of its core see the stores performed before it, once no relaxed access of the thread is
outstanding; `lfl` empties the label cache of its core. -/
def Obligations.ThreadInstructions : Prop :=
  Sys2Proof.checkDeferredRule ∧ Sys2Proof.threadControlRule ∧ Sys2Proof.softwareTrapsRule ∧ Sys2Proof.cacheFlushesRule

/-! ## Frames -/

/-- The predicate or guard slot an instruction of the scalar families writes. -/
def Sys2Proof.testOf : Instr → Option PDst
  | .eq _ d _ _ | .ne _ d _ _ | .lt _ d _ _ | .le _ d _ _ | .ltn _ d _ _ | .len _ d _ _ | .feq _ d _ _ | .flt _ d _ _ | .fle _ d _ _ | .funord _ d _ _ => some d
  | .eqi _ d _ _ | .nei _ d _ _ | .lti _ d _ _ | .lei _ d _ _ | .ltni _ d _ _ | .leni _ d _ _ => some d
  | .pand _ d _ _ | .por _ d _ _ | .pxor _ d _ _ | .pandn _ d _ _ => some d
  | .pnot _ d _ | .pmov _ d _ => some d
  | _ => none

/-- The instructions of ALU, ALUI, CMP, PRED, LI, BFX, FALU, FCMP and FCVT (05 R130). -/
def Sys2Proof.registerOnly : Instr → Bool
  | .add .. | .sub .. | .and .. | .or .. | .xor .. | .andn .. | .shl .. | .shr .. | .sra .. | .rol .. | .min .. | .max .. | .minn .. | .maxn ..
  | .mul .. | .mulh .. | .mulhn .. | .div .. | .divn .. | .rem .. | .remn .. | .clz .. | .ctz .. | .popc .. | .bswap .. => true
  | .addi .. | .andi .. | .ori .. | .xori .. | .shli .. | .shri .. | .srai .. | .roli .. | .mini .. | .maxi .. | .muli .. => true
  | .eq .. | .ne .. | .lt .. | .le .. | .ltn .. | .len .. | .eqi .. | .nei .. | .lti .. | .lei .. | .ltni .. | .leni .. => true
  | .pand .. | .por .. | .pxor .. | .pandn .. | .pnot .. | .pmov .. | .sel .. | .li .. | .lipc .. | .sext .. | .zext .. | .bfx .. | .bfi .. => true
  | .fadd .. | .fsub .. | .fmul .. | .fdiv .. | .fmin .. | .fmax .. | .fabs .. | .fneg .. | .fsqrt .. | .fma .. | .feq .. | .flt .. | .fle ..
  | .funord .. | .fcvt .. => true
  | _ => false

/-- 03 R83, R84; 05 R131 to R143; 15 R362: an instruction of the scalar families changes, whatever it comes to, no byte of memory, no full/empty bit,
no poison, no other slot and no tile, ring or mask; where it has its own effect, no register but its destination, no predicate or guard slot but its
own, no label, no special register, and of FPMODE only flags, which it sets and does not clear. -/
def Obligations.ScalarFrame : Prop :=
  ∀ (i : Instr) (f : Form) (s t : State) (x : Cur),
    registerOnly i = true → formOf i = some f → s.cur = some x → exec i s = .next t →
    ((∀ a, t.mem.read a = s.mem.read a) ∧ (∀ a, feFull t a = feFull s a) ∧ t.poison = s.poison ∧
      (∀ l k, (l, k) ≠ (x.loc, x.slot) → slotAt t l k = slotAt s l k) ∧
      ∀ l, (Machine.core t l).tiles = (Machine.core s l).tiles ∧ (Machine.core t l).types = (Machine.core s l).types ∧ (Machine.core t l).m = (Machine.core s l).m ∧ (Machine.core t l).rings = (Machine.core s l).rings ∧
        (Machine.core t l).launchq = (Machine.core s l).launchq) ∧
    (f.clear s x = true → f.h.sw = false →
      let o := me s x
      let u := me t x
      (∀ r : SReg, f.u.rd ≠ some r → u.s[r] = o.s[r] ∧ u.sdf.getLsbD r.val = o.sdf.getLsbD r.val) ∧
      (∀ p : PReg, testOf i ≠ some (.p p) → u.p.getLsbD p.val = o.p.getLsbD p.val) ∧ (∀ g : GReg, testOf i ≠ some (.g g) → u.g[g] = o.g[g]) ∧
      u.l = o.l ∧ u.ldf = o.ldf ∧ u.fpmode.toNat / 32 = o.fpmode.toNat / 32 ∧ (∀ b : Nat, o.fpmode.getLsbD b = true → u.fpmode.getLsbD b = true) ∧
      u.qos = o.qos ∧ u.tvec = o.tvec ∧ u.tcause = o.tcause ∧ u.tpc = o.tpc ∧ u.tword0 = o.tword0 ∧ u.tword1 = o.tword1 ∧ u.taddr = o.taddr ∧
      u.qhvec = o.qhvec ∧ u.tpra = o.tpra ∧ u.ckptid = o.ckptid ∧ u.lfOld = o.lfOld ∧ u.lfNew = o.lfNew ∧ u.thact = o.thact ∧ u.priv = o.priv ∧
      u.lact = o.lact ∧ u.ldir = o.ldir ∧ u.lret = o.lret ∧ u.lval = o.lval)

/-! ## The kiln (12 R292 to R304) -/

/-- The kiln instruction `i` writes `f` of the run into kD, k0 staying zero, and is one step of its program. -/
def Sys2Proof.kilnGives (i : Instr) (d : KReg) (f : KRun → BitVec 32) : Prop :=
  ∀ s n r, s.kcur = some n → (die s n).run = some r →
    exec i s = .next (modDie s n fun y =>
      { y with run := some { r with steps := r.steps + 1, pc := r.pc + 1, k := if d = 0 then r.k else r.k.set d (f r) } })

/-- A kiln register; k0 reads zero. -/
def Sys2Proof.kilnReg (r : KRun) (a : KReg) : BitVec 32 := if a = 0 then 0 else r.k[a]

/-- 12 R298, R299: the kiln instructions but for those of KilnControl, with X = kS + i. -/
def Sys2Proof.kilnResultsRule : Prop :=
  ∀ (d a c : KReg) (i : Fin 32),
    let X (r : KRun) : BitVec 32 := BitVec.ofNat 32 ((kilnReg r a).toNat + i.val)
    let D (r : KRun) : BitVec 32 := kilnReg r d
    let num (n : Nat) : BitVec 32 := BitVec.ofNat 32 n
    let bit (b : Bool) : BitVec 32 := if b then 1 else 0
    kilnGives (.kld d a i) d (fun r => r.win.toList.getD ((X r).toNat % 32) 0) ∧
    kilnGives (.kadd d a i) d (fun r => num ((D r).toNat + (X r).toNat)) ∧
    kilnGives (.ksub d a i) d (fun r => BitVec.ofInt 32 ((D r).toNat - (X r).toNat)) ∧
    kilnGives (.kand d a i) d (fun r => D r &&& X r) ∧ kilnGives (.kor d a i) d (fun r => D r ||| X r) ∧
    kilnGives (.kshl d a i) d (fun r => num ((D r).toNat * 2 ^ ((X r).toNat % 32))) ∧
    kilnGives (.kshr d a i) d (fun r => num ((D r).toNat / 2 ^ ((X r).toNat % 32))) ∧
    kilnGives (.kmin d a i) d (fun r => num (min (D r).toNat (X r).toNat)) ∧
    kilnGives (.kmax d a i) d (fun r => num (max (D r).toNat (X r).toNat)) ∧
    kilnGives (.kceq d a i) d (fun r => bit (decide ((D r).toNat = (X r).toNat))) ∧
    kilnGives (.kcgt d a i) d (fun r => bit (decide ((X r).toNat < (D r).toNat))) ∧
    kilnGives (.kfirst d a i) d (fun r =>
      match (List.range 32).reverse.find? fun j => (X r).getLsbD j with
      | some j => num j
      | none => 0xFFFFFFFF) ∧
    kilnGives (.kpop d a i) d (fun r => num ((List.range 32).filter fun j => (X r).getLsbD j).length) ∧
    kilnGives (.kldi d i) d (fun _ => num i.val) ∧
    kilnGives (.klui d i) d (fun r => num ((D r).toNat * 32 + i.val)) ∧
    kilnGives (.ksel d a c) d (fun r => if kilnReg r c = 0 then D r else kilnReg r a) ∧
    kilnGives (.kamax d a i) d (fun r => kamaxOf r.win (kilnReg r a) i.val)

/-- 12 R298: `kamax` gives the first of the selected window words that is not less than any other of them, or all ones where none is selected. -/
def Sys2Proof.kilnMaximumRule : Prop :=
  ∀ (win : Vector (BitVec 32) 32) (sel : BitVec 32) (f : Nat),
    let w (j : Nat) : BitVec 32 := win[Fin.ofNat 32 (f + j)]
    (sel.toNat % 256 = 0 → kamaxOf win sel f = 0xFFFFFFFF) ∧
    (sel.toNat % 256 ≠ 0 → ∃ j < 8, kamaxOf win sel f = BitVec.ofNat 32 j ∧ sel.getLsbD j = true ∧
      ∀ q < 8, sel.getLsbD q = true → (w q).toNat ≤ (w j).toNat ∧ (q < j → (w q).toNat < (w j).toNat))

/-- 12 R298, R299: the kiln instructions but for those of KilnControl, with X = kS + i. Beside: 12 R298: `kamax` gives the first of the selected
window words that is not less than any other of them, or all ones where none is selected. -/
def Obligations.KilnInstructions : Prop :=
  Sys2Proof.kilnResultsRule ∧ Sys2Proof.kilnMaximumRule

/-- 12 R293, R294, R298 to R301: the branches, the writes of scratch words and of the decision word, and the end of a program: a valid word is applied
and the scratch writes take effect, otherwise the run fails, counted as no emission (14) or an invalid word (15), and the built-in policy decides. -/
def Sys2Proof.kilnControlRule : Prop :=
  ∀ (d a : KReg) (i : Fin 32) (s : State) (n : Nat) (r : KRun),
    s.kcur = some n → (die s n).run = some r →
    let next : KRun := { r with steps := r.steps + 1, pc := r.pc + 1 }
    let goes (j : Instr) (q : KRun) : Prop := exec j s = .next (modDie s n fun y => { y with run := some q })
    let ended : State := modDie s n fun y => { y with run := none }
    goes (.kbz d i) (if kilnReg r d = 0 then { next with pc := r.pc + 1 + i.val } else next) ∧
    goes (.kbnz d i) (if kilnReg r d = 0 then next else { next with pc := r.pc + 1 + i.val }) ∧
    goes (.kstw a i) { next with sw := r.sw ++ [(i.val - 28, kilnReg r a)] } ∧
    goes (.kemit a i) { next with word := some (BitVec.ofNat 32 ((kilnReg r a).toNat + i.val)) } ∧
    (∀ p, part? s r.ev.pid = some p →
      (∀ w, r.word = some w → wordValid s p n r.ev w = true →
        exec .kend s = .next (applyWord (modDiePart ended n p.pid fun q => { q with sw := r.sw.foldl (fun v x => v.set (Fin.ofNat 4 x.1) x.2) q.sw }) p n
          r.ev w)) ∧
      (∀ w, r.word = some w → wordValid s p n r.ev w = false → exec .kend s = .next (fallback (count ended n r.ev.pid 15 1) p n r.ev)) ∧
      (r.word = none → exec .kend s = .next (fallback (count ended n r.ev.pid 14 1) p n r.ev)))

/-- 12 R293, R294: what makes a decision word valid: reserved bits zero and a code of the event's kind; a DISPATCH names a level that holds an entry and a
group able to take it; a PREEMPT group holds a victim of a lower level (which tasks can be victims: log 26). -/
def Sys2Proof.decisionWordsRule : Prop :=
  ∀ (s : State) (p : Partition) (d : Nat) (e : KEvent) (w : BitVec 32),
    let n := w.toNat
    let code := n % 8
    let level := n / 32 % 8
    let group := n / 256 % 128
    (e.kind = .fault → (wordValid s p d e w = true ↔ n ≤ 3)) ∧
    (e.kind = .preempt → (wordValid s p d e w = true ↔ n = code + 256 * group ∧ code ≤ 1 ∧
      (code = 0 ∨ group = 0 ∨ e.reason = 0 ∧ ∃ v ∈ victims s d p.pid, v.1 ∈ groupCores d (group - 1) ∧ v.2.level < e.level))) ∧
    (e.kind = .dispatch → (wordValid s p d e w = true ↔ n = code + 32 * level + 256 * group ∧ code ≤ 1 ∧
      (code = 0 ∨ ∃ y, headEntry s d p.pid level = some y ∧ (group = 0 ∨ group ≤ groupsOn d ∧ groupAble s p d y (group - 1) = true))))

/-- 12 R291, R299, R300, R302, R304: a free kiln takes the oldest event of the highest kind; it runs the active program from the kind's entry, its
registers zero and the event in its window, or applies the built-in policy where there is none. -/
def Sys2Proof.kilnTakesEventRule : Prop :=
  ∀ (s : State) (d : Nat) (e : KEvent) (p : Partition),
    (die s d).run = none → nextEvent s d = some e → part? s e.pid = some p → (die s d).held = [] → d < 20 →
    (e.kind = .dispatch → overrideEntry (modDie s d fun y => { y with events := y.events.erase e }) p d = none) →
    (e.kind = .preempt → e.reason = 1 → (diePart s d e.pid).extended < 4) →
    let taken : State := modDie s d fun y => { y with events := y.events.erase e }
    let entry (i : KImage) : Option Nat := match e.kind with | .dispatch => i.edisp | .preempt => i.epre | .fault => i.eflt
    ((diePart s d e.pid).active = none → exec (.kilnDecision d) s = .next (fallback taken p d e)) ∧
    (∀ i, (diePart s d e.pid).active = some i → entry i = none → exec (.kilnDecision d) s = .next (fallback taken p d e)) ∧
    (∀ i pc, (diePart s d e.pid).active = some i → entry i = some pc →
      ∃ r, exec (.kilnDecision d) s = .next (modDie taken d fun y => { y with run := some r }) ∧ r.ev = e ∧ r.img = i ∧ r.pc = pc ∧ r.steps = 0 ∧
        r.word = none ∧ r.sw = [] ∧ r.k = Vector.replicate 8 0 ∧ r.win[(2 : Fin 32)] = BitVec.ofNat 32 e.arg0 ∧ r.win[(3 : Fin 32)] = BitVec.ofNat 32 e.arg1)

/-- 12 R293, R294, R298 to R301: the branches, the writes of scratch words and of the decision word, and the end of a program: a valid word is applied
and the scratch writes take effect, otherwise the run fails, counted as no emission (14) or an invalid word (15), and the built-in policy decides.
Beside: 12 R293, R294: what makes a decision word valid: reserved bits zero and a code of the event's kind; a DISPATCH names a level that holds an
entry and a group able to take it; a PREEMPT group holds a victim of a lower level (which tasks can be victims: log 26). Beside: 12 R291, R299, R300,
R302, R304: a free kiln takes the oldest event of the highest kind; it runs the active program from the kind's entry, its registers zero and the event
in its window, or applies the built-in policy where there is none. -/
def Obligations.KilnDecisions : Prop :=
  Sys2Proof.kilnControlRule ∧ Sys2Proof.decisionWordsRule ∧ Sys2Proof.kilnTakesEventRule

/-! ## Events (what the opcode table lists without an encoding) -/

/-- 01 R29, R47; 08 R202; 09 R220, R221, R231, R232, R234: a plain load or store of a sound address that may act, first in its bank's queue or come to
an empty one, is performed at its serving point and its reply stands ready; a continuation atomic changes memory and enters its launch in one act, or
waits in the list of a full queue. A request that its queues have entries for enters them; else it is refused and sent again, and the 64th refusal
escalates it behind those that are already so, which counter d21 shows. A row enters all the queues of the banks it touches at once (log 46). -/
def Obligations.AccessEvents : Prop :=
  ∀ (s : State) (id : Nat) (r : Request),
    req? s id = some r → s.mem.wf = true → (∀ q ∈ s.reqs, ∀ g, q.st ≠ .feList g) →
    let replies (t : State) (w : Reply) : Prop := (req? t id).map (fun q => q.st) = some (.replied w)
    (∀ d sz uns, r.op = .load .plain d sz uns → (part? s r.part).isSome → canAct s r = true → poisoned s r.key = false →
      ∃ t, exec (.accessPerform id) s = .next t ∧ t.mem = s.mem ∧ (∀ l k, slotAt t l k = slotAt s l k) ∧
        replies t (.writes [.s d (extended (Size.bytes sz) uns (numAt s r.key (Size.bytes sz))) false])) ∧
    (∀ v sz, r.op = .store .plain v sz → (part? s r.part).isSome → canAct s r = true → poisoned s r.key = false →
      ∃ t, exec (.accessPerform id) s = .next t ∧ (∀ l k, slotAt t l k = slotAt s l k) ∧ replies t .ack ∧
        ∀ b, t.mem.read b = if r.key ≤ b ∧ b < r.key + Size.bytes sz then BitVec.ofNat 8 (v.toNat / 256 ^ (b - r.key)) else s.mem.read b) ∧
    (∀ isCas k b c d, r.op = .contK isCas k b c d → canAct s r = true → poisoned s r.key = false → launchWaiters s (servedAt r.key) = [] →
      (∀ q ∈ s.reqs, q.lesc = none) →
      let n := if k.w64 then 8 else 4
      let old := numAt s r.key n
      let launches : Prop := if isCas then old = b.toNat % 256 ^ n else old = 1
      let new := if isCas then (if old = b.toNat % 256 ^ n then c.toNat % 256 ^ n else old) else (if old = 0 then 0 else old - 1)
      let q := (Machine.core s (servedAt r.key)).launchq
      (¬ (launches ∧ 64 ≤ q.length) →
        ∃ t, exec (.continuationAct id) s = .next t ∧ numAt t r.key n = new ∧ replies t (.writes [.s d (extended n k.w64 old) false]) ∧
          (launches → ∃ e, (Machine.core t (servedAt r.key)).launchq = q ++ [e] ∧ e.pid = r.part ∧ e.cls = r.cls ∧ e.anch = k.anch ∧ e.entry = k.entry ∧ e.ea = r.va) ∧
          (¬ launches → (Machine.core t (servedAt r.key)).launchq = q)) ∧
      (launches → 64 ≤ q.length →
        ∃ t, exec (.continuationAct id) s = .next t ∧ t.mem = s.mem ∧ (req? t id).map (fun q => q.st) = some .launchList)) ∧
    (r.st = .sent → r.op ≠ .agent → heldByOrder s r = false →
      let room := r.banks.all fun b => bankAdmits s r b
      ∃ t, exec (.requestResend id) s = .next t ∧ t.mem = s.mem ∧
        (room = true → req? t id = some { r with st := .queued, refused := 0, esc := none }) ∧
        (room = false → r.esc.isSome ∨ r.refused < 63 → req? t id = some { r with refused := r.refused + 1 } ∧ t.dies = s.dies) ∧
        (room = false → r.esc = none → 63 ≤ r.refused → req? t id = some { r with refused := r.refused + 1, esc := some s.nextId } ∧
          ∃ u, u.dies = s.dies ∧ t = count u (dieOf (servedAt r.key)) r.part 21 1))

/-- 01 R28, R29, R32; 05 R131, R147; 06 R167, R168, R172: a reply writes its register and lets its parked thread run on; a forwarding entry sends a reply
on to where its thread has moved, and an entry frees once the results it counted have come; the long results of divisions, special functions and reductions are written in their cycle, with their
flags (log 24), and are no longer outstanding. -/
def Sys2Proof.resultEventsRule : Prop :=
  (∀ (s : State) (id : Nat) (r : Request) (d : SReg) (v : Word) (df : Bool) (k : Fin 16) (c : Cont),
    req? s id = some r → r.st = .replied (.writes [.s d v df]) → fwdBehind s r = false → d ≠ 0 → ¬ (24 ≤ d.val ∧ d.val ≤ 27) → slotOf s r.loc r.part r.thid = some k →
    r.relaxed = false → (slotAt s r.loc k).st = .parkMem (.access id) → (thread s r.loc k).cont = some c → c.sw = false →
    ∃ t, exec (.accessReply id) s = .next t ∧ t.mem = s.mem ∧ t.reqs = s.reqs.filter (fun q => q.id != id) ∧ (slotAt t r.loc k).st = .run ∧
      (thread t r.loc k).s[d] = v ∧ (thread t r.loc k).sdf.getLsbD d.val = df ∧ (thread t r.loc k).cont = none ∧
      (thread t r.loc k).pc = (loopNext (thread s r.loc k).pc c.len (thread s r.loc k).loops).1) ∧
  (∀ (s : State) (id : Nat) (r : Request) (w : Reply) (f : FwdEntry),
    req? s id = some r → r.st = .replied w → slotOf s r.loc r.part r.thid = none → fwdOf s r.loc r.part r.thid = some f →
    fwdBehind s r = false → inTransit s r.loc r.part r.thid = false →
    ∃ t, exec (.replyForward id) s = .next t ∧ t.mem = s.mem ∧ req? t id = some { r with loc := f.dest, fwded := true }) ∧
  (∀ (s : State) (id : Nat) (r : Request) (w : Reply) (k : Fin 16) (f : BitVec 5) (c : Option Nat) (ws : List RegWrite),
    req? s id = some r → r.st = .replied w → r.relaxed = true → fwdBehind s r = false → slotOf s r.loc r.part r.thid = some k →
    ⟨.access id, c, ws, f⟩ ∈ (thread s r.loc k).outs → (∀ o ∈ (thread s r.loc k).outs, o.unit = .access id → o.due = c) → w ≠ .retry →
    ∃ t, exec (.accessReply id) s = .next t ∧ t.reqs = s.reqs.filter (fun q => q.id != id) ∧
      ∀ l g, g ∈ (Machine.core t l).fwd → g.part = r.part → g.thid = r.thid →
        ∃ e ∈ (Machine.core s l).fwd, e.part = r.part ∧ e.thid = r.thid ∧ e.dest = g.dest ∧
          g.outs = e.outs.eraseP (fun o => o.unit == .access id && o.due == c) ∧ g.outs ≠ []) ∧
  (∀ (s : State) (l : Loc) (k : Fin 16) (d : SReg) (v : Word) (df : Bool) (f : BitVec 5) (c : Nat),
    (slotAt s l k).st = .run → (thread s l k).outs = [⟨.alu, some c, [.s d v df], f⟩] → c ≤ s.cycle → d ≠ 0 → ¬ (24 ≤ d.val ∧ d.val ≤ 27) →
    (thread s l k).pendTrap = none →
    ∃ t, exec (.longResultWrite l k) s = .next t ∧ t.mem = s.mem ∧ (thread t l k).outs = [] ∧ (thread t l k).s[d] = v ∧
      (thread t l k).fpmode = (thread s l k).fpmode ||| f.setWidth 8 ∧ (thread t l k).pc = (thread s l k).pc) ∧
  (∀ (s : State) (l : Loc) (k : Fin 16) (c : Nat) (rest : List Nat) (v : VReg) (lanes data : Row) (f : BitVec 5),
    (Machine.core s l).sfu = c :: rest → c ≤ s.cycle → (thread s l k).outs = [⟨.sfu, some c, [.v v lanes data], f⟩] →
    (∀ j, j ≠ k → (thread s l j).outs = []) → (thread s l k).pendTrap = none → (slotAt s l k).st = .run →
    ∃ t, exec (.sfuResultWrite l) s = .next t ∧ t.mem = s.mem ∧ (Machine.core t l).sfu = rest ∧ (thread t l k).outs = [] ∧
      (Machine.core t l).tiles = (Machine.core s l).tiles.set v (((Machine.core s l).tiles[v] &&& ~~~ lanes) ||| (data &&& lanes))) ∧
  (∀ (s : State) (l : Loc) (k : Fin 16) (c : Nat) (d : SReg) (v : Word) (f : BitVec 5),
    (thread s l k).outs = [⟨.vred, some c, [.s d v false], f⟩] → c ≤ s.cycle → d ≠ 0 → ¬ (24 ≤ d.val ∧ d.val ≤ 27) →
    (∀ j, j ≠ k → (thread s l j).outs = []) → (thread s l k).pendTrap = none → (slotAt s l k).st = .run →
    ∃ t, exec (.vredResultWrite l) s = .next t ∧ t.mem = s.mem ∧ (thread t l k).outs = [] ∧ (thread t l k).s[d] = v)

/-- 08 R208; 13 R314, R318: a finished walk puts the extent map's entry in the core's cache, or a label set of at most 64 entries, and lets the waiting
thread issue again, which has what it asked for (log 9); a miss is known to it. -/
def Sys2Proof.walkEventsRule : Prop :=
  ∀ (s : State) (id d : Nat) (w : Walk) (k : Fin 16) (c : Nat),
    walk? s id = some (d, w) → ∀ thid, w.who = .thread thid → slotOf s w.loc w.part thid = some k → (slotAt s w.loc k).st = .block .walk c →
    let old := (thread s w.loc k).walk
    (∀ va, w.va = some va →
      ∃ t, exec (.extentWalkComplete id) s = .next t ∧ t.mem = s.mem ∧ (slotAt t w.loc k).st = .run ∧
        (∀ e, extFind w.map va = some e → (Machine.core t w.loc).xcache.head? = some (w.part, e) ∧
          (thread t w.loc k).walk = { old with waits := none, exts := e :: old.exts }) ∧
        (extFind w.map va = none → (Machine.core t w.loc).xcache = (Machine.core s w.loc).xcache ∧
          (thread t w.loc k).walk = { old with waits := none, missed := va :: old.missed })) ∧
    (w.va = none →
      let set := treeSet w.ltt w.tid
      ∃ t, exec (.labelWalkComplete id) s = .next t ∧ t.mem = s.mem ∧ (slotAt t w.loc k).st = .run ∧
        (thread t w.loc k).walk = { old with waits := none, sets := (w.tid, set) :: old.sets } ∧
        (set.length ≤ 64 → (Machine.core t w.loc).lcache.head? = some (w.part, w.tid, set)) ∧
        (64 < set.length → (Machine.core t w.loc).lcache = (Machine.core s w.loc).lcache))

/-- 01 R28, R29, R32; 05 R131, R147; 06 R167, R168, R172: a reply writes its register and lets its parked thread run on; a forwarding entry sends a
reply on to where its thread has moved, and an entry frees once the results it counted have come; the long results of divisions, special functions and
reductions are written in their cycle, with their flags (log 24), and are no longer outstanding. Beside: 08 R208; 13 R314, R318: a finished walk puts
the extent map's entry in the core's cache, or a label set of at most 64 entries, and lets the waiting thread issue again, which has what it asked for
(log 9); a miss is known to it. -/
def Obligations.ResultsAndWalks : Prop :=
  Sys2Proof.resultEventsRule ∧ Sys2Proof.walkEventsRule

/-- 01 R30 to R35; 05 R152; 09 R231 to R233; 11 R278: a migration sends the context and then frees its old slot where the new one is taken; a spawned,
spilled or launched thread takes the lowest slot it may use (log 16) and enters RUN; a failed launch raises a FAULT event; a finished thread's slot
becomes FREE, which raises a DISPATCH event (12 R290). -/
def Obligations.ThreadEvents : Prop :=
  (∀ (s : State) (l dest : Loc) (k : Fin 16),
    (slotAt s l k).st = .moving dest → (s.msgs.filter fun m => m.src == l) = [] → storesOpen s (thread s l k) = false → (Machine.core s l).fwd.length < 16 →
    hasWaitingGuard (Machine.core s l) (thread s l k) = false →
    let th := thread s l k
    ∃ t, exec (.migrationDepart l k) s = .next t ∧ t.mem = s.mem ∧ (∀ m j, slotAt t m j = slotAt s m j) ∧
      t.msgs = s.msgs ++ [⟨s.nextId, l, k.val, th.thid, th.part, th.qos, .migrate dest ⟨unpackImage (packImage th) th, true, false⟩⟩] ∧
      (Machine.core t l).fwd = ((Machine.core s l).fwd.filter fun f => !f.isOf th.part th.thid) ++
        (if th.outs = [] then [] else [⟨th.part, th.thid, dest, th.outs⟩])) ∧
  (∀ (s : State) (id : Nat) (m : Msg) (dest : Loc) (a : Arrival) (k : Fin 16),
    headMsg? s id = some m → inboxed s dest a.th.part a.migrated = false → (Machine.core s dest).spill = [] → (Machine.core s dest).spillSpoil = [] →
    usableSlot (Machine.core s dest) a.reservedKind = some k →
    (m.body = .migrate dest a → a.migrated = true → (m.src, Fin.ofNat 16 m.slot) ≠ (dest, k) →
      ∃ t, exec (.migrationArrival id) s = .next t ∧ t.mem = s.mem ∧ t.msgs = s.msgs.filter (fun q => q.id != id) ∧
        (slotAt t m.src (Fin.ofNat 16 m.slot)).st = .free ∧ (slotAt t dest k).st = .run ∧ (thread t dest k).thid = a.th.thid ∧
        (thread t dest k).pc = a.th.pc ∧ (thread t dest k).s = a.th.s ∧ (thread t dest k).l = a.th.l ∧ (thread t dest k).outs = a.th.outs ∧
        (thread t dest k).tcause = (thread s dest k).tcause) ∧
    (m.body = .spawn dest a → a.migrated = false →
      ∃ t, exec (.spawnArrival id) s = .next t ∧ t.mem = s.mem ∧ t.msgs = s.msgs.filter (fun q => q.id != id) ∧ (slotAt t dest k).st = .run ∧
        (thread t dest k).pc = a.th.pc ∧ (thread t dest k).s = a.th.s ∧
        ∀ p, part? s a.th.part = some p → (thread t dest k).thid = thidOf p dest k (slotAt s dest k).count)) ∧
  (∀ (s : State) (l : Loc) (rk : Bool) (a : Arrival) (k : Fin 16),
    ((Machine.core s l).spill ++ (Machine.core s l).spillSpoil).find? (fun a => a.reservedKind == rk) = some a → usableSlot (Machine.core s l) rk = some k →
    inboxed s l a.th.part a.migrated = false →
    ∃ t, exec (.arrivalSpillStart l rk) s = .next t ∧ t.mem = s.mem ∧ (slotAt t l k).st = .run ∧ (thread t l k).pc = a.th.pc ∧ (thread t l k).s = a.th.s) ∧
  (∀ (s : State) (l : Loc) (q : Launch) (rest : List Launch) (p : Partition),
    (Machine.core s l).launchq = q :: rest → part? s q.pid = some p → p.st = .running → q.walk.waits = none →
    let known : Prop := lacksExtent s q.pid l q.walk (4 * q.entry.toNat) = false
    (¬ known → ∃ t, exec (.puntyStart l) s = .next t ∧ t.mem = s.mem ∧ (∀ m k, slotAt t m k = slotAt s m k) ∧
      (Machine.core t l).launchq = { q with walk := { q.walk with waits := some (.extent (4 * q.entry.toNat)) } } :: rest) ∧
    (∀ k, known → fetchable s q.pid l q.walk (4 * q.entry.toNat) = .ok () → usableSlot (Machine.core s l) false = some k →
      ∃ t, exec (.puntyStart l) s = .next t ∧ t.mem = s.mem ∧ (Machine.core t l).launchq = rest ∧ (slotAt t l k).st = .run ∧
        (thread t l k).pc = BitVec.ofNat 64 (4 * q.entry.toNat) ∧ (thread t l k).s[(2 : Fin 32)] = BitVec.ofNat 64 q.ea ∧
        (thread t l k).s[(3 : Fin 32)] = q.arg3 ∧ (thread t l k).priv = false ∧ (thread t l k).roaming = !q.anch) ∧
    (∀ c, known → fetchable s q.pid l q.walk (4 * q.entry.toNat) = .error c → dieOf l < 20 → (die s (dieOf l)).events.length < 64 →
      (die s (dieOf l)).held = [] →
      ∃ t e, exec (.puntyStart l) s = .next t ∧ t.mem = s.mem ∧ (Machine.core t l).launchq = rest ∧
        (die t (dieOf l)).events = (die s (dieOf l)).events ++ [e] ∧ e.kind = .fault ∧ e.reason = 1 ∧ e.cause = 32 ∧ e.pid = q.pid)) ∧
  (∀ (s : State) (l : Loc) (r : Request) (rest : List Request) (isCas : Bool) (k : Punty) (b c : Word) (d : SReg),
    (Machine.core s l).launchq.length < 64 → launchWaiters s l = r :: rest → r.op = .contK isCas k b c d → poisoned s r.key = false →
    exec (.launchWaitReevaluate l) s = .next (contPerform s r isCas k b c d)) ∧
  (∀ (s : State) (l : Loc) (k : Fin 16),
    (slotAt s l k).st ≠ .free → (thread s l k).ended = true → (thread s l k).outs = [] → (s.reqs.any fun r => isMine (thread s l k) r) = false →
    ∃ t, exec (.tdoneSlotFree l k) s = .next t ∧ t.mem = s.mem ∧ (slotAt t l k).st = .free ∧
      (dieOf l < 20 → isSliceCore l = false → (die s (dieOf l)).events.length < 64 → (die s (dieOf l)).held = [] →
        (∀ y ∈ (die s (dieOf l)).events, y.kind ≠ .dispatch) →
        (∀ p, part? s (thread s l k).part = some p → p.st ≠ .paused) →
        ∃ e, (die t (dieOf l)).events = (die s (dieOf l)).events ++ [e] ∧ e.kind = .dispatch ∧ e.reason = 1 ∧ e.pid = (thread s l k).part))

/-- 11 R260, R262, R270 to R275: a link that stays full for more than 256 cycles grows into spoil; a ring message that fits is written at TAIL with
its header's tag, source, slot and length, the header's granule is set full, and its sender's status is 0; deadlock probes go upstream from a thread
blocked for DLLIMIT cycles, a core that waits itself sends one on over the queue its thread waits on, one that does not drops it, and one that comes
back to its origin raises a FAULT event with cause DEADLOCK. -/
def Obligations.QueueEvents : Prop :=
  (∀ (s : State) (l : Loc) (q : Fin 4) (p : Partition) (c : Nat),
    (Machine.core s l).links[q].fullSince = some c → (Machine.core s l).links[q].words.length = 8 → (Machine.core s l).links[q].growing = false → c + 256 < s.cycle →
    corePart s l = some p → spoilFits (count (modLink s l q fun d => { d with growing := true }) (dieOf l) p.pid 8 1) l p.pid 16 = true →
    exec (.linkGrow l q) s = .next (count (modLink s l q fun d => { d with growing := true }) (dieOf l) p.pid 8 1)) ∧
  (∀ (s : State) (id : Nat) (q : Msg) (m : RingMsg) (d : SReg) (die idx : Nat),
    headMsg? s id = some q → q.body = .ring m d → m.dest = .core die idx → inboxed s m.dest m.pid false = false →
    ringSpoiled s m.pid m.dest m.k = [] → s.mem.wf = true → (∀ q ∈ s.reqs, ∀ g, q.st ≠ .feList g) →
    let r := (Machine.core s m.dest).rings[m.k]
    let size := 1024 * 2 ^ (r.size.toNat - 1)
    let n := 16 + 16 * ((m.payload.length + 15) / 16)
    let key (j : Nat) := lmKey die idx (1024 * r.base.toNat + r.tail.toNat + j)
    r.en = true → r.tail.toNat + n ≤ size → n ≤ size - 16 - (r.tail.toNat + size - r.head.toNat) % size →
    ∃ t w, exec (.ringMessagePlace id) s = .next t ∧ feFull t (key 0) = true ∧
      (∀ p, part? s m.pid = some p → numAt t (key 0) 16 =
        m.tag.toNat * 2 ^ 64 + whoNum p m.src % 2 ^ 17 * 2 ^ 47 + m.slot % 16 * 2 ^ 43 + m.payload.length % 2 ^ 18) ∧
      (∀ j < m.payload.length, t.mem.read (key (16 + j)) = m.payload.getD j 0) ∧ (Machine.core t m.dest).rings[m.k] = { r with tail := BitVec.ofNat 18 ((r.tail.toNat + n) % size) } ∧
      t.msgs = s.msgs.filter (fun y => y.id != id) ∧ t.msgReplies = s.msgReplies ++ [w] ∧ w.id = id ∧ w.ws = [.s d 0 false] ∧ w.trap = none) ∧
  (∀ (s : State) (l : Loc) (k : Fin 16) (p : Partition) (c : Nat) (q : Fin 4) (n : Loc) (e : Fin 4),
    (slotAt s l k).st = .block (.queues [(q, 1)] []) c → part? s (thread s l k).part = some p → p.dllimit ≠ 0 → max c (slotAt s l k).probeAt + p.dllimit.toNat ≤ s.cycle →
    (inWords s l q) = [] → inboundOf l q = some (n, e) →
    ∃ t, exec (.deadlockProbeSend l k) s = .next t ∧ t.mem = s.mem ∧ (slotAt t l k).probeAt = s.cycle ∧
      t.probes = s.probes ++ [⟨s.nextId, p.pid, l, k.val, (thread s l k).thid, q, c, n, l, [l]⟩]) ∧
  (∀ (s : State) (id : Nat) (b : Probe) (k : Fin 16) (c : Nat) (q : Fin 4) (n : Loc) (e : Fin 4),
    (s.probes.find? fun y => y.id == id) = some b → b.at_ ≠ b.origin →
    let there := Machine.core s b.at_
    let t : State := { s with probes := s.probes.filter fun y => y.id != id }
    let toward : Prop := ∃ q e, inboundOf b.at_ q = some (b.from_, e) ∧ (there.links[(q : Fin 4)].words ≠ [] ∨ there.links[q].spoiled ≠ [])
    ((slotAt s b.at_ k).st = .run → (thread s b.at_ k).part = b.part → exec (.deadlockProbeReceive id) s = .next t) ∧
    (toward → exec (.deadlockProbeReceive id) s = .next t) ∧
    ((∀ j, j ≠ k → (slotAt s b.at_ j).st = .free) → (slotAt s b.at_ k).st = .block (.queues [(q, 1)] []) c → (thread s b.at_ k).part = b.part →
      (∀ j, j ≠ k → (thread s b.at_ j).part ≠ b.part) → inWords s b.at_ q = [] → inboundOf b.at_ q = some (n, e) → there.spill = [] → ¬ toward →
      (b.path.length < 32 → exec (.deadlockProbeReceive id) s = .next { t with
        nextId := s.nextId + 1, probes := t.probes ++ [{ b with id := s.nextId, at_ := n, from_ := b.at_, path := b.path ++ [b.at_] }] }) ∧
      (32 ≤ b.path.length → exec (.deadlockProbeReceive id) s = .next (count t (dieOf b.at_) b.part 7 1)))) ∧
  (∀ (s : State) (id : Nat) (b : Probe) (k : Fin 16) (c : Nat) (room : List (Fin 4 × Nat)),
    (s.probes.find? fun y => y.id == id) = some b → b.at_ = b.origin → b.oslot = k.val → (slotAt s b.origin k).st = .block (.queues [(b.oq, 1)] room) c →
    inWords s b.origin b.oq = [] → (thread s b.origin k).part = b.part → (thread s b.origin k).thid = b.othid → b.osince = c → dieOf b.origin < 20 →
    (die s (dieOf b.origin)).events.length < 64 → (die s (dieOf b.origin)).held = [] →
    ∃ t e, exec (.deadlockProbeReceive id) s = .next t ∧ t.mem = s.mem ∧ t.probes = s.probes.filter (fun y => y.id != id) ∧
      (die t (dieOf b.origin)).events = (die s (dieOf b.origin)).events ++ [e] ∧ e.kind = .fault ∧ e.reason = 1 ∧ e.cause = 34 ∧ e.pid = b.part ∧
      e.who = some (b.origin, k.val))

/-- The completion granule at `key` holds two words and is full. -/
def Sys2Proof.completesAt (t : State) (key d0 d1 : Nat) : Prop := numAt t key 8 = d0 ∧ numAt t (key + 8) 8 = d1 ∧ feFull t key = true

/-- An access of an engine's command may be made now: it is the first in its bank's queue or comes to an empty one, or its place has no queue (08 R202). -/
def Sys2Proof.mayAct (s : State) (l : Loc) (e : Engine) (q : EngCmd) (key : Nat) : Prop := (agentTurn s (agentOf l e q) key).1 = true

/-- 07 R178 to R181; 10 R243: a command of the matrix engine starts; `tzero` writes one row a cycle, a tile load reads its granules one at a time and
writes a row once its granules are there (log 22), TWM follows, and a vector write to the row that is still outstanding loses its effect; a finished command
leaves its queue; `tfree` frees the tile at its start. -/
def Sys2Proof.matrixEventsRule : Prop :=
  ∀ (s : State) (l : Loc) (q : EngCmd),
    (Machine.core s l).meq = [q] → heldBack s q.part = false →
    let c := Machine.core s l
    let n := q.nextRow
    let live (step : Nat) : Prop := ∃ t0, q.started = some t0 ∧ q.finished = false ∧ t0 + step ≤ s.cycle
    let starts : Prop := q.started = none ∧ q.decided = some true ∧ engineHeld s l q.part = false
    let row (t : TReg) (i : Nat) : VReg := Fin.ofNat 64 (16 * t.val + i % 16)
    let named (t : TReg) : Prop := c.twm[t].seq.toNat = q.seq % 256
    let wrote (u : State) (t : TReg) (i : Nat) (v : Row) : Prop :=
      (Machine.core u l).tiles = c.tiles.set (row t i) v ∧
      (named t → (Machine.core u l).twm = c.twm.set t { c.twm[t] with rows := i + 1 }) ∧ (¬ named t → (Machine.core u l).twm = c.twm) ∧
      ∀ k, ∀ o ∈ (thread u l k).outs, ∀ bits val, RegWrite.v (row t i) bits val ∈ o.writes → bits = 0
    let same (u : State) : Prop := (Machine.core u l).tiles = c.tiles ∧ (Machine.core u l).twm = c.twm
    (∀ t, q.body = .tzero t →
      (starts → ∃ u q', exec (.meCommandStart l) s = .next u ∧ u.mem = s.mem ∧ (Machine.core u l).meq = [q'] ∧ q'.started = some s.cycle ∧
        q'.body = q.body ∧ q'.nextRow = n) ∧
      (live n → ∃ u q', exec (.meRowWrite l) s = .next u ∧ u.mem = s.mem ∧ (Machine.core u l).meq = [q'] ∧ q'.nextRow = n + 1 ∧
        (q'.finished = true ↔ n = 15) ∧ wrote u t n 0)) ∧
    (∀ t, q.body = .tfree t → starts →
      ∃ u q', exec (.meCommandStart l) s = .next u ∧ u.mem = s.mem ∧ (Machine.core u l).meq = [q'] ∧ q'.finished = true ∧
        (Machine.core u l).held = c.held &&& ~~~ (1#4 <<< t.val) ∧ (Machine.core u l).twm = c.twm.set t { c.twm[t] with rows := 16 }) ∧
    (∀ t src pitch, q.body = .tload t src pitch →
      (starts → ∃ u q', exec (.meCommandStart l) s = .next u ∧ u.mem = s.mem ∧ same u ∧ (Machine.core u l).meq = [q'] ∧ q'.started = some s.cycle ∧
        q'.io.reads = List.range 64) ∧
      (∀ r key, live 0 → q.io.reads = [r] → r / 4 = n → q.xl = [(src + r / 4 * pitch + 16 * (r % 4), 16, key)] → (∀ j < 16, poisoned s (key + j) = false) →
        mayAct s l .me q key →
        let g : Row := BitVec.ofNat 512 (numAt s key 16 * 2 ^ (128 * (r % 4)))
        ∃ u q', exec (.meRowWrite l) s = .next u ∧ u.mem = s.mem ∧ same u ∧ (Machine.core u l).meq = [q'] ∧ q'.nextRow = n ∧ q'.finished = false ∧
          q'.io.reads = [] ∧ q'.pend = q.pend.set (r / 4) (q.pend.getD (r / 4) 0 ||| g)) ∧
      (live n → q.io.reads = [] →
        ∃ u q', exec (.meRowWrite l) s = .next u ∧ u.mem = s.mem ∧ (Machine.core u l).meq = [q'] ∧ q'.nextRow = n + 1 ∧ (q'.finished = true ↔ n = 15) ∧
          wrote u t n (q.pend.getD n 0))) ∧
    (∀ c, q.finished = true → q.started = some c → c + minCycles q.body ≤ s.cycle → q.bad = false → (∀ e, e ≠ .me → engQ (Machine.core s l) e = []) →
      ∃ u, exec (.engineCommandComplete l .me) s = .next u ∧ u.mem = s.mem ∧ (Machine.core u l).meq = [])

/-- 07 R190; 09 R240; 10 R243; 13 R333; 14 R351, R352: a run of an engine makes its next access, one granule, and where nothing else of
the command is left writes the completion granule or record with its sequence number, a record's second granule first. `hm.gemv` reads its inputs granule by
granule, then has the results of four rows to write, and ends with its last write. An append's act goes on with the reads that lead to it (log 54), and gives
the copy and n when it is done; one that is not the first at its page waits. Accesses come in an order that is free (log 22); the states below leave one. -/
def Sys2Proof.engineRunsRule : Prop :=
  ∀ (s : State) (l : Loc) (q : EngCmd) (p : Partition) (key : Nat),
    q.decided = some true → q.finished = false → part? s q.part = some p → s.mem.wf = true → (∀ r ∈ s.reqs, r.op ≠ .agent ∧ ∀ g, r.st ≠ .feList g) →
    q.seq < 2 ^ 16 → engineHeld s l q.part = false → heldBack s q.part = false →
    (∀ dst compl pat moved k1, engQ (Machine.core s l) .ie = [q] → q.body = .fill dst compl 16 pat moved → compl ≠ 0 → moved + 1 < 2 ^ 32 →
      q.io.posts = [] → q.fills = [] → q.nextRow = 0 → isLm k1 = true → isLm key = true → key % 16 = 0 → k1 % 16 = 0 → key ≠ k1 →
      q.xl = [(dst, 16, k1), (compl, 16, key)] → dst + 16 ≤ compl ∨ compl + 16 ≤ dst → poisoned s k1 = false →
      ∃ t q', exec (.ieCommandRun l 3) s = .next t ∧ engQ (Machine.core t l) .ie = [q'] ∧ q'.finished = true ∧ numAt t k1 8 = pat.toNat ∧ numAt t (k1 + 8) 8 = pat.toNat ∧
        feFull t k1 = true ∧ completesAt t key q.seq (moved + 1) ∧
        ∀ b, ¬ (k1 ≤ b ∧ b < k1 + 16) → ¬ (key ≤ b ∧ b < key + 16) → t.mem.read b = s.mem.read b) ∧
    (∀ root resume compl bval acc off f maxd anch n visited skipped, engQ (Machine.core s l) .te = [q] →
      q.body = .te 1 root resume compl bval acc off f maxd anch n visited skipped [] true → q.xl = [(compl, 32, key)] → isLm key = true → isLm (key + 16) = true →
      key % 16 = 0 → q.io.posts = [] → q.fills = [] → q.nextRow = 0 → visited < 2 ^ 32 → skipped < 2 ^ 32 →
      (∃ t q', exec (.teCommandRun l 1) s = .next t ∧ engQ (Machine.core t l) .te = [q'] ∧ q'.finished = false ∧
        ∀ b, ¬ (key + 16 ≤ b ∧ b < key + 32) → t.mem.read b = s.mem.read b) ∧
      ∃ t q', exec (.teCommandRun l 2) s = .next t ∧ engQ (Machine.core t l) .te = [q'] ∧ q'.finished = true ∧ numAt t key 8 = visited ∧ numAt t (key + 8) 2 = q.seq ∧
        numAt t (key + 16) 8 = visited ∧ numAt t (key + 24) 8 = skipped ∧ feFull t key = true ∧ feFull t (key + 16) = true ∧
        ∀ b, ¬ (key ≤ b ∧ b < key + 32) → t.mem.read b = s.mem.read b) ∧
    (∀ seg seg2 a0 a1 compl bval imm done value root, engQ (Machine.core s l) .pe = [q] →
      q.body = .pe 0 seg seg2 a0 a1 compl bval imm 0 done 0 value root .fresh → q.fn = 0 → q.io = .none → q.fills = [] → lockWaits s l q = false → compl ≠ 0 →
      q.xl = [(compl, 16, key)] → isLm key = true → key % 16 = 0 → value < 2 ^ 32 →
      ∃ t q', exec (.peCommandRun l 2) s = .next t ∧ engQ (Machine.core t l) .pe = [q'] ∧ q'.finished = true ∧ completesAt t key q.seq (value * 2 ^ 32) ∧
        ∀ b, ¬ (key ≤ b ∧ b < key + 16) → t.mem.read b = s.mem.read b) ∧
    (∀ res act wts nv m k tp, engQ (Machine.core s l) .nm = [q] → q.body = .gemv res act wts nv m k tp → q.started.isSome = true →
      let ins := (gemvIns act nv m k tp).length
      let w := ins + m * (k / 16)
      (∀ j, q.io.reads = [j] → q.io.posts = [] → j < w → isLm (xlKey q.xl (gemvVa act wts nv m k tp j)) = true →
        ∃ t q', exec (.nmCommandRun l 1) s = .next t ∧ t.mem = s.mem ∧ engQ (Machine.core t l) .nm = [q'] ∧ q'.io.reads = [] ∧ q'.finished = false) ∧
      (∀ g, q.io.reads = [w + g] → q.io.posts = [] →
        ∃ t q', exec (.nmCommandRun l 1) s = .next t ∧ t.mem = s.mem ∧ engQ (Machine.core t l) .nm = [q'] ∧ q'.io.reads = [] ∧ q'.finished = false ∧
          ∀ o ∈ q'.io.posts, ∀ e ∈ o.at_, ∃ v < nv, ∃ j < 16, xlFind q.xl (res + 4 * (v * m + 4 * g) + j) = some e.1) ∧
      (∀ o, q.io.reads = [] → q.io.posts = [o] → isLm o.key = true →
        ∃ t q', exec (.nmCommandRun l 1) s = .next t ∧ engQ (Machine.core t l) .nm = [q'] ∧ q'.finished = true ∧
          ∀ b, (∀ e ∈ o.at_, e.1 ≠ b) → t.mem.read b = s.mem.read b)) ∧
    (∀ seg seg2 a0 a1 compl bval imm n done st value root t sp since, engQ (Machine.core s l) .pe = [q] →
      q.body = .pe 1 seg seg2 a0 a1 compl bval imm n done st value root (.act t sp since) → q.io.walk.waits = none →
      let goes : Prop := since < s.cycle ∧ actFirst s q.part t since seg = true
      let m := (appAct ⟨p, l, q, 0, q.io.walk⟩ seg t sp.isSome).run.run ⟨s, q.io.trace, q.io.trace, true, false, q.fills, q.io.half⟩
      (¬ goes → exec (.pgAppendAct l) s = .next s) ∧
      (∀ ck w, goes → m = (.ok ck, w) → exec (.pgAppendAct l) s = .next (setHead w.s l .pe { q with
        fills := w.fills, io := { q.io with trace := [], half := w.half, walk := .none }
        body := .pe 1 seg seg2 a0 a1 compl bval imm n done st value root (.acted t sp ck.1 ck.2) })) ∧
      (∀ w, goes → m = (.error .pause, w) → ∃ q', exec (.pgAppendAct l) s = .next (setHead w.s l .pe q') ∧ q'.body = q.body ∧ q'.io.trace = w.trace))

/-- 14 R346, R357: a flash transfer that ends is outstanding no more, whatever its status. -/
def Sys2Proof.flashEventsRule : Prop :=
  ∀ (s : State) (id : Nat) (ok w : Bool) (f : Flash), (s.flash.find? fun f => f.id == id && f.write == w) = some f →
    ∃ t, exec (if w then .nvmeWriteComplete id ok else .nvmeReadComplete id ok) s = .next t ∧ t.flash = s.flash.filter fun g => g.id != id

/-- 07 R178 to R181; 10 R243: a command of the matrix engine starts; `tzero` writes one row a cycle, a tile load reads its granules one at a time and
writes a row once its granules are there (log 22), TWM follows, and a vector write to the row that is still outstanding loses its effect; a finished
command leaves its queue; `tfree` frees the tile at its start. Beside: 07 R190; 09 R240; 10 R243; 13 R333; 14 R351, R352: a run of an engine makes its
next access, one granule, and where nothing else of the command is left writes the completion granule or record with its sequence number, a record's
second granule first. `hm.gemv` reads its inputs granule by granule, then has the results of four rows to write, and ends with its last write. An
append's act goes on with the reads that lead to it (log 54), and gives the copy and n when it is done; one that is not the first at its page waits.
Accesses come in an order that is free (log 22); the states below leave one. Beside: 14 R346, R357: a flash transfer that ends is outstanding no more,
whatever its status. -/
def Obligations.EngineEvents : Prop :=
  Sys2Proof.matrixEventsRule ∧ Sys2Proof.engineRunsRule ∧ Sys2Proof.flashEventsRule

/-- 11 R283; 12 R282 to R285, R287, R288; 01 R40: a launch with a record outside its limits (its format before them, log 30) is refused with bit 63
and status 1 and a FAULT event that names the record, one without a free graph slot with status 2; a signal, of a thread or in a host request that its
service core handles in turn, decrements a live count of the graph that its handle names, on either node of the partition (log 30), and is otherwise
counted; completions are recorded once; changes are committed at the deputy and the replies of committed changes released; a fenced die loses its
cores, its host requests, its walks and its reports in flight (log 30), and where no partition has a node on it nothing else happens. -/
def Obligations.GraphEvents : Prop :=
  (∀ (s : State) (id : Nat) (m : Msg) (attn : Bool) (keys : List Nat) (d : SReg) (p : Partition),
    headMsg? s id = some m → m.body = .launch attn keys d → part? s m.part = some p →
    let md := masterDie s p attn
    let ts := keys.map (templateAt s p m.src md keys.length)
    let answers (t : State) (n : Nat) : Prop :=
      ∃ w, t.msgReplies = s.msgReplies ++ [w] ∧ w.id = m.id ∧ w.loc = m.src ∧ w.ws = [.s d (BitVec.ofNat 64 n) false] ∧ w.trap = none
    (∀ j, j < ts.length → ts[j]? = some none → (∀ q < j, ∃ y, ts[q]? = some (some y)) → md < 20 → (die s md).events.length < 64 → (die s md).held = [] →
      ∃ t e, exec (.graphLaunchRequest id) s = .next t ∧ t.mem = s.mem ∧ t.msgs = s.msgs.filter (fun y => y.id != id) ∧ answers t (2 ^ 63 + 1) ∧
        (die t md).events = (die s md).events ++ [e] ∧ e.kind = .fault ∧ e.reason = 1 ∧ e.cause = 35 ∧ e.arg0 = j ∧ e.pid = p.pid) ∧
    ((∀ y ∈ ts, y ≠ none) → freeGraph p = none →
      ∃ t, exec (.graphLaunchRequest id) s = .next t ∧ t.mem = s.mem ∧ t.msgs = s.msgs.filter (fun y => y.id != id) ∧ answers t (2 ^ 63 + 2)) ∧
    (∀ x k n, ts = [some x] → x.depn ≠ 0 → freeGraph p = some k → nodeOf p attn = some n →
      ∃ t q y g, exec (.graphLaunchRequest id) s = .next t ∧ t.mem = s.mem ∧ node? t p.pid attn = some (q, y) ∧ y.graphs = n.graphs ++ [g] ∧ g.gslot = k ∧
        g.gen = nextGen p k ∧ g.tmpls = [x] ∧ g.counts = [x.depn] ∧ y.version = n.version + 1)) ∧
  (∀ (s : State) (id : Nat) (m : Msg) (attn : Bool) (h : Word) (j : Nat),
    headMsg? s id = some m → m.body = .signal attn h j → (∀ q ∈ s.msgs, q.thid = m.thid → m.id ≤ q.id) →
    exec (.graphSignalReceive id) s = .next (signalGraph { s with msgs := s.msgs.filter fun y => y.id != id } m.part attn h j)) ∧
  (∀ (s : State) (pid sc : Nat) (hs : sc < 64) (h : Word) (j : Nat), (die s (sc / 4)).fenced = false →
    let q := s.svcCores[sc].queue
    (q.length < 256 → exec (.hostLaunchRequest pid sc h j) s =
      .next { s with svcCores := s.svcCores.set sc ⟨q ++ [⟨pid, .launch h j, 0, 0, [], none, 0, []⟩]⟩ }) ∧
    (256 ≤ q.length → exec (.hostLaunchRequest pid sc h j) s = .next s)) ∧
  (∀ (s : State) (n : Fin 64) (r : HostReq) (rest : List HostReq) (h : Word) (j : Nat),
    s.svcCores[n].queue = r :: rest → r.kind = .launch h j → (part? s r.pid).isSome = true →
    let t := signalGraph s r.pid false h j
    svcAct n s = { t with svcCores := t.svcCores.set n ⟨rest⟩ }) ∧
  (∀ (s : State) (pid : Nat) (attn : Bool) (h : Word) (j : Nat) (p : Partition),
    part? s pid = some p →
    let named (g : Graph) : Prop := g.gslot = h.toNat % 1024 ∧ g.gen = h.toNat / 2 ^ 16 % 2 ^ 16
    let names (a : Bool) : Prop := ∃ n, node? s pid a = some (p, n) ∧ ∃ g ∈ n.graphs, named g
    ((∀ a, ¬ names a) → signalGraph s pid attn h j = count s (masterDie s p attn) pid 12 1) ∧
    (∀ a n g, node? s pid a = some (p, n) → n.graphs = [g] → named g → (a = attn ∨ ¬ names attn) →
      (g.counts.getD j 0 = 0 → (∀ b, b ≠ a → ¬ names b) → signalGraph s pid attn h j = count s (masterDie s p attn) pid 12 1) ∧
      (1 < g.counts.getD j 0 →
        ∃ q y, node? (signalGraph s pid attn h j) pid a = some (q, y) ∧ y.graphs = [{ g with counts := g.counts.set j (g.counts.getD j 0 - 1) }] ∧
          y.version = n.version + 1))) ∧
  (∀ (s : State) (id : Nat) (r : Report) (g : Graph),
    (s.reports.find? fun r => r.id == id) = some r → graph? s r.pid r.attn r.gslot = some g →
    let t : State := { s with reports := s.reports.filter fun y => y.id != id }
    (g.gen ≠ r.gen → exec (.completionReport id) s = .next t) ∧
    (g.gen = r.gen → exec (.completionReport id) s = .next (recordEnd (newVersion t r.pid r.attn) r.pid r.attn r.gslot r.tmpl r.idx r.how))) ∧
  (∀ (s : State) (pid : Nat) (attn : Bool) (p : Partition) (n : Node), node? s pid attn = some (p, n) →
    (n.sentVersion < n.version →
      exec (.deputyCommit pid attn) s = .next (modNode s pid attn fun n => { n with deputyGraphs := n.graphs, sentVersion := n.version, ended := [] })) ∧
    (n.acked < n.sentVersion → (∀ a ∈ n.await, (∃ r m, a.2 = .reply r m) ∨ ∃ h k, a.2 = .signal h k) →
      ∃ t q y, exec (.deputyCommitAck pid attn) s = .next t ∧ t.mem = s.mem ∧ node? t pid attn = some (q, y) ∧ y.acked = n.sentVersion ∧
        y.await = n.await.filter (fun a => n.sentVersion < a.1) ∧
        t.msgReplies = s.msgReplies ++ (n.await.filter fun a => a.1 ≤ n.sentVersion).filterMap fun a => match a.2 with | .reply r _ => some r | _ => none)) ∧
  (∀ (s : State) (d : Nat), d < 20 → (die s d).fenced = false →
    ∃ t, exec (.dieFence d) s = .next t ∧ t.mem = s.mem ∧ (die t d).fenced = true ∧ (∀ c ∈ t.cores, dieOf c.1 ≠ d) ∧
      (∀ r ∈ t.reports, r.die ≠ d) ∧ (die t d).run = none ∧ (die t d).walks = [] ∧ (∀ n : Fin 64, n.val / 4 = d → t.svcCores[n].queue = []) ∧
      ((∀ p ∈ s.parts, ∀ attn, d ∉ nodeDies p attn) → (die t d).events = [] ∧ (die t d).held = [] ∧ (die t d).ready = [] ∧
        t.reqs = (s.reqs.filter fun r => dieOf r.loc != d) ∧ t.starts = s.starts.filter fun y => dieOf y.loc != d))

/-- 12 R290, R303: an entry older than AGEMAX and the end of a time slice raise their events; a swap is prepared at every die and then exchanges the
program slots, advances KILNVER and answers it. -/
def Sys2Proof.schedulerEventsRule : Prop :=
  (∀ (s : State) (d j : Nat) (e : ReadyEntry) (p : Partition),
    d < 20 → (die s d).ready[j]? = some e → part? s e.pid = some p → p.st ≠ .paused → agedEntry s p e = true → e.aged = false → (die s d).events = [] → (die s d).held = [] →
    ∃ t y, exec (.readyAgeExpire d j) s = .next t ∧ t.mem = s.mem ∧ (die t d).events = [y] ∧ y.kind = .dispatch ∧ y.reason = 3 ∧ y.level = e.level ∧ y.pid = e.pid) ∧
  (∀ (s : State) (pid : Nat) (p : Partition),
    part? s pid = some p → p.st = .running → (nodeShared s p false = true ∨ nodeShared s p true = true) →
    let d := masterDie s p (!nodeShared s p false)
    (diePart s d pid).sliceFrom + 4096 * p.sliceLen ≤ s.cycle → d < 20 → (die s d).events = [] → (die s d).held = [] → (die s d).run = none →
    ∃ t y, exec (.timeSliceEnd pid) s = .next t ∧ t.mem = s.mem ∧ (die t d).events = [y] ∧ y.kind = .preempt ∧ y.reason = 1 ∧ y.pid = pid) ∧
  (∀ (s : State) (id : Nat) (r : KswapReq) (p : Partition) (n : Node),
    (s.kswaps.find? fun r => r.id == id) = some r → node? s r.part r.attn = some (p, n) →
    ∃ t q y, exec (.kswapRequest id) s = .next t ∧ t.kswaps = s.kswaps.filter (fun y => y.id != id) ∧ node? t r.part r.attn = some (q, y) ∧
      (n.swap = none → y.swap = some (r, []) ∧ y.swapQ = n.swapQ) ∧ (n.swap ≠ none → y.swap = n.swap ∧ y.swapQ = n.swapQ ++ [r])) ∧
  (∀ (s : State) (pid : Nat) (attn : Bool) (d : Nat) (p : Partition) (n : Node) (r : KswapReq) (acks : List Nat),
    node? s pid attn = some (p, n) → n.swap = some (r, acks) →
    (d ∈ liveDies s p attn → d ∉ acks → (die s d).run = none →
      exec (.kswapPrepare pid attn d) s =
        .next (modNode (modDiePart s d pid fun q => { q with holding := true }) pid attn fun n => { n with swap := some (r, acks ++ [d]) })) ∧
    ((∀ d ∈ liveDies s p attn, d ∈ acks) → n.swapQ = [] →
      ∃ t q y w, exec (.kswapCommit pid attn) s = .next t ∧ t.mem = s.mem ∧ node? t pid attn = some (q, y) ∧ y.kilnver = n.kilnver + 1 ∧ y.swap = none ∧
        t.msgReplies = s.msgReplies ++ [w] ∧ w.id = r.id ∧ w.ws = [.s r.d ((n.kilnver + 1).setWidth 64) false] ∧ w.trap = none ∧
        ∀ d ∈ nodeDies p attn, d < 20 → (diePart t d pid).active = (diePart s d pid).shadow ∧ (diePart t d pid).shadow = (diePart s d pid).active ∧
          (diePart t d pid).holding = false))

/-- 13 R323: the master takes one change of the label table at a time; a core that has prepared is recorded, and one that commits loses its cached
sets of the partition. -/
def Sys2Proof.labelChangeEventsRule : Prop :=
  (∀ (s : State) (id : Nat) (r : LttReq) (p : Partition),
    (s.ltts.find? fun r => r.id == id) = some r → part? s r.part = some p → r.walk.waits = none →
    (p.lttRun.isSome = true → exec (.lttChangeRequest id) s = .next s) ∧
    (∀ tid v, p.lttRun = none → r.kind = .view tid v → (∃ e ∈ p.ltt, e.root = true ∧ lTid e.cur = tid) →
      (∀ e b y, masterXlate { s with ltts := s.ltts.filter fun q => q.id != id } p r r.b v = .ok (e, b, y) → e.view = false →
        ∃ t w, exec (.lttChangeRequest id) s = .next t ∧ t.mem = s.mem ∧ t.ltts = s.ltts.filter (fun q => q.id != id) ∧
          t.msgReplies = s.msgReplies ++ [w] ∧ w.id = id ∧ w.trap = some (cLTABLE, 6, 0))) ∧
    (∀ tid v n e b y, p.lttRun = none → r.kind = .view tid v → (∀ e ∈ p.ltt, e.root = true → lTid e.cur ≠ tid) → freeEntry p.ltt = some n →
      let u : State := { s with ltts := s.ltts.filter fun q => q.id != id }
      let root := mkLabel tid 0 0
      masterXlate u p r r.b v = .ok (e, b, y) → e.view = false →
        exec (.lttChangeRequest id) s = .next (startRun u r 0 0 ⟨n, root, b, e.dbase, e.dsize, false, true, true⟩ root))) ∧
  (∀ (s : State) (pid : Nat) (l : Loc) (p : Partition) (r : LttRun),
    part? s pid = some p → p.lttRun = some r →
    (∀ m q f, r.req.kind = .move m q f → r.written = false → l ∉ r.acks →
      pinsClear s p r.m r.q = false →
      exec (.lttPrepare pid l) s = .next (modPart s pid fun p => { p with lttRun := some { r with acks := r.acks ++ [l] } })) ∧
    (r.written = true → l ∉ r.commits →
      ∃ t, exec (.lttCommit pid l) s = .next t ∧ t.mem = s.mem ∧ ∀ y ∈ (Machine.core t l).lcache, y.1 ≠ pid))

/-- 12 R290, R303: an entry older than AGEMAX and the end of a time slice raise their events; a swap is prepared at every die and then exchanges the
program slots, advances KILNVER and answers it. Beside: 13 R323: the master takes one change of the label table at a time; a core that has prepared is
recorded, and one that commits loses its cached sets of the partition. -/
def Obligations.SchedulerAndLabelEvents : Prop :=
  Sys2Proof.schedulerEventsRule ∧ Sys2Proof.labelChangeEventsRule

/-- A slot that halts for a pre-emption at the instruction at its program counter, which TPC names (15 R372). -/
def Sys2Proof.halted (x : Slot) : Slot :=
  { x with
    st := .halt, halting := some 0, tpcHeld := if x.th.thact = true ∧ x.tpcHeld = none then some x.th.tpc else x.tpcHeld
    th := { x.th with cont := none, walk := .none, tpc := x.th.pc } }

/-- 10 R255; 12 R289, R295; 15 R371 to R376: an instance starts in its reserved slot with its index and arguments and completes when nothing of it is
left, a killed one once its accesses are performed (01 R36 to R38); a pre-emption request reaches its core and its threads, and one with nothing left
to run halts, TPC naming its instruction, that of a trap handler being kept for its `eret` meanwhile (log 55); a partition that has given way is saved
once all its cores are at rest, with LM cleared and full after it (log 27), and restored. -/
def Obligations.TaskAndSaveEvents : Prop :=
  (∀ (s : State) (id : Nat) (y : Start) (p : Partition) (t : Task) (k : Fin 16),
    (s.starts.find? fun y => y.id == id) = some y → part? s y.entry.pid = some p → (Machine.core s y.loc).task = some t → t.started = false →
    y.entry.saved = none → startAllowed s p y = true → t.slots.head? = some k.val →
    ∃ u, exec (.taskStart id) s = .next u ∧ u.mem = s.mem ∧ u.starts = s.starts.filter (fun y => y.id != id) ∧
      (Machine.core u y.loc).task = some { t with started := true } ∧ (slotAt u y.loc k).st = .run ∧
      (let th := thread u y.loc k
       th.pc = BitVec.ofNat 64 y.entry.t.entry ∧ th.inTask = true ∧ th.priv = false ∧ th.roaming = false ∧ th.qos = y.entry.t.tclass ∧
         th.s[(1 : Fin 32)] = BitVec.ofNat 64 y.idx ∧ (∀ j : Fin 8, th.s[(Fin.ofNat 32 (2 + j.val) : Fin 32)] = y.entry.t.args[j]) ∧
         ∀ r : Fin 32, 10 ≤ r.val → th.s[r] = 0)) ∧
  (∀ (s : State) (l : Loc) (t : Task),
    (Machine.core s l).task = some t → t.started = true → (∀ k ∈ t.slots, (slotAt s l (Fin.ofNat 16 k)).st = .free) → taskCmds (Machine.core s l) t = false →
    taskArrivals s l = false → t.killed = none →
    ∃ u, exec (.taskComplete l) s = .next u ∧ u.mem = s.mem ∧ (Machine.core u l).task = none ∧
      u.reports = s.reports ++ [⟨s.nextId, dieOf l, t.pid, t.attn, t.gslot, t.gen, t.tmpl, t.idx, .complete⟩]) ∧
  (∀ (s : State) (l : Loc) (t : Task) (ths : List Word),
    (Machine.core s l).task = some t → t.killed = some ths → killedOpen s t ths = false → taskCmds (Machine.core s l) t = false →
    ∃ u, exec (.taskComplete l) s = .next u ∧ u.mem = s.mem ∧ (Machine.core u l).task = none ∧
      u.reports = s.reports ++ [⟨s.nextId, dieOf l, t.pid, t.attn, t.gslot, t.gen, t.tmpl, t.idx, .killed⟩]) ∧
  (∀ (s : State) (l : Loc) (pid : Nat) (q : PreReq),
    (s.preReqs.find? fun q => q.loc == l && q.pid == pid) = some q →
    ∃ u, exec (.preemptRequest l pid) s = .next u ∧ u.mem = s.mem ∧ u.preReqs = s.preReqs.erase q ∧
      (Machine.core u l).preempt = (Machine.core s l).preempt ++ [⟨pid, q.victim⟩] ∧
      ∀ k, let x := slotAt s l k
        (x.th.part ≠ pid ∨ x.st = .free → slotAt u l k = x) ∧
        (x.th.part = pid → x.st = .run → x.halting = none → x.th.ended = false → slotAt u l k = { x with halting := some 256 }) ∧
        (∀ c n, x.th.part = pid → x.st = .block c n → x.halting = none → x.th.ended = false →
          slotAt u l k = halted x)) ∧
  (∀ (s : State) (l : Loc) (k : Fin 16),
    let x := slotAt s l k
    x.st = .run → x.halting = some 0 → x.th.pendTrap = none → x.th.ended = false → (x.atCkpt = none ∨ x.th.outs = []) →
    ∃ u, exec (.threadHalt l k) s = .next u ∧ u.mem = s.mem ∧ slotAt u l k = halted x) ∧
  (∀ (s : State) (l : Loc) (pid : Nat) (p : Partition) (q : Preempt),
    part? s pid = some p → (Machine.core s l).preempt.find? (fun q => q.pid == pid) = some q → q.victim = false → p.st = .descheduled → isSliceCore l = false →
    saveReady s l pid = true → allAtRest s pid = true →
    ∃ u v y, exec (.coreSave l pid) s = .next u ∧ part? u pid = some y ∧ y.saves = p.saves ++ [v] ∧ v.loc = l ∧ v.victim = false ∧
      (∀ k, (slotAt s l k).th.part = pid → (slotAt u l k).st = .free) ∧ (Machine.core u l).task = none ∧
      (∀ a, inLm (lmBase l) a = true → feFull u a = true) ∧ ∀ x ∈ u.mem, inLm (lmBase l) x.1 = false) ∧
  (∀ (s : State) (l : Loc) (id : Nat) (p : Partition) (v : Save),
    (s.parts.findSome? fun p => (saveOf p id).map fun v => (p, v)) = some (p, v) → v.victim = false → v.loc = l → p.st = .running →
    (Machine.core s l).preempt = [] → (∀ q ∈ s.preReqs, q.loc ≠ l) → (Machine.core s l).task = none →
    (∀ q ∈ v.slots, (slotAt s l (Fin.ofNat 16 q.1)).st = .free) →
    exec (.coreRestore l id) s = .next (restoreCore s p l v v.core.task))

/-- 10 R243, R258; 11 R259; 15 R377, R379, R404; 08 R204, R214: a host request waits in its service core's queue of 256; the service core translates
it through the partition's map and then performs it granule by granule, refused whole where a piece faults or, but for blocks that it writes whole, is
poisoned; a byte that no unfenced write has changed is read as memory holds it. Pause, resume and reset of a partition; assignment, split, merge and
release, each refused where its rule fails (01 R44 to R46; 15 R378): a split goes on with child 2n (log 32), a reset ends what is under way at once
and zeroes at its completion (log 33). The numbers of the statuses that the host sees are the model's (log 31), and so is which of the device writes
that are not fenced a read sees, each of them whole or not at all (log 43). -/
def Obligations.HostEvents : Prop :=
  (∀ (s : State) (pid sc : Nat) (h : sc < 64) (va : Word) (n : Nat) (data : List Byte), (die s (sc / 4)).fenced = false →
    let q := s.svcCores[sc].queue
    let joins (r : HostReq) : State := { s with svcCores := s.svcCores.set sc ⟨q ++ [r]⟩ }
    (q.length < 256 →
      exec (.hostRead pid sc va n) s = .next (joins ⟨pid, .read, va.toNat, n, [], none, 0, s.hostOld⟩) ∧
      exec (.hostWrite pid sc va data) s = .next (joins ⟨pid, .write, va.toNat, data.length, data, none, 0, []⟩)) ∧
    (256 ≤ q.length → exec (.hostRead pid sc va n) s = .next s ∧ exec (.hostWrite pid sc va data) s = .next s)) ∧
  (∀ (s : State) (n : Fin 64) (r : HostReq) (rest : List HostReq) (p : Partition),
    s.svcCores[n].queue = r :: rest → part? s r.pid = some p → (r.kind = .read ∨ r.kind = .write) →
    let fails : HostMsg := if r.kind = .write then .writeDone r.pid false else .readData r.pid false []
    let left (l : List HostReq) : Vector SvcCore 64 := s.svcCores.set n ⟨l⟩
    let xl := hostPieces s p (r.kind == .write) (r.len / 65536 + 2) r.va r.len
    let bad (ps : List (Nat × Nat × Nat)) : Prop := ∃ q ∈ ps, lmAway p q.2.2 = true ∨ hostPoison s r q = true
    (r.xl = none → (xl = none ∨ ∃ ps, xl = some ps ∧ bad ps) →
      svcAct n s = { s with svcCores := left rest, host := s.host ++ [fails] }) ∧
    (∀ ps, r.xl = none → xl = some ps → ¬ bad ps → r.len ≠ 0 → svcAct n s = { s with svcCores := left ({ r with xl := some ps } :: rest) }) ∧
    (∀ ps key, r.xl = some ps → s.mem.wf = true → r.done < r.len → (r.kind = .write → r.data.length = r.len) →
      let va := r.va + r.done
      let k := min (16 - va % 16) (r.len - r.done)
      xlFind ps va = some key → lmAway p key = false → lmSaved p key = false → hostPoison s r (va, k, key) = false → (agentTurn s (svcAgent n r.pid) key).1 = true →
      let t := svcAct n s
      let isOver : Prop := r.len ≤ r.done + k
      (r.kind = .write →
        (∀ b, t.mem.read b = if key ≤ b ∧ b < key + k then r.data.getD (r.done + (b - key)) 0 else s.mem.read b) ∧
        (isOver → t.svcCores = left rest ∧ t.host = s.host ++ [.writeDone r.pid true]) ∧
        (¬ isOver → t.svcCores = left ({ r with done := r.done + k } :: rest) ∧ t.host = s.host)) ∧
      (r.kind = .read → t.mem = s.mem ∧ ∃ bs : List Byte, bs.length = k ∧
        (∃ saw : HostOld → Bool, (∀ e f, e.act = f.act → e.thid = f.thid → saw e = saw f) ∧ ∀ i < k,
          let es := r.view.filter fun e => e.part == r.pid && e.key == key + i
          (bs.getD i 0 = s.mem.read (key + i) ∧ ∀ e, es.getLast? = some e → saw e = true) ∨
            ∃ pre e suf, es = pre ++ e :: suf ∧ bs.getD i 0 = e.old ∧ (∀ f ∈ e :: suf, saw f = false) ∧ ∀ f, pre.getLast? = some f → saw f = true) ∧
        (isOver → t.svcCores = left rest ∧ t.host = s.host ++ [.readData r.pid true (r.data ++ bs)]) ∧
        (¬ isOver → t.svcCores = left ({ r with done := r.done + k, data := r.data ++ bs } :: rest) ∧ t.host = s.host)))) ∧
  (∀ (s : State) (pid : Nat) (p : Partition), part? s pid = some p →
    (p.st = .running →
      ∃ t q, exec (.hostPause pid) s = .next t ∧ part? t pid = some q ∧ q.st = .paused ∧ t.host = s.host ++ [.interrupt (partIdWord p) 61 p.stamp]) ∧
    (p.st = .paused → p.irq = [] → matesOf s p = [] →
      ∃ t q, exec (.hostResume pid) s = .next t ∧ t.mem = s.mem ∧ part? t pid = some q ∧ q.st = .running) ∧
    (∃ t q, exec (.hostReset pid) s = .next t ∧ (matesOf s p = [] → t.mem = s.mem) ∧ part? t pid = some q ∧ q.st = .resetting ∧
      (∀ l k, (thread s l k).part = pid → (slotAt t l k).st = .free) ∧ (∀ r ∈ t.reqs, r.part ≠ pid) ∧ ∀ m ∈ t.msgs, m.part ≠ pid) ∧
    (p.st = .resetting → matesOf s p = [] →
      ∃ t q, exec (.partitionResetComplete pid) s = .next t ∧ part? t pid = some q ∧ q.st = .running ∧ q.map = [] ∧ q.ltt = [] ∧ q.saves = [] ∧
        q.stamp = nextStamp p.stamp ∧ q.dllimit = 0x00100000 ∧ q.agemax = 0x00040000 ∧ ∀ d i, ownsCore p d i = true → d < 20 → i < coresOn d →
          ∀ x ∈ t.mem, inLm (lmBase (.core d i)) x.1 = false) ∧
    (partIdle s p = false → exec (.partitionRelease pid) s = .next { s with host := s.host ++ [.status pid 2] }) ∧
    (partIdle s p = true →
      ∃ t, exec (.partitionRelease pid) s = .next t ∧ part? t pid = none ∧ (∀ o ∈ t.owner, o.2 ≠ pid) ∧ t.host = s.host ++ [.status pid 0])) ∧
  (∀ (s : State) (r : AssignReq),
    (s.boot ≠ .ready ∨ r.cnode = 0 ∨ r.quota % 4096 ≠ 0 → exec (.partitionAssign r) s = .next { s with host := s.host ++ [.status 0 1] }) ∧
    (s.parts = [] → s.boot = .ready → 1 ≤ r.cnode → r.cnode < 2048 → r.anode < 128 → r.quota % 4096 = 0 → 16384 ≤ r.quota → r.quota ≤ 2 ^ 20 →
      r.counterArea % 16384 = 0 → r.grants = [] → r.sliceUnits = [] → s.owner = [] → s.retired = [] → s.firmware = [] →
      r.counterArea / 2 ^ 21 ∉ spoilUnits r → (∀ u ∈ (spoilUnits r ++ [r.counterArea / 2 ^ 21]).eraseDups, u < 2 ^ 20) →
      ∃ t p, exec (.partitionAssign r) s = .next t ∧ part? t s.nextId = some p ∧ p.st = .running ∧ p.share = 0 ∧ p.quota = r.quota ∧
        (nodeOf p false).map (fun n => n.node) = some r.cnode ∧ (r.anode = 0 → p.attention = none) ∧ p.dllimit = 0x00100000 ∧ p.agemax = 0x00040000 ∧
        p.stamp = nextStamp (stampOf s false r.cnode 0) ∧ t.host = s.host ++ [.status s.nextId 0])) ∧
  (∀ (s : State) (attn : Bool) (n : Nat) (p : Partition),
    s.parts = [p] → n ≠ 0 → (∀ d, (diePart s d p.pid).snap = none) →
    (nodeNum p attn = n → Nat.log2 n < treeDepth attn → partIdle s p = true →
      ∃ t q, exec (.partitionSplit attn n) s = .next t ∧ t.mem = s.mem ∧ t.parts = [q] ∧ nodeNum q attn = 2 * n ∧ q.stamp = nextStamp p.stamp ∧
        t.host = s.host ++ [.status 0 0] ∧
        (p.share < 4 → nodeNum p (!attn) < 2048 → ∀ k < 4, stampOf t attn (2 * n + 1) k = nextStamp (stampOf s attn n k))) ∧
    (nodeNum p attn = 2 * n → partIdle s p = true →
      ∃ t q, exec (.partitionMerge attn n) s = .next t ∧ t.mem = s.mem ∧ t.parts = [q] ∧ nodeNum q attn = n ∧ q.stamp = nextStamp p.stamp ∧
        t.host = s.host ++ [.status 0 0]) ∧
    (nodeNum p attn = n ∨ nodeNum p attn = 2 * n → partIdle s p = false →
      (nodeNum p attn = n → Nat.log2 n < treeDepth attn → exec (.partitionSplit attn n) s = .next { s with host := s.host ++ [.status 0 2] }) ∧
      (nodeNum p attn = 2 * n → exec (.partitionMerge attn n) s = .next { s with host := s.host ++ [.status 0 2] }))) ∧
  (∀ (s : State) (pid unit : Nat) (p : Partition), part? s pid = some p → ownedBy s unit pid = true → p.map = [] → s.reqs = [] → s.cores = [] → p.saves = [] →
    (∀ d, d < 20 → (die s d).walks = []) → (∀ d, (diePart s d pid).map = []) → (∀ n : Fin 64, s.svcCores[n].queue = []) →
    ∃ t, exec (.releaseRequest pid unit) s = .next t ∧ t.mem = s.mem ∧ (∀ o ∈ t.owner, o.1 ≠ unit) ∧ t.host = s.host ++ [.status pid 0])

/-- 15 R366, R380, R404; 12 R303: a service reads its request block and answers with its status: FORMAT (3) without a block or with a reserved field
set, REFUSED (1), NOSERVICE (2), DONE (0) with its effect; MAP and UNMAP change the map and then the copies, GRANT waits for the host. Which fields of
a block are reserved is read as log 34 says. -/
def Obligations.ServiceEvents : Prop :=
  ∀ (s : State) (id svc : Nat) (sc : Loc) (m : Msg) (b : Option Nat) (d : SReg) (p : Partition),
    headMsg? s id = some m → m.body = .pcall sc svc b d → part? s m.part = some p → (∀ v ∈ s.svcs, v.id ≠ id) →
    let left := s.msgs.filter fun y => y.id != id
    let reply (n : Nat) : MsgReply := ⟨id, m.src, m.slot, m.thid, m.part, [.s d (BitVec.ofNat 64 n) false], none, none⟩
    let answers (i : Instr) (n : Nat) : Prop := exec i s = .next { s with msgs := left, msgReplies := s.msgReplies ++ [reply n] }
    let waits (t : State) (n : Nat) (x : Option ExtEntry) : Prop :=
      t.msgs = left ∧ t.mem = s.mem ∧ ∃ v, t.svcs = s.svcs ++ [v] ∧ v.id = id ∧ v.svc = n ∧ v.block = b ∧ v.phase = 0 ∧ v.removed = x
    (svc = 0 ∨ 6 < svc → answers (.serviceUnknown id) 2) ∧
    (b = none →
      (svc = 1 → answers (.serviceMap id) 3) ∧ (svc = 2 → answers (.serviceUnmap id) 3) ∧ (svc = 3 → answers (.serviceGrant id) 3) ∧
      (svc = 5 → answers (.serviceCkpttab id) 3) ∧ (svc = 6 → answers (.serviceIntr id) 3)) ∧
    (∀ key w, b = some key → blockWords s m key = some w → (∀ j, 4 ≤ j → w.getD j 0 = 0) →
      let w0 := w.getD 0 0
      let w1 := w.getD 1 0
      let w2 := w.getD 2 0
      let w3 := w.getD 3 0
      let e : ExtEntry := ⟨w0 / 2 ^ 21, w1 % 32, 0, false, false, false⟩
      (svc = 1 → w0 < 2 ^ 56 → w0 % 2 ^ 21 = 0 → w1 < 2 ^ 11 → w1 / 32 % 8 = 0 → w1 % 32 ≤ 19 → w3 < 2 ^ 20 →
        ∀ g, (p.grants.find? fun g => g.handle.toNat == w2) = some g → w3 % 2 ^ (w1 % 32) = 0 → w3 + 2 ^ (w1 % 32) ≤ 2 ^ g.g.log2 →
        let x := { e with pbase := g.g.first + w3, x := w1 / 2 ^ 10 % 2 = 1, w := w1 / 2 ^ 9 % 2 = 1, rd := w1 / 2 ^ 8 % 2 = 1 }
        mapOk s p x = true →
          ∃ t q, exec (.serviceMap id) s = .next t ∧ waits t 1 none ∧ part? t p.pid = some q ∧ q.map = sortedInsert x p.map) ∧
      (svc = 2 → w0 < 2 ^ 56 → w1 = 0 → w2 = 0 → w3 = 0 → ∀ x, (p.map.find? fun y => y.vbase * 2 ^ 21 == w0) = some x →
          ∃ t q, exec (.serviceUnmap id) s = .next t ∧ waits t 2 (some x) ∧ part? t p.pid = some q ∧ q.map = p.map.filter fun y => y != x) ∧
      (svc = 3 → w0 < 32 → w1 = 0 → w3 = 0 →
          ∃ t, exec (.serviceGrant id) s = .next t ∧ waits t 3 none ∧ t.host = s.host ++ [.grantRequest id p.pid (partIdWord p) w0 p.stamp]) ∧
      (svc = 5 → w0 < 2 ^ 56 → w0 % 64 = 0 → w1 < 2 ^ 16 → w2 = 0 → w3 = 0 →
          ∃ t q, exec (.serviceCkpttab id) s = .next t ∧ t.msgs = left ∧ t.msgReplies = s.msgReplies ++ [reply 0] ∧ part? t p.pid = some q ∧
            q.ckptTable = w0 ∧ q.ckptCount = w1) ∧
      (svc = 6 → w0 ≤ 59 → w1 = 0 → w2 = 0 → w3 = 0 → p.st = .running →
          exec (.serviceIntr id) s =
            .next { s with msgs := left, msgReplies := s.msgReplies ++ [reply 0], host := s.host ++ [.interrupt (partIdWord p) w0 p.stamp] })) ∧
    (∀ key w h l i, svc = 4 → b = some key → blockWords s m key = some w → (∀ j, 1 ≤ j → w.getD j 0 = 0) → w.getD 0 0 < 2 ^ 56 → w.getD 0 0 % 64 = 0 →
      (∀ y n, node? s m.part (isAttn (dieOf m.src)) = some (y, n) → n.swap = none) →
      imageBytes s p m (w.getD 0 0) 16 = some h → imageBytes s p m (w.getD 0 0) (18 + 2 * (ofBytes (h.take 1))) = some l → parseImage l = some i →
      ∃ t, exec (.serviceKload id) s = .next t ∧ t.mem = s.mem ∧ t.msgs = left ∧ t.msgReplies = s.msgReplies ++ [reply 0] ∧
        t.meas = (measExtend s 2 l).meas ∧
        ∀ x ∈ nodeDies p (isAttn (dieOf m.src)), x < 20 → (∃ q ∈ (die s x).parts, q.pid = p.pid) → (diePart t x p.pid).shadow = some i) ∧
    -- the host's answer to a GRANT
    (∀ (t : State) (v : SvcReq) (stamp : BitVec 16) (y : Partition) (g : Grant),
      (t.svcs.find? fun v => v.id == id && v.svc == 3) = some v → part? t v.part = some y →
      let done (u : State) (n : Nat) : Prop := u.svcs = t.svcs.filter (fun y => y.id != id) ∧
        ∃ w, u.msgReplies = t.msgReplies ++ [w] ∧ w.id = id ∧ w.ws = [.s v.d (BitVec.ofNat 64 n) false] ∧ w.trap = none
      (stamp = y.stamp → ∃ u, exec (.hostGrantResponse id stamp .refused) t = .next u ∧ u.mem = t.mem ∧ done u 1) ∧
      (stamp = y.stamp → ∃ u, exec (.hostGrantResponse id stamp .busy) t = .next u ∧ u.mem = t.mem ∧ done u 4) ∧
      (stamp = y.stamp → grantOk g = true → (∀ u ∈ grantUnits g, unitFree t u = true) →
        ∃ u q, exec (.hostGrantResponse id stamp (.granted g)) t = .next u ∧ done u 0 ∧ part? u y.pid = some q ∧
          q.grants = y.grants ++ [⟨BitVec.ofNat 64 t.handles, g⟩] ∧ u.handles = t.handles + 1) ∧
      (∀ a, stamp ≠ y.stamp → exec (.hostGrantResponse id stamp a) t = .next (count t (masterDie t y false) y.pid 22 1)))

/-- 00 R13; 15 R372; 16 R382 to R388, R393: the scrubbers; a counter snapshot, written dword by dword between an odd and an even SEQ from the counters
as they stood at its beginning (log 28); the background scrubber, which poisons what it cannot correct (08 R212, log 12); and the links, which carry
no flit before they are trained: a flit is sent, kept for replay until the next one goes, and a class-3 flit beyond its partition's share travels as
class 2; a request's flits have its thread's class, or class 3 while its core is being pre-empted, and travel between dies of a kind over seams and
between a compute and an attention die over UCIe. Which flits a link is offered is the schedule's (log 8). -/
def Obligations.LinkEvents : Prop :=
  (∀ (s : State) (l : Loc), realLoc l = true → 64 * (Machine.core s l).scrubAt ≤ s.cycle →
    let off := 16 * ((Machine.core s l).scrubAt % scrubSize l)
    (∃ t, exec (.scrubRead l .none) s = .next t ∧ t.mem = s.mem ∧ t.poison = s.poison ∧ (Machine.core t l).scrubAt = (Machine.core s l).scrubAt + 1) ∧
    (∃ t, exec (.scrubRead l .corrected) s = .next t ∧ t.mem = s.mem ∧ t.poison = s.poison ∧ (Machine.core t l).scrubAt = (Machine.core s l).scrubAt + 1) ∧
    (∃ t, exec (.scrubRead l .uncorrectable) s = .next t ∧ t.mem = s.mem ∧ poisoned t (lmAt l off) = true ∧ (Machine.core t l).scrubAt = (Machine.core s l).scrubAt + 1)) ∧
  (∀ (s : State) (d pid : Nat) (p : Partition),
    part? s pid = some p → d ∈ dieList p → d < 20 → (die s d).fenced = false → (∃ q ∈ (die s d).parts, q.pid = pid) →
    let q := diePart s d pid
    let dword (k v : Nat) : Mem := s.mem.writeN (hbmKey (p.counterArea + 512 * userDie p d + 8 * k)) (toBytes 8 v)
    let head (seq : Nat) : Nat := seq * 2 ^ 32 + p.stamp.toNat * 2 ^ 16 + userDie p d % 32
    let odd := (q.seq + 1) % 2 ^ 32
    (q.snap = none → q.snapDue = true →
      ∃ t, exec (.counterSnapshot d pid) s = .next t ∧ t.phase = .close ∧ t.mem = dword 0 (head odd) ∧
        diePart t d pid = { q with snapDue := false, seq := odd, snap := some (1, q.cnt, (odd + 1) % 2 ^ 32) }) ∧
    (∀ k cnt seq, q.snap = some (k, cnt, seq) → k < 64 →
      ∃ t, exec (.counterSnapshot d pid) s = .next t ∧ t.mem = dword k (if h : k < 24 then cnt[k] else 0) ∧
        diePart t d pid = { q with snap := some (k + 1, cnt, seq) }) ∧
    (∀ k cnt seq, q.snap = some (k, cnt, seq) → 64 ≤ k → seq < 2 ^ 32 →
      ∃ t, exec (.counterSnapshot d pid) s = .next t ∧ t.mem = dword 0 (head seq) ∧ diePart t d pid = { q with snap := none, seq := seq })) ∧
  (∀ (s : State) (d : Nat),
    exec (.hostCounterRead d) s = .next { s with host := s.host ++
      [.counters d ((die s d).phys.toList ++ (die s d).ports.toList.flatMap fun p => p.cntFlit.toList ++ [p.cntReplay, p.cntDemote])] }) ∧
  (∀ (s : State) (d l : Nat), d < 20 → l < 7 →
    (∃ t, exec (.class3WindowEnd d l) s = .next t ∧ t.mem = s.mem ∧ ((port s d l).window < s.cycle / 4096 →
      (port t d l).use3 = [] ∧ (port t d l).window = s.cycle / 4096)) ∧
    (∀ f, (port s d l).replay = some f →
      ∃ t, exec (.flitCrcReplay d l) s = .next t ∧ t.mem = s.mem ∧ (port t d l).replay = some f ∧
        (port t d l).cntReplay = min ((port s d l).cntReplay + 1) (2 ^ 48 - 1)) ∧
    (∀ (o : FlitOffer) (h : FlitHead), linkUp s d l = true → flitHead s d l o.src = some h → (port s d l).queued = [] → s.cycle / 4096 ≤ (port s d l).window →
      let p := port s d l
      let beyond : Prop := h.cls = 3 ∧ h.preempting = false ∧ shareOf d l ≤ assocGet p.use3 h.pid 0
      let c : Fin 4 := if h.cls = 3 ∧ h.preempting = false ∧ shareOf d l ≤ assocGet p.use3 h.pid 0 then 2 else h.cls
      ∃ t, exec (.flitSend d l [o]) s = .next t ∧ t.mem = s.mem ∧ (port t d l).queued = [] ∧ (port t d l).replay = some (flitOf h o) ∧
        (port t d l).arrived = p.arrived ++ p.replay.toList ∧
        (port t d l).cntFlit = p.cntFlit.set c (min (p.cntFlit[c] + 1) (2 ^ 48 - 1)) ∧
        (beyond → (port t d l).cntDemote = min (p.cntDemote + 1) (2 ^ 48 - 1)) ∧ (¬ beyond → (port t d l).cntDemote = p.cntDemote)) ∧
    (linkUp s d l = false → ∀ os, exec (.flitSend d l os) s = .next s)) ∧
  (∀ (s : State) (d l id : Nat) (r : Request), req? s id = some r → r.op ≠ .agent → (∀ k, r.st ≠ .xlate k ∧ r.st ≠ .walking k) →
    let back : Prop := ∃ w, r.st = .replied w
    let ends (a b : Nat) : Prop :=
      let carried : Prop := (linkKind d l = .seam ∧ a ≠ b) ∨ (linkKind d l = .ucie ∧ isAttn a ≠ isAttn b)
      (¬ carried → flitHead s d l (.request id) = none) ∧
      (carried → ∃ h, flitHead s d l (.request id) = some h ∧ h.pid = r.part ∧ h.dest = b ∧
        h.preempting = ((Machine.core s r.loc).preempt.any fun q => q.pid == r.part) ∧ h.cls = (if h.preempting then 3 else r.cls.toFin))
    (back → ends (dieOf (servedAt r.key)) (dieOf r.loc)) ∧ (¬ back → ends (dieOf r.loc) (dieOf (servedAt r.key)))) ∧
  (∀ (s : State) (q : Fin 16) (f : List Byte),
    (s.boot = .ready → 14 ≤ f.length → f.length ≤ 9216 → f[12]? = some 0x88 → f[13]? = some 0xB5 →
      exec (.ethernetFrameReceive q f) s = .next { s with frames := s.frames ++ [(q, f)] }) ∧
    (9216 < f.length ∨ s.boot ≠ .ready → exec (.ethernetFrameReceive q f) s = .next s))

/-- 16 R391 to R394; 08 R216, R217: module reset keeps the contents of flash and measures the boot ROM; firmware runs with a valid signature and no
older than the minimum, under the key whose digest is fused; measurements extend; the report is signed over its body; alarms and removals take effect.
The fused values, the ROM's contents and the randomizer of a signature are free (log 7). -/
def Obligations.ModuleEvents : Prop :=
  (∀ (s : State) (d : Nat) (i : Instr), i = .moduleReset ∨ i = .thermalReset d →
    ∃ t, exec i s = .next t ∧ t.mem = s.mem.filter (fun x => 4 * 2 ^ 60 ≤ x.1) ∧ t.boot = .awaiting ∧ t.parts = [] ∧ t.cores = [] ∧ t.reqs = [] ∧
      t.cycle = 0 ∧ t.meas = State.reset.meas.set 0 (shake256 (State.reset.meas[(0 : Fin 4)] ++ shake256 Config.romImage))) ∧
  (∀ (s : State) (image sig : List Byte) (v : Nat), s.boot = .awaiting →
    let fused : Prop := shake256 Config.vendorKey.toList = Config.vendorDigest.toList
    let signed : Prop := slhVerify Config.vendorKey.toList (image ++ toBytes 8 v) sig = true
    (fused → signed → v < 2 ^ 64 → Config.minVersion ≤ v →
      ∃ t, exec (.firmwareImageReceive image v sig) s = .next t ∧ t.mem = s.mem ∧ t.boot = .ready ∧ t.fwVersion = v ∧ t.host = s.host ++ [.ready] ∧
        t.drives = Config.drivesPresent ∧ t.meas = (measExtend (measExtend s 0 image) 1 Config.fwConfig).meas) ∧
    (¬ fused ∨ ¬ signed ∨ 2 ^ 64 ≤ v ∨ v < Config.minVersion ∨ sig.length ≠ 29792 → exec (.firmwareImageReceive image v sig) s = .next s)) ∧
  (∀ (s : State) (item : List Byte),
    exec (.hostMeasurement item) s =
      .next { s with meas := s.meas.set 3 (shake256 (s.meas[(3 : Fin 4)] ++ shake256 item)) }) ∧
  (∀ (s : State) (nonce : List Byte) (pid : Nat), ∃ b,
    exec (.attestationRequest nonce pid) s = .next { s with
      free := s.free + 1, host := s.host ++ [.report (b ++ slhSign Config.identitySecret.toList (Config.signRand s.free).toList b)] } ∧
    b.length = 64 + 4 * 64 + 8 ∧ (nonce.length = 64 → b.take 64 = nonce) ∧
    ∀ p n, part? s pid = some p → p.compute = some n → ofBytes ((b.drop 324).take 2) = p.stamp.toNat ∧ ofBytes ((b.drop 326).take 2) = n.kilnver.toNat) ∧
  (∀ (s : State) (d : Nat),
    exec (.temperatureAlarm d) s = .next { modDie s d (fun y => { y with alarmed := true }) with host := s.host ++ [.alarm d] }) ∧
  (∀ (s : State) (d : Nat) (k : Fin 8),
    exec (.hotRemoval d k) s = .next { s with drives := s.drives.filter fun t => ¬ (t.1 = d ∧ t.2.1 = k.val) })

/-- 04 R117, R118: the migrating image holds every field at its place, and unpacks to the context it was packed from. -/
def Obligations.MigrationImage : Prop :=
  ∀ th : Thread, th.pc.toNat < 2 ^ 56 → th.loops.length ≤ 4 → (∀ r, inImage r = false → th.s[r] = 0) →
    (∀ e ∈ th.loops, packable th.pc e = true ∧ (e.start - th.pc).toNat % 4 = 0 ∧ (e.fin - e.start).toNat % 4 = 0 ∧ (e.fin - e.start).toNat / 4 + 1 < 2 ^ 16) →
    let im := packImage th
    unpackImage im th = th ∧
    bitsAt im 63 0 = th.thid.toNat ∧ (∀ r, inImage r = true → bitsAt im (64 * r.val + 63) (64 * r.val) = th.s[r].toNat) ∧
    bitsAt im 1599 1536 = th.tvec.toNat ∧ bitsAt im 1663 1600 = th.qhvec.toNat ∧ bitsAt im 1727 1664 = th.tpra.toNat ∧
    bitsAt im 1791 1728 = th.ckptid.toNat * 2 ^ 16 + th.qos.toNat * 2 ^ 8 + th.fpmode.toNat ∧
    (∀ n : Fin 8, bitsAt im (2175 + 128 * n.val) (2048 + 128 * n.val) = th.l[n].toNat) ∧ bitsAt im 3135 3072 = th.pc.toNat ∧
    bitsAt im 3143 3136 = th.p.toNat ∧ (∀ n : Fin 4, bitsAt im (3145 + 2 * n.val) (3144 + 2 * n.val) = guardCode th.g[n]) ∧
    bitsAt im 3159 3152 = th.ldf.toNat ∧ bitsAt im 3167 3160 = th.lpnd.toNat ∧ bitsAt im 3175 3168 = 0 ∧ bitsAt im 3176 3176 = th.priv.toNat ∧
    bitsAt im 3177 3177 = th.roaming.toNat ∧ bitsAt im 3180 3178 = th.loops.length ∧ bitsAt im 3199 3181 = 0 ∧ bitsAt im 3231 3200 = th.sdf.toNat ∧
    bitsAt im 3263 3232 = th.spnd.toNat ∧
    ∀ k < 4, bitsAt im (3343 + 80 * k) (3264 + 80 * k) = match th.loops.reverse[k]? with
      | none => 0
      | some e => e.count.toNat * 2 ^ 48 + ((e.fin - e.start).toNat / 4 + 1) * 2 ^ 32 + ((e.start - th.pc).toNat / 4) % 2 ^ 32
end

