-- ==== Sys2Proof/Laws/Issue.lean ====
section
/-! SUPPORT. What the issue of an instruction can do, said once: every Gleral instruction issues by its form. -/

namespace Sys2Proof.Laws

open Sys2Proof.Machine

/-- Where a form is legal, its issue is an ordinary one. -/
theorem issueIf_legal {s : State} {x : Cur} (hc : s.cur = some x) (len : Nat) (h : Hdr) {legal : Thread → Bool}
    (hl : legal (thread s x.loc x.slot) = true) (body : Cur → Args → State → Eff) : issueIf s len h legal body = issue s len h {} body := by
  simp only [issueIf, issue, hc, hl, if_true]

/-- Every Gleral instruction but `qret` and `eret`, which are so only where they are legal, is an issue with the header, length and registers of its
form. -/
theorem exec_form {i : Instr} {f : Form} (h : formOf i = some f) (hq : ∀ h, i ≠ .qret h) (he : ∀ h, i ≠ .eret h) (s : State) :
    ∃ body, exec i s = issue s f.len f.h f.u body := by
  cases i
  case qret => exact absurd rfl (hq _)
  case eret => exact absurd rfl (he _)
  case rbSend => rw [← Option.some.inj h]; exact ⟨_, rfl⟩
  all_goals (cases h <;> exact ⟨_, rfl⟩)

/-- An issue that nothing stands against is the instruction's own rule. -/
theorem issue_clear {f : Form} {s : State} {x : Cur} (hc : s.cur = some x) (h : f.clear s x = true)
    (body : Cur → Args → State → Eff) :
    issue s f.len f.h f.u body
      = .next (finish s x f.len f.h.sw (body x (readArgs s x f.u).1 (readArgs s x f.u).2)) := by
  simp only [Form.clear, Bool.and_eq_true, Bool.or_eq_true, Bool.not_eq_true', beq_iff_eq] at h
  obtain ⟨⟨⟨⟨⟨⟨h1, h2⟩, h3⟩, h4⟩, h5⟩, h6⟩, h7⟩ := h
  have h2' : (f.u.tile && !(thread s x.loc x.slot).inTask) = false := by
    rcases h2 with h2 | h2 <;> simp [h2]
  have h5' : (if (thread s x.loc x.slot).qhvec != 0 && !(thread s x.loc x.slot).lact && !(thread s x.loc x.slot).priv then ctlHead s x.loc f.u.srcs
      else none) = none := by
    rcases h5 with ((h5 | h5) | h5) | h5
    · simp [h5]
    · simp [h5]
    · simp [h5]
    · split
      · simpa using h5
      · rfl
  simp only [issue, hc, issueAt, h1, h2', h3, h4, h5', h6, h7, Bool.not_true, Bool.false_eq_true, ↓reduceIte]

/-- The same from the terms that claims are stated in: with its form and its rule, a ready instruction ends as its rule says. -/
theorem exec_ready {i : Instr} {f : Form} {s : State} {x : Cur} {body : Cur → Args → State → Eff} (hr : Ready i s x)
    (hf : formOf i = some f) (he : exec i s = issue s f.len f.h f.u body) :
    exec i s = .next (finish s x f.len f.h.sw (body x (argsOf i s x).1 (argsOf i s x).2)) := by
  obtain ⟨hc, g, hg, hcl⟩ := hr
  rw [hf] at hg
  obtain rfl : f = g := by simpa using hg
  rw [he, issue_clear hc hcl]
  simp only [argsOf, hf]

/-- An effect that ends the instruction without a branch. -/
theorem exec_ends {i : Instr} {f : Form} {s t : State} {x : Cur} {body : Cur → Args → State → Eff} (hr : Ready i s x)
    (hf : formOf i = some f) (he : exec i s = issue s f.len f.h f.u body) (hb : body x (argsOf i s x).1 (argsOf i s x).2 = .go t) :
    exec i s = .next (ends i x t) := by
  rw [exec_ready hr hf he, hb]
  simp only [ends, hf, finish]

/-- An effect that ends it with a taken branch. -/
theorem exec_jumps {i : Instr} {f : Form} {s t : State} {x : Cur} {body : Cur → Args → State → Eff} {target : Word} (hr : Ready i s x)
    (hf : formOf i = some f) (he : exec i s = issue s f.len f.h f.u body)
    (hb : body x (argsOf i s x).1 (argsOf i s x).2 = .jump t target false) :
    exec i s = .next (jumps i x t target (thread t x.loc x.slot).loops) := by
  rw [exec_ready hr hf he, hb]
  simp only [jumps, hf, finish, Bool.false_eq_true, ↓reduceIte]

/-- An effect that parks the thread, which is not halting. -/
theorem exec_parks {i : Instr} {f : Form} {s t : State} {x : Cur} {body : Cur → Args → State → Eff} (hr : Ready i s x)
    (hf : formOf i = some f) (he : exec i s = issue s f.len f.h f.u body) (hh : (slotAt s x.loc x.slot).halting = none)
    (hb : body x (argsOf i s x).1 (argsOf i s x).2 = .park t) :
    exec i s = .next (parks i x t) := by
  rw [exec_ready hr hf he, hb]
  simp only [parks, hf, finish, hh, Option.isSome_none, Bool.false_eq_true, ↓reduceIte]

end Sys2Proof.Laws
end

