-- ==== Sys2Proof/Laws/State.lean ====
section
/-! SUPPORT. What the updates of the state leave alone, field by field; cores, slots and threads after an update; dies and partitions after an update. -/

namespace Sys2Proof.Laws

open Sys2Proof.Machine

/-! ## Updates of a core, a slot, a thread: every other field of the state -/

@[simp] theorem setCore_cycle (s : State) (l : Loc) (c : Core) : (setCore s l c).cycle = s.cycle := rfl
@[simp] theorem setCore_phase (s : State) (l : Loc) (c : Core) : (setCore s l c).phase = s.phase := rfl
@[simp] theorem setCore_mem (s : State) (l : Loc) (c : Core) : (setCore s l c).mem = s.mem := rfl
@[simp] theorem setCore_hostOld (s : State) (l : Loc) (c : Core) : (setCore s l c).hostOld = s.hostOld := rfl
@[simp] theorem setCore_feEmpty (s : State) (l : Loc) (c : Core) : (setCore s l c).feEmpty = s.feEmpty := rfl
@[simp] theorem setCore_poison (s : State) (l : Loc) (c : Core) : (setCore s l c).poison = s.poison := rfl
@[simp] theorem setCore_poisonings (s : State) (l : Loc) (c : Core) : (setCore s l c).poisonings = s.poisonings := rfl
@[simp] theorem setCore_owner (s : State) (l : Loc) (c : Core) : (setCore s l c).owner = s.owner := rfl
@[simp] theorem setCore_firmware (s : State) (l : Loc) (c : Core) : (setCore s l c).firmware = s.firmware := rfl
@[simp] theorem setCore_retired (s : State) (l : Loc) (c : Core) : (setCore s l c).retired = s.retired := rfl
@[simp] theorem setCore_dies (s : State) (l : Loc) (c : Core) : (setCore s l c).dies = s.dies := rfl
@[simp] theorem setCore_parts (s : State) (l : Loc) (c : Core) : (setCore s l c).parts = s.parts := rfl
@[simp] theorem setCore_reqs (s : State) (l : Loc) (c : Core) : (setCore s l c).reqs = s.reqs := rfl
@[simp] theorem setCore_msgs (s : State) (l : Loc) (c : Core) : (setCore s l c).msgs = s.msgs := rfl
@[simp] theorem setCore_msgReplies (s : State) (l : Loc) (c : Core) : (setCore s l c).msgReplies = s.msgReplies := rfl
@[simp] theorem setCore_probes (s : State) (l : Loc) (c : Core) : (setCore s l c).probes = s.probes := rfl
@[simp] theorem setCore_kswaps (s : State) (l : Loc) (c : Core) : (setCore s l c).kswaps = s.kswaps := rfl
@[simp] theorem setCore_ltts (s : State) (l : Loc) (c : Core) : (setCore s l c).ltts = s.ltts := rfl
@[simp] theorem setCore_svcs (s : State) (l : Loc) (c : Core) : (setCore s l c).svcs = s.svcs := rfl
@[simp] theorem setCore_svcCores (s : State) (l : Loc) (c : Core) : (setCore s l c).svcCores = s.svcCores := rfl
@[simp] theorem setCore_starts (s : State) (l : Loc) (c : Core) : (setCore s l c).starts = s.starts := rfl
@[simp] theorem setCore_reports (s : State) (l : Loc) (c : Core) : (setCore s l c).reports = s.reports := rfl
@[simp] theorem setCore_preReqs (s : State) (l : Loc) (c : Core) : (setCore s l c).preReqs = s.preReqs := rfl
@[simp] theorem setCore_flash (s : State) (l : Loc) (c : Core) : (setCore s l c).flash = s.flash := rfl
@[simp] theorem setCore_host (s : State) (l : Loc) (c : Core) : (setCore s l c).host = s.host := rfl
@[simp] theorem setCore_frames (s : State) (l : Loc) (c : Core) : (setCore s l c).frames = s.frames := rfl
@[simp] theorem setCore_drives (s : State) (l : Loc) (c : Core) : (setCore s l c).drives = s.drives := rfl
@[simp] theorem setCore_meas (s : State) (l : Loc) (c : Core) : (setCore s l c).meas = s.meas := rfl
@[simp] theorem setCore_stamps (s : State) (l : Loc) (c : Core) : (setCore s l c).stamps = s.stamps := rfl
@[simp] theorem setCore_boot (s : State) (l : Loc) (c : Core) : (setCore s l c).boot = s.boot := rfl
@[simp] theorem setCore_fwVersion (s : State) (l : Loc) (c : Core) : (setCore s l c).fwVersion = s.fwVersion := rfl
@[simp] theorem setCore_handles (s : State) (l : Loc) (c : Core) : (setCore s l c).handles = s.handles := rfl
@[simp] theorem setCore_nextId (s : State) (l : Loc) (c : Core) : (setCore s l c).nextId = s.nextId := rfl
@[simp] theorem setCore_stepNo (s : State) (l : Loc) (c : Core) : (setCore s l c).stepNo = s.stepNo := rfl
@[simp] theorem setCore_free (s : State) (l : Loc) (c : Core) : (setCore s l c).free = s.free := rfl
@[simp] theorem setCore_turn (s : State) (l : Loc) (c : Core) : (setCore s l c).turn = s.turn := rfl
@[simp] theorem setCore_cur (s : State) (l : Loc) (c : Core) : (setCore s l c).cur = s.cur := rfl
@[simp] theorem setCore_kcur (s : State) (l : Loc) (c : Core) : (setCore s l c).kcur = s.kcur := rfl

@[simp] theorem modCore_cycle (s : State) (l : Loc) (f : Core → Core) : (modCore s l f).cycle = s.cycle := rfl
@[simp] theorem modCore_phase (s : State) (l : Loc) (f : Core → Core) : (modCore s l f).phase = s.phase := rfl
@[simp] theorem modCore_mem (s : State) (l : Loc) (f : Core → Core) : (modCore s l f).mem = s.mem := rfl
@[simp] theorem modCore_hostOld (s : State) (l : Loc) (f : Core → Core) : (modCore s l f).hostOld = s.hostOld := rfl
@[simp] theorem modCore_feEmpty (s : State) (l : Loc) (f : Core → Core) : (modCore s l f).feEmpty = s.feEmpty := rfl
@[simp] theorem modCore_poison (s : State) (l : Loc) (f : Core → Core) : (modCore s l f).poison = s.poison := rfl
@[simp] theorem modCore_poisonings (s : State) (l : Loc) (f : Core → Core) : (modCore s l f).poisonings = s.poisonings := rfl
@[simp] theorem modCore_owner (s : State) (l : Loc) (f : Core → Core) : (modCore s l f).owner = s.owner := rfl
@[simp] theorem modCore_firmware (s : State) (l : Loc) (f : Core → Core) : (modCore s l f).firmware = s.firmware := rfl
@[simp] theorem modCore_retired (s : State) (l : Loc) (f : Core → Core) : (modCore s l f).retired = s.retired := rfl
@[simp] theorem modCore_dies (s : State) (l : Loc) (f : Core → Core) : (modCore s l f).dies = s.dies := rfl
@[simp] theorem modCore_parts (s : State) (l : Loc) (f : Core → Core) : (modCore s l f).parts = s.parts := rfl
@[simp] theorem modCore_reqs (s : State) (l : Loc) (f : Core → Core) : (modCore s l f).reqs = s.reqs := rfl
@[simp] theorem modCore_msgs (s : State) (l : Loc) (f : Core → Core) : (modCore s l f).msgs = s.msgs := rfl
@[simp] theorem modCore_msgReplies (s : State) (l : Loc) (f : Core → Core) : (modCore s l f).msgReplies = s.msgReplies := rfl
@[simp] theorem modCore_probes (s : State) (l : Loc) (f : Core → Core) : (modCore s l f).probes = s.probes := rfl
@[simp] theorem modCore_kswaps (s : State) (l : Loc) (f : Core → Core) : (modCore s l f).kswaps = s.kswaps := rfl
@[simp] theorem modCore_ltts (s : State) (l : Loc) (f : Core → Core) : (modCore s l f).ltts = s.ltts := rfl
@[simp] theorem modCore_svcs (s : State) (l : Loc) (f : Core → Core) : (modCore s l f).svcs = s.svcs := rfl
@[simp] theorem modCore_svcCores (s : State) (l : Loc) (f : Core → Core) : (modCore s l f).svcCores = s.svcCores := rfl
@[simp] theorem modCore_starts (s : State) (l : Loc) (f : Core → Core) : (modCore s l f).starts = s.starts := rfl
@[simp] theorem modCore_reports (s : State) (l : Loc) (f : Core → Core) : (modCore s l f).reports = s.reports := rfl
@[simp] theorem modCore_preReqs (s : State) (l : Loc) (f : Core → Core) : (modCore s l f).preReqs = s.preReqs := rfl
@[simp] theorem modCore_flash (s : State) (l : Loc) (f : Core → Core) : (modCore s l f).flash = s.flash := rfl
@[simp] theorem modCore_host (s : State) (l : Loc) (f : Core → Core) : (modCore s l f).host = s.host := rfl
@[simp] theorem modCore_frames (s : State) (l : Loc) (f : Core → Core) : (modCore s l f).frames = s.frames := rfl
@[simp] theorem modCore_drives (s : State) (l : Loc) (f : Core → Core) : (modCore s l f).drives = s.drives := rfl
@[simp] theorem modCore_meas (s : State) (l : Loc) (f : Core → Core) : (modCore s l f).meas = s.meas := rfl
@[simp] theorem modCore_stamps (s : State) (l : Loc) (f : Core → Core) : (modCore s l f).stamps = s.stamps := rfl
@[simp] theorem modCore_boot (s : State) (l : Loc) (f : Core → Core) : (modCore s l f).boot = s.boot := rfl
@[simp] theorem modCore_fwVersion (s : State) (l : Loc) (f : Core → Core) : (modCore s l f).fwVersion = s.fwVersion := rfl
@[simp] theorem modCore_handles (s : State) (l : Loc) (f : Core → Core) : (modCore s l f).handles = s.handles := rfl
@[simp] theorem modCore_nextId (s : State) (l : Loc) (f : Core → Core) : (modCore s l f).nextId = s.nextId := rfl
@[simp] theorem modCore_stepNo (s : State) (l : Loc) (f : Core → Core) : (modCore s l f).stepNo = s.stepNo := rfl
@[simp] theorem modCore_free (s : State) (l : Loc) (f : Core → Core) : (modCore s l f).free = s.free := rfl
@[simp] theorem modCore_turn (s : State) (l : Loc) (f : Core → Core) : (modCore s l f).turn = s.turn := rfl
@[simp] theorem modCore_cur (s : State) (l : Loc) (f : Core → Core) : (modCore s l f).cur = s.cur := rfl
@[simp] theorem modCore_kcur (s : State) (l : Loc) (f : Core → Core) : (modCore s l f).kcur = s.kcur := rfl

@[simp] theorem setSlot_cycle (s : State) (l : Loc) (k : Fin 16) (x : Slot) : (setSlot s l k x).cycle = s.cycle := rfl
@[simp] theorem setSlot_phase (s : State) (l : Loc) (k : Fin 16) (x : Slot) : (setSlot s l k x).phase = s.phase := rfl
@[simp] theorem setSlot_mem (s : State) (l : Loc) (k : Fin 16) (x : Slot) : (setSlot s l k x).mem = s.mem := rfl
@[simp] theorem setSlot_hostOld (s : State) (l : Loc) (k : Fin 16) (x : Slot) : (setSlot s l k x).hostOld = s.hostOld := rfl
@[simp] theorem setSlot_feEmpty (s : State) (l : Loc) (k : Fin 16) (x : Slot) : (setSlot s l k x).feEmpty = s.feEmpty := rfl
@[simp] theorem setSlot_poison (s : State) (l : Loc) (k : Fin 16) (x : Slot) : (setSlot s l k x).poison = s.poison := rfl
@[simp] theorem setSlot_poisonings (s : State) (l : Loc) (k : Fin 16) (x : Slot) : (setSlot s l k x).poisonings = s.poisonings := rfl
@[simp] theorem setSlot_owner (s : State) (l : Loc) (k : Fin 16) (x : Slot) : (setSlot s l k x).owner = s.owner := rfl
@[simp] theorem setSlot_firmware (s : State) (l : Loc) (k : Fin 16) (x : Slot) : (setSlot s l k x).firmware = s.firmware := rfl
@[simp] theorem setSlot_retired (s : State) (l : Loc) (k : Fin 16) (x : Slot) : (setSlot s l k x).retired = s.retired := rfl
@[simp] theorem setSlot_dies (s : State) (l : Loc) (k : Fin 16) (x : Slot) : (setSlot s l k x).dies = s.dies := rfl
@[simp] theorem setSlot_parts (s : State) (l : Loc) (k : Fin 16) (x : Slot) : (setSlot s l k x).parts = s.parts := rfl
@[simp] theorem setSlot_reqs (s : State) (l : Loc) (k : Fin 16) (x : Slot) : (setSlot s l k x).reqs = s.reqs := rfl
@[simp] theorem setSlot_msgs (s : State) (l : Loc) (k : Fin 16) (x : Slot) : (setSlot s l k x).msgs = s.msgs := rfl
@[simp] theorem setSlot_msgReplies (s : State) (l : Loc) (k : Fin 16) (x : Slot) : (setSlot s l k x).msgReplies = s.msgReplies := rfl
@[simp] theorem setSlot_probes (s : State) (l : Loc) (k : Fin 16) (x : Slot) : (setSlot s l k x).probes = s.probes := rfl
@[simp] theorem setSlot_kswaps (s : State) (l : Loc) (k : Fin 16) (x : Slot) : (setSlot s l k x).kswaps = s.kswaps := rfl
@[simp] theorem setSlot_ltts (s : State) (l : Loc) (k : Fin 16) (x : Slot) : (setSlot s l k x).ltts = s.ltts := rfl
@[simp] theorem setSlot_svcs (s : State) (l : Loc) (k : Fin 16) (x : Slot) : (setSlot s l k x).svcs = s.svcs := rfl
@[simp] theorem setSlot_svcCores (s : State) (l : Loc) (k : Fin 16) (x : Slot) : (setSlot s l k x).svcCores = s.svcCores := rfl
@[simp] theorem setSlot_starts (s : State) (l : Loc) (k : Fin 16) (x : Slot) : (setSlot s l k x).starts = s.starts := rfl
@[simp] theorem setSlot_reports (s : State) (l : Loc) (k : Fin 16) (x : Slot) : (setSlot s l k x).reports = s.reports := rfl
@[simp] theorem setSlot_preReqs (s : State) (l : Loc) (k : Fin 16) (x : Slot) : (setSlot s l k x).preReqs = s.preReqs := rfl
@[simp] theorem setSlot_flash (s : State) (l : Loc) (k : Fin 16) (x : Slot) : (setSlot s l k x).flash = s.flash := rfl
@[simp] theorem setSlot_host (s : State) (l : Loc) (k : Fin 16) (x : Slot) : (setSlot s l k x).host = s.host := rfl
@[simp] theorem setSlot_frames (s : State) (l : Loc) (k : Fin 16) (x : Slot) : (setSlot s l k x).frames = s.frames := rfl
@[simp] theorem setSlot_drives (s : State) (l : Loc) (k : Fin 16) (x : Slot) : (setSlot s l k x).drives = s.drives := rfl
@[simp] theorem setSlot_meas (s : State) (l : Loc) (k : Fin 16) (x : Slot) : (setSlot s l k x).meas = s.meas := rfl
@[simp] theorem setSlot_stamps (s : State) (l : Loc) (k : Fin 16) (x : Slot) : (setSlot s l k x).stamps = s.stamps := rfl
@[simp] theorem setSlot_boot (s : State) (l : Loc) (k : Fin 16) (x : Slot) : (setSlot s l k x).boot = s.boot := rfl
@[simp] theorem setSlot_fwVersion (s : State) (l : Loc) (k : Fin 16) (x : Slot) : (setSlot s l k x).fwVersion = s.fwVersion := rfl
@[simp] theorem setSlot_handles (s : State) (l : Loc) (k : Fin 16) (x : Slot) : (setSlot s l k x).handles = s.handles := rfl
@[simp] theorem setSlot_nextId (s : State) (l : Loc) (k : Fin 16) (x : Slot) : (setSlot s l k x).nextId = s.nextId := rfl
@[simp] theorem setSlot_stepNo (s : State) (l : Loc) (k : Fin 16) (x : Slot) : (setSlot s l k x).stepNo = s.stepNo := rfl
@[simp] theorem setSlot_free (s : State) (l : Loc) (k : Fin 16) (x : Slot) : (setSlot s l k x).free = s.free := rfl
@[simp] theorem setSlot_turn (s : State) (l : Loc) (k : Fin 16) (x : Slot) : (setSlot s l k x).turn = s.turn := rfl
@[simp] theorem setSlot_cur (s : State) (l : Loc) (k : Fin 16) (x : Slot) : (setSlot s l k x).cur = s.cur := rfl
@[simp] theorem setSlot_kcur (s : State) (l : Loc) (k : Fin 16) (x : Slot) : (setSlot s l k x).kcur = s.kcur := rfl

@[simp] theorem modSlot_cycle (s : State) (l : Loc) (k : Fin 16) (f : Slot → Slot) : (modSlot s l k f).cycle = s.cycle := rfl
@[simp] theorem modSlot_phase (s : State) (l : Loc) (k : Fin 16) (f : Slot → Slot) : (modSlot s l k f).phase = s.phase := rfl
@[simp] theorem modSlot_mem (s : State) (l : Loc) (k : Fin 16) (f : Slot → Slot) : (modSlot s l k f).mem = s.mem := rfl
@[simp] theorem modSlot_hostOld (s : State) (l : Loc) (k : Fin 16) (f : Slot → Slot) : (modSlot s l k f).hostOld = s.hostOld := rfl
@[simp] theorem modSlot_feEmpty (s : State) (l : Loc) (k : Fin 16) (f : Slot → Slot) : (modSlot s l k f).feEmpty = s.feEmpty := rfl
@[simp] theorem modSlot_poison (s : State) (l : Loc) (k : Fin 16) (f : Slot → Slot) : (modSlot s l k f).poison = s.poison := rfl
@[simp] theorem modSlot_poisonings (s : State) (l : Loc) (k : Fin 16) (f : Slot → Slot) : (modSlot s l k f).poisonings = s.poisonings := rfl
@[simp] theorem modSlot_owner (s : State) (l : Loc) (k : Fin 16) (f : Slot → Slot) : (modSlot s l k f).owner = s.owner := rfl
@[simp] theorem modSlot_firmware (s : State) (l : Loc) (k : Fin 16) (f : Slot → Slot) : (modSlot s l k f).firmware = s.firmware := rfl
@[simp] theorem modSlot_retired (s : State) (l : Loc) (k : Fin 16) (f : Slot → Slot) : (modSlot s l k f).retired = s.retired := rfl
@[simp] theorem modSlot_dies (s : State) (l : Loc) (k : Fin 16) (f : Slot → Slot) : (modSlot s l k f).dies = s.dies := rfl
@[simp] theorem modSlot_parts (s : State) (l : Loc) (k : Fin 16) (f : Slot → Slot) : (modSlot s l k f).parts = s.parts := rfl
@[simp] theorem modSlot_reqs (s : State) (l : Loc) (k : Fin 16) (f : Slot → Slot) : (modSlot s l k f).reqs = s.reqs := rfl
@[simp] theorem modSlot_msgs (s : State) (l : Loc) (k : Fin 16) (f : Slot → Slot) : (modSlot s l k f).msgs = s.msgs := rfl
@[simp] theorem modSlot_msgReplies (s : State) (l : Loc) (k : Fin 16) (f : Slot → Slot) : (modSlot s l k f).msgReplies = s.msgReplies := rfl
@[simp] theorem modSlot_probes (s : State) (l : Loc) (k : Fin 16) (f : Slot → Slot) : (modSlot s l k f).probes = s.probes := rfl
@[simp] theorem modSlot_kswaps (s : State) (l : Loc) (k : Fin 16) (f : Slot → Slot) : (modSlot s l k f).kswaps = s.kswaps := rfl
@[simp] theorem modSlot_ltts (s : State) (l : Loc) (k : Fin 16) (f : Slot → Slot) : (modSlot s l k f).ltts = s.ltts := rfl
@[simp] theorem modSlot_svcs (s : State) (l : Loc) (k : Fin 16) (f : Slot → Slot) : (modSlot s l k f).svcs = s.svcs := rfl
@[simp] theorem modSlot_svcCores (s : State) (l : Loc) (k : Fin 16) (f : Slot → Slot) : (modSlot s l k f).svcCores = s.svcCores := rfl
@[simp] theorem modSlot_starts (s : State) (l : Loc) (k : Fin 16) (f : Slot → Slot) : (modSlot s l k f).starts = s.starts := rfl
@[simp] theorem modSlot_reports (s : State) (l : Loc) (k : Fin 16) (f : Slot → Slot) : (modSlot s l k f).reports = s.reports := rfl
@[simp] theorem modSlot_preReqs (s : State) (l : Loc) (k : Fin 16) (f : Slot → Slot) : (modSlot s l k f).preReqs = s.preReqs := rfl
@[simp] theorem modSlot_flash (s : State) (l : Loc) (k : Fin 16) (f : Slot → Slot) : (modSlot s l k f).flash = s.flash := rfl
@[simp] theorem modSlot_host (s : State) (l : Loc) (k : Fin 16) (f : Slot → Slot) : (modSlot s l k f).host = s.host := rfl
@[simp] theorem modSlot_frames (s : State) (l : Loc) (k : Fin 16) (f : Slot → Slot) : (modSlot s l k f).frames = s.frames := rfl
@[simp] theorem modSlot_drives (s : State) (l : Loc) (k : Fin 16) (f : Slot → Slot) : (modSlot s l k f).drives = s.drives := rfl
@[simp] theorem modSlot_meas (s : State) (l : Loc) (k : Fin 16) (f : Slot → Slot) : (modSlot s l k f).meas = s.meas := rfl
@[simp] theorem modSlot_stamps (s : State) (l : Loc) (k : Fin 16) (f : Slot → Slot) : (modSlot s l k f).stamps = s.stamps := rfl
@[simp] theorem modSlot_boot (s : State) (l : Loc) (k : Fin 16) (f : Slot → Slot) : (modSlot s l k f).boot = s.boot := rfl
@[simp] theorem modSlot_fwVersion (s : State) (l : Loc) (k : Fin 16) (f : Slot → Slot) : (modSlot s l k f).fwVersion = s.fwVersion := rfl
@[simp] theorem modSlot_handles (s : State) (l : Loc) (k : Fin 16) (f : Slot → Slot) : (modSlot s l k f).handles = s.handles := rfl
@[simp] theorem modSlot_nextId (s : State) (l : Loc) (k : Fin 16) (f : Slot → Slot) : (modSlot s l k f).nextId = s.nextId := rfl
@[simp] theorem modSlot_stepNo (s : State) (l : Loc) (k : Fin 16) (f : Slot → Slot) : (modSlot s l k f).stepNo = s.stepNo := rfl
@[simp] theorem modSlot_free (s : State) (l : Loc) (k : Fin 16) (f : Slot → Slot) : (modSlot s l k f).free = s.free := rfl
@[simp] theorem modSlot_turn (s : State) (l : Loc) (k : Fin 16) (f : Slot → Slot) : (modSlot s l k f).turn = s.turn := rfl
@[simp] theorem modSlot_cur (s : State) (l : Loc) (k : Fin 16) (f : Slot → Slot) : (modSlot s l k f).cur = s.cur := rfl
@[simp] theorem modSlot_kcur (s : State) (l : Loc) (k : Fin 16) (f : Slot → Slot) : (modSlot s l k f).kcur = s.kcur := rfl

@[simp] theorem modTh_cycle (s : State) (l : Loc) (k : Fin 16) (f : Thread → Thread) : (modTh s l k f).cycle = s.cycle := rfl
@[simp] theorem modTh_phase (s : State) (l : Loc) (k : Fin 16) (f : Thread → Thread) : (modTh s l k f).phase = s.phase := rfl
@[simp] theorem modTh_mem (s : State) (l : Loc) (k : Fin 16) (f : Thread → Thread) : (modTh s l k f).mem = s.mem := rfl
@[simp] theorem modTh_hostOld (s : State) (l : Loc) (k : Fin 16) (f : Thread → Thread) : (modTh s l k f).hostOld = s.hostOld := rfl
@[simp] theorem modTh_feEmpty (s : State) (l : Loc) (k : Fin 16) (f : Thread → Thread) : (modTh s l k f).feEmpty = s.feEmpty := rfl
@[simp] theorem modTh_poison (s : State) (l : Loc) (k : Fin 16) (f : Thread → Thread) : (modTh s l k f).poison = s.poison := rfl
@[simp] theorem modTh_poisonings (s : State) (l : Loc) (k : Fin 16) (f : Thread → Thread) : (modTh s l k f).poisonings = s.poisonings := rfl
@[simp] theorem modTh_owner (s : State) (l : Loc) (k : Fin 16) (f : Thread → Thread) : (modTh s l k f).owner = s.owner := rfl
@[simp] theorem modTh_firmware (s : State) (l : Loc) (k : Fin 16) (f : Thread → Thread) : (modTh s l k f).firmware = s.firmware := rfl
@[simp] theorem modTh_retired (s : State) (l : Loc) (k : Fin 16) (f : Thread → Thread) : (modTh s l k f).retired = s.retired := rfl
@[simp] theorem modTh_dies (s : State) (l : Loc) (k : Fin 16) (f : Thread → Thread) : (modTh s l k f).dies = s.dies := rfl
@[simp] theorem modTh_parts (s : State) (l : Loc) (k : Fin 16) (f : Thread → Thread) : (modTh s l k f).parts = s.parts := rfl
@[simp] theorem modTh_reqs (s : State) (l : Loc) (k : Fin 16) (f : Thread → Thread) : (modTh s l k f).reqs = s.reqs := rfl
@[simp] theorem modTh_msgs (s : State) (l : Loc) (k : Fin 16) (f : Thread → Thread) : (modTh s l k f).msgs = s.msgs := rfl
@[simp] theorem modTh_msgReplies (s : State) (l : Loc) (k : Fin 16) (f : Thread → Thread) : (modTh s l k f).msgReplies = s.msgReplies := rfl
@[simp] theorem modTh_probes (s : State) (l : Loc) (k : Fin 16) (f : Thread → Thread) : (modTh s l k f).probes = s.probes := rfl
@[simp] theorem modTh_kswaps (s : State) (l : Loc) (k : Fin 16) (f : Thread → Thread) : (modTh s l k f).kswaps = s.kswaps := rfl
@[simp] theorem modTh_ltts (s : State) (l : Loc) (k : Fin 16) (f : Thread → Thread) : (modTh s l k f).ltts = s.ltts := rfl
@[simp] theorem modTh_svcs (s : State) (l : Loc) (k : Fin 16) (f : Thread → Thread) : (modTh s l k f).svcs = s.svcs := rfl
@[simp] theorem modTh_svcCores (s : State) (l : Loc) (k : Fin 16) (f : Thread → Thread) : (modTh s l k f).svcCores = s.svcCores := rfl
@[simp] theorem modTh_starts (s : State) (l : Loc) (k : Fin 16) (f : Thread → Thread) : (modTh s l k f).starts = s.starts := rfl
@[simp] theorem modTh_reports (s : State) (l : Loc) (k : Fin 16) (f : Thread → Thread) : (modTh s l k f).reports = s.reports := rfl
@[simp] theorem modTh_preReqs (s : State) (l : Loc) (k : Fin 16) (f : Thread → Thread) : (modTh s l k f).preReqs = s.preReqs := rfl
@[simp] theorem modTh_flash (s : State) (l : Loc) (k : Fin 16) (f : Thread → Thread) : (modTh s l k f).flash = s.flash := rfl
@[simp] theorem modTh_host (s : State) (l : Loc) (k : Fin 16) (f : Thread → Thread) : (modTh s l k f).host = s.host := rfl
@[simp] theorem modTh_frames (s : State) (l : Loc) (k : Fin 16) (f : Thread → Thread) : (modTh s l k f).frames = s.frames := rfl
@[simp] theorem modTh_drives (s : State) (l : Loc) (k : Fin 16) (f : Thread → Thread) : (modTh s l k f).drives = s.drives := rfl
@[simp] theorem modTh_meas (s : State) (l : Loc) (k : Fin 16) (f : Thread → Thread) : (modTh s l k f).meas = s.meas := rfl
@[simp] theorem modTh_stamps (s : State) (l : Loc) (k : Fin 16) (f : Thread → Thread) : (modTh s l k f).stamps = s.stamps := rfl
@[simp] theorem modTh_boot (s : State) (l : Loc) (k : Fin 16) (f : Thread → Thread) : (modTh s l k f).boot = s.boot := rfl
@[simp] theorem modTh_fwVersion (s : State) (l : Loc) (k : Fin 16) (f : Thread → Thread) : (modTh s l k f).fwVersion = s.fwVersion := rfl
@[simp] theorem modTh_handles (s : State) (l : Loc) (k : Fin 16) (f : Thread → Thread) : (modTh s l k f).handles = s.handles := rfl
@[simp] theorem modTh_nextId (s : State) (l : Loc) (k : Fin 16) (f : Thread → Thread) : (modTh s l k f).nextId = s.nextId := rfl
@[simp] theorem modTh_stepNo (s : State) (l : Loc) (k : Fin 16) (f : Thread → Thread) : (modTh s l k f).stepNo = s.stepNo := rfl
@[simp] theorem modTh_free (s : State) (l : Loc) (k : Fin 16) (f : Thread → Thread) : (modTh s l k f).free = s.free := rfl
@[simp] theorem modTh_turn (s : State) (l : Loc) (k : Fin 16) (f : Thread → Thread) : (modTh s l k f).turn = s.turn := rfl
@[simp] theorem modTh_cur (s : State) (l : Loc) (k : Fin 16) (f : Thread → Thread) : (modTh s l k f).cur = s.cur := rfl
@[simp] theorem modTh_kcur (s : State) (l : Loc) (k : Fin 16) (f : Thread → Thread) : (modTh s l k f).kcur = s.kcur := rfl

@[simp] theorem setSt_cycle (s : State) (l : Loc) (k : Fin 16) (st : SlotState) : (setSt s l k st).cycle = s.cycle := rfl
@[simp] theorem setSt_phase (s : State) (l : Loc) (k : Fin 16) (st : SlotState) : (setSt s l k st).phase = s.phase := rfl
@[simp] theorem setSt_mem (s : State) (l : Loc) (k : Fin 16) (st : SlotState) : (setSt s l k st).mem = s.mem := rfl
@[simp] theorem setSt_hostOld (s : State) (l : Loc) (k : Fin 16) (st : SlotState) : (setSt s l k st).hostOld = s.hostOld := rfl
@[simp] theorem setSt_feEmpty (s : State) (l : Loc) (k : Fin 16) (st : SlotState) : (setSt s l k st).feEmpty = s.feEmpty := rfl
@[simp] theorem setSt_poison (s : State) (l : Loc) (k : Fin 16) (st : SlotState) : (setSt s l k st).poison = s.poison := rfl
@[simp] theorem setSt_poisonings (s : State) (l : Loc) (k : Fin 16) (st : SlotState) : (setSt s l k st).poisonings = s.poisonings := rfl
@[simp] theorem setSt_owner (s : State) (l : Loc) (k : Fin 16) (st : SlotState) : (setSt s l k st).owner = s.owner := rfl
@[simp] theorem setSt_firmware (s : State) (l : Loc) (k : Fin 16) (st : SlotState) : (setSt s l k st).firmware = s.firmware := rfl
@[simp] theorem setSt_retired (s : State) (l : Loc) (k : Fin 16) (st : SlotState) : (setSt s l k st).retired = s.retired := rfl
@[simp] theorem setSt_dies (s : State) (l : Loc) (k : Fin 16) (st : SlotState) : (setSt s l k st).dies = s.dies := rfl
@[simp] theorem setSt_parts (s : State) (l : Loc) (k : Fin 16) (st : SlotState) : (setSt s l k st).parts = s.parts := rfl
@[simp] theorem setSt_reqs (s : State) (l : Loc) (k : Fin 16) (st : SlotState) : (setSt s l k st).reqs = s.reqs := rfl
@[simp] theorem setSt_msgs (s : State) (l : Loc) (k : Fin 16) (st : SlotState) : (setSt s l k st).msgs = s.msgs := rfl
@[simp] theorem setSt_msgReplies (s : State) (l : Loc) (k : Fin 16) (st : SlotState) : (setSt s l k st).msgReplies = s.msgReplies := rfl
@[simp] theorem setSt_probes (s : State) (l : Loc) (k : Fin 16) (st : SlotState) : (setSt s l k st).probes = s.probes := rfl
@[simp] theorem setSt_kswaps (s : State) (l : Loc) (k : Fin 16) (st : SlotState) : (setSt s l k st).kswaps = s.kswaps := rfl
@[simp] theorem setSt_ltts (s : State) (l : Loc) (k : Fin 16) (st : SlotState) : (setSt s l k st).ltts = s.ltts := rfl
@[simp] theorem setSt_svcs (s : State) (l : Loc) (k : Fin 16) (st : SlotState) : (setSt s l k st).svcs = s.svcs := rfl
@[simp] theorem setSt_svcCores (s : State) (l : Loc) (k : Fin 16) (st : SlotState) : (setSt s l k st).svcCores = s.svcCores := rfl
@[simp] theorem setSt_starts (s : State) (l : Loc) (k : Fin 16) (st : SlotState) : (setSt s l k st).starts = s.starts := rfl
@[simp] theorem setSt_reports (s : State) (l : Loc) (k : Fin 16) (st : SlotState) : (setSt s l k st).reports = s.reports := rfl
@[simp] theorem setSt_preReqs (s : State) (l : Loc) (k : Fin 16) (st : SlotState) : (setSt s l k st).preReqs = s.preReqs := rfl
@[simp] theorem setSt_flash (s : State) (l : Loc) (k : Fin 16) (st : SlotState) : (setSt s l k st).flash = s.flash := rfl
@[simp] theorem setSt_host (s : State) (l : Loc) (k : Fin 16) (st : SlotState) : (setSt s l k st).host = s.host := rfl
@[simp] theorem setSt_frames (s : State) (l : Loc) (k : Fin 16) (st : SlotState) : (setSt s l k st).frames = s.frames := rfl
@[simp] theorem setSt_drives (s : State) (l : Loc) (k : Fin 16) (st : SlotState) : (setSt s l k st).drives = s.drives := rfl
@[simp] theorem setSt_meas (s : State) (l : Loc) (k : Fin 16) (st : SlotState) : (setSt s l k st).meas = s.meas := rfl
@[simp] theorem setSt_stamps (s : State) (l : Loc) (k : Fin 16) (st : SlotState) : (setSt s l k st).stamps = s.stamps := rfl
@[simp] theorem setSt_boot (s : State) (l : Loc) (k : Fin 16) (st : SlotState) : (setSt s l k st).boot = s.boot := rfl
@[simp] theorem setSt_fwVersion (s : State) (l : Loc) (k : Fin 16) (st : SlotState) : (setSt s l k st).fwVersion = s.fwVersion := rfl
@[simp] theorem setSt_handles (s : State) (l : Loc) (k : Fin 16) (st : SlotState) : (setSt s l k st).handles = s.handles := rfl
@[simp] theorem setSt_nextId (s : State) (l : Loc) (k : Fin 16) (st : SlotState) : (setSt s l k st).nextId = s.nextId := rfl
@[simp] theorem setSt_stepNo (s : State) (l : Loc) (k : Fin 16) (st : SlotState) : (setSt s l k st).stepNo = s.stepNo := rfl
@[simp] theorem setSt_free (s : State) (l : Loc) (k : Fin 16) (st : SlotState) : (setSt s l k st).free = s.free := rfl
@[simp] theorem setSt_turn (s : State) (l : Loc) (k : Fin 16) (st : SlotState) : (setSt s l k st).turn = s.turn := rfl
@[simp] theorem setSt_cur (s : State) (l : Loc) (k : Fin 16) (st : SlotState) : (setSt s l k st).cur = s.cur := rfl
@[simp] theorem setSt_kcur (s : State) (l : Loc) (k : Fin 16) (st : SlotState) : (setSt s l k st).kcur = s.kcur := rfl

/-! ## Updates of a die and of a partition -/

@[simp] theorem modDie_cycle (s : State) (d : Nat) (f : Die → Die) : (modDie s d f).cycle = s.cycle := by unfold modDie; split <;> rfl
@[simp] theorem modDie_phase (s : State) (d : Nat) (f : Die → Die) : (modDie s d f).phase = s.phase := by unfold modDie; split <;> rfl
@[simp] theorem modDie_mem (s : State) (d : Nat) (f : Die → Die) : (modDie s d f).mem = s.mem := by unfold modDie; split <;> rfl
@[simp] theorem modDie_hostOld (s : State) (d : Nat) (f : Die → Die) : (modDie s d f).hostOld = s.hostOld := by unfold modDie; split <;> rfl
@[simp] theorem modDie_feEmpty (s : State) (d : Nat) (f : Die → Die) : (modDie s d f).feEmpty = s.feEmpty := by unfold modDie; split <;> rfl
@[simp] theorem modDie_poison (s : State) (d : Nat) (f : Die → Die) : (modDie s d f).poison = s.poison := by unfold modDie; split <;> rfl
@[simp] theorem modDie_poisonings (s : State) (d : Nat) (f : Die → Die) : (modDie s d f).poisonings = s.poisonings := by unfold modDie; split <;> rfl
@[simp] theorem modDie_owner (s : State) (d : Nat) (f : Die → Die) : (modDie s d f).owner = s.owner := by unfold modDie; split <;> rfl
@[simp] theorem modDie_firmware (s : State) (d : Nat) (f : Die → Die) : (modDie s d f).firmware = s.firmware := by unfold modDie; split <;> rfl
@[simp] theorem modDie_retired (s : State) (d : Nat) (f : Die → Die) : (modDie s d f).retired = s.retired := by unfold modDie; split <;> rfl
@[simp] theorem modDie_cores (s : State) (d : Nat) (f : Die → Die) : (modDie s d f).cores = s.cores := by unfold modDie; split <;> rfl
@[simp] theorem modDie_parts (s : State) (d : Nat) (f : Die → Die) : (modDie s d f).parts = s.parts := by unfold modDie; split <;> rfl
@[simp] theorem modDie_reqs (s : State) (d : Nat) (f : Die → Die) : (modDie s d f).reqs = s.reqs := by unfold modDie; split <;> rfl
@[simp] theorem modDie_msgs (s : State) (d : Nat) (f : Die → Die) : (modDie s d f).msgs = s.msgs := by unfold modDie; split <;> rfl
@[simp] theorem modDie_msgReplies (s : State) (d : Nat) (f : Die → Die) : (modDie s d f).msgReplies = s.msgReplies := by unfold modDie; split <;> rfl
@[simp] theorem modDie_probes (s : State) (d : Nat) (f : Die → Die) : (modDie s d f).probes = s.probes := by unfold modDie; split <;> rfl
@[simp] theorem modDie_kswaps (s : State) (d : Nat) (f : Die → Die) : (modDie s d f).kswaps = s.kswaps := by unfold modDie; split <;> rfl
@[simp] theorem modDie_ltts (s : State) (d : Nat) (f : Die → Die) : (modDie s d f).ltts = s.ltts := by unfold modDie; split <;> rfl
@[simp] theorem modDie_svcs (s : State) (d : Nat) (f : Die → Die) : (modDie s d f).svcs = s.svcs := by unfold modDie; split <;> rfl
@[simp] theorem modDie_svcCores (s : State) (d : Nat) (f : Die → Die) : (modDie s d f).svcCores = s.svcCores := by unfold modDie; split <;> rfl
@[simp] theorem modDie_starts (s : State) (d : Nat) (f : Die → Die) : (modDie s d f).starts = s.starts := by unfold modDie; split <;> rfl
@[simp] theorem modDie_reports (s : State) (d : Nat) (f : Die → Die) : (modDie s d f).reports = s.reports := by unfold modDie; split <;> rfl
@[simp] theorem modDie_preReqs (s : State) (d : Nat) (f : Die → Die) : (modDie s d f).preReqs = s.preReqs := by unfold modDie; split <;> rfl
@[simp] theorem modDie_flash (s : State) (d : Nat) (f : Die → Die) : (modDie s d f).flash = s.flash := by unfold modDie; split <;> rfl
@[simp] theorem modDie_host (s : State) (d : Nat) (f : Die → Die) : (modDie s d f).host = s.host := by unfold modDie; split <;> rfl
@[simp] theorem modDie_frames (s : State) (d : Nat) (f : Die → Die) : (modDie s d f).frames = s.frames := by unfold modDie; split <;> rfl
@[simp] theorem modDie_drives (s : State) (d : Nat) (f : Die → Die) : (modDie s d f).drives = s.drives := by unfold modDie; split <;> rfl
@[simp] theorem modDie_meas (s : State) (d : Nat) (f : Die → Die) : (modDie s d f).meas = s.meas := by unfold modDie; split <;> rfl
@[simp] theorem modDie_stamps (s : State) (d : Nat) (f : Die → Die) : (modDie s d f).stamps = s.stamps := by unfold modDie; split <;> rfl
@[simp] theorem modDie_boot (s : State) (d : Nat) (f : Die → Die) : (modDie s d f).boot = s.boot := by unfold modDie; split <;> rfl
@[simp] theorem modDie_fwVersion (s : State) (d : Nat) (f : Die → Die) : (modDie s d f).fwVersion = s.fwVersion := by unfold modDie; split <;> rfl
@[simp] theorem modDie_handles (s : State) (d : Nat) (f : Die → Die) : (modDie s d f).handles = s.handles := by unfold modDie; split <;> rfl
@[simp] theorem modDie_nextId (s : State) (d : Nat) (f : Die → Die) : (modDie s d f).nextId = s.nextId := by unfold modDie; split <;> rfl
@[simp] theorem modDie_stepNo (s : State) (d : Nat) (f : Die → Die) : (modDie s d f).stepNo = s.stepNo := by unfold modDie; split <;> rfl
@[simp] theorem modDie_free (s : State) (d : Nat) (f : Die → Die) : (modDie s d f).free = s.free := by unfold modDie; split <;> rfl
@[simp] theorem modDie_turn (s : State) (d : Nat) (f : Die → Die) : (modDie s d f).turn = s.turn := by unfold modDie; split <;> rfl
@[simp] theorem modDie_cur (s : State) (d : Nat) (f : Die → Die) : (modDie s d f).cur = s.cur := by unfold modDie; split <;> rfl
@[simp] theorem modDie_kcur (s : State) (d : Nat) (f : Die → Die) : (modDie s d f).kcur = s.kcur := by unfold modDie; split <;> rfl

@[simp] theorem modDiePart_cycle (s : State) (d pid : Nat) (f : DiePart → DiePart) : (modDiePart s d pid f).cycle = s.cycle := modDie_cycle ..
@[simp] theorem modDiePart_phase (s : State) (d pid : Nat) (f : DiePart → DiePart) : (modDiePart s d pid f).phase = s.phase := modDie_phase ..
@[simp] theorem modDiePart_mem (s : State) (d pid : Nat) (f : DiePart → DiePart) : (modDiePart s d pid f).mem = s.mem := modDie_mem ..
@[simp] theorem modDiePart_hostOld (s : State) (d pid : Nat) (f : DiePart → DiePart) : (modDiePart s d pid f).hostOld = s.hostOld := modDie_hostOld ..
@[simp] theorem modDiePart_feEmpty (s : State) (d pid : Nat) (f : DiePart → DiePart) : (modDiePart s d pid f).feEmpty = s.feEmpty := modDie_feEmpty ..
@[simp] theorem modDiePart_poison (s : State) (d pid : Nat) (f : DiePart → DiePart) : (modDiePart s d pid f).poison = s.poison := modDie_poison ..
@[simp] theorem modDiePart_poisonings (s : State) (d pid : Nat) (f : DiePart → DiePart) : (modDiePart s d pid f).poisonings = s.poisonings := modDie_poisonings ..
@[simp] theorem modDiePart_owner (s : State) (d pid : Nat) (f : DiePart → DiePart) : (modDiePart s d pid f).owner = s.owner := modDie_owner ..
@[simp] theorem modDiePart_firmware (s : State) (d pid : Nat) (f : DiePart → DiePart) : (modDiePart s d pid f).firmware = s.firmware := modDie_firmware ..
@[simp] theorem modDiePart_retired (s : State) (d pid : Nat) (f : DiePart → DiePart) : (modDiePart s d pid f).retired = s.retired := modDie_retired ..
@[simp] theorem modDiePart_cores (s : State) (d pid : Nat) (f : DiePart → DiePart) : (modDiePart s d pid f).cores = s.cores := modDie_cores ..
@[simp] theorem modDiePart_parts (s : State) (d pid : Nat) (f : DiePart → DiePart) : (modDiePart s d pid f).parts = s.parts := modDie_parts ..
@[simp] theorem modDiePart_reqs (s : State) (d pid : Nat) (f : DiePart → DiePart) : (modDiePart s d pid f).reqs = s.reqs := modDie_reqs ..
@[simp] theorem modDiePart_msgs (s : State) (d pid : Nat) (f : DiePart → DiePart) : (modDiePart s d pid f).msgs = s.msgs := modDie_msgs ..
@[simp] theorem modDiePart_msgReplies (s : State) (d pid : Nat) (f : DiePart → DiePart) : (modDiePart s d pid f).msgReplies = s.msgReplies := modDie_msgReplies ..
@[simp] theorem modDiePart_probes (s : State) (d pid : Nat) (f : DiePart → DiePart) : (modDiePart s d pid f).probes = s.probes := modDie_probes ..
@[simp] theorem modDiePart_kswaps (s : State) (d pid : Nat) (f : DiePart → DiePart) : (modDiePart s d pid f).kswaps = s.kswaps := modDie_kswaps ..
@[simp] theorem modDiePart_ltts (s : State) (d pid : Nat) (f : DiePart → DiePart) : (modDiePart s d pid f).ltts = s.ltts := modDie_ltts ..
@[simp] theorem modDiePart_svcs (s : State) (d pid : Nat) (f : DiePart → DiePart) : (modDiePart s d pid f).svcs = s.svcs := modDie_svcs ..
@[simp] theorem modDiePart_svcCores (s : State) (d pid : Nat) (f : DiePart → DiePart) : (modDiePart s d pid f).svcCores = s.svcCores := modDie_svcCores ..
@[simp] theorem modDiePart_starts (s : State) (d pid : Nat) (f : DiePart → DiePart) : (modDiePart s d pid f).starts = s.starts := modDie_starts ..
@[simp] theorem modDiePart_reports (s : State) (d pid : Nat) (f : DiePart → DiePart) : (modDiePart s d pid f).reports = s.reports := modDie_reports ..
@[simp] theorem modDiePart_preReqs (s : State) (d pid : Nat) (f : DiePart → DiePart) : (modDiePart s d pid f).preReqs = s.preReqs := modDie_preReqs ..
@[simp] theorem modDiePart_flash (s : State) (d pid : Nat) (f : DiePart → DiePart) : (modDiePart s d pid f).flash = s.flash := modDie_flash ..
@[simp] theorem modDiePart_host (s : State) (d pid : Nat) (f : DiePart → DiePart) : (modDiePart s d pid f).host = s.host := modDie_host ..
@[simp] theorem modDiePart_frames (s : State) (d pid : Nat) (f : DiePart → DiePart) : (modDiePart s d pid f).frames = s.frames := modDie_frames ..
@[simp] theorem modDiePart_drives (s : State) (d pid : Nat) (f : DiePart → DiePart) : (modDiePart s d pid f).drives = s.drives := modDie_drives ..
@[simp] theorem modDiePart_meas (s : State) (d pid : Nat) (f : DiePart → DiePart) : (modDiePart s d pid f).meas = s.meas := modDie_meas ..
@[simp] theorem modDiePart_stamps (s : State) (d pid : Nat) (f : DiePart → DiePart) : (modDiePart s d pid f).stamps = s.stamps := modDie_stamps ..
@[simp] theorem modDiePart_boot (s : State) (d pid : Nat) (f : DiePart → DiePart) : (modDiePart s d pid f).boot = s.boot := modDie_boot ..
@[simp] theorem modDiePart_fwVersion (s : State) (d pid : Nat) (f : DiePart → DiePart) : (modDiePart s d pid f).fwVersion = s.fwVersion := modDie_fwVersion ..
@[simp] theorem modDiePart_handles (s : State) (d pid : Nat) (f : DiePart → DiePart) : (modDiePart s d pid f).handles = s.handles := modDie_handles ..
@[simp] theorem modDiePart_nextId (s : State) (d pid : Nat) (f : DiePart → DiePart) : (modDiePart s d pid f).nextId = s.nextId := modDie_nextId ..
@[simp] theorem modDiePart_stepNo (s : State) (d pid : Nat) (f : DiePart → DiePart) : (modDiePart s d pid f).stepNo = s.stepNo := modDie_stepNo ..
@[simp] theorem modDiePart_free (s : State) (d pid : Nat) (f : DiePart → DiePart) : (modDiePart s d pid f).free = s.free := modDie_free ..
@[simp] theorem modDiePart_turn (s : State) (d pid : Nat) (f : DiePart → DiePart) : (modDiePart s d pid f).turn = s.turn := modDie_turn ..
@[simp] theorem modDiePart_cur (s : State) (d pid : Nat) (f : DiePart → DiePart) : (modDiePart s d pid f).cur = s.cur := modDie_cur ..
@[simp] theorem modDiePart_kcur (s : State) (d pid : Nat) (f : DiePart → DiePart) : (modDiePart s d pid f).kcur = s.kcur := modDie_kcur ..

@[simp] theorem count_cycle (s : State) (d pid : Nat) (k : Fin 24) (n : Nat) : (count s d pid k n).cycle = s.cycle := modDie_cycle ..
@[simp] theorem count_phase (s : State) (d pid : Nat) (k : Fin 24) (n : Nat) : (count s d pid k n).phase = s.phase := modDie_phase ..
@[simp] theorem count_mem (s : State) (d pid : Nat) (k : Fin 24) (n : Nat) : (count s d pid k n).mem = s.mem := modDie_mem ..
@[simp] theorem count_hostOld (s : State) (d pid : Nat) (k : Fin 24) (n : Nat) : (count s d pid k n).hostOld = s.hostOld := modDie_hostOld ..
@[simp] theorem count_feEmpty (s : State) (d pid : Nat) (k : Fin 24) (n : Nat) : (count s d pid k n).feEmpty = s.feEmpty := modDie_feEmpty ..
@[simp] theorem count_poison (s : State) (d pid : Nat) (k : Fin 24) (n : Nat) : (count s d pid k n).poison = s.poison := modDie_poison ..
@[simp] theorem count_poisonings (s : State) (d pid : Nat) (k : Fin 24) (n : Nat) : (count s d pid k n).poisonings = s.poisonings := modDie_poisonings ..
@[simp] theorem count_owner (s : State) (d pid : Nat) (k : Fin 24) (n : Nat) : (count s d pid k n).owner = s.owner := modDie_owner ..
@[simp] theorem count_firmware (s : State) (d pid : Nat) (k : Fin 24) (n : Nat) : (count s d pid k n).firmware = s.firmware := modDie_firmware ..
@[simp] theorem count_retired (s : State) (d pid : Nat) (k : Fin 24) (n : Nat) : (count s d pid k n).retired = s.retired := modDie_retired ..
@[simp] theorem count_cores (s : State) (d pid : Nat) (k : Fin 24) (n : Nat) : (count s d pid k n).cores = s.cores := modDie_cores ..
@[simp] theorem count_parts (s : State) (d pid : Nat) (k : Fin 24) (n : Nat) : (count s d pid k n).parts = s.parts := modDie_parts ..
@[simp] theorem count_reqs (s : State) (d pid : Nat) (k : Fin 24) (n : Nat) : (count s d pid k n).reqs = s.reqs := modDie_reqs ..
@[simp] theorem count_msgs (s : State) (d pid : Nat) (k : Fin 24) (n : Nat) : (count s d pid k n).msgs = s.msgs := modDie_msgs ..
@[simp] theorem count_msgReplies (s : State) (d pid : Nat) (k : Fin 24) (n : Nat) : (count s d pid k n).msgReplies = s.msgReplies := modDie_msgReplies ..
@[simp] theorem count_probes (s : State) (d pid : Nat) (k : Fin 24) (n : Nat) : (count s d pid k n).probes = s.probes := modDie_probes ..
@[simp] theorem count_kswaps (s : State) (d pid : Nat) (k : Fin 24) (n : Nat) : (count s d pid k n).kswaps = s.kswaps := modDie_kswaps ..
@[simp] theorem count_ltts (s : State) (d pid : Nat) (k : Fin 24) (n : Nat) : (count s d pid k n).ltts = s.ltts := modDie_ltts ..
@[simp] theorem count_svcs (s : State) (d pid : Nat) (k : Fin 24) (n : Nat) : (count s d pid k n).svcs = s.svcs := modDie_svcs ..
@[simp] theorem count_svcCores (s : State) (d pid : Nat) (k : Fin 24) (n : Nat) : (count s d pid k n).svcCores = s.svcCores := modDie_svcCores ..
@[simp] theorem count_starts (s : State) (d pid : Nat) (k : Fin 24) (n : Nat) : (count s d pid k n).starts = s.starts := modDie_starts ..
@[simp] theorem count_reports (s : State) (d pid : Nat) (k : Fin 24) (n : Nat) : (count s d pid k n).reports = s.reports := modDie_reports ..
@[simp] theorem count_preReqs (s : State) (d pid : Nat) (k : Fin 24) (n : Nat) : (count s d pid k n).preReqs = s.preReqs := modDie_preReqs ..
@[simp] theorem count_flash (s : State) (d pid : Nat) (k : Fin 24) (n : Nat) : (count s d pid k n).flash = s.flash := modDie_flash ..
@[simp] theorem count_host (s : State) (d pid : Nat) (k : Fin 24) (n : Nat) : (count s d pid k n).host = s.host := modDie_host ..
@[simp] theorem count_frames (s : State) (d pid : Nat) (k : Fin 24) (n : Nat) : (count s d pid k n).frames = s.frames := modDie_frames ..
@[simp] theorem count_drives (s : State) (d pid : Nat) (k : Fin 24) (n : Nat) : (count s d pid k n).drives = s.drives := modDie_drives ..
@[simp] theorem count_meas (s : State) (d pid : Nat) (k : Fin 24) (n : Nat) : (count s d pid k n).meas = s.meas := modDie_meas ..
@[simp] theorem count_stamps (s : State) (d pid : Nat) (k : Fin 24) (n : Nat) : (count s d pid k n).stamps = s.stamps := modDie_stamps ..
@[simp] theorem count_boot (s : State) (d pid : Nat) (k : Fin 24) (n : Nat) : (count s d pid k n).boot = s.boot := modDie_boot ..
@[simp] theorem count_fwVersion (s : State) (d pid : Nat) (k : Fin 24) (n : Nat) : (count s d pid k n).fwVersion = s.fwVersion := modDie_fwVersion ..
@[simp] theorem count_handles (s : State) (d pid : Nat) (k : Fin 24) (n : Nat) : (count s d pid k n).handles = s.handles := modDie_handles ..
@[simp] theorem count_nextId (s : State) (d pid : Nat) (k : Fin 24) (n : Nat) : (count s d pid k n).nextId = s.nextId := modDie_nextId ..
@[simp] theorem count_stepNo (s : State) (d pid : Nat) (k : Fin 24) (n : Nat) : (count s d pid k n).stepNo = s.stepNo := modDie_stepNo ..
@[simp] theorem count_free (s : State) (d pid : Nat) (k : Fin 24) (n : Nat) : (count s d pid k n).free = s.free := modDie_free ..
@[simp] theorem count_turn (s : State) (d pid : Nat) (k : Fin 24) (n : Nat) : (count s d pid k n).turn = s.turn := modDie_turn ..
@[simp] theorem count_cur (s : State) (d pid : Nat) (k : Fin 24) (n : Nat) : (count s d pid k n).cur = s.cur := modDie_cur ..
@[simp] theorem count_kcur (s : State) (d pid : Nat) (k : Fin 24) (n : Nat) : (count s d pid k n).kcur = s.kcur := modDie_kcur ..

@[simp] theorem countPhys_cycle (s : State) (d : Nat) (k : Fin 7) (n : Nat) : (countPhys s d k n).cycle = s.cycle := modDie_cycle ..
@[simp] theorem countPhys_phase (s : State) (d : Nat) (k : Fin 7) (n : Nat) : (countPhys s d k n).phase = s.phase := modDie_phase ..
@[simp] theorem countPhys_mem (s : State) (d : Nat) (k : Fin 7) (n : Nat) : (countPhys s d k n).mem = s.mem := modDie_mem ..
@[simp] theorem countPhys_hostOld (s : State) (d : Nat) (k : Fin 7) (n : Nat) : (countPhys s d k n).hostOld = s.hostOld := modDie_hostOld ..
@[simp] theorem countPhys_feEmpty (s : State) (d : Nat) (k : Fin 7) (n : Nat) : (countPhys s d k n).feEmpty = s.feEmpty := modDie_feEmpty ..
@[simp] theorem countPhys_poison (s : State) (d : Nat) (k : Fin 7) (n : Nat) : (countPhys s d k n).poison = s.poison := modDie_poison ..
@[simp] theorem countPhys_poisonings (s : State) (d : Nat) (k : Fin 7) (n : Nat) : (countPhys s d k n).poisonings = s.poisonings := modDie_poisonings ..
@[simp] theorem countPhys_owner (s : State) (d : Nat) (k : Fin 7) (n : Nat) : (countPhys s d k n).owner = s.owner := modDie_owner ..
@[simp] theorem countPhys_firmware (s : State) (d : Nat) (k : Fin 7) (n : Nat) : (countPhys s d k n).firmware = s.firmware := modDie_firmware ..
@[simp] theorem countPhys_retired (s : State) (d : Nat) (k : Fin 7) (n : Nat) : (countPhys s d k n).retired = s.retired := modDie_retired ..
@[simp] theorem countPhys_cores (s : State) (d : Nat) (k : Fin 7) (n : Nat) : (countPhys s d k n).cores = s.cores := modDie_cores ..
@[simp] theorem countPhys_parts (s : State) (d : Nat) (k : Fin 7) (n : Nat) : (countPhys s d k n).parts = s.parts := modDie_parts ..
@[simp] theorem countPhys_reqs (s : State) (d : Nat) (k : Fin 7) (n : Nat) : (countPhys s d k n).reqs = s.reqs := modDie_reqs ..
@[simp] theorem countPhys_msgs (s : State) (d : Nat) (k : Fin 7) (n : Nat) : (countPhys s d k n).msgs = s.msgs := modDie_msgs ..
@[simp] theorem countPhys_msgReplies (s : State) (d : Nat) (k : Fin 7) (n : Nat) : (countPhys s d k n).msgReplies = s.msgReplies := modDie_msgReplies ..
@[simp] theorem countPhys_probes (s : State) (d : Nat) (k : Fin 7) (n : Nat) : (countPhys s d k n).probes = s.probes := modDie_probes ..
@[simp] theorem countPhys_kswaps (s : State) (d : Nat) (k : Fin 7) (n : Nat) : (countPhys s d k n).kswaps = s.kswaps := modDie_kswaps ..
@[simp] theorem countPhys_ltts (s : State) (d : Nat) (k : Fin 7) (n : Nat) : (countPhys s d k n).ltts = s.ltts := modDie_ltts ..
@[simp] theorem countPhys_svcs (s : State) (d : Nat) (k : Fin 7) (n : Nat) : (countPhys s d k n).svcs = s.svcs := modDie_svcs ..
@[simp] theorem countPhys_svcCores (s : State) (d : Nat) (k : Fin 7) (n : Nat) : (countPhys s d k n).svcCores = s.svcCores := modDie_svcCores ..
@[simp] theorem countPhys_starts (s : State) (d : Nat) (k : Fin 7) (n : Nat) : (countPhys s d k n).starts = s.starts := modDie_starts ..
@[simp] theorem countPhys_reports (s : State) (d : Nat) (k : Fin 7) (n : Nat) : (countPhys s d k n).reports = s.reports := modDie_reports ..
@[simp] theorem countPhys_preReqs (s : State) (d : Nat) (k : Fin 7) (n : Nat) : (countPhys s d k n).preReqs = s.preReqs := modDie_preReqs ..
@[simp] theorem countPhys_flash (s : State) (d : Nat) (k : Fin 7) (n : Nat) : (countPhys s d k n).flash = s.flash := modDie_flash ..
@[simp] theorem countPhys_host (s : State) (d : Nat) (k : Fin 7) (n : Nat) : (countPhys s d k n).host = s.host := modDie_host ..
@[simp] theorem countPhys_frames (s : State) (d : Nat) (k : Fin 7) (n : Nat) : (countPhys s d k n).frames = s.frames := modDie_frames ..
@[simp] theorem countPhys_drives (s : State) (d : Nat) (k : Fin 7) (n : Nat) : (countPhys s d k n).drives = s.drives := modDie_drives ..
@[simp] theorem countPhys_meas (s : State) (d : Nat) (k : Fin 7) (n : Nat) : (countPhys s d k n).meas = s.meas := modDie_meas ..
@[simp] theorem countPhys_stamps (s : State) (d : Nat) (k : Fin 7) (n : Nat) : (countPhys s d k n).stamps = s.stamps := modDie_stamps ..
@[simp] theorem countPhys_boot (s : State) (d : Nat) (k : Fin 7) (n : Nat) : (countPhys s d k n).boot = s.boot := modDie_boot ..
@[simp] theorem countPhys_fwVersion (s : State) (d : Nat) (k : Fin 7) (n : Nat) : (countPhys s d k n).fwVersion = s.fwVersion := modDie_fwVersion ..
@[simp] theorem countPhys_handles (s : State) (d : Nat) (k : Fin 7) (n : Nat) : (countPhys s d k n).handles = s.handles := modDie_handles ..
@[simp] theorem countPhys_nextId (s : State) (d : Nat) (k : Fin 7) (n : Nat) : (countPhys s d k n).nextId = s.nextId := modDie_nextId ..
@[simp] theorem countPhys_stepNo (s : State) (d : Nat) (k : Fin 7) (n : Nat) : (countPhys s d k n).stepNo = s.stepNo := modDie_stepNo ..
@[simp] theorem countPhys_free (s : State) (d : Nat) (k : Fin 7) (n : Nat) : (countPhys s d k n).free = s.free := modDie_free ..
@[simp] theorem countPhys_turn (s : State) (d : Nat) (k : Fin 7) (n : Nat) : (countPhys s d k n).turn = s.turn := modDie_turn ..
@[simp] theorem countPhys_cur (s : State) (d : Nat) (k : Fin 7) (n : Nat) : (countPhys s d k n).cur = s.cur := modDie_cur ..
@[simp] theorem countPhys_kcur (s : State) (d : Nat) (k : Fin 7) (n : Nat) : (countPhys s d k n).kcur = s.kcur := modDie_kcur ..

@[simp] theorem modPart_cycle (s : State) (pid : Nat) (f : Partition → Partition) : (modPart s pid f).cycle = s.cycle := rfl
@[simp] theorem modPart_phase (s : State) (pid : Nat) (f : Partition → Partition) : (modPart s pid f).phase = s.phase := rfl
@[simp] theorem modPart_mem (s : State) (pid : Nat) (f : Partition → Partition) : (modPart s pid f).mem = s.mem := rfl
@[simp] theorem modPart_hostOld (s : State) (pid : Nat) (f : Partition → Partition) : (modPart s pid f).hostOld = s.hostOld := rfl
@[simp] theorem modPart_feEmpty (s : State) (pid : Nat) (f : Partition → Partition) : (modPart s pid f).feEmpty = s.feEmpty := rfl
@[simp] theorem modPart_poison (s : State) (pid : Nat) (f : Partition → Partition) : (modPart s pid f).poison = s.poison := rfl
@[simp] theorem modPart_poisonings (s : State) (pid : Nat) (f : Partition → Partition) : (modPart s pid f).poisonings = s.poisonings := rfl
@[simp] theorem modPart_owner (s : State) (pid : Nat) (f : Partition → Partition) : (modPart s pid f).owner = s.owner := rfl
@[simp] theorem modPart_firmware (s : State) (pid : Nat) (f : Partition → Partition) : (modPart s pid f).firmware = s.firmware := rfl
@[simp] theorem modPart_retired (s : State) (pid : Nat) (f : Partition → Partition) : (modPart s pid f).retired = s.retired := rfl
@[simp] theorem modPart_cores (s : State) (pid : Nat) (f : Partition → Partition) : (modPart s pid f).cores = s.cores := rfl
@[simp] theorem modPart_dies (s : State) (pid : Nat) (f : Partition → Partition) : (modPart s pid f).dies = s.dies := rfl
@[simp] theorem modPart_reqs (s : State) (pid : Nat) (f : Partition → Partition) : (modPart s pid f).reqs = s.reqs := rfl
@[simp] theorem modPart_msgs (s : State) (pid : Nat) (f : Partition → Partition) : (modPart s pid f).msgs = s.msgs := rfl
@[simp] theorem modPart_msgReplies (s : State) (pid : Nat) (f : Partition → Partition) : (modPart s pid f).msgReplies = s.msgReplies := rfl
@[simp] theorem modPart_probes (s : State) (pid : Nat) (f : Partition → Partition) : (modPart s pid f).probes = s.probes := rfl
@[simp] theorem modPart_kswaps (s : State) (pid : Nat) (f : Partition → Partition) : (modPart s pid f).kswaps = s.kswaps := rfl
@[simp] theorem modPart_ltts (s : State) (pid : Nat) (f : Partition → Partition) : (modPart s pid f).ltts = s.ltts := rfl
@[simp] theorem modPart_svcs (s : State) (pid : Nat) (f : Partition → Partition) : (modPart s pid f).svcs = s.svcs := rfl
@[simp] theorem modPart_svcCores (s : State) (pid : Nat) (f : Partition → Partition) : (modPart s pid f).svcCores = s.svcCores := rfl
@[simp] theorem modPart_starts (s : State) (pid : Nat) (f : Partition → Partition) : (modPart s pid f).starts = s.starts := rfl
@[simp] theorem modPart_reports (s : State) (pid : Nat) (f : Partition → Partition) : (modPart s pid f).reports = s.reports := rfl
@[simp] theorem modPart_preReqs (s : State) (pid : Nat) (f : Partition → Partition) : (modPart s pid f).preReqs = s.preReqs := rfl
@[simp] theorem modPart_flash (s : State) (pid : Nat) (f : Partition → Partition) : (modPart s pid f).flash = s.flash := rfl
@[simp] theorem modPart_host (s : State) (pid : Nat) (f : Partition → Partition) : (modPart s pid f).host = s.host := rfl
@[simp] theorem modPart_frames (s : State) (pid : Nat) (f : Partition → Partition) : (modPart s pid f).frames = s.frames := rfl
@[simp] theorem modPart_drives (s : State) (pid : Nat) (f : Partition → Partition) : (modPart s pid f).drives = s.drives := rfl
@[simp] theorem modPart_meas (s : State) (pid : Nat) (f : Partition → Partition) : (modPart s pid f).meas = s.meas := rfl
@[simp] theorem modPart_stamps (s : State) (pid : Nat) (f : Partition → Partition) : (modPart s pid f).stamps = s.stamps := rfl
@[simp] theorem modPart_boot (s : State) (pid : Nat) (f : Partition → Partition) : (modPart s pid f).boot = s.boot := rfl
@[simp] theorem modPart_fwVersion (s : State) (pid : Nat) (f : Partition → Partition) : (modPart s pid f).fwVersion = s.fwVersion := rfl
@[simp] theorem modPart_handles (s : State) (pid : Nat) (f : Partition → Partition) : (modPart s pid f).handles = s.handles := rfl
@[simp] theorem modPart_nextId (s : State) (pid : Nat) (f : Partition → Partition) : (modPart s pid f).nextId = s.nextId := rfl
@[simp] theorem modPart_stepNo (s : State) (pid : Nat) (f : Partition → Partition) : (modPart s pid f).stepNo = s.stepNo := rfl
@[simp] theorem modPart_free (s : State) (pid : Nat) (f : Partition → Partition) : (modPart s pid f).free = s.free := rfl
@[simp] theorem modPart_turn (s : State) (pid : Nat) (f : Partition → Partition) : (modPart s pid f).turn = s.turn := rfl
@[simp] theorem modPart_cur (s : State) (pid : Nat) (f : Partition → Partition) : (modPart s pid f).cur = s.cur := rfl
@[simp] theorem modPart_kcur (s : State) (pid : Nat) (f : Partition → Partition) : (modPart s pid f).kcur = s.kcur := rfl

/-! ## Association lists, cores, slots, threads -/

theorem assocGet_set {κ α : Type} [DecidableEq κ] (l : List (κ × α)) (k k' : κ) (v d : α) :
    assocGet (assocSet l k v) k' d = if k' = k then v else assocGet l k' d := by
  induction l with
  | nil =>
    by_cases h : k' = k
    · simp [assocSet, assocGet, h]
    · have h3 : ¬ k = k' := fun e => h e.symm
      simp [assocSet, assocGet, h, h3]
  | cons p r ih =>
    by_cases hp : p.1 = k
    · by_cases h : k' = k
      · simp [assocSet, assocGet, hp, h]
      · have h3 : ¬ k = k' := fun e => h e.symm
        simp [assocSet, assocGet, hp, h, h3]
    · by_cases h2 : p.1 = k'
      · have h : ¬ k' = k := fun e => hp (h2.trans e)
        simp [assocSet, assocGet, h2, h]
      · simpa [assocSet, assocGet, hp, h2] using ih

@[simp] theorem core_setCore (s : State) (l l' : Loc) (c : Core) : Machine.core (setCore s l c) l' = if l' = l then c else Machine.core s l' :=
  assocGet_set ..

theorem core_modCore (s : State) (l l' : Loc) (f : Core → Core) :
    Machine.core (modCore s l f) l' = if l' = l then f (Machine.core s l) else Machine.core s l' := core_setCore ..

@[simp] theorem core_modCore_self (s : State) (l : Loc) (f : Core → Core) : Machine.core (modCore s l f) l = f (Machine.core s l) := by
  simp [core_modCore]

theorem slotAt_modSlot (s : State) (l l' : Loc) (k k' : Fin 16) (f : Slot → Slot) :
    slotAt (modSlot s l k f) l' k' = if l' = l ∧ k' = k then f (slotAt s l k) else slotAt s l' k' := by
  by_cases hl : l' = l
  · subst hl
    by_cases hk : k' = k
    · subst hk; simp [slotAt, modSlot, setSlot]
    · have : k.val ≠ k'.val := fun e => hk (Fin.ext e.symm)
      simp [slotAt, modSlot, setSlot, hk, this]
  · simp [slotAt, modSlot, setSlot, core_modCore, hl]

@[simp] theorem slotAt_modSlot_self (s : State) (l : Loc) (k : Fin 16) (f : Slot → Slot) :
    slotAt (modSlot s l k f) l k = f (slotAt s l k) := by simp [slotAt_modSlot]

theorem thread_modTh (s : State) (l l' : Loc) (k k' : Fin 16) (f : Thread → Thread) :
    thread (modTh s l k f) l' k' = if l' = l ∧ k' = k then f (thread s l k) else thread s l' k' := by
  unfold thread modTh
  rw [slotAt_modSlot]
  split <;> rfl

@[simp] theorem thread_modTh_self (s : State) (l : Loc) (k : Fin 16) (f : Thread → Thread) :
    thread (modTh s l k f) l k = f (thread s l k) := by simp [thread_modTh]

@[simp] theorem thread_setSt (s : State) (l l' : Loc) (k k' : Fin 16) (st : SlotState) :
    thread (setSt s l k st) l' k' = thread s l' k' := by
  simp only [thread, setSt, slotAt_modSlot]
  split
  · next h => obtain ⟨rfl, rfl⟩ := h; rfl
  · rfl

theorem slotAt_modTh_st (s : State) (l l' : Loc) (k k' : Fin 16) (f : Thread → Thread) :
    (slotAt (modTh s l k f) l' k').st = (slotAt s l' k').st := by
  simp only [modTh, slotAt_modSlot]
  split
  · next h => obtain ⟨rfl, rfl⟩ := h; rfl
  · rfl

/-! ## A core after an update of one of its slots or threads -/

@[simp] theorem core_modSlot_rot (s : State) (l l' : Loc) (k : Fin 16) (f : Slot → Slot) :
    (Machine.core (modSlot s l k f) l').rot = (Machine.core s l').rot := by
  simp only [modSlot, setSlot, core_modCore]; split <;> simp_all
@[simp] theorem core_modSlot_tiles (s : State) (l l' : Loc) (k : Fin 16) (f : Slot → Slot) :
    (Machine.core (modSlot s l k f) l').tiles = (Machine.core s l').tiles := by
  simp only [modSlot, setSlot, core_modCore]; split <;> simp_all
@[simp] theorem core_modSlot_types (s : State) (l l' : Loc) (k : Fin 16) (f : Slot → Slot) :
    (Machine.core (modSlot s l k f) l').types = (Machine.core s l').types := by
  simp only [modSlot, setSlot, core_modCore]; split <;> simp_all
@[simp] theorem core_modSlot_held (s : State) (l l' : Loc) (k : Fin 16) (f : Slot → Slot) :
    (Machine.core (modSlot s l k f) l').held = (Machine.core s l').held := by
  simp only [modSlot, setSlot, core_modCore]; split <;> simp_all
@[simp] theorem core_modSlot_m (s : State) (l l' : Loc) (k : Fin 16) (f : Slot → Slot) :
    (Machine.core (modSlot s l k f) l').m = (Machine.core s l').m := by
  simp only [modSlot, setSlot, core_modCore]; split <;> simp_all
@[simp] theorem core_modSlot_twm (s : State) (l l' : Loc) (k : Fin 16) (f : Slot → Slot) :
    (Machine.core (modSlot s l k f) l').twm = (Machine.core s l').twm := by
  simp only [modSlot, setSlot, core_modCore]; split <;> simp_all
@[simp] theorem core_modSlot_tstat (s : State) (l l' : Loc) (k : Fin 16) (f : Slot → Slot) :
    (Machine.core (modSlot s l k f) l').tstat = (Machine.core s l').tstat := by
  simp only [modSlot, setSlot, core_modCore]; split <;> simp_all
@[simp] theorem core_modSlot_rings (s : State) (l l' : Loc) (k : Fin 16) (f : Slot → Slot) :
    (Machine.core (modSlot s l k f) l').rings = (Machine.core s l').rings := by
  simp only [modSlot, setSlot, core_modCore]; split <;> simp_all
@[simp] theorem core_modSlot_pvec (s : State) (l l' : Loc) (k : Fin 16) (f : Slot → Slot) :
    (Machine.core (modSlot s l k f) l').pvec = (Machine.core s l').pvec := by
  simp only [modSlot, setSlot, core_modCore]; split <;> simp_all
@[simp] theorem core_modSlot_weights (s : State) (l l' : Loc) (k : Fin 16) (f : Slot → Slot) :
    (Machine.core (modSlot s l k f) l').weights = (Machine.core s l').weights := by
  simp only [modSlot, setSlot, core_modCore]; split <;> simp_all
@[simp] theorem core_modSlot_shadow (s : State) (l l' : Loc) (k : Fin 16) (f : Slot → Slot) :
    (Machine.core (modSlot s l k f) l').shadow = (Machine.core s l').shadow := by
  simp only [modSlot, setSlot, core_modCore]; split <;> simp_all
@[simp] theorem core_modSlot_maskSet (s : State) (l l' : Loc) (k : Fin 16) (f : Slot → Slot) :
    (Machine.core (modSlot s l k f) l').maskSet = (Machine.core s l').maskSet := by
  simp only [modSlot, setSlot, core_modCore]; split <;> simp_all
@[simp] theorem core_modSlot_meq (s : State) (l l' : Loc) (k : Fin 16) (f : Slot → Slot) :
    (Machine.core (modSlot s l k f) l').meq = (Machine.core s l').meq := by
  simp only [modSlot, setSlot, core_modCore]; split <;> simp_all
@[simp] theorem core_modSlot_ieq (s : State) (l l' : Loc) (k : Fin 16) (f : Slot → Slot) :
    (Machine.core (modSlot s l k f) l').ieq = (Machine.core s l').ieq := by
  simp only [modSlot, setSlot, core_modCore]; split <;> simp_all
@[simp] theorem core_modSlot_teq (s : State) (l l' : Loc) (k : Fin 16) (f : Slot → Slot) :
    (Machine.core (modSlot s l k f) l').teq = (Machine.core s l').teq := by
  simp only [modSlot, setSlot, core_modCore]; split <;> simp_all
@[simp] theorem core_modSlot_nmq (s : State) (l l' : Loc) (k : Fin 16) (f : Slot → Slot) :
    (Machine.core (modSlot s l k f) l').nmq = (Machine.core s l').nmq := by
  simp only [modSlot, setSlot, core_modCore]; split <;> simp_all
@[simp] theorem core_modSlot_peq (s : State) (l l' : Loc) (k : Fin 16) (f : Slot → Slot) :
    (Machine.core (modSlot s l k f) l').peq = (Machine.core s l').peq := by
  simp only [modSlot, setSlot, core_modCore]; split <;> simp_all
@[simp] theorem core_modSlot_engSeq (s : State) (l l' : Loc) (k : Fin 16) (f : Slot → Slot) :
    (Machine.core (modSlot s l k f) l').engSeq = (Machine.core s l').engSeq := by
  simp only [modSlot, setSlot, core_modCore]; split <;> simp_all
@[simp] theorem core_modSlot_sfu (s : State) (l l' : Loc) (k : Fin 16) (f : Slot → Slot) :
    (Machine.core (modSlot s l k f) l').sfu = (Machine.core s l').sfu := by
  simp only [modSlot, setSlot, core_modCore]; split <;> simp_all
@[simp] theorem core_modSlot_sfuFree (s : State) (l l' : Loc) (k : Fin 16) (f : Slot → Slot) :
    (Machine.core (modSlot s l k f) l').sfuFree = (Machine.core s l').sfuFree := by
  simp only [modSlot, setSlot, core_modCore]; split <;> simp_all
@[simp] theorem core_modSlot_xcache (s : State) (l l' : Loc) (k : Fin 16) (f : Slot → Slot) :
    (Machine.core (modSlot s l k f) l').xcache = (Machine.core s l').xcache := by
  simp only [modSlot, setSlot, core_modCore]; split <;> simp_all
@[simp] theorem core_modSlot_lcache (s : State) (l l' : Loc) (k : Fin 16) (f : Slot → Slot) :
    (Machine.core (modSlot s l k f) l').lcache = (Machine.core s l').lcache := by
  simp only [modSlot, setSlot, core_modCore]; split <;> simp_all
@[simp] theorem core_modSlot_ifetch (s : State) (l l' : Loc) (k : Fin 16) (f : Slot → Slot) :
    (Machine.core (modSlot s l k f) l').ifetch = (Machine.core s l').ifetch := by
  simp only [modSlot, setSlot, core_modCore]; split <;> simp_all
@[simp] theorem core_modSlot_fwd (s : State) (l l' : Loc) (k : Fin 16) (f : Slot → Slot) :
    (Machine.core (modSlot s l k f) l').fwd = (Machine.core s l').fwd := by
  simp only [modSlot, setSlot, core_modCore]; split <;> simp_all
@[simp] theorem core_modSlot_spill (s : State) (l l' : Loc) (k : Fin 16) (f : Slot → Slot) :
    (Machine.core (modSlot s l k f) l').spill = (Machine.core s l').spill := by
  simp only [modSlot, setSlot, core_modCore]; split <;> simp_all
@[simp] theorem core_modSlot_spillSpoil (s : State) (l l' : Loc) (k : Fin 16) (f : Slot → Slot) :
    (Machine.core (modSlot s l k f) l').spillSpoil = (Machine.core s l').spillSpoil := by
  simp only [modSlot, setSlot, core_modCore]; split <;> simp_all
@[simp] theorem core_modSlot_links (s : State) (l l' : Loc) (k : Fin 16) (f : Slot → Slot) :
    (Machine.core (modSlot s l k f) l').links = (Machine.core s l').links := by
  simp only [modSlot, setSlot, core_modCore]; split <;> simp_all
@[simp] theorem core_modSlot_ringSpoil (s : State) (l l' : Loc) (k : Fin 16) (f : Slot → Slot) :
    (Machine.core (modSlot s l k f) l').ringSpoil = (Machine.core s l').ringSpoil := by
  simp only [modSlot, setSlot, core_modCore]; split <;> simp_all
@[simp] theorem core_modSlot_spoilTold (s : State) (l l' : Loc) (k : Fin 16) (f : Slot → Slot) :
    (Machine.core (modSlot s l k f) l').spoilTold = (Machine.core s l').spoilTold := by
  simp only [modSlot, setSlot, core_modCore]; split <;> simp_all
@[simp] theorem core_modSlot_scrubAt (s : State) (l l' : Loc) (k : Fin 16) (f : Slot → Slot) :
    (Machine.core (modSlot s l k f) l').scrubAt = (Machine.core s l').scrubAt := by
  simp only [modSlot, setSlot, core_modCore]; split <;> simp_all
@[simp] theorem core_modSlot_task (s : State) (l l' : Loc) (k : Fin 16) (f : Slot → Slot) :
    (Machine.core (modSlot s l k f) l').task = (Machine.core s l').task := by
  simp only [modSlot, setSlot, core_modCore]; split <;> simp_all
@[simp] theorem core_modSlot_preempt (s : State) (l l' : Loc) (k : Fin 16) (f : Slot → Slot) :
    (Machine.core (modSlot s l k f) l').preempt = (Machine.core s l').preempt := by
  simp only [modSlot, setSlot, core_modCore]; split <;> simp_all
@[simp] theorem core_modSlot_inbox (s : State) (l l' : Loc) (k : Fin 16) (f : Slot → Slot) :
    (Machine.core (modSlot s l k f) l').inbox = (Machine.core s l').inbox := by
  simp only [modSlot, setSlot, core_modCore]; split <;> simp_all
@[simp] theorem core_modSlot_launchq (s : State) (l l' : Loc) (k : Fin 16) (f : Slot → Slot) :
    (Machine.core (modSlot s l k f) l').launchq = (Machine.core s l').launchq := by
  simp only [modSlot, setSlot, core_modCore]; split <;> simp_all

@[simp] theorem core_modTh_rot (s : State) (l l' : Loc) (k : Fin 16) (f : Thread → Thread) :
    (Machine.core (modTh s l k f) l').rot = (Machine.core s l').rot := core_modSlot_rot ..
@[simp] theorem core_setSt_rot (s : State) (l l' : Loc) (k : Fin 16) (st : SlotState) :
    (Machine.core (setSt s l k st) l').rot = (Machine.core s l').rot := core_modSlot_rot ..
@[simp] theorem core_modTh_tiles (s : State) (l l' : Loc) (k : Fin 16) (f : Thread → Thread) :
    (Machine.core (modTh s l k f) l').tiles = (Machine.core s l').tiles := core_modSlot_tiles ..
@[simp] theorem core_setSt_tiles (s : State) (l l' : Loc) (k : Fin 16) (st : SlotState) :
    (Machine.core (setSt s l k st) l').tiles = (Machine.core s l').tiles := core_modSlot_tiles ..
@[simp] theorem core_modTh_types (s : State) (l l' : Loc) (k : Fin 16) (f : Thread → Thread) :
    (Machine.core (modTh s l k f) l').types = (Machine.core s l').types := core_modSlot_types ..
@[simp] theorem core_setSt_types (s : State) (l l' : Loc) (k : Fin 16) (st : SlotState) :
    (Machine.core (setSt s l k st) l').types = (Machine.core s l').types := core_modSlot_types ..
@[simp] theorem core_modTh_held (s : State) (l l' : Loc) (k : Fin 16) (f : Thread → Thread) :
    (Machine.core (modTh s l k f) l').held = (Machine.core s l').held := core_modSlot_held ..
@[simp] theorem core_setSt_held (s : State) (l l' : Loc) (k : Fin 16) (st : SlotState) :
    (Machine.core (setSt s l k st) l').held = (Machine.core s l').held := core_modSlot_held ..
@[simp] theorem core_modTh_m (s : State) (l l' : Loc) (k : Fin 16) (f : Thread → Thread) :
    (Machine.core (modTh s l k f) l').m = (Machine.core s l').m := core_modSlot_m ..
@[simp] theorem core_setSt_m (s : State) (l l' : Loc) (k : Fin 16) (st : SlotState) :
    (Machine.core (setSt s l k st) l').m = (Machine.core s l').m := core_modSlot_m ..
@[simp] theorem core_modTh_twm (s : State) (l l' : Loc) (k : Fin 16) (f : Thread → Thread) :
    (Machine.core (modTh s l k f) l').twm = (Machine.core s l').twm := core_modSlot_twm ..
@[simp] theorem core_setSt_twm (s : State) (l l' : Loc) (k : Fin 16) (st : SlotState) :
    (Machine.core (setSt s l k st) l').twm = (Machine.core s l').twm := core_modSlot_twm ..
@[simp] theorem core_modTh_tstat (s : State) (l l' : Loc) (k : Fin 16) (f : Thread → Thread) :
    (Machine.core (modTh s l k f) l').tstat = (Machine.core s l').tstat := core_modSlot_tstat ..
@[simp] theorem core_setSt_tstat (s : State) (l l' : Loc) (k : Fin 16) (st : SlotState) :
    (Machine.core (setSt s l k st) l').tstat = (Machine.core s l').tstat := core_modSlot_tstat ..
@[simp] theorem core_modTh_rings (s : State) (l l' : Loc) (k : Fin 16) (f : Thread → Thread) :
    (Machine.core (modTh s l k f) l').rings = (Machine.core s l').rings := core_modSlot_rings ..
@[simp] theorem core_setSt_rings (s : State) (l l' : Loc) (k : Fin 16) (st : SlotState) :
    (Machine.core (setSt s l k st) l').rings = (Machine.core s l').rings := core_modSlot_rings ..
@[simp] theorem core_modTh_pvec (s : State) (l l' : Loc) (k : Fin 16) (f : Thread → Thread) :
    (Machine.core (modTh s l k f) l').pvec = (Machine.core s l').pvec := core_modSlot_pvec ..
@[simp] theorem core_setSt_pvec (s : State) (l l' : Loc) (k : Fin 16) (st : SlotState) :
    (Machine.core (setSt s l k st) l').pvec = (Machine.core s l').pvec := core_modSlot_pvec ..
@[simp] theorem core_modTh_weights (s : State) (l l' : Loc) (k : Fin 16) (f : Thread → Thread) :
    (Machine.core (modTh s l k f) l').weights = (Machine.core s l').weights := core_modSlot_weights ..
@[simp] theorem core_setSt_weights (s : State) (l l' : Loc) (k : Fin 16) (st : SlotState) :
    (Machine.core (setSt s l k st) l').weights = (Machine.core s l').weights := core_modSlot_weights ..
@[simp] theorem core_modTh_shadow (s : State) (l l' : Loc) (k : Fin 16) (f : Thread → Thread) :
    (Machine.core (modTh s l k f) l').shadow = (Machine.core s l').shadow := core_modSlot_shadow ..
@[simp] theorem core_setSt_shadow (s : State) (l l' : Loc) (k : Fin 16) (st : SlotState) :
    (Machine.core (setSt s l k st) l').shadow = (Machine.core s l').shadow := core_modSlot_shadow ..
@[simp] theorem core_modTh_maskSet (s : State) (l l' : Loc) (k : Fin 16) (f : Thread → Thread) :
    (Machine.core (modTh s l k f) l').maskSet = (Machine.core s l').maskSet := core_modSlot_maskSet ..
@[simp] theorem core_setSt_maskSet (s : State) (l l' : Loc) (k : Fin 16) (st : SlotState) :
    (Machine.core (setSt s l k st) l').maskSet = (Machine.core s l').maskSet := core_modSlot_maskSet ..
@[simp] theorem core_modTh_meq (s : State) (l l' : Loc) (k : Fin 16) (f : Thread → Thread) :
    (Machine.core (modTh s l k f) l').meq = (Machine.core s l').meq := core_modSlot_meq ..
@[simp] theorem core_setSt_meq (s : State) (l l' : Loc) (k : Fin 16) (st : SlotState) :
    (Machine.core (setSt s l k st) l').meq = (Machine.core s l').meq := core_modSlot_meq ..
@[simp] theorem core_modTh_ieq (s : State) (l l' : Loc) (k : Fin 16) (f : Thread → Thread) :
    (Machine.core (modTh s l k f) l').ieq = (Machine.core s l').ieq := core_modSlot_ieq ..
@[simp] theorem core_setSt_ieq (s : State) (l l' : Loc) (k : Fin 16) (st : SlotState) :
    (Machine.core (setSt s l k st) l').ieq = (Machine.core s l').ieq := core_modSlot_ieq ..
@[simp] theorem core_modTh_teq (s : State) (l l' : Loc) (k : Fin 16) (f : Thread → Thread) :
    (Machine.core (modTh s l k f) l').teq = (Machine.core s l').teq := core_modSlot_teq ..
@[simp] theorem core_setSt_teq (s : State) (l l' : Loc) (k : Fin 16) (st : SlotState) :
    (Machine.core (setSt s l k st) l').teq = (Machine.core s l').teq := core_modSlot_teq ..
@[simp] theorem core_modTh_nmq (s : State) (l l' : Loc) (k : Fin 16) (f : Thread → Thread) :
    (Machine.core (modTh s l k f) l').nmq = (Machine.core s l').nmq := core_modSlot_nmq ..
@[simp] theorem core_setSt_nmq (s : State) (l l' : Loc) (k : Fin 16) (st : SlotState) :
    (Machine.core (setSt s l k st) l').nmq = (Machine.core s l').nmq := core_modSlot_nmq ..
@[simp] theorem core_modTh_peq (s : State) (l l' : Loc) (k : Fin 16) (f : Thread → Thread) :
    (Machine.core (modTh s l k f) l').peq = (Machine.core s l').peq := core_modSlot_peq ..
@[simp] theorem core_setSt_peq (s : State) (l l' : Loc) (k : Fin 16) (st : SlotState) :
    (Machine.core (setSt s l k st) l').peq = (Machine.core s l').peq := core_modSlot_peq ..
@[simp] theorem core_modTh_engSeq (s : State) (l l' : Loc) (k : Fin 16) (f : Thread → Thread) :
    (Machine.core (modTh s l k f) l').engSeq = (Machine.core s l').engSeq := core_modSlot_engSeq ..
@[simp] theorem core_setSt_engSeq (s : State) (l l' : Loc) (k : Fin 16) (st : SlotState) :
    (Machine.core (setSt s l k st) l').engSeq = (Machine.core s l').engSeq := core_modSlot_engSeq ..
@[simp] theorem core_modTh_sfu (s : State) (l l' : Loc) (k : Fin 16) (f : Thread → Thread) :
    (Machine.core (modTh s l k f) l').sfu = (Machine.core s l').sfu := core_modSlot_sfu ..
@[simp] theorem core_setSt_sfu (s : State) (l l' : Loc) (k : Fin 16) (st : SlotState) :
    (Machine.core (setSt s l k st) l').sfu = (Machine.core s l').sfu := core_modSlot_sfu ..
@[simp] theorem core_modTh_sfuFree (s : State) (l l' : Loc) (k : Fin 16) (f : Thread → Thread) :
    (Machine.core (modTh s l k f) l').sfuFree = (Machine.core s l').sfuFree := core_modSlot_sfuFree ..
@[simp] theorem core_setSt_sfuFree (s : State) (l l' : Loc) (k : Fin 16) (st : SlotState) :
    (Machine.core (setSt s l k st) l').sfuFree = (Machine.core s l').sfuFree := core_modSlot_sfuFree ..
@[simp] theorem core_modTh_xcache (s : State) (l l' : Loc) (k : Fin 16) (f : Thread → Thread) :
    (Machine.core (modTh s l k f) l').xcache = (Machine.core s l').xcache := core_modSlot_xcache ..
@[simp] theorem core_setSt_xcache (s : State) (l l' : Loc) (k : Fin 16) (st : SlotState) :
    (Machine.core (setSt s l k st) l').xcache = (Machine.core s l').xcache := core_modSlot_xcache ..
@[simp] theorem core_modTh_lcache (s : State) (l l' : Loc) (k : Fin 16) (f : Thread → Thread) :
    (Machine.core (modTh s l k f) l').lcache = (Machine.core s l').lcache := core_modSlot_lcache ..
@[simp] theorem core_setSt_lcache (s : State) (l l' : Loc) (k : Fin 16) (st : SlotState) :
    (Machine.core (setSt s l k st) l').lcache = (Machine.core s l').lcache := core_modSlot_lcache ..
@[simp] theorem core_modTh_ifetch (s : State) (l l' : Loc) (k : Fin 16) (f : Thread → Thread) :
    (Machine.core (modTh s l k f) l').ifetch = (Machine.core s l').ifetch := core_modSlot_ifetch ..
@[simp] theorem core_setSt_ifetch (s : State) (l l' : Loc) (k : Fin 16) (st : SlotState) :
    (Machine.core (setSt s l k st) l').ifetch = (Machine.core s l').ifetch := core_modSlot_ifetch ..
@[simp] theorem core_modTh_fwd (s : State) (l l' : Loc) (k : Fin 16) (f : Thread → Thread) :
    (Machine.core (modTh s l k f) l').fwd = (Machine.core s l').fwd := core_modSlot_fwd ..
@[simp] theorem core_setSt_fwd (s : State) (l l' : Loc) (k : Fin 16) (st : SlotState) :
    (Machine.core (setSt s l k st) l').fwd = (Machine.core s l').fwd := core_modSlot_fwd ..
@[simp] theorem core_modTh_spill (s : State) (l l' : Loc) (k : Fin 16) (f : Thread → Thread) :
    (Machine.core (modTh s l k f) l').spill = (Machine.core s l').spill := core_modSlot_spill ..
@[simp] theorem core_setSt_spill (s : State) (l l' : Loc) (k : Fin 16) (st : SlotState) :
    (Machine.core (setSt s l k st) l').spill = (Machine.core s l').spill := core_modSlot_spill ..
@[simp] theorem core_modTh_spillSpoil (s : State) (l l' : Loc) (k : Fin 16) (f : Thread → Thread) :
    (Machine.core (modTh s l k f) l').spillSpoil = (Machine.core s l').spillSpoil := core_modSlot_spillSpoil ..
@[simp] theorem core_setSt_spillSpoil (s : State) (l l' : Loc) (k : Fin 16) (st : SlotState) :
    (Machine.core (setSt s l k st) l').spillSpoil = (Machine.core s l').spillSpoil := core_modSlot_spillSpoil ..
@[simp] theorem core_modTh_links (s : State) (l l' : Loc) (k : Fin 16) (f : Thread → Thread) :
    (Machine.core (modTh s l k f) l').links = (Machine.core s l').links := core_modSlot_links ..
@[simp] theorem core_setSt_links (s : State) (l l' : Loc) (k : Fin 16) (st : SlotState) :
    (Machine.core (setSt s l k st) l').links = (Machine.core s l').links := core_modSlot_links ..
@[simp] theorem core_modTh_ringSpoil (s : State) (l l' : Loc) (k : Fin 16) (f : Thread → Thread) :
    (Machine.core (modTh s l k f) l').ringSpoil = (Machine.core s l').ringSpoil := core_modSlot_ringSpoil ..
@[simp] theorem core_setSt_ringSpoil (s : State) (l l' : Loc) (k : Fin 16) (st : SlotState) :
    (Machine.core (setSt s l k st) l').ringSpoil = (Machine.core s l').ringSpoil := core_modSlot_ringSpoil ..
@[simp] theorem core_modTh_spoilTold (s : State) (l l' : Loc) (k : Fin 16) (f : Thread → Thread) :
    (Machine.core (modTh s l k f) l').spoilTold = (Machine.core s l').spoilTold := core_modSlot_spoilTold ..
@[simp] theorem core_setSt_spoilTold (s : State) (l l' : Loc) (k : Fin 16) (st : SlotState) :
    (Machine.core (setSt s l k st) l').spoilTold = (Machine.core s l').spoilTold := core_modSlot_spoilTold ..
@[simp] theorem core_modTh_scrubAt (s : State) (l l' : Loc) (k : Fin 16) (f : Thread → Thread) :
    (Machine.core (modTh s l k f) l').scrubAt = (Machine.core s l').scrubAt := core_modSlot_scrubAt ..
@[simp] theorem core_setSt_scrubAt (s : State) (l l' : Loc) (k : Fin 16) (st : SlotState) :
    (Machine.core (setSt s l k st) l').scrubAt = (Machine.core s l').scrubAt := core_modSlot_scrubAt ..
@[simp] theorem core_modTh_task (s : State) (l l' : Loc) (k : Fin 16) (f : Thread → Thread) :
    (Machine.core (modTh s l k f) l').task = (Machine.core s l').task := core_modSlot_task ..
@[simp] theorem core_setSt_task (s : State) (l l' : Loc) (k : Fin 16) (st : SlotState) :
    (Machine.core (setSt s l k st) l').task = (Machine.core s l').task := core_modSlot_task ..
@[simp] theorem core_modTh_preempt (s : State) (l l' : Loc) (k : Fin 16) (f : Thread → Thread) :
    (Machine.core (modTh s l k f) l').preempt = (Machine.core s l').preempt := core_modSlot_preempt ..
@[simp] theorem core_setSt_preempt (s : State) (l l' : Loc) (k : Fin 16) (st : SlotState) :
    (Machine.core (setSt s l k st) l').preempt = (Machine.core s l').preempt := core_modSlot_preempt ..
@[simp] theorem core_modTh_inbox (s : State) (l l' : Loc) (k : Fin 16) (f : Thread → Thread) :
    (Machine.core (modTh s l k f) l').inbox = (Machine.core s l').inbox := core_modSlot_inbox ..
@[simp] theorem core_setSt_inbox (s : State) (l l' : Loc) (k : Fin 16) (st : SlotState) :
    (Machine.core (setSt s l k st) l').inbox = (Machine.core s l').inbox := core_modSlot_inbox ..
@[simp] theorem core_modTh_launchq (s : State) (l l' : Loc) (k : Fin 16) (f : Thread → Thread) :
    (Machine.core (modTh s l k f) l').launchq = (Machine.core s l').launchq := core_modSlot_launchq ..
@[simp] theorem core_setSt_launchq (s : State) (l l' : Loc) (k : Fin 16) (st : SlotState) :
    (Machine.core (setSt s l k st) l').launchq = (Machine.core s l').launchq := core_modSlot_launchq ..

/-! ## Fields of cores from the other updates -/

@[simp] theorem core_modDie (s : State) (d : Nat) (f : Die → Die) (l : Loc) : Machine.core (modDie s d f) l = Machine.core s l := by simp [Machine.core]
@[simp] theorem core_modDiePart (s : State) (d pid : Nat) (f : DiePart → DiePart) (l : Loc) : Machine.core (modDiePart s d pid f) l = Machine.core s l := by
  simp [Machine.core]
@[simp] theorem core_count (s : State) (d pid : Nat) (k : Fin 24) (n : Nat) (l : Loc) : Machine.core (count s d pid k n) l = Machine.core s l := by simp [Machine.core]
@[simp] theorem core_modPart (s : State) (pid : Nat) (f : Partition → Partition) (l : Loc) : Machine.core (modPart s pid f) l = Machine.core s l := rfl

end Sys2Proof.Laws
end

