-- ==== Sys2Proof/Laws/Operands.lean ====
section
/-! SUPPORT. Reading operands and writing results: what they can change. Reading changes link queues and counters only; a scalar result changes one
register with its DF bit, or one link. -/

namespace Sys2Proof.Laws

open Sys2Proof.Machine

@[simp] theorem slotAt_modLink (s : State) (l : Loc) (q : Fin 4) (f : LinkDir → LinkDir) (l' : Loc) (k : Fin 16) :
    slotAt (modLink s l q f) l' k = slotAt s l' k := by
  simp only [slotAt, modLink, core_modCore]
  split
  · next h => subst h; rfl
  · rfl

@[simp] theorem thread_modLink (s : State) (l : Loc) (q : Fin 4) (f : LinkDir → LinkDir) (l' : Loc) (k : Fin 16) :
    thread (modLink s l q f) l' k = thread s l' k := by simp only [thread, slotAt_modLink]

/-- What `rearm` can do: a core forgets that a partition has been told. -/
theorem rearm_cases (s : State) (l : Loc) (pid : Nat) :
    rearm s l pid = s ∨ rearm s l pid = modCore s l fun c => { c with spoilTold := c.spoilTold.filter fun p => p != pid } := by
  unfold rearm; split
  · exact .inr rfl
  · exact .inl rfl

@[simp] theorem slotAt_rearm (s : State) (l : Loc) (pid : Nat) (l' : Loc) (k : Fin 16) : slotAt (rearm s l pid) l' k = slotAt s l' k := by
  rcases rearm_cases s l pid with h | h <;> rw [h]
  simp only [slotAt, core_modCore]
  split
  · next h => subst h; rfl
  · rfl

@[simp] theorem slotAt_dequeue (s : State) (l : Loc) (pid : Nat) (q : Fin 4) (l' : Loc) (k : Fin 16) :
    slotAt (dequeue s l pid q) l' k = slotAt s l' k := by
  unfold dequeue; split
  · rfl
  · simp

@[simp] theorem thread_dequeue (s : State) (l : Loc) (pid : Nat) (q : Fin 4) (l' : Loc) (k : Fin 16) :
    thread (dequeue s l pid q) l' k = thread s l' k := by simp only [thread, slotAt_dequeue]

/-- Taking a word leaves memory, the clock, requests, marks and partitions alone. -/
theorem dequeue_fix (s : State) (l : Loc) (pid : Nat) (q : Fin 4) :
    (dequeue s l pid q).mem = s.mem ∧ (dequeue s l pid q).cycle = s.cycle ∧ (dequeue s l pid q).reqs = s.reqs
      ∧ (dequeue s l pid q).poison = s.poison ∧ (dequeue s l pid q).parts = s.parts ∧ (dequeue s l pid q).feEmpty = s.feEmpty := by
  unfold dequeue; split
  · simp
  · next m e _ => rcases rearm_cases (modLink s m e LinkDir.pop) m pid with h | h <;> rw [h] <;> exact ⟨rfl, rfl, rfl, rfl, rfl, rfl⟩

@[simp] theorem mem_dequeue (s : State) (l : Loc) (pid : Nat) (q : Fin 4) : (dequeue s l pid q).mem = s.mem := (dequeue_fix s l pid q).1
@[simp] theorem cycle_dequeue (s : State) (l : Loc) (pid : Nat) (q : Fin 4) : (dequeue s l pid q).cycle = s.cycle := (dequeue_fix s l pid q).2.1

theorem xcache_dequeue (s : State) (l l' : Loc) (pid : Nat) (q : Fin 4) : (Machine.core (dequeue s l pid q) l').xcache = (Machine.core s l').xcache := by
  have h : ∀ m e, (Machine.core (modLink s m e LinkDir.pop) l').xcache = (Machine.core s l').xcache := by
    intro m e; simp only [modLink, core_modCore]; split
    · next h => subst h; rfl
    · rfl
  unfold dequeue; split
  · rfl
  · next m e _ =>
      rcases rearm_cases (modLink s m e LinkDir.pop) m pid with g | g <;> rw [g]
      · exact h m e
      · rw [core_modCore]; split
        · next hl => subst hl; exact h l' e
        · exact h m e

@[simp] theorem slotAt_count (s : State) (d pid : Nat) (k : Fin 24) (n : Nat) (l : Loc) (j : Fin 16) :
    slotAt (count s d pid k n) l j = slotAt s l j := by simp only [slotAt, core_count]

@[simp] theorem thread_count (s : State) (d pid : Nat) (k : Fin 24) (n : Nat) (l : Loc) (j : Fin 16) :
    thread (count s d pid k n) l j = thread s l j := by simp only [thread, slotAt_count]

/-- Reading a source leaves every slot, memory and the clock alone. -/
theorem readSrc_frame (s : State) (x : Cur) (r : Option SReg) :
    (∀ l k, slotAt (readSrc s x r).2 l k = slotAt s l k) ∧ (readSrc s x r).2.mem = s.mem ∧ (readSrc s x r).2.cycle = s.cycle := by
  unfold readSrc
  cases r with
  | none => exact ⟨fun _ _ => rfl, rfl, rfl⟩
  | some r =>
    simp only
    split
    · split
      · simp only; split <;> simp
      · exact ⟨fun _ _ => rfl, rfl, rfl⟩
    · exact ⟨fun _ _ => rfl, rfl, rfl⟩

/-- Reading the operands leaves every slot, memory and the clock alone. -/
theorem readArgs_frame (s : State) (x : Cur) (u : Uses) :
    (∀ l k, slotAt (readArgs s x u).2 l k = slotAt s l k) ∧ (readArgs s x u).2.mem = s.mem ∧ (readArgs s x u).2.cycle = s.cycle := by
  simp only [readArgs]
  have ha := readSrc_frame s x u.a
  have hb := readSrc_frame (readSrc s x u.a).2 x u.b
  have hc := readSrc_frame (readSrc (readSrc s x u.a).2 x u.b).2 x u.c
  have hd := readSrc_frame (readSrc (readSrc (readSrc s x u.a).2 x u.b).2 x u.c).2 x u.d
  exact ⟨fun l k => by rw [hd.1, hc.1, hb.1, ha.1], by rw [hd.2.1, hc.2.1, hb.2.1, ha.2.1], by rw [hd.2.2, hc.2.2, hb.2.2, ha.2.2]⟩

@[simp] theorem slotAt_readArgs (s : State) (x : Cur) (u : Uses) (l : Loc) (k : Fin 16) : slotAt (readArgs s x u).2 l k = slotAt s l k :=
  (readArgs_frame s x u).1 l k
@[simp] theorem thread_readArgs (s : State) (x : Cur) (u : Uses) (l : Loc) (k : Fin 16) : thread (readArgs s x u).2 l k = thread s l k := by
  simp only [thread, slotAt_readArgs]
@[simp] theorem me_readArgs (s : State) (x y : Cur) (u : Uses) : me (readArgs s x u).2 y = me s y := by simp only [me, thread_readArgs]
@[simp] theorem mem_readArgs (s : State) (x : Cur) (u : Uses) : (readArgs s x u).2.mem = s.mem := (readArgs_frame s x u).2.1
@[simp] theorem cycle_readArgs (s : State) (x : Cur) (u : Uses) : (readArgs s x u).2.cycle = s.cycle := (readArgs_frame s x u).2.2

/-- Reading a source leaves extents cached, requests, marks and partitions alone. -/
theorem readSrc_fix (s : State) (x : Cur) (r : Option SReg) (l : Loc) : 
    (Machine.core (readSrc s x r).2 l).xcache = (Machine.core s l).xcache ∧ (readSrc s x r).2.reqs = s.reqs ∧ (readSrc s x r).2.poison = s.poison ∧ (readSrc s x r).2.parts = s.parts ∧ (readSrc s x r).2.feEmpty = s.feEmpty := by
  unfold readSrc
  cases r with
  | none => simp
  | some r =>
    have hd : ∀ pid q, (Machine.core (dequeue s x.loc pid q) l).xcache = (Machine.core s l).xcache ∧ (dequeue s x.loc pid q).reqs = s.reqs
        ∧ (dequeue s x.loc pid q).poison = s.poison ∧ (dequeue s x.loc pid q).parts = s.parts ∧ (dequeue s x.loc pid q).feEmpty = s.feEmpty :=
      fun pid q => ⟨xcache_dequeue .., (dequeue_fix s x.loc pid q).2.2⟩
    simp only
    split
    · split
      · simp only; split <;> simp [hd]
      · simp
    · simp

theorem readArgs_fix (s : State) (x : Cur) (u : Uses) : 
    (readArgs s x u).2.reqs = s.reqs ∧ (readArgs s x u).2.poison = s.poison ∧ (readArgs s x u).2.parts = s.parts ∧ (readArgs s x u).2.feEmpty = s.feEmpty := by
  simp only [readArgs]
  have ha := readSrc_fix s x u.a x.loc
  have hb := readSrc_fix (readSrc s x u.a).2 x u.b x.loc
  have hc := readSrc_fix (readSrc (readSrc s x u.a).2 x u.b).2 x u.c x.loc
  have hd := readSrc_fix (readSrc (readSrc (readSrc s x u.a).2 x u.b).2 x u.c).2 x u.d x.loc
  simp_all

/-- An instruction without a queue among its sources reads its operands from its registers and leaves the state as it is. -/
theorem readSrc_reg (s : State) (x : Cur) (r : SReg) (h : isQueue r = false) :
    readSrc s x (some r) = (if r = 0 then 0 else (me s x).s[r], s) := by
  simp [readSrc, h, me]

/-- A scalar result keeps memory and the clock. -/
@[simp] theorem mem_putS (s : State) (x : Cur) (r : SReg) (v : Word) (df : Bool) : (putS s x r v df).mem = s.mem := by
  unfold putS; split <;> rfl
@[simp] theorem cycle_putS (s : State) (x : Cur) (r : SReg) (v : Word) (df : Bool) : (putS s x r v df).cycle = s.cycle := by
  unfold putS; split <;> rfl

/-- A scalar result leaves every slot but the issuing one alone. -/
theorem slotAt_putS (s : State) (x : Cur) (r : SReg) (v : Word) (df : Bool) (l : Loc) (k : Fin 16) (h : (l, k) ≠ (x.loc, x.slot)) :
    slotAt (putS s x r v df) l k = slotAt s l k := by
  have h' : ¬ (l = x.loc ∧ k = x.slot) := fun ⟨a, b⟩ => h (by rw [a, b])
  unfold putS
  split
  · simp only [enqueue, slotAt_modLink]
  · simp only [modTh, slotAt_modSlot, h', if_false]

end Sys2Proof.Laws
end

