-- ==== Sys2Proof/Laws/Access.lean ====
section
/-! SUPPORT. Accesses to a core's own LM: they pass the address checks, are performed at issue, and with no access waiting anywhere wake nobody. -/

namespace Sys2Proof.Laws

open Sys2Proof.Machine

/-- With no request on a wait list, serving a granule changes nothing. -/
theorem serve_quiet {s : State} (h : ∀ r ∈ s.reqs, ∀ g, r.st ≠ .feList g) (g : Nat) : serve s g = s := by
  have none' : ∀ (f : Request → Option (Request × Perf)) (b : Request × Perf), (∀ r ∈ s.reqs, f r = none) → s.reqs.findSome? f ≠ some b := by
    intro f b hf hb
    obtain ⟨r, hr, he⟩ := List.exists_of_findSome?_eq_some hb
    rw [hf r hr] at he
    exact absurd he (by simp)
  simp only [serve, serveLoop]
  split
  · rfl
  all_goals
    next hb => exact absurd hb (none' _ _ fun r hr => if_neg (h r hr g))

theorem serveAll_quiet {s : State} (h : ∀ r ∈ s.reqs, ∀ g, r.st ≠ .feList g) (key size : Nat) : serveAll s key size = s := by
  unfold serveAll
  generalize List.range ((size + 15) / 16) = l
  induction l with
  | nil => rfl
  | cons a r ih => simp only [List.foldl_cons, serve_quiet h, ih]

/-- The physical addresses of LM and what they tell. -/
theorem isLm_lmKey {d i a : Nat} (hd : d < 20) (hi : i < 4096) (ha : a < 2 ^ 20) : isLm (lmKey d i a) = true := by
  simp only [isLm, lmKey, beq_iff_eq]; omega

theorem isHbm_lmKey {d i a : Nat} (hd : d < 20) (hi : i < 4096) (ha : a < 2 ^ 20) : isHbm (lmKey d i a) = false := by
  have : (2 ^ 60 + d * 2 ^ 40 + i * 2 ^ 20 + a) / 2 ^ 60 = 1 := by omega
  unfold isHbm lmKey; rw [this]; rfl

theorem servedAt_lmKey {d i a : Nat} (hd : d < 20) (hi : i < 4096) (ha : a < 2 ^ 20) : servedAt (lmKey d i a) = .core d i := by
  have h := isLm_lmKey hd hi ha
  have h1 : lmKey d i a % 2 ^ 60 = d * 2 ^ 40 + i * 2 ^ 20 + a := by simp only [lmKey]; omega
  have h2 : (d * 2 ^ 40 + i * 2 ^ 20 + a) / 2 ^ 40 = d := by omega
  have h3 : (d * 2 ^ 40 + i * 2 ^ 20 + a) % 2 ^ 40 / 2 ^ 20 = i := by omega
  simp only [servedAt, h, if_true, h1, h2, h3]

/-- An address of own LM below 0x5C000 passes the checks. -/
theorem addrCheck_own {s : State} {x : Cur} {va : Word} {n : Nat} {p : Partition} {d i : Nat} (k : XKind) (hp : part? s (me s x).part = some p)
    (hl : x.loc = .core d i) (hi : va.toNat + n ≤ 0x5C000) (ha : va.toNat % n = 0) : addrCheck s x va n k = .ok (lmKey d i va.toNat) := by
  have h0 : va.toNat / 2 ^ 48 = 0 := by omega
  have h1 : va.toNat % 2 ^ 48 = va.toNat := by omega
  have h2 : ¬ (2 ^ 56 ≤ va.toNat) := by omega
  have h3 : ¬ (0x60000 < va.toNat + n) := by omega
  have h4 : ¬ (0x5C000 < va.toNat + n) := by omega
  simp only [addrCheck, ha, ne_eq, not_true_eq_false, if_false, h2, hp, xlateCached, place, h0, hl, h1, h3, h4, decide_false, Bool.false_and,
    Bool.false_eq_true]

/-- Own LM is not in the extent cache's space. -/
theorem touch_low {s : State} {x : Cur} {va : Nat} (h : va < 2 ^ 48) : touch s x va = s := by
  have h' : ¬ (16 ≤ va / 2 ^ 48) := by omega
  unfold touch
  split
  · rw [if_neg h']
  · rfl

/-- What an access to own LM does where its act is whole: the act's state and reply, at issue. -/
theorem access_own {s t : State} {x : Cur} {a : Acc} {p : Partition} {d i : Nat} {rep : Reply} (hp : part? s (me s x).part = some p)
    (hl : x.loc = .core d i) (hd : d < 20) (hix : i < 4096) (hi : a.va.toNat + a.size ≤ 0x5C000) (ha : a.va.toNat % a.size = 0)
    (ho : a.relaxed = true ∨ drained s x = true) (hq : ∀ r ∈ t.reqs, ∀ g, r.st ≠ .feList g)
    (hm : memAct s (mkReq s x a (lmKey d i a.va.toNat)) = .done t rep) :
    access s x a = replyNow t x a.va.toNat rep := by
  have hlt : a.va.toNat < 2 ^ 20 := by omega
  have hord : (!a.relaxed && !drained s x) = false := by rcases ho with h | h <;> simp [h]
  simp only [access, addrCheck_own a.kind hp hl hi ha, isHbm_lmKey hd hix hlt, Bool.and_false, Bool.false_eq_true, if_false,
    touch_low (s := s) (x := x) (show a.va.toNat < 2 ^ 48 by omega), accessAt, hord, isLm_lmKey hd hix hlt, servedAt_lmKey hd hix hlt, hl,
    beq_self_eq_true, Bool.and_self, if_true]
  rw [ownAct, hm]
  simp only [serveAll_quiet hq, mkReq]

/-- An instruction whose rule is one access to own LM, the act of which is whole: it completes with the act's state and its reply's registers. -/
theorem own_go {i : Instr} {f : Form} {s t : State} {x : Cur} {key : Nat} {rep : Reply} {a : Args → State → Acc} 
  (hf : formOf i = some f) (hr : Ready i s x) (he : ∀ s, exec i s = issue s f.len f.h f.u fun x v s => access s x (a v s))
  (ho : OwnLm s x (a (argsOf i s x).1 (argsOf i s x).2).relaxed (a (argsOf i s x).1 (argsOf i s x).2).va.toNat (a (argsOf i s x).1 (argsOf i s x).2).size key)
  (hq : t.reqs = s.reqs)
  (hm : ∀ r, r.key = key → r.op = (a (argsOf i s x).1 (argsOf i s x).2).op → memAct (argsOf i s x).2 r = .done t rep)
  {u : State} (hu : replyNow t x (a (argsOf i s x).1 (argsOf i s x).2).va.toNat rep = .go u) : exec i s = .next (ends i x u) := by
  refine exec_ends (body := fun x v s => access s x (a v s)) hr hf (he s) ?_
  obtain ⟨hp, ⟨d, idx, hl, hd, hix, hk⟩, hin, hal, hso, hqu, hord, hc⟩ := ho
  have fr := readArgs_fix s x f.u
  have e2 : (argsOf i s x).2 = (readArgs s x f.u).2 := by simp only [argsOf, hf]
  obtain ⟨p, hp⟩ := Option.isSome_iff_exists.1 hp
  have : idx < 4096 := by unfold coresOn at hix; split at hix <;> omega
  rw [access_own (t := t) (p := p) (d := d) (i := idx) (rep := rep), hu]
  · rw [e2]; simp only [me_readArgs, part?, fr]; exact hp
  · exact hl
  · exact hd
  · exact this
  · exact hin
  · exact hal
  · rcases hord with h | h
    · exact .inl h
    · right; rw [e2]; simp only [drained, relaxedOpen, me_readArgs, fr]; exact h
  · rw [hq]; exact hqu
  · exact hm _ (by simp [mkReq, hk]) rfl

end Sys2Proof.Laws
end

