-- ==== Sys2Proof/Laws/Agent.lean ====
section
/-! SUPPORT. What the accesses of engines and service cores do to the queues of the banks: an agent's turn changes the requests, the next number and a
refusal's counter only. -/

namespace Sys2Proof.Laws

open Sys2Proof.Machine

/-- What a turn in the queues leaves alone. -/
structure TurnKeeps (s t : State) : Prop where
  mem : t.mem = s.mem
  cores : t.cores = s.cores
  parts : t.parts = s.parts
  poison : t.poison = s.poison
  feEmpty : t.feEmpty = s.feEmpty
  hostOld : t.hostOld = s.hostOld
  svcCores : t.svcCores = s.svcCores
  host : t.host = s.host
  cycle : t.cycle = s.cycle
  free : t.free = s.free

theorem TurnKeeps.refl (s : State) : TurnKeeps s s := ⟨rfl, rfl, rfl, rfl, rfl, rfl, rfl, rfl, rfl, rfl⟩

theorem TurnKeeps.trans {s t u : State} (a : TurnKeeps s t) (b : TurnKeeps t u) : TurnKeeps s u :=
  ⟨b.mem.trans a.mem, b.cores.trans a.cores, b.parts.trans a.parts, b.poison.trans a.poison, b.feEmpty.trans a.feEmpty, b.hostOld.trans a.hostOld,
    b.svcCores.trans a.svcCores, b.host.trans a.host, b.cycle.trans a.cycle, b.free.trans a.free⟩

theorem turnKeeps_dropTickets (s : State) (f : Request → Bool) : TurnKeeps s (dropTickets s f) := ⟨rfl, rfl, rfl, rfl, rfl, rfl, rfl, rfl, rfl, rfl⟩

theorem turnKeeps_enterBanks (s : State) (r : Request) : TurnKeeps s (enterBanks s r) := ⟨rfl, rfl, rfl, rfl, rfl, rfl, rfl, rfl, rfl, rfl⟩

theorem turnKeeps_count (s : State) (d pid : Nat) (k : Fin 24) (n : Nat) : TurnKeeps s (count s d pid k n) := by
  constructor <;> simp

theorem turnKeeps_refuseReq (s : State) (r : Request) : TurnKeeps s (refuseReq s r) := by
  have e : ∀ f : Request → Request, TurnKeeps s (setReq (escalate s r.refused r.esc).2 r.id f) := by
    intro f; unfold escalate; split <;> exact ⟨rfl, rfl, rfl, rfl, rfl, rfl, rfl, rfl, rfl, rfl⟩
  unfold refuseReq
  simp only
  split
  · exact e _
  · exact (e _).trans (turnKeeps_count ..)

/-- What an agent's turn can do, whether or not the access may act now. -/
theorem agentTurn_keeps (s : State) (a : Agent) (key : Nat) : TurnKeeps s (agentTurn s a key).2 := by
  have go : ∀ (b : Bank) (r : Request) (t : State), TurnKeeps s t →
      TurnKeeps s ((if r.st == .queued then (if firstIn t r b then (true, dropTickets t a.owns) else (false, t))
        else if !bankAdmits t r b then (false, refuseReq t r)
        else if (inBank t b).isEmpty then (true, dropTickets t a.owns)
        else (false, enterBanks t r) : Bool × State).2) := by
    intro b r t h
    split
    · split
      · exact h.trans (turnKeeps_dropTickets ..)
      · exact h
    · split
      · exact h.trans (turnKeeps_refuseReq ..)
      · split
        · exact h.trans (turnKeeps_dropTickets ..)
        · exact h.trans (turnKeeps_enterBanks ..)
  have new : ∀ (t : State) (r : Request), TurnKeeps s t → TurnKeeps s { (newId t).2 with reqs := t.reqs ++ [r] } := fun t r h =>
    h.trans ⟨rfl, rfl, rfl, rfl, rfl, rfl, rfl, rfl, rfl, rfl⟩
  unfold agentTurn
  split
  · exact .refl s
  · next b _ =>
    simp only
    split
    · split
      · exact go b _ s (.refl s)
      · exact go b _ _ (new _ _ (turnKeeps_dropTickets ..))
    · exact go b _ _ (new _ _ (.refl s))

end Sys2Proof.Laws
end

