-- ==== Sys2Proof/Laws/Encode.lean ====
section
/-! SUPPORT. Lemmas about packing and unpacking fields: for each format, a word that the encoder makes decodes to its instruction where the family's
decoder answers it for the fields. -/

namespace Sys2Proof.Laws.Encode

open Sys2Proof.Machine

/-- Every value fits its field. -/
def Fits : List (Nat × Nat) → Prop
  | [] => True
  | (w, v) :: r => v < 2 ^ w ∧ Fits r

/-- Fields come out as they went in. -/
theorem unpack_pack : ∀ (l : List (Nat × Nat)), Fits l → unpack (l.map Prod.fst) (pack l) = l.map Prod.snd
  | [], _ => rfl
  | (w, v) :: r, h => by
    obtain ⟨h1, h2⟩ := h
    have hpos : 0 < 2 ^ w := Nat.two_pow_pos w
    simp only [pack, unpack, List.map_cons, Nat.add_mul_mod_self_left, Nat.mod_eq_of_lt h1, List.cons.injEq, true_and]
    rw [Nat.add_mul_div_left _ _ hpos, Nat.div_eq_of_lt h1, Nat.zero_add]
    exact unpack_pack r h2

theorem pack_lt : ∀ (l : List (Nat × Nat)), Fits l → pack l < 2 ^ (l.map Prod.fst).sum
  | [], _ => by simp [pack]
  | (w, v) :: r, h => by
    obtain ⟨h1, h2⟩ := h
    have ih := pack_lt r h2
    simp only [pack, List.map_cons, List.sum_cons, Nat.pow_add]
    have hv : v + 1 ≤ 2 ^ w := h1
    have : 2 ^ w * (pack r + 1) ≤ 2 ^ w * 2 ^ (r.map Prod.fst).sum := Nat.mul_le_mul_left _ ih
    rw [Nat.mul_add, Nat.mul_one] at this
    omega

@[simp] theorem fin_val {k : Nat} [NeZero k] (x : Fin k) : (fin x.val : Fin k) = x := by
  simp [fin, Fin.ofNat, Nat.mod_eq_of_lt x.isLt]
@[simp] theorem bit_toNat (b : Bool) : bit b.toNat = b := by cases b <;> rfl

theorem toNat_lt_two (b : Bool) : b.toNat < 2 := by cases b <;> decide

/-- The base word of format R (03 R81). -/
def wordR (h : Hdr) (op fn d a b ma mb : Nat) : Nat :=
  pack (encHdr h 1 op ++ [(6, d), (6, a), (6, b), (6, fn), (3, h.pg.val), (1, h.pn.toNat), (8, ma), (8, mb), (9, 0)])
/-- Format I. -/
def wordI (h : Hdr) (op fn d a : Nat) (imm : List (Nat × Nat)) : Nat :=
  pack (encHdr h 1 op ++ [(6, d), (6, a), (6, fn), (3, h.pg.val), (1, h.pn.toNat), (31, pack imm)])
/-- Format W. -/
def wordW (h : Hdr) (op fn d a : Nat) (imm : List (Nat × Nat)) : Nat :=
  pack (encHdr h 2 op ++ [(6, d), (6, a), (5, fn), (3, h.pg.val), (1, h.pn.toNat), (64, pack imm)])
/-- Format E. -/
def wordE (h : Hdr) (op fn d a b c : Nat) (imm : List (Nat × Nat)) : Nat :=
  pack (encHdr h 3 op ++ [(6, d), (6, a), (6, b), (6, c), (6, fn), (3, h.pg.val), (1, h.pn.toNat), (19, 0), (64, pack imm)])

theorem fieldsR_wordR {h : Hdr} {op fn d a b ma mb : Nat} (ho : op < 256) (hf : fn < 64) (hd : d < 64) (ha : a < 64) (hb : b < 64)
    (hma : ma < 256) (hmb : mb < 256) :
    fieldsR (wordR h op fn d a b ma mb) = ⟨h, fn, d, a, b, 0, ma, mb, 0, 0⟩ := by
  have hp := h.pg.isLt
  have := unpack_pack (encHdr h 1 op ++ [(6, d), (6, a), (6, b), (6, fn), (3, h.pg.val), (1, h.pn.toNat), (8, ma), (8, mb), (9, 0)])
    (by have := toNat_lt_two h.sw; have := toNat_lt_two h.pn; simp [encHdr, Fits]; omega)
  simp only [encHdr, List.cons_append, List.nil_append, List.map_cons, List.map_nil] at this
  unfold fieldsR wordR
  simp only [encHdr, List.cons_append, List.nil_append]
  rw [this]
  simp

theorem fieldsI_wordI {h : Hdr} {op fn d a : Nat} {imm : List (Nat × Nat)} (ho : op < 256) (hf : fn < 64) (hd : d < 64) (ha : a < 64) 
    (hi : pack imm < 2 ^ 31) :
    fieldsI (wordI h op fn d a imm) = ⟨h, fn, d, a, 0, 0, 0, 0, 0, pack imm⟩ := by
  have hp := h.pg.isLt
  have := unpack_pack (encHdr h 1 op ++ [(6, d), (6, a), (6, fn), (3, h.pg.val), (1, h.pn.toNat), (31, pack imm)])
    (by have := toNat_lt_two h.sw; have := toNat_lt_two h.pn; simp [encHdr, Fits]; omega)
  simp only [encHdr, List.cons_append, List.nil_append, List.map_cons, List.map_nil] at this
  unfold fieldsI wordI
  simp only [encHdr, List.cons_append, List.nil_append]
  rw [this]
  simp

theorem fieldsW_wordW {h : Hdr} {op fn d a : Nat} {imm : List (Nat × Nat)} (ho : op < 256) (hf : fn < 32) (hd : d < 64) (ha : a < 64) 
    (hi : pack imm < 2 ^ 64) :
    fieldsW (wordW h op fn d a imm) = ⟨h, fn, d, a, 0, 0, 0, 0, 0, pack imm⟩ := by
  have hp := h.pg.isLt
  have := unpack_pack (encHdr h 2 op ++ [(6, d), (6, a), (5, fn), (3, h.pg.val), (1, h.pn.toNat), (64, pack imm)])
    (by have := toNat_lt_two h.sw; have := toNat_lt_two h.pn; simp [encHdr, Fits]; omega)
  simp only [encHdr, List.cons_append, List.nil_append, List.map_cons, List.map_nil] at this
  unfold fieldsW wordW
  simp only [encHdr, List.cons_append, List.nil_append]
  rw [this]
  simp

theorem fieldsE_wordE {h : Hdr} {op fn d a b c : Nat} {imm : List (Nat × Nat)} (ho : op < 256) (hf : fn < 64) (hd : d < 64) (ha : a < 64) (hb : b < 64)
    (hc : c < 64) (hi : pack imm < 2 ^ 64) :
    fieldsE (wordE h op fn d a b c imm) = ⟨h, fn, d, a, b, c, 0, 0, 0, pack imm⟩ := by
  have hp := h.pg.isLt
  have := unpack_pack (encHdr h 3 op ++ [(6, d), (6, a), (6, b), (6, c), (6, fn), (3, h.pg.val), (1, h.pn.toNat), (19, 0), (64, pack imm)])
    (by have := toNat_lt_two h.sw; have := toNat_lt_two h.pn; simp [encHdr, Fits]; omega)
  simp only [encHdr, List.cons_append, List.nil_append, List.map_cons, List.map_nil] at this
  unfold fieldsE wordE
  simp only [encHdr, List.cons_append, List.nil_append]
  rw [this]
  simp

/-- Any base word by its length code, S bit, OP and the bits above (03 R78). -/
def wordOf (len : Nat) (h : Hdr) (op : Nat) (rest : Nat) : Nat := len + 4 * (h.sw.toNat + 2 * (op + 256 * rest))

/-- A base word without prefix decodes to what its family makes of it. -/
theorem decode_plain {x : DecodeCtx} {off len : Nat} {h : Hdr} {op rest tail : Nat} {w : Nat} {i : Instr}
    (hl : 0 < len ∧ len < 4) (ho : opLen op = some len) (hop : op < 256) (hw : w = wordOf len h op rest) (hlt : w < 2 ^ (8 * baseBytes len))
    (hoff : off + baseBytes len ≤ 32) (hprof : ¬ ((op = 0x88 ∧ x.attn = false) ∨ (op = 0x90 ∧ x.attn = true)))
    (hd : decodeOp x op none w = .ok i) :
    decode x off (w + 2 ^ (8 * baseBytes len) * tail) = .ok (i, baseBytes len) := by
  have hsw := toNat_lt_two h.sw
  have hbb : 8 * baseBytes len ≥ 64 := by
    obtain ⟨a, b⟩ := hl
    have : len = 1 ∨ len = 2 ∨ len = 3 := by omega
    rcases this with rfl | rfl | rfl <;> decide
  have h4 : ∃ q, 2 ^ (8 * baseBytes len) * tail = 2 ^ 32 * q ∧ 2^32 * q % 2048 = 0 := by
    refine ⟨2 ^ (8 * baseBytes len - 32) * tail, ?_, ?_⟩
    · rw [← Nat.mul_assoc, ← Nat.pow_add]; congr 2; omega
    · rw [show (2:Nat) ^ 32 = 2048 * 2 ^ 21 by decide, Nat.mul_assoc, Nat.mul_mod_right]
  obtain ⟨q, hq, hq2⟩ := h4
  generalize hW : w + 2 ^ (8 * baseBytes len) * tail = W
  have hW1 : W % 2048 = (len + 4 * (h.sw.toNat + 2 * op)) % 2048 := by
    rw [← hW, hq, hw, wordOf]; omega
  have e1 : W % 4 = len := by omega
  have e2 : fld W 3 8 = op := by simp only [fld]; omega
  have e3 : baseBytes W = baseBytes len := by simp only [baseBytes, e1, Nat.mod_eq_of_lt hl.2]
  have e4 : W % 2 ^ 32 ≠ 4 := by omega
  have e5 : W % 2 ^ 32 ≠ 0 := by omega
  have e6 : W % 2 ^ (8 * baseBytes len) = w := by rw [← hW, Nat.add_mul_mod_self_left, Nat.mod_eq_of_lt hlt]
  have e7 : ¬ len = 0 := by omega
  have e8 : 4 ≤ baseBytes len := by
    unfold baseBytes; split <;> omega
  have e9 : ¬ (off + 0 + 4 > 32) := by omega
  have e10 : ¬ (off + (0 + baseBytes len) > 32) := by omega
  have e11 : ((op == 0x88 && !x.attn) || (op == 0x90 && x.attn)) = false := by
    simp only [Bool.or_eq_false_iff, Bool.and_eq_false_iff, beq_eq_false_iff_ne, Bool.not_eq_eq_eq_not]
    simp only [not_or, not_and] at hprof
    obtain ⟨p1, p2⟩ := hprof
    constructor
    · by_cases h : op = 0x88
      · right; simpa using p1 h
      · left; exact h
    · by_cases h : op = 0x90
      · right; simpa using p2 h
      · left; exact h
  have e12 : (len == 0) = false := by simp [e7]
  have e13 : (W % 2 ^ 32 == 4) = false := by simpa using e4
  have e14 : (W % 2 ^ 32 == 0) = false := by simpa using e5
  unfold decode
  simp only [e12, e13, e14, Bool.false_eq_true, ↓reduceIte, e1, e2, e3, e6, e9, e10, hd, ho, e11, Bool.false_and, Bool.or_self, bne_self_eq_false, Nat.zero_add, Nat.add_zero,
    decide_false, Bool.false_or]
  simp [hoff]

/-- A base word after a prefix. -/
theorem decode_pfx {x : DecodeCtx} {off len : Nat} {h : Hdr} {op rest tail : Nat} {w n : Nat} {i : Instr}
    (hl : 0 < len ∧ len < 4) (ho : opLen op = some len) (hop : op < 256) (hw : w = wordOf len h op rest) (hlt : w < 2 ^ (8 * baseBytes len))
    (hn : n % 4 = 0 ∧ n < 2 ^ 32 ∧ n ≠ 4 ∧ n ≠ 0)
    (hoff : off + (4 + baseBytes len) ≤ 32) (hprof : ¬ ((op = 0x88 ∧ x.attn = false) ∨ (op = 0x90 ∧ x.attn = true)))
    (hd : decodeOp x op (some n) w = .ok i) :
    decode x off (n + 2 ^ 32 * (w + 2 ^ (8 * baseBytes len) * tail)) = .ok (i, 4 + baseBytes len) := by
  have hsw := toNat_lt_two h.sw
  have hbb : 8 * baseBytes len ≥ 64 := by
    obtain ⟨a, b⟩ := hl
    have : len = 1 ∨ len = 2 ∨ len = 3 := by omega
    rcases this with rfl | rfl | rfl <;> decide
  have h4 : ∃ q, 2 ^ (8 * baseBytes len) * tail = 2 ^ 32 * q := by
    refine ⟨2 ^ (8 * baseBytes len - 32) * tail, ?_⟩
    rw [← Nat.mul_assoc, ← Nat.pow_add]; congr 2; omega
  obtain ⟨q, hq⟩ := h4
  generalize hW : w + 2 ^ (8 * baseBytes len) * tail = W
  have hW1 : W % 2048 = (len + 4 * (h.sw.toNat + 2 * op)) % 2048 := by
    rw [← hW, hq, hw, wordOf]; omega
  have e1 : W % 4 = len := by omega
  have e2 : fld W 3 8 = op := by simp only [fld]; omega
  have e3 : baseBytes W = baseBytes len := by simp only [baseBytes, e1, Nat.mod_eq_of_lt hl.2]
  have e6 : W % 2 ^ (8 * baseBytes len) = w := by rw [← hW, Nat.add_mul_mod_self_left, Nat.mod_eq_of_lt hlt]
  have e7 : ¬ len = 0 := by omega
  obtain ⟨n1, n2, n3, n4⟩ := hn
  generalize hV : n + 2 ^ 32 * W = V
  have v1 : V % 2 ^ 32 = n := by rw [← hV, Nat.add_mul_mod_self_left, Nat.mod_eq_of_lt n2]
  have v2 : V / 2 ^ 32 = W := by
    rw [← hV, Nat.add_mul_div_left _ _ (by decide), Nat.div_eq_of_lt n2, Nat.zero_add]
  have v3 : V % 4 = 0 := by omega
  have e9 : ¬ (off + 4 + 4 > 32) := by
    have : 4 ≤ baseBytes len := by unfold baseBytes; split <;> omega
    omega
  have e10 : ¬ (off + (4 + baseBytes len) > 32) := by omega
  have e11 : ((op == 0x88 && !x.attn) || (op == 0x90 && x.attn)) = false := by
    simp only [Bool.or_eq_false_iff, Bool.and_eq_false_iff, beq_eq_false_iff_ne, Bool.not_eq_eq_eq_not]
    simp only [not_or, not_and] at hprof
    obtain ⟨p1, p2⟩ := hprof
    constructor
    · by_cases h : op = 0x88
      · right; simpa using p1 h
      · left; exact h
    · by_cases h : op = 0x90
      · right; simpa using p2 h
      · left; exact h
  have e12 : (len == 0) = false := by simp [e7]
  have e13 : (n == 4) = false := by simpa using n3
  have e14 : (n == 0) = false := by simpa using n4
  unfold decode
  simp only [v1, v2, v3, beq_self_eq_true, e12, e13, e14, Bool.false_eq_true, ↓reduceIte, e1, e2, e3, e6, e9, e10, hd, ho, e11, Bool.false_and, Bool.or_self, bne_self_eq_false, 
    decide_false, Bool.false_or, Bool.and_false]

/-- A prefix parcel that is not zero and not the pad parcel. -/
def PrefixOk (p : Option Nat) : Prop := match p with | none => True | some n => n % 4 = 0 ∧ n < 2 ^ 32 ∧ n ≠ 4 ∧ n ≠ 0
/-- Bytes of the prefix. -/
def prefixLen (p : Option Nat) : Nat := match p with | none => 0 | some _ => 4
/-- The profile has the opcode (03 R94). -/
def ProfileOk (x : DecodeCtx) (op : Nat) : Prop := ¬ ((op = 0x88 ∧ x.attn = false) ∨ (op = 0x90 ∧ x.attn = true))

/-- Decoding an encoding gives the instruction back where its family decodes the word to it. -/
theorem round_trip {x : DecodeCtx} {off len : Nat} {h : Hdr} {op r tail : Nat} {w : Nat} {p : Option Nat} {i : Instr}
    (he : encodeFields i = encPfx p ++ [(8 * baseBytes len, w)])
    (hl : 0 < len ∧ len < 4) (ho : opLen op = some len) (hop : op < 256) (hw : w = wordOf len h op r) (hlt : w < 2 ^ (8 * baseBytes len))
    (hp : PrefixOk p) (hprof : ProfileOk x op)
    (hoff : off + encodeBytes i ≤ 32) 
    (hd : decodeOp x op p w = .ok i) :
    decode x off (encode i + 2 ^ (8 * encodeBytes i) * tail) = .ok (i, encodeBytes i) := by
  have hb : encodeBytes i = prefixLen p + baseBytes len := by
    unfold encodeBytes; rw [he]
    cases p <;> simp [encPfx, prefixLen] <;> omega
  rw [hb] at hoff ⊢
  unfold encode
  rw [he]
  cases p with
  | none =>
    have := decode_plain (tail := tail) hl ho hop hw hlt (by simpa [prefixLen] using hoff) hprof hd
    simpa [encPfx, pack, prefixLen] using this
  | some n =>
    have := decode_pfx (tail := tail) hl ho hop hw hlt hp (by simpa [prefixLen] using hoff) hprof hd
    show _ = Except.ok (i, 4 + baseBytes len)
    rw [← this]
    congr 1
    simp only [encPfx, List.cons_append, List.nil_append, pack, prefixLen, Nat.mul_zero, Nat.add_zero]
    rw [show 8 * (4 + baseBytes len) = 32 + 8 * baseBytes len by omega, Nat.pow_add, Nat.mul_assoc, Nat.mul_add]
    omega

/-- The same for format R, from the fields. -/
theorem round_trip_R {x : DecodeCtx} {off : Nat} {h : Hdr} {op fn d a b ma mb tail : Nat} {p : Option Nat} {i : Instr}
    (he : encodeFields i = encR p h op fn d a b ma mb)
    (ho : opLen op = some 1) (hop : op < 256) 
    (hf : fn < 64) (hdd : d < 64) (ha : a < 64) (hbb : b < 64) (hma : ma < 256) (hmb : mb < 256)
    (hp : PrefixOk p) (hprof : ProfileOk x op)
    (hoff : off + encodeBytes i ≤ 32) 
    (hd : ∀ w, fieldsR w = ⟨h, fn, d, a, b, 0, ma, mb, 0, 0⟩ → decodeOp x op p w = .ok i) :
    decode x off (encode i + 2 ^ (8 * encodeBytes i) * tail) = .ok (i, encodeBytes i) := by
  refine round_trip (len := 1) (op := op) (w := wordR h op fn d a b ma mb) (h := h) (p := p) 
    (r := pack [(6, d), (6, a), (6, b), (6, fn), (3, h.pg.val), (1, h.pn.toNat), (8, ma), (8, mb), (9, 0)]) 
    he (by decide) ho hop ?_ ?_ hp hprof hoff (hd _ (fieldsR_wordR hop hf hdd ha hbb hma hmb))
  · simp [wordR, encHdr, pack, wordOf]
  · have hpg := h.pg.isLt
    exact pack_lt (encHdr h 1 op ++ [(6, d), (6, a), (6, b), (6, fn), (3, h.pg.val), (1, h.pn.toNat), (8, ma), (8, mb), (9, 0)])
      (by have := toNat_lt_two h.sw; have := toNat_lt_two h.pn; simp [encHdr, Fits]; omega)

/-- Format I. -/
theorem round_trip_I {x : DecodeCtx} {off : Nat} {h : Hdr} {op fn d a tail : Nat} {imm : List (Nat × Nat)} {p : Option Nat} {i : Instr}
    (he : encodeFields i = encI p h op fn d a imm)
    (ho : opLen op = some 1) (hop : op < 256) 
    (hf : fn < 64) (hdd : d < 64) (ha : a < 64) (hi : pack imm < 2 ^ 31)
    (hp : PrefixOk p) (hprof : ProfileOk x op)
    (hoff : off + encodeBytes i ≤ 32) 
    (hd : ∀ w, fieldsI w = ⟨h, fn, d, a, 0, 0, 0, 0, 0, pack imm⟩ → decodeOp x op p w = .ok i) :
    decode x off (encode i + 2 ^ (8 * encodeBytes i) * tail) = .ok (i, encodeBytes i) := by
  refine round_trip (len := 1) (op := op) (w := wordI h op fn d a imm) (h := h) (p := p) 
    (r := pack [(6, d), (6, a), (6, fn), (3, h.pg.val), (1, h.pn.toNat), (31, pack imm)]) 
    he (by decide) ho hop ?_ ?_ hp hprof hoff (hd _ (fieldsI_wordI hop hf hdd ha hi))
  · simp [wordI, encHdr, pack, wordOf]
  · have hpg := h.pg.isLt
    exact pack_lt (encHdr h 1 op ++ [(6, d), (6, a), (6, fn), (3, h.pg.val), (1, h.pn.toNat), (31, pack imm)])
      (by have := toNat_lt_two h.sw; have := toNat_lt_two h.pn; simp [encHdr, Fits]; omega)

/-- Format W. -/
theorem round_trip_W {x : DecodeCtx} {off : Nat} {h : Hdr} {op fn d a tail : Nat} {imm : List (Nat × Nat)} {p : Option Nat} {i : Instr}
    (he : encodeFields i = encW p h op fn d a imm)
    (ho : opLen op = some 2) (hop : op < 256) 
    (hf : fn < 32) (hdd : d < 64) (ha : a < 64) (hi : pack imm < 2 ^ 64)
    (hp : PrefixOk p) (hprof : ProfileOk x op)
    (hoff : off + encodeBytes i ≤ 32) 
    (hd : ∀ w, fieldsW w = ⟨h, fn, d, a, 0, 0, 0, 0, 0, pack imm⟩ → decodeOp x op p w = .ok i) :
    decode x off (encode i + 2 ^ (8 * encodeBytes i) * tail) = .ok (i, encodeBytes i) := by
  refine round_trip (len := 2) (op := op) (w := wordW h op fn d a imm) (h := h) (p := p) 
    (r := pack [(6, d), (6, a), (5, fn), (3, h.pg.val), (1, h.pn.toNat), (64, pack imm)]) 
    he (by decide) ho hop ?_ ?_ hp hprof hoff (hd _ (fieldsW_wordW hop hf hdd ha hi))
  · simp [wordW, encHdr, pack, wordOf]
  · have hpg := h.pg.isLt
    exact pack_lt (encHdr h 2 op ++ [(6, d), (6, a), (5, fn), (3, h.pg.val), (1, h.pn.toNat), (64, pack imm)])
      (by have := toNat_lt_two h.sw; have := toNat_lt_two h.pn; simp [encHdr, Fits]; omega)

/-- Format E. -/
theorem round_trip_E {x : DecodeCtx} {off : Nat} {h : Hdr} {op fn d a b c tail : Nat} {imm : List (Nat × Nat)} {p : Option Nat} {i : Instr}
    (he : encodeFields i = encE p h op fn d a b c imm)
    (ho : opLen op = some 3) (hop : op < 256) 
    (hf : fn < 64) (hdd : d < 64) (ha : a < 64) (hbb : b < 64) (hc : c < 64) (hi : pack imm < 2 ^ 64)
    (hp : PrefixOk p) (hprof : ProfileOk x op)
    (hoff : off + encodeBytes i ≤ 32) 
    (hd : ∀ w, fieldsE w = ⟨h, fn, d, a, b, c, 0, 0, 0, pack imm⟩ → decodeOp x op p w = .ok i) :
    decode x off (encode i + 2 ^ (8 * encodeBytes i) * tail) = .ok (i, encodeBytes i) := by
  refine round_trip (len := 3) (op := op) (w := wordE h op fn d a b c imm) (h := h) (p := p) 
    (r := pack [(6, d), (6, a), (6, b), (6, c), (6, fn), (3, h.pg.val), (1, h.pn.toNat), (19, 0), (64, pack imm)]) 
    he (by decide) ho hop ?_ ?_ hp hprof hoff (hd _ (fieldsE_wordE hop hf hdd ha hbb hc hi))
  · simp [wordE, encHdr, pack, wordOf]
  · have hpg := h.pg.isLt
    exact pack_lt (encHdr h 3 op ++ [(6, d), (6, a), (6, b), (6, c), (6, fn), (3, h.pg.val), (1, h.pn.toNat), (19, 0), (64, pack imm)])
      (by have := toNat_lt_two h.sw; have := toNat_lt_two h.pn; simp [encHdr, Fits]; omega)

/-- The fields of a packed immediate. -/
theorem fld_take {w v : Nat} {r : List (Nat × Nat)} (h : v < 2 ^ w) : fld (pack ((w, v) :: r)) 0 w = v := by
  simp [fld, pack, Nat.mod_eq_of_lt h]

theorem fld_skip {w v lo w' : Nat} {r : List (Nat × Nat)} (h : v < 2 ^ w) (hl : w ≤ lo) : fld (pack ((w, v) :: r)) lo w' = fld (pack r) (lo - w) w' := by
  have hp : 0 < 2 ^ w := Nat.two_pow_pos w
  simp only [fld, pack]
  rw [show (2:Nat) ^ lo = 2 ^ w * 2 ^ (lo - w) by rw [← Nat.pow_add]; congr 1; omega, ← Nat.div_div_eq_div_mul, Nat.add_mul_div_left _ _ hp, Nat.div_eq_of_lt h, Nat.zero_add]

theorem fld_zero {w w' : Nat} {r : List (Nat × Nat)} (hl : w ≤ w') : fld (pack ((w, 0) :: r)) 0 w' = 2 ^ w * fld (pack r) 0 (w' - w) := by
  simp only [fld, pack, Nat.zero_add, Nat.pow_zero, Nat.div_one]
  rw [show (2:Nat) ^ w' = 2 ^ w * 2 ^ (w' - w) by rw [← Nat.pow_add]; congr 1; omega, Nat.mul_mod_mul_left]

theorem fld_nil {lo w : Nat} : fld (pack []) lo w = 0 := by simp [fld, pack]

theorem fld_w0 {n lo : Nat} : fld n lo 0 = 0 := by simp [fld, Nat.mod_one]

theorem size_num_lt (s : Size) : s.num < 4 := by cases s <;> decide

theorem size_ofNum_num (s : Size) : Size.ofNum s.num = s := by cases s <;> rfl

theorem pdst_num_lt (d : PDst) : d.num < 12 := by
  cases d with
  | p r => have := r.isLt; simp only [PDst.num]; omega
  | g r => have := r.isLt; simp only [PDst.num]; omega

theorem pdst_ofNum_num (d : PDst) : PDst.ofNum d.num = d := by
  cases d with
  | p r => have := r.isLt; simp [PDst.num, PDst.ofNum]
  | g r => have h : ¬ (8 + r.val < 8) := by omega
           simp [PDst.num, PDst.ofNum, h]

theorem laneMod_num_lt (m : LaneMod) : m.num < 192 := by
  cases m with
  | none => decide
  | rev => decide
  | rot k | g8 k | bc k | xor k => have := k.isLt; simp only [LaneMod.num]; omega

theorem laneOf_num (m : LaneMod) : laneOf m.num = m := by
  cases m with
  | none => rfl
  | rev => rfl
  | rot k | g8 k | bc k | xor k => revert k; decide

theorem laneOk_num (m : LaneMod) (h : m.wf = true) : laneOk m.num = true := by
  cases m with
  | none => rfl
  | rev => rfl
  | rot k => revert k; decide
  | g8 k => revert k; decide
  | bc k => revert k; decide
  | xor k => revert k; decide

theorem rnd_num_lt (r : Rnd) : r.num < 5 := by cases r <;> decide

theorem rnd_ofNum_num (r : Rnd) : Rnd.ofNum r.num = r := by cases r <;> rfl

theorem scope_num_lt (r : Scope) : r.num < 5 := by cases r <;> decide

theorem scope_ofNum_num (r : Scope) : Scope.ofNum r.num = r := by cases r <;> rfl

theorem fmt_num_lt (r : Fmt) : r.num < 15 := by cases r <;> decide

theorem fmt_ofNum_num (r : Fmt) : Fmt.ofNum r.num = some r := by cases r <;> rfl

theorem mpfxOf_enc (m : MPfx) : mpfxOf m.enc = m := by
  obtain ⟨s⟩ := m
  simp only [mpfxOf, MPfx.enc, MPfx.mk.injEq]
  cases s <;> rfl

theorem okM_enc (m : MPfx) : okM (some m.enc) = true := by obtain ⟨s⟩ := m; cases s <;> rfl

theorem zeroM_enc (m : MPfx) : zeroM (some m.enc) = true := by obtain ⟨s⟩ := m; cases s <;> rfl

theorem prefixOk_mpfx (m : MPfx) : PrefixOk (some m.enc) := by obtain ⟨s⟩ := m; simp only [PrefixOk]; cases s <;> decide

theorem gpfxOf_enc (m : GPfx) : gpfxOf m.enc = m := by
  obtain ⟨s, g⟩ := m; revert s g; decide

theorem okG_enc (m : GPfx) : okG (some m.enc) = true := by obtain ⟨s, g⟩ := m; revert s g; decide

theorem zeroG_enc (m : GPfx) : zeroG (some m.enc) = true := by obtain ⟨s, g⟩ := m; revert s g; decide

theorem prefixOk_gpfx (m : GPfx) : PrefixOk (some m.enc) := by
  obtain ⟨s, g⟩ := m; revert s g; simp only [PrefixOk]; decide

/-- The fields of an encoded vector prefix (03 R86). -/
theorem vpfx_fields (m : VPfx) : fld m.enc 2 2 = 0 ∧ fld m.enc 4 4 = m.mask.val ∧ fld m.enc 8 1 = m.z.toNat ∧ fld m.enc 9 3 = m.rnd.num ∧
    fld m.enc 12 6 = (match m.e with | some v => v.val | none => 0) ∧ fld m.enc 18 1 = m.e.isSome.toNat ∧ fld m.enc 19 13 = 0 ∧ m.enc % 4 = 0 ∧ m.enc < 2 ^ 32 ∧
    m.enc = 16 * m.mask.val + 256 * m.z.toNat + 512 * m.rnd.num + 4096 * (match m.e with | some v => v.val | none => 0) + 262144 * m.e.isSome.toNat := by
  have h1 := m.mask.isLt
  have h2 := rnd_num_lt m.rnd
  have h3 := toNat_lt_two m.z
  obtain ⟨mask, z, rnd, ee⟩ := m
  simp only at h1 h2 h3
  cases ee with
  | none => simp only [VPfx.enc, fld, pack, Option.isSome, Bool.toNat_false]; omega
  | some v => have h4 := v.isLt; simp only [VPfx.enc, fld, pack, Option.isSome, Bool.toNat_true]; omega

theorem vpfxOf_enc (m : VPfx) : vpfxOf m.enc = m := by
  obtain ⟨-, a, b, c, d, e, -⟩ := vpfx_fields m
  obtain ⟨mask, z, rnd, ee⟩ := m
  simp only [vpfxOf, a, b, c, d, e, fin_val, bit_toNat, rnd_ofNum_num]
  cases ee with
  | none => rfl
  | some v => simp

theorem okVE_enc (m : VPfx) : okVE (some m.enc) = true := by
  obtain ⟨a, -, -, c, -⟩ := vpfx_fields m
  simp [okVE, a, c, rnd_num_lt]

theorem okV_enc (m : VPfx) (h : m.e.isNone = true) : okV (some m.enc) = true := by
  obtain ⟨a, -, -, c, -, e, -⟩ := vpfx_fields m
  have : m.e = none := by simpa using h
  simp [okV, a, c, rnd_num_lt, e, this]

theorem vpfx_enc_ne_zero (m : VPfx) (h : m.wf = true) : m.enc ≠ 0 := by
  obtain ⟨-, -, -, -, -, -, -, -, -, q⟩ := vpfx_fields m
  rw [q]
  simp only [VPfx.wf, Bool.or_eq_true, bne_iff_ne] at h
  rcases h with ((h | h) | h) | h
  · omega
  · rw [h]; simp
  · have : m.rnd.num ≠ 0 := by cases hr : m.rnd <;> simp_all [Rnd.num]
    omega
  · rw [h]; simp

theorem zeroV_enc (m : VPfx) (h : m.wf = true) : zeroV (some m.enc) = true := by
  have hz := vpfx_enc_ne_zero m h
  obtain ⟨-, -, -, -, d, e, f, -⟩ := vpfx_fields m
  simp only [zeroV, d, e, f, bne_iff_ne.2 hz]
  cases he : m.e <;> simp

theorem prefixOk_vpfx (m : VPfx) (h : m.wf = true) : PrefixOk (some m.enc) := by
  have hz := vpfx_enc_ne_zero m h
  obtain ⟨-, -, -, -, -, -, -, a, b, q⟩ := vpfx_fields m
  refine ⟨a, b, ?_, hz⟩
  omega

theorem prefixOk_map {α : Type} {f : α → Nat} (p : Option α) (h : ∀ y, p = some y → PrefixOk (some (f y))) : PrefixOk (p.map f) := by
  cases p with
  | none => trivial
  | some y => exact h y rfl

theorem mpfx_map_enc (m : Option MPfx) : (m.map MPfx.enc).map (fun _ => mpfx (m.map MPfx.enc)) = m := by
  cases m <;> simp [mpfx, mpfxOf_enc]

theorem okM_map_enc (m : Option MPfx) : okM (m.map MPfx.enc) = true := by cases m with | none => rfl | some m => exact okM_enc m

theorem zeroM_map_enc (m : Option MPfx) : zeroM (m.map MPfx.enc) = true := by cases m with | none => rfl | some m => exact zeroM_enc m

theorem prefixOk_map_mpfx (m : Option MPfx) : PrefixOk (m.map MPfx.enc) := prefixOk_map m fun y _ => prefixOk_mpfx y

theorem gpfx_map_enc (m : Option GPfx) : (m.map GPfx.enc).map (fun _ => gpfx (m.map GPfx.enc)) = m := by
  cases m <;> simp [gpfx, gpfxOf_enc]

theorem okG_map_enc (m : Option GPfx) : okG (m.map GPfx.enc) = true := by cases m with | none => rfl | some m => exact okG_enc m

theorem zeroG_map_enc (m : Option GPfx) : zeroG (m.map GPfx.enc) = true := by cases m with | none => rfl | some m => exact zeroG_enc m

theorem prefixOk_map_gpfx (m : Option GPfx) : PrefixOk (m.map GPfx.enc) := prefixOk_map m fun y _ => prefixOk_gpfx y

theorem vpfx_map_enc (m : Option VPfx) : (m.map VPfx.enc).map (fun _ => vpfx (m.map VPfx.enc)) = m := by
  cases m <;> simp [vpfx, vpfxOf_enc]

theorem okV_map_enc (m : Option VPfx) (h : (m.all fun y => y.wf && y.e.isNone) = true) : okV (m.map VPfx.enc) = true := by
  cases m with | none => rfl | some m => exact okV_enc m (by simp at h; simp [h])

theorem okVE_map_enc (m : Option VPfx) : okVE (m.map VPfx.enc) = true := by
  cases m with | none => rfl | some m => exact okVE_enc m

theorem zeroV_map_enc (m : Option VPfx) (h : (m.all fun y => y.wf) = true) : zeroV (m.map VPfx.enc) = true := by
  cases m with | none => rfl | some m => exact zeroV_enc m (by simpa using h)

theorem prefixOk_map_vpfx (m : Option VPfx) (h : (m.all fun y => y.wf) = true) : PrefixOk (m.map VPfx.enc) := prefixOk_map m fun y hy => prefixOk_vpfx y (by subst hy; simpa using h)

theorem wf_of_wf_noE (m : Option VPfx) (h : (m.all fun y => y.wf && y.e.isNone) = true) : (m.all fun y => y.wf) = true := by
  cases m with | none => rfl | some m => simp at h ⊢; exact h.1

end Sys2Proof.Laws.Encode
end

