-- ==== Sys2Proof/Laws/Mem.lean ====
section
/-! SUPPORT. Memory: a byte reads as it was last written, every other byte stands, and the canonical form is kept. -/

namespace Sys2Proof.Laws

open Sys2Proof.Machine

/-- Every listed address is above `a`. -/
def Above (a : Nat) : Mem → Prop
  | [] => True
  | (b, _) :: _ => a < b

theorem wf_cons {a : Nat} {v : Byte} {r : Mem} : Mem.wf ((a, v) :: r) = true ↔ v ≠ Mem.unlisted ∧ Above a r ∧ Mem.wf r = true := by
  cases r with
  | nil => simp [Mem.wf, Above]
  | cons p r => obtain ⟨b, w⟩ := p; simp [Mem.wf, Above, and_assoc]

theorem above_mono {a b : Nat} (h : a ≤ b) {m : Mem} (hm : Above b m) : Above a m := by
  cases m with
  | nil => trivial
  | cons p r => exact Nat.lt_of_le_of_lt h hm

theorem read_above {m : Mem} (h : Mem.wf m = true) {a : Nat} (ha : Above a m) : Mem.read m a = Mem.unlisted := by
  induction m with
  | nil => rfl
  | cons p r ih =>
    obtain ⟨b, w⟩ := p
    obtain ⟨-, h2, h3⟩ := wf_cons.1 h
    have hb : a < b := ha
    have : b ≠ a := Nat.ne_of_gt hb
    simp only [Mem.read, if_neg this]
    exact ih h3 (above_mono (Nat.le_of_lt hb) h2)

theorem above_write {m : Mem} {a c : Nat} (v : Byte) (hca : c < a) (hm : Above c m) (hw : Mem.wf m = true) : Above c (Mem.write m a v) := by
  cases m with
  | nil => simp only [Mem.write]; split <;> simp [Above, hca]
  | cons p r =>
    obtain ⟨b, w⟩ := p
    have hb : c < b := hm
    have hr : Above b r := (wf_cons.1 hw).2.1
    simp only [Mem.write]
    split
    · split <;> simp [Above, hb, hca]
    · split
      · split
        · exact above_mono (Nat.le_of_lt hb) hr
        · simp [Above, hca]
      · simp [Above, hb]

/-- A write keeps the canonical form. -/
theorem wf_write {m : Mem} (h : Mem.wf m = true) (a : Nat) (v : Byte) : Mem.wf (Mem.write m a v) = true := by
  induction m with
  | nil =>
    simp only [Mem.write]
    split
    · rfl
    · next hv => exact wf_cons.2 ⟨hv, trivial, rfl⟩
  | cons p r ih =>
    obtain ⟨b, w⟩ := p
    obtain ⟨h1, h2, h3⟩ := wf_cons.1 h
    simp only [Mem.write]
    split
    · next hab =>
      split
      · exact h
      · next hv => exact wf_cons.2 ⟨hv, hab, h⟩
    · split
      · next hab =>
        split
        · exact h3
        · next hv => exact wf_cons.2 ⟨hv, hab ▸ h2, h3⟩
      · next hna hne => exact wf_cons.2 ⟨h1, above_write v (by omega) h2 h3, ih h3⟩

/-- Reading after a write: the byte written, and every other byte as before. -/
theorem read_write {m : Mem} (h : Mem.wf m = true) (a b : Nat) (v : Byte) :
    Mem.read (Mem.write m a v) b = if b = a then v else Mem.read m b := by
  induction m with
  | nil =>
    by_cases hv : v = Mem.unlisted
    · simp [Mem.write, hv, Mem.read]
    · by_cases hb : b = a
      · simp [Mem.write, hv, Mem.read, hb]
      · have : ¬ a = b := fun e => hb e.symm
        simp [Mem.write, hv, Mem.read, hb, this]
  | cons p r ih =>
    obtain ⟨c, w⟩ := p
    obtain ⟨-, h2, h3⟩ := wf_cons.1 h
    simp only [Mem.write]
    split
    · next hac =>
      have hra : Mem.read ((c, w) :: r) a = Mem.unlisted := read_above h hac
      by_cases hb : b = a
      · subst hb
        split
        · next hv => simp [hra, hv]
        · simp [Mem.read]
      · have : ¬ a = b := fun e => hb e.symm
        split
        · simp
        · simp [Mem.read, this]
    · split
      · next hac =>
        subst hac
        have hra : Mem.read r a = Mem.unlisted := read_above h3 h2
        by_cases hb : b = a
        · subst hb
          split
          · next hv => simp [hra, hv]
          · simp [Mem.read]
        · have : ¬ a = b := fun e => hb e.symm
          split
          · simp [Mem.read, this]
          · simp [Mem.read, this]
      · next hac hne =>
        by_cases hcb : c = b
        · have : ¬ b = a := fun e => hne (e ▸ hcb.symm)
          simp [Mem.read, hcb, this]
        · simp only [Mem.read, if_neg hcb]
          exact ih h3

theorem wf_writeN (vs : List Byte) : ∀ {m : Mem} (_ : Mem.wf m = true) (a : Nat), Mem.wf (Mem.writeN m a vs) = true := by
  induction vs with
  | nil => intro m h a; exact h
  | cons v r ih => intro m h a; exact ih (wf_write h a v) (a + 1)

/-- Reading after a run of bytes is written from `a`. -/
theorem read_writeN (vs : List Byte) : ∀ {m : Mem} (_ : Mem.wf m = true) (a b : Nat),
    Mem.read (Mem.writeN m a vs) b = if a ≤ b ∧ b < a + vs.length then vs.getD (b - a) 0 else Mem.read m b := by
  induction vs with
  | nil => intro m h a b; rw [if_neg (by simp only [List.length_nil]; omega)]; rfl
  | cons v r ih =>
    intro m h a b
    simp only [Mem.writeN, ih (wf_write h a v), read_write h, List.length_cons]
    by_cases h1 : a + 1 ≤ b ∧ b < a + 1 + r.length
    · rw [if_pos h1, if_pos (by omega), show b - a = (b - (a + 1)) + 1 by omega]; rfl
    · rw [if_neg h1]
      by_cases h4 : b = a
      · rw [if_pos h4, if_pos (by omega), h4, Nat.sub_self]; rfl
      · rw [if_neg h4, if_neg (by omega)]

theorem readN_length (m : Mem) (n : Nat) : ∀ a, (Mem.readN m a n).length = n := by
  induction n with
  | zero => intro a; rfl
  | succ n ih => intro a; simp [Mem.readN, ih]

theorem readN_writeN_same (vs : List Byte) : ∀ {m : Mem} (_ : Mem.wf m = true) (a : Nat), Mem.readN (Mem.writeN m a vs) a vs.length = vs := by
  have aux : ∀ (n : Nat) (m : Mem) (a : Nat), Mem.readN m a n = (List.range n).map fun i => Mem.read m (a + i) := by
    intro n
    induction n with
    | zero => intro m a; rfl
    | succ n ih =>
      intro m a
      simp only [Mem.readN, ih, List.range_succ_eq_map, List.map_cons, List.map_map, Nat.add_zero, List.cons.injEq, true_and]
      refine List.map_congr_left fun i _ => ?_
      simp only [Function.comp_apply, Nat.succ_eq_add_one]
      congr 1; omega
  intro m h a
  rw [aux]
  apply List.ext_getElem
  · simp
  · intro i h1 h2
    simp only [List.getElem_map, List.getElem_range]
    rw [read_writeN vs h]
    have : a ≤ a + i ∧ a + i < a + vs.length := by omega
    simp [this, h2]

/-- Leaving out entries keeps the canonical form. -/
theorem wf_filter (f : Host.Cell → Bool) {m : Mem} (h : Mem.wf m = true) : Mem.wf (m.filter f) = true := by
  have key : ∀ (m : Mem) (a : Nat), Mem.wf m = true → Above a m → Above a (m.filter f) := by
    intro m
    induction m with
    | nil => intro a _ _; trivial
    | cons p r ih =>
      intro a hw ha
      obtain ⟨b, w⟩ := p
      obtain ⟨-, h2, h3⟩ := wf_cons.1 hw
      simp only [List.filter_cons]
      split
      · exact ha
      · exact ih a h3 (above_mono (Nat.le_of_lt ha) h2)
  induction m with
  | nil => rfl
  | cons p r ih =>
    obtain ⟨b, w⟩ := p
    obtain ⟨h1, h2, h3⟩ := wf_cons.1 h
    simp only [List.filter_cons]
    split
    · exact wf_cons.2 ⟨h1, key r b h3 h2, ih h3⟩
    · exact ih h3

end Sys2Proof.Laws
end

