-- ==== Sys2Proof/Tests/Slice0.lean ====
section
/-! SUPPORT. The model's own tests: ill-formed terms refused, words of the spec's encoding tables decoded, and for every statement a state that
meets the hypotheses of each of its clauses; where it is cheap the conclusion stands beside them, with values worked out by hand from the rule. -/

namespace Sys2Proof.Tests

open Sys2Proof.Machine

set_option Elab.async false

/-! ## Small states -/

/-- A header without guard and without S bit. -/
def h0 : Hdr := ⟨false, 0, false⟩
def l0 : Loc := .core 0 65
def x0 : Cur := ⟨l0, 0, 0xA, 0xB⟩

/-- A user thread of partition 1 with the registers `v`. -/
def user (v : Fin 32 → Word) : Thread := { loadThread with s := Vector.ofFn v }

/-- The machine after reset, with no unit of the ownership table firmware's. -/
def reset : State := { State.reset with firmware := [] }

/-- A loaded machine whose turn it is to issue from slot 0 of a compute core, with the thread `th` there. -/
def on (th : Thread) : State :=
  let s := loadWord reset 0xD9
  { modSlot s l0 0 (fun y => { y with th := th }) with cur := some x0, turn := none }

/-- Register r holds 64 r. -/
def s0 : State := on (user fun r => BitVec.ofNat 64 (64 * r.val))

def nx (o : Out) : Option State := match o with | .next t => some t | _ => none

/-- Whether an outcome is a next state with a property. -/
def gives (o : Out) (p : State → Bool) : Bool := match o with | .next t => p t | _ => false

def ready (i : Instr) (s : State) (x : Cur) : Bool :=
  decide (s.cur = some x) && match formOf i with | some f => f.clear s x | none => false

theorem ready_of {i : Instr} {s : State} {x : Cur} (h : ready i s x = true) : Ready i s x := by
  unfold ready at h
  rw [Bool.and_eq_true] at h
  refine ⟨of_decide_eq_true h.1, ?_⟩
  split at h
  · next f hf => exact ⟨f, hf, h.2⟩
  · simp at h

/-- The conditions of OwnLm as a truth value, for a state with no request. -/
def ownLm (s : State) (x : Cur) (va n key : Nat) : Bool :=
  (part? s (me s x).part).isSome
    && (match x.loc with | .core d i => decide (d < 20) && decide (i < coresOn d) && key == lmKey d i va | _ => false)
    && decide (va + n ≤ 0x5C000) && va % n == 0 && ((List.range n).all fun j => !poisoned s (key + j)) && s.reqs.isEmpty && drained s x && s.mem.wf

theorem ownLm_of {s : State} {x : Cur} {r : Bool} {va n key : Nat} (h : ownLm s x va n key = true) : OwnLm s x r va n key := by
  simp only [ownLm, Bool.and_eq_true, decide_eq_true_eq, beq_iff_eq, List.all_eq_true, List.mem_range, Bool.not_eq_true', List.isEmpty_iff] at h
  obtain ⟨⟨⟨⟨⟨⟨⟨h1, h2⟩, h3⟩, h4⟩, h5⟩, h6⟩, h7⟩, h8⟩ := h
  refine ⟨h1, ?_, h3, h4, h5, fun r hr => by simp [h6] at hr, .inr h7, h8⟩
  split at h2
  · next d i hl =>
    simp only [Bool.and_eq_true, decide_eq_true_eq, beq_iff_eq] at h2
    exact ⟨d, i, hl, h2.1.1, h2.1.2, h2.2⟩
  · simp at h2

/-- Full registers, a control register, queues and the like in one state: the words of slot 0's thread. -/
def th0 : Thread := user fun r => BitVec.ofNat 64 (64 * r.val)

theorem ok_of {ε α : Type} {e : Except ε α} {a : α} (h : e.toOption = some a) : e = .ok a := by
  cases e with
  | error e => simp [Except.toOption] at h
  | ok b => simp only [Except.toOption, Option.some.injEq] at h; rw [h]

/-! ## Ill-formed terms, one for each check -/

/-- A slice core of a compute die with FP32 tiles; an attention core. -/
def xSlice : DecodeCtx := ⟨false, 0, Vector.replicate 4 .fp32⟩
def xAttn : DecodeCtx := ⟨true, 0xF, Vector.replicate 4 .fp32⟩
def pNone : VPfx := ⟨0, false, .thread, none⟩
def pE : VPfx := ⟨1, false, .thread, some 3⟩
def pZ : VPfx := ⟨1, true, .thread, none⟩

theorem test_wellFormed_registers : [Instr.add h0 24 1 2, .add h0 1 27 2, .qsendc h0 1 9].map (wellFormed xSlice) = [false, false, false] ∧
    [Instr.add h0 24 1 2, .add h0 1 27 2, .qsendc h0 1 9].map (wellFormed xAttn) = [true, true, true] ∧
    [Instr.div h0 24 1 2, .ld h0 none 25 1 0 .b1 false, .rbGet h0 27 2, .kswap h0 24].map (wellFormed xAttn) = [false, false, false, false] := by decide +kernel

theorem test_wellFormed_scalar : [Instr.pmov h0 (.p 1) .unset, .fcvt h0 .i32 .i64 1 2, .fcvt h0 .fp32 .fp32 1 2, .loop h0 5 0, .loop h0 5 65536, .loopi h0 9 32768,
    .ld h0 none 1 2 0 .b8 true, .spawn h0 1 2 0 false 16, .spawn h0 1 20 5 false 16, .spawn h0 1 0 3 false 16, .cset h0 1 .fpmode, .cset h0 1 (.ringcfg 3)].any (wellFormed xAttn)
      = false := by decide +kernel

theorem test_wellFormed_vector : [Instr.vadd h0 (some pNone) 1 2 3 .none .none, .vadd h0 (some pE) 1 2 3 .none .none, .vld h0 (.vector pE) 1 2 0, .vadd h0 none 1 2 3 (.xor 3) .none,
    .vadd h0 none 1 2 3 .none (.xor 0), .vcvt h0 none .ds8 1 2 0 .none, .vcvt h0 none .bf16 1 2 2 .none, .vredadd h0 (some pZ) 1 2 .none, .vsel h0 pZ 1 2 3 .none .none,
    .vmergeSm h0 none 14 16 32 .none .none, .vmergeSm h0 none 16 16 63 .none .none].any (wellFormed xAttn) = false := by decide +kernel

theorem test_wellFormed_profiles : wellFormed xAttn (.hmGemv h0 none 1 2 3 4 1 3 63) = false ∧ wellFormed xSlice (.pgSeal h0 none 1 2) = false ∧
    wellFormed xAttn (.kamax 1 2 25) = false ∧ wellFormed xAttn (.kstw 1 27) = false ∧ wellFormed xAttn .moduleReset = false := by decide +kernel

/-! ## Words that the decoder rejects, with the detail of 03 R96 -/

noncomputable def detail (w : Nat) (off : Nat := 0) : Option Nat := match decode (tableCtx w) off w with | .ok _ => none | .error d => some d

/-- A word across a block; the pad parcel elsewhere; two prefixes; OP 0; ALUI FN 1; a prefix on ALU; an unused field; scalar number 32; lane kind 110; the length code of a
W word on ALU; PG on a compute die. -/
theorem test_decode_rejects : detail 0xD9 28 = some 6 ∧ detail 4 0 = some 6 ∧ detail (0x0001000000010) = some 4 ∧ detail 0 = some 4 ∧ detail 1 = some 1 ∧
    detail (0x11 + 2 ^ 23) = some 2 ∧ detail (0x10 + 9 * 2 ^ 32) = some 5 ∧ detail (9 + 2 ^ 55) = some 3 ∧ detail (9 + 32 * 2 ^ 11) = some 8 ∧
    detail (0x281 + 0xC0 * 2 ^ 39) = some 9 ∧ detail 10 = some 1 := by decide +kernel

/-! ## Words (03 R77 to R93 and the families' tables; 12 R298): one for every encoded instruction, written from the spec's fields -/

noncomputable def decodes (l : List (Nat × Nat × Instr)) : Bool := l.all fun q => decodeTableWord q.1 q.2.1 == some q.2.2

theorem test_DecodeSpecWords_alu : decodes [
    (64, 0x38C2809, .add h0 5 6 7), (64, 0x238C2809, .sub h0 5 6 7), (64, 0x438C2809, .and h0 5 6 7), (64, 0x638C2809, .or h0 5 6 7),
    (64, 0x838C2809, .xor h0 5 6 7), (64, 0xA38C2809, .andn h0 5 6 7), (64, 0xC38C2809, .shl h0 5 6 7), (64, 0xE38C2809, .shr h0 5 6 7),
    (64, 0x1038C2809, .sra h0 5 6 7), (64, 0x1238C2809, .rol h0 5 6 7), (64, 0x1438C2809, .min h0 5 6 7), (64, 0x1638C2809, .max h0 5 6 7),
    (64, 0x1838C2809, .minn h0 5 6 7), (64, 0x1A38C2809, .maxn h0 5 6 7), (64, 0x1C38C2809, .mul h0 5 6 7), (64, 0x1E38C2809, .mulh h0 5 6 7),
    (64, 0x2038C2809, .mulhn h0 5 6 7), (64, 0x2238C2809, .div h0 5 6 7), (64, 0x2438C2809, .divn h0 5 6 7), (64, 0x2638C2809, .rem h0 5 6 7),
    (64, 0x2838C2809, .remn h0 5 6 7), (64, 0x2A00C2809, .clz h0 5 6), (64, 0x2C00C2809, .ctz h0 5 6), (64, 0x2E00C2809, .popc h0 5 6),
    (64, 0x3000C2809, .bswap h0 5 6), (64, 0x580DB0280D, .add ⟨true, 3, true⟩ 5 24 27)] = true := by decide +kernel

theorem test_DecodeSpecWords_immediate : decodes [
    (64, 0xFFFFFFFA000C2811, .addi h0 5 6 (-3)), (64, 0xFFFFFFFA010C2811, .andi h0 5 6 (-3)), (64, 0xFFFFFFFA018C2811, .ori h0 5 6 (-3)),
    (64, 0xFFFFFFFA020C2811, .xori h0 5 6 (-3)), (64, 0xFFFFFFFA050C2811, .mini h0 5 6 (-3)), (64, 0xFFFFFFFA058C2811, .maxi h0 5 6 (-3)),
    (64, 0xFFFFFFFA070C2811, .muli h0 5 6 (-3)), (64, 0x7E030C2811, .shli h0 5 6 63), (64, 0x7E038C2811, .shri h0 5 6 63),
    (64, 0x7E040C2811, .srai h0 5 6 63), (64, 0x7E048C2811, .roli h0 5 6 63)] = true := by decide +kernel

theorem test_DecodeSpecWords_compare : decodes [
    (64, 0x38C1019, .eq h0 (.p 2) 6 7), (64, 0x238C1019, .ne h0 (.p 2) 6 7), (64, 0x438C1019, .lt h0 (.p 2) 6 7),
    (64, 0x638C1019, .le h0 (.p 2) 6 7), (64, 0x838C1019, .ltn h0 (.p 2) 6 7), (64, 0xA38C1019, .len h0 (.p 2) 6 7),
    (64, 0xFFFFFFFE000C4821, .eqi h0 (.g 1) 6 (-1)), (64, 0xFFFFFFFE008C4821, .nei h0 (.g 1) 6 (-1)),
    (64, 0xFFFFFFFE010C4821, .lti h0 (.g 1) 6 (-1)), (64, 0xFFFFFFFE018C4821, .lei h0 (.g 1) 6 (-1)),
    (64, 0xFFFFFFFE020C4821, .ltni h0 (.g 1) 6 (-1)), (64, 0xFFFFFFFE028C4821, .leni h0 (.g 1) 6 (-1)), (64, 0x38C5889, .feq h0 (.g 3) 6 7),
    (64, 0x238C5889, .flt h0 (.g 3) 6 7), (64, 0x438C5889, .fle h0 (.g 3) 6 7), (64, 0x638C5889, .funord h0 (.g 3) 6 7)] = true := by decide +kernel

theorem test_DecodeSpecWords_predicate : decodes [
    (64, 0x38C4029, .pand h0 (.g 0) 6 7), (64, 0x238C4029, .por h0 (.g 0) 6 7), (64, 0x438C4029, .pxor h0 (.g 0) 6 7),
    (64, 0x638C4029, .pandn h0 (.g 0) 6 7), (64, 0x800C0829, .pnot h0 (.p 1) 6), (64, 0xA0184029, .pmov h0 (.g 0) .unset),
    (64, 0xA00C0829, .pmov h0 (.p 1) (.p 6)), (64, 0x200C38C2829, .sel h0 5 6 7 4)] = true := by decide +kernel

theorem test_DecodeSpecWords_constantField : decodes [
    (96, 0x123456789ABCDEF00004832, .li h0 9 0x0123456789ABCDEF), (96, 0x4000804836, .lipc ⟨true, 0, false⟩ 9 0x40),
    (64, 0x380000C2839, .sext h0 5 6 7), (64, 0x1F80008C2839, .zext h0 5 6 63), (64, 0x2590010C2839, .bfx h0 5 6 true 8 11),
    (64, 0x590010C2839, .bfx h0 5 6 false 8 11), (64, 0x590018C2839, .bfi h0 5 6 8 11)] = true := by decide +kernel

theorem test_DecodeSpecWords_float : decodes [
    (64, 0x38C2881, .fadd h0 5 6 7), (64, 0x238C2881, .fsub h0 5 6 7), (64, 0x438C2881, .fmul h0 5 6 7), (64, 0x638C2881, .fdiv h0 5 6 7),
    (64, 0xA38C2881, .fmin h0 5 6 7), (64, 0xC38C2881, .fmax h0 5 6 7), (64, 0x1238C2881, .fma h0 5 6 7), (64, 0x800C2881, .fsqrt h0 5 6),
    (64, 0xE00C2881, .fabs h0 5 6), (64, 0x1000C2881, .fneg h0 5 6), (64, 0x600C2891, .fcvt h0 .fp32 .i32 5 6),
    (64, 0x5400C2891, .fcvt h0 .i64 .fp16 5 6)] = true := by decide +kernel

theorem test_DecodeSpecWords_control : decodes [
    (64, 0xFFFFFFFC000000C1, .jmp h0 (-2)), (64, 0x50008000C1, .call h0 40), (64, 0x13E00C1, .jr h0 31), (64, 0x18C00C1, .callr h0 6),
    (64, 0x14000A00C9, .loop h0 5 10), (64, 0x3E80008008000C9, .loopi h0 1000 4), (64, 0xFFFFFFF0000A00D1, .chk h0 5 (-8)),
    (64, 0x10008A00D1, .chkl h0 5 8), (64, 0xD9, .nop h0), (64, 0x8000D9, .yield h0), (64, 0x4010000D9, .ckpt h0 2),
    (64, 0x1FFFE018000D9, .trap h0 0xFFFF), (64, 0x12020000D9, .brk h0 9), (64, 0x28000DD, .tdone ⟨true, 0, false⟩)] = true := by decide +kernel

theorem test_DecodeSpecWords_memory : decodes [
    (96, 0x20010C290100000054, .ld h0 (some ⟨.die⟩) 5 6 16 .b4 false), (64, 0x20018C2901, .ld h0 none 5 6 16 .b8 false),
    (64, 0x20068C2901, .ldSync h0 5 6 16 .b2 true), (64, 0xFFFFFFE0080C2901, .ldTake h0 5 6 (-16) .b1 false),
    (64, 0x120C2901, .ldSpec h0 none 5 6 0 .b1 true), (96, 0x20018C290900000014, .st h0 (some ⟨.narrowest⟩) 5 6 16 .b8),
    (64, 0x20030C2909, .stFill h0 5 6 16 .b4), (64, 0x20040C2909, .stXfill h0 5 6 16 .b1), (64, 0x10000C0111, .feSet h0 6 8),
    (64, 0x10008C0111, .feClr h0 6 8), (64, 0x10010C2911, .feGet h0 5 6 8), (64, 0x10018C0111, .feWait h0 6 8), (64, 0x119, .fenceCore h0),
    (64, 0x800119, .fenceDie h0), (64, 0x1000119, .fenceMod h0), (64, 0x1800119, .fenceSys h0), (64, 0x2000119, .fenceEng h0),
    (96, 0x80000DE12100000530, .vld h0 (.vector ⟨3, true, .rtz, none⟩) 60 6 64), (96, 0x80008DE12100000054, .vst h0 (.memory ⟨.die⟩) 60 6 64),
    (64, 0x80010DE121, .vldSync h0 none 60 6 64), (64, 0x80018DE121, .vstFill h0 none 60 6 64)] = true := by decide +kernel

theorem test_DecodeSpecWords_atomic : decodes [
    (64, 0x38C2981, .amoAdd h0 none false 5 6 7), (64, 0x2238C2981, .amoAnd h0 none true 5 6 7), (64, 0x438C2981, .amoOr h0 none false 5 6 7),
    (64, 0x2638C2981, .amoXor h0 none true 5 6 7), (64, 0x838C2981, .amoMin h0 none false 5 6 7), (64, 0x2A38C2981, .amoMax h0 none true 5 6 7),
    (64, 0xC38C2981, .amoMinn h0 none false 5 6 7), (64, 0x2E38C2981, .amoMaxn h0 none true 5 6 7),
    (64, 0x1038C2981, .amoSwap h0 none false 5 6 7), (64, 0x1238C2981, .amoFadd h0 none 5 6 7),
    (96, 0x38C298900000054, .cas32 h0 (some ⟨.die⟩) 5 6 7), (64, 0x238C2989, .cas64 h0 none 5 6 7), (64, 0x2038C0199, .redAdd h0 none true 6 7),
    (64, 0x238C0199, .redAnd h0 none false 6 7), (64, 0x2438C0199, .redOr h0 none true 6 7), (64, 0x638C0199, .redXor h0 none false 6 7),
    (64, 0x2838C0199, .redMin h0 none true 6 7), (64, 0xA38C0199, .redMax h0 none false 6 7), (64, 0x2C38C0199, .redMinn h0 none true 6 7),
    (64, 0xE38C0199, .redMaxn h0 none false 6 7), (64, 0x3038C0199, .redSwap h0 none true 6 7), (64, 0x1238C0199, .redFadd h0 none 6 7),
    (96, 0x1438C019900000094, .redArrive h0 (some ⟨.system⟩) 6 7), (128, 0x80000000000004000000001038C2993, .casK h0 5 6 7 8 ⟨true, false, 16⟩),
    (128, 0x10000000000004000000008038C2993, .decK h0 5 6 7 ⟨false, true, 16⟩)] = true := by decide +kernel

theorem test_DecodeSpecWords_message : decodes [
    (128, 0x380000000000004000000000000A21C3, .spawn h0 4 5 3 true 16), (128, 0x8000C01C3, .migrate h0 6),
    (128, 0xC8000200000000E30A21CB, .rbSend h0 4 5 6 7 200 ⟨2, 0, 0⟩), (128, 0x200000008000041CB, .rbGet h0 8 2),
    (128, 0xA00000008000041CB, .rbGetNb h0 8 2), (128, 0x700000010000001CB, .rbFree h0 7), (64, 0x12C9D1, .qsendc h0 1 9),
    (64, 0x208029D1, .qstat h0 5 1), (64, 0x400001D1, .qret h0), (128, 0x10000000000000C29DB, .tgLaunch h0 5 6 256),
    (128, 0x300000008000A01DB, .tgSignal h0 5 3)] = true := by decide +kernel

theorem test_DecodeSpecWords_label : decodes [
    (64, 0xC2A01, .lroot h0 5 6), (64, 0x24842201, .lchild h0 4 2 9), (64, 0x40042201, .lparent h0 4 2), (64, 0x61840A01, .lanc h0 1 2 3),
    (64, 0x81840A01, .lpanc h0 1 2 3), (64, 0xA0044A01, .ldepth h0 9 2), (64, 0xC1842201, .lcommon h0 4 2 3), (64, 0xE4044A01, .ldig h0 9 2 8),
    (64, 0x100042201, .lend h0 4 2), (64, 0x121842A01, .lget h0 5 2 3), (64, 0x140922201, .lset h0 4 9 1), (64, 0x160042201, .lmov h0 4 2),
    (96, 0x1C002000062A0900000054, .lld h0 (some ⟨.die⟩) 5 3 16 .b4 true true), (64, 0x6002000862A09, .lst h0 none 5 3 16 .b8),
    (64, 0x10004001062A09, .lldL h0 none 5 3 32 true), (64, 0x4001862A09, .lstL h0 none 5 3 32),
    (128, 0x1F00000001038C2A13, .ltree h0 5 6 7 8 31), (128, 0x2000000000038C2A13, .ltreeV h0 5 6 7), (128, 0x9038C2A13, .lnew h0 5 6 7 8),
    (128, 0x1000080213, .lfree h0 4), (128, 0x18038C2A13, .lmove h0 5 6 7), (128, 0x20038C2A13, .lmoveF h0 5 6 7),
    (128, 0x2800081A13, .lrebase h0 3 4), (128, 0x3000044A13, .lxlate h0 9 2), (128, 0x10000003000044A13, .lxlateT h0 9 2),
    (128, 0x50000003000044A13, .lxlateTs h0 9 2), (128, 0x20000003000002213, .lxlateOld h0 4), (128, 0x30000003000002213, .lxlateNew h0 4),
    (160, 0x3F40010000000000004521B00000058, .teSum h0 (some ⟨1, true⟩) 10 2 ⟨16, 4, 63⟩),
    (128, 0x500000000000080004521B, .teCount h0 none 10 2 5), (128, 0x903F80010000000100584521B, .teCopy h0 none 10 2 11 ⟨16, 8, 63⟩ 9),
    (128, 0x3F40010000000180584521B, .teFill h0 none 10 2 11 ⟨16, 4, 63⟩), (128, 0x7200000000000218584521B, .teVisit h0 none 10 2 11 12 50 true)] = true := by decide +kernel

theorem test_DecodeSpecWords_vectorInt : decodes [
    (64, 0x4FBF801F7BE281, .vadd h0 none 60 61 62 (.g8 31) (.bc 31)),
    (96, 0x2012803F7BE28100000530, .vsub h0 (some ⟨3, true, .rtz, none⟩) 60 61 62 (.rot 5) .rev),
    (64, 0x4FBF805F7BE281, .vmul h0 none 60 61 62 (.g8 31) (.bc 31)),
    (96, 0x2012807F7BE28100000530, .vmulh h0 (some ⟨3, true, .rtz, none⟩) 60 61 62 (.rot 5) .rev),
    (64, 0x4FBF809F7BE281, .vmin h0 none 60 61 62 (.g8 31) (.bc 31)),
    (96, 0x201280BF7BE28100000530, .vmax h0 (some ⟨3, true, .rtz, none⟩) 60 61 62 (.rot 5) .rev),
    (64, 0x4FBF80DF7BE281, .vminn h0 none 60 61 62 (.g8 31) (.bc 31)),
    (96, 0x201280FF7BE28100000530, .vmaxn h0 (some ⟨3, true, .rtz, none⟩) 60 61 62 (.rot 5) .rev),
    (64, 0x4FBF811F7BE281, .vand h0 none 60 61 62 (.g8 31) (.bc 31)),
    (96, 0x2012813F7BE28100000530, .vor h0 (some ⟨3, true, .rtz, none⟩) 60 61 62 (.rot 5) .rev),
    (64, 0x4FBF815F7BE281, .vxor h0 none 60 61 62 (.g8 31) (.bc 31)),
    (96, 0x2012817F7BE28100000530, .vandn h0 (some ⟨3, true, .rtz, none⟩) 60 61 62 (.rot 5) .rev),
    (64, 0x4FBF819F7BE281, .vshl h0 none 60 61 62 (.g8 31) (.bc 31)),
    (96, 0x201281BF7BE28100000530, .vshr h0 (some ⟨3, true, .rtz, none⟩) 60 61 62 (.rot 5) .rev),
    (64, 0x4FBF81DF7BE281, .vsra h0 none 60 61 62 (.g8 31) (.bc 31)),
    (96, 0x5801E07BE28100000530, .vabs h0 (some ⟨3, true, .rtz, none⟩) 60 61 (.xor 16)), (64, 0x2007BE281, .vneg h0 none 60 61 .none),
    (96, 0x2012823F7BE28100000530, .vsadd h0 (some ⟨3, true, .rtz, none⟩) 60 61 62 (.rot 5) .rev),
    (64, 0x4FBF825F7BE281, .vssub h0 none 60 61 62 (.g8 31) (.bc 31))] = true := by decide +kernel

theorem test_DecodeSpecWords_vectorFloat : decodes [
    (64, 0x4FBF801F7BE289, .vfadd h0 none 60 61 62 (.g8 31) (.bc 31)),
    (96, 0x2012803F7BE28900000530, .vfsub h0 (some ⟨3, true, .rtz, none⟩) 60 61 62 (.rot 5) .rev),
    (64, 0x4FBF805F7BE289, .vfmul h0 none 60 61 62 (.g8 31) (.bc 31)), (64, 0x4FBF809F7BE289, .vfmin h0 none 60 61 62 (.g8 31) (.bc 31)),
    (96, 0x201280BF7BE28900000530, .vfmax h0 (some ⟨3, true, .rtz, none⟩) 60 61 62 (.rot 5) .rev),
    (96, 0x651242890004B530, .vfma h0 (some ⟨3, true, .rtz, some 11⟩) 8 9 10 .none .none), (64, 0xC07BE289, .vfabs h0 none 60 61 .none),
    (96, 0x5800E07BE28900000530, .vfneg h0 (some ⟨3, true, .rtz, none⟩) 60 61 (.xor 16)), (64, 0x1022291, .vcmpEq h0 none 4 1 2 .none .none),
    (64, 0x21022291, .vcmpNe h0 none 4 1 2 .none .none), (64, 0x41022291, .vcmpLt h0 none 4 1 2 .none .none),
    (64, 0x61022291, .vcmpLe h0 none 4 1 2 .none .none), (64, 0x81022291, .vcmpLtn h0 none 4 1 2 .none .none),
    (64, 0xA1022291, .vcmpLen h0 none 4 1 2 .none .none), (64, 0xC1022291, .vfcmpEq h0 none 4 1 2 .none .none),
    (64, 0xE1022291, .vfcmpLt h0 none 4 1 2 .none .none), (64, 0x101022291, .vfcmpLe h0 none 4 1 2 .none .none),
    (64, 0x121022291, .vfcmpUn h0 none 4 1 2 .none .none)] = true := by decide +kernel

theorem test_DecodeSpecWords_vectorMove : decodes [
    (96, 0x5800007BE29900000530, .vmov h0 (some ⟨3, true, .rtz, none⟩) 60 61 (.xor 16)),
    (96, 0x3F7BE29900000020, .vsel h0 ⟨2, false, .thread, none⟩ 60 61 62 .none .none),
    (96, 0x4009E29900000530, .vsplat h0 (some ⟨3, true, .rtz, none⟩) 60 4), (64, 0x200063FA2A99, .vext h0 5 61 7 .rev),
    (64, 0x838DE299, .vins h0 60 6 7), (64, 0xA00DE299, .vidx h0 none 60 6), (64, 0x120FBE2A1, .vcvt h0 none .bf16 60 61 1 .none),
    (96, 0x1FBE2A100000530, .vcvt h0 (some ⟨3, true, .rtz, none⟩) .i8 60 61 3 .none), (64, 0x7BE2A9, .vexp2 h0 none 60 61 .none),
    (96, 0x5800207BE2A900000530, .vlog2 h0 (some ⟨3, true, .rtz, none⟩) 60 61 (.xor 16)), (64, 0x407BE2A9, .vrcp h0 none 60 61 .none),
    (96, 0x5800607BE2A900000530, .vrsqrt h0 (some ⟨3, true, .rtz, none⟩) 60 61 (.xor 16)), (64, 0x807BE2A9, .vtanh h0 none 60 61 .none),
    (96, 0x5800A07BE2A900000530, .vsigm h0 (some ⟨3, true, .rtz, none⟩) 60 61 (.xor 16)),
    (96, 0x7A2AB100000050, .vredadd h0 (some ⟨5, false, .thread, none⟩) 5 61 .none),
    (96, 0x207A2AB100000050, .vredmax h0 (some ⟨5, false, .thread, none⟩) 5 61 .none),
    (96, 0x407A2AB100000050, .vredmin h0 (some ⟨5, false, .thread, none⟩) 5 61 .none),
    (96, 0x607A2AB100000050, .vfredadd h0 (some ⟨5, false, .thread, none⟩) 5 61 .none),
    (96, 0x807A2AB100000050, .vfredmax h0 (some ⟨5, false, .thread, none⟩) 5 61 .none),
    (96, 0x5800A07BE2B100000530, .vscanAdd h0 (some ⟨3, true, .rtz, none⟩) 60 61 (.xor 16)),
    (64, 0xC6DAEAB1, .vmergeSm h0 none 29 45 13 .none .none), (96, 0x47BE2B900000530, .vcompress h0 (some ⟨3, true, .rtz, none⟩) 60 61 8 .none),
    (96, 0x5800207BE2B900000530, .vexpand h0 (some ⟨3, true, .rtz, none⟩) 60 61 (.xor 16)), (64, 0x401E2AB9, .mpopc h0 5 15),
    (64, 0x671E2AB9, .mand h0 5 15 14), (64, 0x871E2AB9, .mor h0 5 15 14), (64, 0xA71E2AB9, .mxor h0 5 15 14), (64, 0xC01E2AB9, .mnot h0 5 15),
    (64, 0xE00A7AB9, .mset h0 15 5), (64, 0x1001E2AB9, .mget h0 5 15), (64, 0x1201E2AB9, .mfirst h0 5 15)] = true := by decide +kernel

theorem test_DecodeSpecWords_matrix : decodes [
    (64, 0x1200000B81, .tcfg h0 1 9), (64, 0x801381, .tzero h0 2), (64, 0x1001B81, .tfree h0 3), (64, 0x2001801381, .twm h0 2 16),
    (160, 0x1000040000000000594038B00000058, .wload h0 (some ⟨1, true⟩) 10 11 64 true), (128, 0x60000000861000B8B, .mma h0 none 1 0 2 3 2 true),
    (128, 0x1061000B8B, .mmaZ h0 none 1 0 2 3 0 false), (128, 0x10000001861000B8B, .mmaSp h0 none 1 0 2 3 1 false),
    (128, 0xFF05010200002000000021C682638B, .tstore h0 none 12 1 13 14 32 0x0102 0xFF05), (128, 0x400000002800101B8B, .tload h0 none 3 8 64),
    (128, 0x300010038B, .mparam h0 none 8), (128, 0x3FF00FF0200000001E71A6483, .hmGemv h0 none 12 13 14 15 2 255 1023)] = true := by decide +kernel

theorem test_DecodeSpecWords_index : decodes [
    (128, 0x3E800000001A6165403, .ieGather h0 none 10 11 12 13 1000), (128, 0x30000000700000009A6165403, .ieScatter h0 none 10 11 12 13 7 3),
    (160, 0x100000000100616540300000018, .ieCopy h0 (some ⟨1, false⟩) 10 11 12 256), (128, 0x1000000001806165403, .ieFill h0 none 10 11 12 256),
    (128, 0x30000010000000021A6165403, .ieMcast h0 none 10 11 12 13 256 3),
    (128, 0x20000010000000029A6165403, .ieCond h0 none 10 11 12 13 256 2)] = true := by decide +kernel

theorem test_DecodeSpecWords_page : decodes [
    (128, 0x1000900000000060A5443, .pgLoad h0 none 10 5 12 9 1), (128, 0x10F000000000001A60A5443, .pgLoadList h0 none 10 5 12 13 15),
    (128, 0x8060A5443, .pgApp h0 none 10 5 12), (128, 0x10030A5443, .pgFork h0 none 10 5 6),
    (128, 0x31000000019A60A5443, .pgSel h0 none 10 5 12 13 16 true true), (128, 0x20000A5443, .pgSeal h0 none 10 5),
    (128, 0x28000A5443, .pgFree h0 none 10 5), (128, 0x3C00000030000A5443, .pgExt h0 none 10 5 12 3),
    (160, 0x38060A544300000058, .pgEvict h0 (some ⟨1, true⟩) 10 5 12), (128, 0x1000900000040060A5443, .pgLoadNb h0 none 10 5 12 9 1),
    (128, 0x10F000000000041A60A5443, .pgLoadNbList h0 none 10 5 12 13 15)] = true := by decide +kernel

theorem test_DecodeSpecWords_system : decodes [
    (64, 0xC00002CC1, .cget h0 5 .fpmode), (64, 0x2600002CC1, .cget h0 5 (.twm 3)), (64, 0xC008804C1, .csetFpmode h0 4),
    (64, 0x34008804C1, .csetAgemax h0 4), (64, 0x4E008804C1, .csetRingcfg h0 4 7), (64, 0x28008804C1, .cset h0 4 (.tstat 0)),
    (64, 0x10004C1, .eret h0), (64, 0x2018C2CC1, .pcall h0 5 6 1), (64, 0x20004C1, .ifl h0), (64, 0x28004C1, .lfl h0),
    (64, 0x3002CC1, .kswap h0 5)] = true := by decide +kernel

theorem test_DecodeSpecWords_kiln : decodes [
    (16, 0x9EE, .kld 1 7 14), (16, 0x21EE, .kadd 1 7 14), (16, 0x29EE, .ksub 1 7 14), (16, 0x31EE, .kand 1 7 14), (16, 0x39EE, .kor 1 7 14),
    (16, 0x41EE, .kshl 1 7 14), (16, 0x49EE, .kshr 1 7 14), (16, 0x51EE, .kmin 1 7 14), (16, 0x59EE, .kmax 1 7 14), (16, 0x61EE, .kceq 1 7 14),
    (16, 0x69EE, .kcgt 1 7 14), (16, 0x89EE, .kfirst 1 7 14), (16, 0x99EE, .kpop 1 7 14), (16, 0x111F, .kldi 1 31), (16, 0x191F, .klui 1 31),
    (16, 0x710F, .kbz 1 15), (16, 0x790F, .kbnz 1 15), (16, 0x81E5, .ksel 1 7 5), (16, 0x91F8, .kamax 1 7 24), (16, 0xA0FC, .kstw 7 28),
    (16, 0xA8EE, .kemit 7 14), (16, 0xB000, .kend)] = true := by decide +kernel

/-! ## The machine as a whole -/

def fetched : FetchRes → Option (List Byte × State)
  | .ok b t => some (b, t)
  | _ => none

theorem fetched_of {r : FetchRes} (h : (fetched r).isSome = true) : r = .ok ((fetched r).get h).1 ((fetched r).get h).2 := by
  cases r with
  | ok b t => rfl
  | fault c => simp [fetched] at h
  | walk => simp [fetched] at h

theorem test_StepRunsDecoded : ∃ s l k p b t i n,
    nextTurn s = some (.core l) ∧ selectSlot (beginTurn s) l = some k ∧ part? s (thread s l k).part = some p ∧
    fetchBytes (beginTurn s) l k p (thread s l k).pc.toNat = .ok b t ∧
    ¬ ((thread s l k).pc.toNat % 32 = 28 ∧ ofBytes (b.take 20) % 2 ^ 32 = 4) ∧
    decode (decodeCtx s l p) ((thread s l k).pc.toNat % 32) (ofBytes (b.take 20)) = .ok (i, n) :=
  ⟨State.reset.withFetchWord 64 0xD9, l0, 0, loadPartition, _, _, .nop h0, 8, rfl, by decide +kernel, by decide +kernel, fetched_of (by decide +kernel),
    by decide +kernel, ok_of (by decide +kernel)⟩

theorem test_FetchReadsMemory : ∃ s l k p pc key i,
    pc < 2 ^ 56 ∧ (Machine.core s l).ifetch = none ∧ fetchKey s l k p (pc - pc % 32) = .ok key ∧ isHbm key = true ∧ poisoned s key = false ∧
    pc % 32 ≤ 12 ∧ i < 20 :=
  ⟨s0, l0, 0, loadPartition, 2 ^ 52 + 12, hbmKey 0, 19, by decide +kernel, by decide +kernel, by rfl, by decide +kernel, by decide +kernel, by decide, by decide⟩

/-- The core's cache does not hold the extent of the program counter. -/
theorem test_FetchReadsMemory_walk : ∃ s l k p, (thread s l k).pc.toNat < 2 ^ 56 ∧
    fetchKey s l k p ((thread s l k).pc.toNat - (thread s l k).pc.toNat % 32) = .miss ∧ selectSlot s l = some k ∧ part? s (thread s l k).part = some p :=
  ⟨modCore s0 l0 fun c => { c with xcache := [] }, l0, 0, loadPartition, by decide +kernel, by rfl, by decide +kernel, by decide +kernel⟩

theorem test_StepRunsTurn_kiln : ∃ s d r h i,
    nextTurn s = some (.kiln d) ∧ (die s d).run = some r ∧ (die s d).fenced = false ∧ s.phase ≠ .close ∧ r.steps < 24 ∧ r.img.code[r.pc]? = some h ∧
    decodeKiln h.toNat = some i :=
  ⟨State.reset.withFetchWord 16 0x710F, 0, _, 0x710F, .kbz 1 15, rfl, rfl, by decide +kernel, by decide +kernel, by decide +kernel, by rfl, by decide +kernel⟩

theorem test_StepRunsTurn_event : ∃ s i, nextTurn s = some (.event i) ∧ encodeFields i = [] ∧ s.phase = .issue ∧
    (∀ c ∈ s.cores, selectSlot (beginTurn s) c.1 = none) ∧ (isSnapshot i = true → pending (beginTurn s) = false) :=
  ⟨{ State.reset with turn := some (.event (.hostPause 1)) }, .hostPause 1, rfl, rfl, rfl, by decide +kernel, by decide⟩

theorem test_StepRunsTurn_snapshot : ∃ s i, nextTurn s = some (.event i) ∧ encodeFields i = [] ∧ s.phase = .close ∧ isSnapshot i = false :=
  ⟨{ State.reset with turn := some (.event (.hostPause 1)), phase := .close }, .hostPause 1, rfl, rfl, rfl, rfl⟩

theorem test_StepRunsTurn_later : ∃ s i, nextTurn s = some (.event i) ∧ encodeFields i = [] ∧ s.phase = .issue ∧
    ∃ c ∈ s.cores, (selectSlot (beginTurn s) c.1).isSome = true :=
  ⟨{ s0 with turn := some (.event (.hostPause 1)) }, .hostPause 1, rfl, rfl, rfl, by decide +kernel⟩

theorem test_StepRunsTurn_service : ∃ s n, nextTurn s = some (.svc n) ∧ s.phase ≠ .close ∧
    (s.phase = .issue → ∀ c ∈ s.cores, selectSlot (beginTurn s) c.1 = none) :=
  ⟨{ State.reset with turn := some (.svc 3) }, 3, rfl, by decide, by decide +kernel⟩

theorem test_StepRunsTurn_tick : ∃ s, nextTurn s = some .tick ∧ pending (beginTurn s) = false ∧ snapsDue s = false :=
  ⟨{ State.reset with turn := some .tick }, rfl, by decide +kernel, by decide +kernel⟩

/-- Slot 0 has still to issue, so the cycle stands. -/
theorem test_StepRunsTurn_stands : ∃ s, nextTurn s = some .tick ∧ pending (beginTurn s) = true :=
  ⟨{ s0 with turn := some .tick }, rfl, by decide +kernel⟩

theorem test_StepRunsTurn_error : ∃ s key found, nextTurn s = some (.error key found) ∧ memoryAt key = true :=
  ⟨{ State.reset with turn := some (.error (hbmKey 32) .uncorrectable) }, hbmKey 32, .uncorrectable, rfl, by decide +kernel⟩

theorem test_StepMeetsError_block :
    let t := softError reset (hbmKey 48) .uncorrectable
    poisoned t (hbmKey 32) = true ∧ poisoned t (hbmKey 64) = false ∧ (die t 0).phys.toList = [0, 0, 0, 1, 0, 0, 0] ∧
      (softError t (hbmKey 33) .uncorrectable) = t ∧ (die (softError t (hbmKey 0) .corrected) 0).phys.toList = [0, 0, 1, 1, 0, 0, 0] := by decide +kernel

theorem test_DecodeEncode : ∃ x i off, wellFormed x i = true ∧ (formOf i).isSome = true ∧ off + encodeBytes i ≤ 32 :=
  ⟨tableCtx 0, .fma ⟨true, 7, true⟩ 31 23 1, 24, by decide +kernel, by decide +kernel, by decide +kernel⟩

theorem test_KilnDecodeEncode : ∃ x i w, wellFormed x i = true ∧ formOf i = none ∧ w < 2 ^ 16 ∧ decodeKiln w = some i :=
  ⟨tableCtx 0, .kend, 0xB000, by decide +kernel, by decide +kernel, by decide, by decide +kernel⟩

theorem test_StepKeepsMemory : ∃ s t, s.mem.wf = true ∧ step s = .next t ∧ s.mem ≠ [] :=
  ⟨State.reset.withFetchWord 64 0xD9, _, by decide +kernel, rfl, by decide +kernel⟩

/-! ## Issue and operands -/

/-- p5 is false, p1 is true. -/
theorem test_IssueOrder_guard : ∃ i f s x, s.cur = some x ∧ formOf i = some f ∧ (∀ q ∈ f.u.lm, modOk (laneCount (typeOf (Machine.core s x.loc) q.1)) q.2 = true) ∧
    (f.u.tile = true → (me s x).inTask = true) ∧ (f.h.pn = true ↔ f.h.pg = 0 ∨ (me s x).p.getLsbD f.h.pg.val = true) :=
  ⟨.add ⟨false, 5, false⟩ 1 2 3, _, s0, x0, rfl, rfl, by simp [useTwo], by decide +kernel, by decide +kernel⟩

theorem test_IssueOrder_negated : nx (exec (.add ⟨false, 0, true⟩ 1 2 3) s0) = some (ends (.add ⟨false, 0, true⟩ 1 2 3) x0 s0) := by decide +kernel

/-- A thread of no tile task: ILLEGAL with detail 10. -/
theorem test_IssueOrder_tile : gives (exec (.tcfg h0 0 0) (on { th0 with inTask := false })) (fun t => (me t x0).tcause == 0xA0001) = true := by decide +kernel

/-- q0 is empty: the thread blocks for one word of it. -/
theorem test_IssueOrder_block :
    nx (exec (.add h0 1 24 3) s0) = some (setSt s0 l0 0 (.block (.queues [(0, 1)] []) 0)) := by decide +kernel

/-- s2 is pending. -/
theorem test_IssueOrder_hazard : nx (exec (.add h0 1 2 3) (on { th0 with spnd := 4 })) = some (trapAt (on { th0 with spnd := 4 }) x0 cHAZARD 0 0) := by
  decide +kernel

/-- s2 is deferred, and an address uses it. -/
theorem test_IssueOrder_deferred : nx (exec (.ld h0 none 1 2 0 .b8 false) (on { th0 with sdf := 4 }))
    = some (trapAt (on { th0 with sdf := 4 }) x0 cDFUSE 0 0) := by decide +kernel

/-- A word waits in the link from the east neighbour toward the core of `s0`. -/
def inQ0 : State :=
  match inboundOf l0 0 with
  | some (m, e) => modLink s0 m e fun d => { d with words := [⟨77, false, 0⟩, ⟨78, true, 0⟩] }
  | none => s0

theorem test_Operands_queue : ∃ q m e w rest, inboundOf x0.loc q = some (m, e) ∧ (Machine.core inQ0 m).links[e].words = w :: rest ∧ w.ready ≤ inQ0.cycle :=
  ⟨0, _, _, ⟨77, false, 0⟩, [⟨78, true, 0⟩], rfl, by decide +kernel, by decide +kernel⟩

/-- Both source fields name q0: it gives two words, A first; one source, one word. -/
theorem test_Operands_twoWords : gives (exec (.sub h0 1 24 24) inQ0) (fun t => (me t x0).s[(1 : SReg)] == -1) = true ∧
    (argsOf (.sub h0 1 24 3) inQ0 x0).1.a = 77 ∧ (argsOf (.sub h0 1 24 24) inQ0 x0).1.b = 78 := by decide +kernel

theorem test_Operands_zero : (me (putS s0 x0 0 5 true) x0).s[(0 : SReg)] = 0 ∧ (readSrc s0 x0 (some 0)).1 = 0 ∧ (readSrc s0 x0 (some 31)).1 = 1984 := by
  decide +kernel

theorem test_InstructionEnd_loop : ∃ (i : Instr) (f : Form) (x : Cur) (t : State) (e : LoopEntry) (r : List LoopEntry), formOf i = some f ∧ f.h.sw = false ∧ (thread t x.loc x.slot).loops = e :: r ∧
    (thread t x.loc x.slot).pc ≤ e.fin ∧ e.fin < (thread t x.loc x.slot).pc + BitVec.ofNat 64 f.len ∧ e.count ≠ 0 :=
  ⟨.nop h0, _, x0, on { th0 with loops := [⟨2 ^ 52 - 8, 2 ^ 52 + 4, 3⟩] }, ⟨2 ^ 52 - 8, 2 ^ 52 + 4, 3⟩, [], rfl, rfl, by decide +kernel, by decide +kernel,
    by decide +kernel, by decide⟩

/-- The last pass: COUNT is 0, the entry is popped and the thread goes on at END + 4. -/
theorem test_InstructionEnd_last : gives (exec (.nop h0) (on { th0 with loops := [⟨2 ^ 52 - 8, 2 ^ 52 + 4, 0⟩] }))
    (fun t => (me t x0).loops == [] && (me t x0).pc == 2 ^ 52 + 8) = true := by decide +kernel

theorem test_InstructionEnd_parks : ∃ (i : Instr) (f : Form) (x : Cur) (t : State), formOf i = some f ∧ f.h.sw = true ∧ (thread t x.loc x.slot).outs ≠ [] :=
  ⟨.nop ⟨true, 0, false⟩, _, x0, on { th0 with outs := [⟨.alu, some 9, [.s 1 2 false], 0⟩] }, rfl, rfl, by decide +kernel⟩

theorem test_InstructionEnd_clears : gives (exec (.nop ⟨true, 0, false⟩) s0) (fun t => (me t x0).spnd == 0 && (slotAt t l0 0).st == .run) = true := by
  decide +kernel

/-- A user thread with a handler at 0x1000. -/
def s1 : State := on { th0 with tvec := 0x1000, sdf := 8 }

theorem test_Traps_vector : (me s1 x0).outs = [] ∧ (me s1 x0).thact = false ∧ (me s1 x0).priv = false ∧ (me s1 x0).tvec ≠ 0 ∧
    (me (trapAt s1 x0 cSHAPE 0 0xFFFFFFFFFFFFFF) x0).pc = 0x1000 ∧ (me (trapAt s1 x0 cSHAPE 5 0xFFFFFFFFFFFFFF) x0).tcause = 0x5000A := by decide +kernel

theorem test_Traps_privileged : (me (on { th0 with priv := true }) x0).outs = [] ∧ (me (on { th0 with priv := true }) x0).priv = true ∧
    (me (trapAt (on { th0 with priv := true }) x0 cMEMERR 0 0) x0).pc = 0 := by decide +kernel

theorem test_Traps_halt : routesToVector cMEMERR = false ∧ (slotAt (trapAt s1 x0 cMEMERR 0 0) l0 0).st = .halt ∧ (die s1 0).events.length < 64 := by
  decide +kernel

theorem test_Traps_double : (me (on { th0 with thact := true, tvec := 0x1000 }) x0).thact = true ∧
    (me (trapAt (on { th0 with thact := true, tvec := 0x1000 }) x0 cHAZARD 0 0) x0).tcause = 0x70015 := by decide +kernel

theorem test_Traps_waits : (me (on { th0 with outs := [⟨.alu, some 9, [.s 1 2 false], 0⟩] }) x0).outs ≠ [] := by decide +kernel

theorem test_Traps_return : ready (.eret h0) (on { th0 with thact := true, tpc := 0x2003 }) x0 = true ∧
    gives (exec (.eret h0) (on { th0 with thact := true, tpc := 0x2003 })) (fun t => (me t x0).pc == 0x2000 && !(me t x0).thact) = true ∧
    nx (exec (.eret h0) s0) = some (trapAt s0 x0 cILLEGAL 2 0) := by decide +kernel

/-! ## The scalar families -/

/-- s2 = 128 and s3 = 192 in `s0`; `sN` has s2 = −7, s3 = 2. -/
def sN : State := on (user fun r => if r = 2 then -7 else if r = 3 then 2 else 0)

/-- Whether an instruction completes from `sN` with a value in s1. -/
def writes (i : Instr) (v : Word) : Bool := ready i sN x0 && gives (exec i sN) fun t => (me t x0).s[(1 : SReg)] == v && (me t x0).pc == 2 ^ 52 + 8

theorem test_Alu : [writes (.add h0 1 2 3) (-5), writes (.sub h0 1 3 2) 9, writes (.and h0 1 2 3) 0, writes (.or h0 1 2 3) (-5), writes (.xor h0 1 2 3) (-5),
    writes (.andn h0 1 3 2) 2, writes (.shl h0 1 2 3) (-28), writes (.shr h0 1 2 3) 0x3FFFFFFFFFFFFFFE, writes (.sra h0 1 2 3) (-2),
    writes (.rol h0 1 2 3) (-25), writes (.min h0 1 2 3) (-7), writes (.max h0 1 2 3) 2, writes (.minn h0 1 2 3) 2, writes (.maxn h0 1 2 3) (-7),
    writes (.mul h0 1 2 3) (-14), writes (.mulh h0 1 2 3) (-1), writes (.mulhn h0 1 2 3) 1, writes (.clz h0 1 3) 62, writes (.ctz h0 1 3) 1,
    writes (.popc h0 1 2) 62, writes (.bswap h0 1 3) 0x0200000000000000, writes (.ctz h0 1 0) 64].all id = true := by decide +kernel

theorem test_Alu_immediates : [writes (.addi h0 1 2 (-3)) (-10), writes (.andi h0 1 2 (-4)) (-8), writes (.ori h0 1 3 4) 6, writes (.xori h0 1 3 (-1)) (-3),
    writes (.shli h0 1 3 63) 0, writes (.shri h0 1 2 63) 1, writes (.srai h0 1 2 1) (-4), writes (.roli h0 1 3 63) 1, writes (.mini h0 1 3 (-5)) (-5),
    writes (.maxi h0 1 2 (-5)) (-5), writes (.muli h0 1 2 (-2)) 14].all id = true := by decide +kernel

/-- Whether a long result with the value stands outstanding until `c`. -/
def later (i : Instr) (s : State) (v : Word) (f : BitVec 5) (c : Nat) : Bool :=
  ready i s x0 && gives (exec i s) fun t => (me t x0).outs == [⟨.alu, some c, [.s 1 v false], f⟩] && (me t x0).spnd == 2

theorem test_Alu_divisions : [later (.div h0 1 2 3) sN (-3) 0 28, later (.rem h0 1 2 3) sN (-1) 0 28, later (.divn h0 1 2 3) sN 0x7FFFFFFFFFFFFFFC 0 28,
    later (.remn h0 1 2 3) sN 1 0 28, later (.div h0 1 2 0) sN (-1) 2 28, later (.rem h0 1 2 0) sN (-7) 2 28].all id = true := by decide +kernel

/-- Whether an instruction sets predicate 1 to a value. -/
def tests (i : Instr) (s : State) (v : Bool) : Bool := ready i s x0 && gives (exec i s) fun t => (me t x0).p.getLsbD 1 == v

theorem test_ComparesAndPredicates : [tests (.eq h0 (.p 1) 2 3) sN false, tests (.ne h0 (.p 1) 2 3) sN true, tests (.lt h0 (.p 1) 2 3) sN true,
    tests (.le h0 (.p 1) 3 3) sN true, tests (.ltn h0 (.p 1) 2 3) sN false, tests (.len h0 (.p 1) 3 2) sN true, tests (.eqi h0 (.p 1) 2 (-7)) sN true,
    tests (.nei h0 (.p 1) 2 (-7)) sN false, tests (.lti h0 (.p 1) 2 (-6)) sN true, tests (.lei h0 (.p 1) 2 (-8)) sN false,
    tests (.ltni h0 (.p 1) 3 (-1)) sN true, tests (.leni h0 (.p 1) 2 (-7)) sN true, tests (.pand h0 (.p 1) 0 2) sN false, tests (.por h0 (.p 1) 0 2) sN true,
    tests (.pxor h0 (.p 1) 0 0) sN false, tests (.pandn h0 (.p 1) 0 2) sN true, tests (.pnot h0 (.p 1) 2) sN true, tests (.pmov h0 (.p 1) (.p 0)) sN true].all id
      = true := by decide +kernel

theorem test_ComparesAndPredicates_guard : ready (.lt h0 (.g 1) 2 3) sN x0 = true ∧ ready (.pmov h0 (.g 3) .unset) sN x0 = true ∧
    gives (exec (.lt h0 (.g 1) 2 3) sN) (fun t => (me t x0).g[(1 : GReg)] == .tt) = true := by decide +kernel

theorem test_ImmediatesAndFields : ready (.li h0 1 (-1)) sN x0 = true ∧ ready (.lipc h0 1 (-8)) sN x0 = true ∧
    gives (exec (.lipc h0 1 (-8)) sN) (fun t => (me t x0).s[(1 : SReg)] == 2 ^ 52 - 8 && (me t x0).pc == 2 ^ 52 + 12) = true ∧
    [writes (.sel h0 1 2 3 1) 2, writes (.sext h0 1 3 1) (-2), writes (.zext h0 1 2 7) 249, writes (.bfx h0 1 2 true 1 63) 0x7FFFFFFFFFFFFFFC,
      writes (.bfx h0 1 2 true 0 2) 1, writes (.bfi h0 1 2 63 1) 0x8000000000000000, writes (.bfi h0 1 3 4 3) 32].all id = true := by decide +kernel

/-- s2 = 1.5, s3 = 2^-149 (the least subnormal), s4 = −0, s5 = 3, s6 = NaN. -/
def sF : State := on (user fun r => if r = 2 then 0x3FC00000 else if r = 3 then 1 else if r = 4 then 0x80000000 else if r = 5 then 0x40400000
  else if r = 6 then 0x7FC00001 else 0)

/-- Whether s1 gets a value and FPMODE the flags. -/
def floats (i : Instr) (v : Word) (f : BitVec 8) : Bool :=
  ready i sF x0 && gives (exec i sF) fun t => (me t x0).s[(1 : SReg)] == v && (me t x0).fpmode == 0x20 ||| f

theorem test_FpResults : [floats (.fadd h0 1 2 2) 0x40400000 0, floats (.fsub h0 1 2 2) 0 0, floats (.fmul h0 1 2 2) 0x40100000 0,
    floats (.fma h0 1 2 2) 0x40100000 0, floats (.fmin h0 1 4 0) 0x80000000 0, floats (.fmax h0 1 6 2) 0x3FC00000 0, floats (.fabs h0 1 4) 0 0,
    floats (.fneg h0 1 2) 0xBFC00000 0, floats (.fadd h0 1 6 2) 0x7FC00000 1, later (.fdiv h0 1 2 4) sF 0xFF800000 2 16,
    later (.fsqrt h0 1 4) sF 0x80000000 0 16, later (.fdiv h0 1 5 2) sF 0x40000000 0 16].all id = true := by decide +kernel

theorem test_FpResults_corners : fpMul fp32 .rne 0x7F800000 0x80000000 = (0x7FC00000, 1) ∧ fpDiv fp32 .rup 0x7F800000 0xFF800000 = (0x7FC00000, 1) ∧
    fpAdd fp32 .rdn 0x7F800000 0xFF800000 = (0x7FC00000, 1) ∧ fpSqrt fp32 .rtz 0xBF800000 = (0x7FC00000, 1) ∧
    fpMinMax fp32 false 0x7F800001 0xFFFFFFFF = 0x7FC00000 ∧ fpFma fp32 .rne 0 0x7F800000 0x3F800000 = (0x7FC00000, 1) := by decide +kernel

theorem test_FpCompareConvert : [tests (.feq h0 (.p 1) 4 0) sF true, tests (.flt h0 (.p 1) 6 2) sF false, tests (.fle h0 (.p 1) 2 5) sF true,
    tests (.funord h0 (.p 1) 6 2) sF true].all id = true ∧ floats (.fcvt h0 .fp32 .i32 1 2) 2 16 = true ∧
    gives (exec (.flt h0 (.p 1) 6 2) sF) (fun t => (me t x0).fpmode == 0x21) = true ∧
    gives (exec (.funord h0 (.p 1) 6 2) sF) (fun t => (me t x0).fpmode == 0x20) = true := by decide +kernel

/-! ## Branches, loops, threads -/

/-- Two loop bodies, the inner one at 2^52 to 2^52 + 16. -/
def sL : State := on { user (fun r => if r = 2 then 2 ^ 52 + 0x100 else if r = 3 then 6 else 0) with
  loops := [⟨2 ^ 52, 2 ^ 52 + 16, 5⟩, ⟨2 ^ 52 - 64, 2 ^ 52 + 0x200, 7⟩] }

theorem test_BranchesAndLoops : ready (.jmp h0 (-4)) sL x0 = true ∧ ready (.call h0 4) sL x0 = true ∧ ready (.jr h0 2) sL x0 = true ∧
    ready (.callr h0 3) sL x0 = true ∧
    gives (exec (.jmp h0 (-4)) sL) (fun t => (me t x0).pc == 2 ^ 52 - 16 && (me t x0).loops.length == 1) = true ∧
    gives (exec (.jmp h0 4) sL) (fun t => (me t x0).pc == 2 ^ 52 + 16 && (me t x0).loops.length == 2) = true ∧
    gives (exec (.jr h0 2) sL) (fun t => (me t x0).pc == 2 ^ 52 + 0x100 && (me t x0).loops.length == 1) = true ∧
    gives (exec (.call h0 1000) sL) (fun t => (me t x0).s[(31 : SReg)] == 2 ^ 52 + 8 && (me t x0).loops.length == 2) = true ∧
    nx (exec (.callr h0 3) sL) = some (trapAt sL x0 cMISALIGN 0 0) := by decide +kernel

theorem test_BranchesAndLoops_push : ready (.loop h0 3 9) sL x0 = true ∧ ready (.loopi h0 0 9) sL x0 = true ∧
    gives (exec (.loop h0 3 9) sL) (fun t => (me t x0).loops.head? == some ⟨2 ^ 52 + 8, 2 ^ 52 + 40, 5⟩ && (me t x0).pc == 2 ^ 52 + 8) = true ∧
    gives (exec (.loopi h0 0 9) sL) (fun t => (me t x0).pc == 2 ^ 52 + 44 && (me t x0).loops.length == 2) = true ∧
    (let s := on { th0 with loops := [⟨0, 0, 1⟩, ⟨0, 0, 1⟩, ⟨0, 0, 1⟩, ⟨0, 0, 1⟩] }
     nx (exec (.loopi h0 1 9) s) = some (trapAt s x0 cLOOP 0 0)) := by decide +kernel

theorem test_ThreadInstructions : ready (.chk h0 3 8) s1 x0 = true ∧ ready (.chkl h0 1 8) s1 x0 = true ∧ ready (.nop h0) s1 x0 = true ∧
    ready (.yield h0) s1 x0 = true ∧ ready (.ckpt h0 2) s1 x0 = true ∧ ready (.tdone h0) s1 x0 = true ∧ ready (.ifl h0) s1 x0 = true ∧
    ready (.lfl h0) s1 x0 = true ∧ drained s1 x0 = true ∧
    gives (exec (.chk h0 3 8) s1) (fun t => (me t x0).pc == 2 ^ 52 + 32 && (me t x0).sdf == 8) = true ∧
    gives (exec (.chk h0 2 8) s1) (fun t => (me t x0).pc == 2 ^ 52 + 8) = true ∧
    gives (exec (.yield h0) s1) (fun t => (slotAt t l0 0).hold == 16) = true ∧
    gives (exec (.ckpt h0 2) s1) (fun t => (me t x0).ckptid == 2) = true ∧
    gives (exec (.tdone h0) s1) (fun t => (me t x0).ended) = true := by decide +kernel

theorem test_ThreadInstructions_traps : ready (.trap h0 0xFFFF) s1 x0 = true ∧ ready (.brk h0 1) s1 x0 = true ∧ (me s1 x0).outs = [] ∧
    gives (exec (.trap h0 0xFFFF) s1) (fun t => (me t x0).tcause == 0xFFFF0013 && (me t x0).tpc == 2 ^ 52 + 8 && (me t x0).pc == 0x1000) = true ∧
    gives (exec (.brk h0 1) s1) (fun t => (me t x0).tcause == 0x10014 && (slotAt t l0 0).st == .halt) = true ∧
    gives (exec (.trap h0 1) s0) (fun t => (slotAt t l0 0).st == .halt) = true := by decide +kernel

theorem test_ScalarFrame : ∃ i f t, registerOnly i = true ∧ formOf i = some f ∧ s1.cur = some x0 ∧ exec i s1 = .next t ∧ f.clear s1 x0 = true ∧ f.h.sw = false :=
  ⟨.addi h0 1 2 5, _, _, rfl, rfl, rfl, rfl, by decide +kernel, rfl⟩

/-! ## Memory -/

/-- LM of the core of `s0` holds bytes 0xF0, 0xF1, … 0xFF at 64, s2 = 64, and rows at 128. -/
def sM : State :=
  let key := lmKey 0 65 64
  { s0 with
    mem := s0.mem.writeN key ((List.range 16).map fun i => BitVec.ofNat 8 (0xF0 + i)), cur := some x0
    cores := (modTh s0 l0 0 fun th => { th with s := Vector.ofFn fun r => if r = 2 then 64 else if r = 3 then -1 else if r = 4 then 3 else 64 }).cores }

def k64 : Nat := lmKey 0 65 64

/-- Whether an instruction completes and leaves a number in `n` bytes at 64. -/
def leaves (i : Instr) (n v : Nat) : Bool := ready i sM x0 && gives (exec i sM) fun t => numAt t k64 n == v && (me t x0).pc != 2 ^ 52
def loads (i : Instr) (v : Word) : Bool := ready i sM x0 && gives (exec i sM) fun t => (me t x0).s[(1 : SReg)] == v

theorem test_own_lm : OwnLm sM x0 false 64 8 k64 ∧ OwnLm sM x0 true 64 4 k64 ∧ OwnLm sM x0 false 64 16 k64 ∧ OwnLm sM x0 false 64 64 k64 ∧
    feFull sM k64 = true ∧ feFull (setEmpty sM k64) k64 = false ∧ OwnLm (setEmpty sM k64) x0 false 64 8 k64 ∧
    effective (argsOf (.ld h0 none 1 2 0 .b8 false) sM x0).1.a 0 = 64 :=
  ⟨ownLm_of (by decide +kernel), ownLm_of (by decide +kernel), ownLm_of (by decide +kernel), ownLm_of (by decide +kernel), by decide +kernel,
    by decide +kernel, ownLm_of (by decide +kernel), by decide +kernel⟩

theorem test_Loads : [loads (.ld h0 (some ⟨.narrowest⟩) 1 2 0 .b2 true) 0xF1F0, loads (.ld h0 none 1 2 0 .b8 false) 0xF7F6F5F4F3F2F1F0, loads (.ld h0 none 1 2 0 .b1 false) 0xFFFFFFFFFFFFFFF0,
    loads (.ld h0 none 1 2 1 .b1 true) 0xF1, loads (.ld h0 none 1 2 4 .b4 false) 0xFFFFFFFFF7F6F5F4, loads (.ldSpec h0 none 1 2 0 .b2 true) 0xF1F0,
    loads (.ldSync h0 1 2 0 .b2 true) 0xF1F0, loads (.ldTake h0 1 2 0 .b2 true) 0xF1F0].all id = true ∧
    gives (exec (.ldTake h0 1 2 0 .b2 true) sM) (fun t => !feFull t k64) = true ∧ OwnLm sM x0 true 64 2 k64 := by
  refine ⟨by decide +kernel, by decide +kernel, ownLm_of (by decide +kernel)⟩

/-- A deferred, a misaligned, a too high address and one in the reserved part of LM. -/
def sD : State := on { user (fun r => if r = 2 then 1 else if r = 3 then 2 ^ 56 else if r = 4 then 0x5C000 else 0) with sdf := 32 }

theorem test_Loads_speculative : [2, 3, 4, 5].all (fun r =>
    ready (.ldSpec h0 none 1 r 0 .b8 false) sD x0 && nx (exec (.ldSpec h0 none 1 r 0 .b8 false) sD) == some
      (ends (.ldSpec h0 none 1 r 0 .b8 false) x0 (putS sD x0 1 0 true))) = true := by decide +kernel

theorem test_StoresAndFullEmpty : [leaves (.st h0 none 3 2 0 .b2) 8 0xF7F6F5F4F3F2FFFF, leaves (.stFill h0 4 2 4 .b4) 8 0x00000003F3F2F1F0].all id = true ∧
    (let s := setEmpty sM k64
     ready (.stXfill h0 4 2 8 .b8) s x0 = true ∧ OwnLm s x0 false 72 8 (k64 + 8) ∧ feFull s (k64 + 8) = false ∧
     gives (exec (.stXfill h0 4 2 8 .b8) s) (fun t => numAt t (k64 + 8) 8 == 3 && feFull t k64) = true ∧
     gives (exec (.feGet h0 1 2 0) s) (fun t => (me t x0).s[(1 : SReg)] == 0) = true ∧
     gives (exec (.feSet h0 2 0) s) (fun t => feFull t k64) = true) ∧
    ready (.feClr h0 2 0) sM x0 = true ∧ ready (.feWait h0 2 0) sM x0 = true ∧ feFull sM k64 = true ∧
    gives (exec (.feClr h0 2 0) sM) (fun t => !feFull t (k64 + 15) && feFull t (k64 + 16)) = true ∧
    nx (exec (.feWait h0 2 0) sM) = some (ends (.feWait h0 2 0) x0 sM) := by
  refine ⟨by decide +kernel, ⟨by decide +kernel, ownLm_of (by decide +kernel), by decide +kernel, by decide +kernel, by decide +kernel, by decide +kernel⟩,
    by decide +kernel, by decide +kernel, by decide +kernel, by decide +kernel, by decide +kernel⟩

/-- The old doubleword is 0xF7F6…F0, negative; s4 = 3. -/
theorem test_Atomics : [leaves (.amoAdd h0 none true 1 2 4) 8 0xF7F6F5F4F3F2F1F3, leaves (.amoAnd h0 none false 1 2 4) 8 0xF7F6F5F400000000,
    leaves (.amoOr h0 none true 1 2 4) 8 0xF7F6F5F4F3F2F1F3, leaves (.amoXor h0 none true 1 2 4) 8 0xF7F6F5F4F3F2F1F3,
    leaves (.amoMin h0 none true 1 2 4) 8 0xF7F6F5F4F3F2F1F0, leaves (.amoMax h0 none true 1 2 4) 8 3, leaves (.amoMinn h0 none true 1 2 4) 8 3,
    leaves (.amoMaxn h0 none true 1 2 4) 8 0xF7F6F5F4F3F2F1F0, leaves (.amoSwap h0 none false 1 2 4) 8 0xF7F6F5F400000003,
    leaves (.amoFadd h0 none 1 2 0) 4 0xF3F2F1F0, loads (.amoSwap h0 none false 1 2 4) 0xFFFFFFFFF3F2F1F0,
    leaves (.redAdd h0 none false 2 3) 4 0xF3F2F1EF, leaves (.redAnd h0 none true 2 4) 8 0, leaves (.redOr h0 none true 2 4) 8 0xF7F6F5F4F3F2F1F3,
    leaves (.redXor h0 none true 2 4) 8 0xF7F6F5F4F3F2F1F3, leaves (.redMin h0 none true 2 4) 8 0xF7F6F5F4F3F2F1F0,
    leaves (.redMax h0 none true 2 4) 8 3, leaves (.redMinn h0 none true 2 4) 8 3, leaves (.redMaxn h0 none true 2 4) 8 0xF7F6F5F4F3F2F1F0,
    leaves (.redSwap h0 none true 2 4) 8 3, leaves (.redFadd h0 none 2 0) 4 0xF3F2F1F0, leaves (.redArrive h0 none 2 4) 4 0xF3F2F1F1].all id = true := by
  decide +kernel

/-- s1 = s2 = 64: no match, then a match. -/
theorem test_Atomics_cas : leaves (.cas64 h0 none 1 2 4) 8 0xF7F6F5F4F3F2F1F0 = true ∧ loads (.cas32 h0 none 1 2 4) 0xFFFFFFFFF3F2F1F0 = true ∧
    (let s := { sM with mem := sM.mem.writeN k64 [64, 0, 0, 0] }
     OwnLm s x0 false 64 4 k64 ∧ gives (exec (.cas32 h0 none 1 2 4) s) (fun t => numAt t k64 4 == 3 && (me t x0).s[(1 : SReg)] == 64) = true) ∧
    (let s := setEmpty { sM with mem := sM.mem.writeN k64 [2, 0, 0, 0] } k64
     gives (exec (.redArrive h0 none 2 4) s) (fun t => numAt t k64 4 == 0 && feFull t k64) = true) ∧
    nx (exec (.redArrive h0 none 2 0) sM) = some (trapAt sM x0 cPARAM 0 0) :=
  ⟨by decide +kernel, by decide +kernel, ⟨ownLm_of (by decide +kernel), by decide +kernel⟩, by decide +kernel, by decide +kernel⟩

/-- v5 under mask m2 = lanes 0 and 5, zeroing and not. -/
def pfx (z : Bool) : VPfx := ⟨2, z, .thread, none⟩
def sV : State := modCore sM l0 fun c => { c with
  tiles := c.tiles.set 5 (BitVec.ofNat 512 ((List.range 16).map fun j => (j + 1) * 2 ^ (32 * j)).sum), m := c.m.set 2 0x21 }

theorem test_RowsOwnLm : ready (.vld h0 .none 5 2 0) sV x0 = true ∧ ready (.vldSync h0 (some (pfx true)) 5 2 0) sV x0 = true ∧
    ready (.vst h0 (.vector (pfx false)) 5 2 0) sV x0 = true ∧ ready (.vstFill h0 (some (pfx true)) 5 2 0) sV x0 = true ∧
    OwnLm sV x0 (RowPfx.memp .none).isSome 64 64 k64 ∧ OwnLm sV x0 false 64 64 k64 ∧ (∀ j < 64, feFull sV (k64 + j) = true) ∧
    activeMask (Machine.core sV l0) (some (pfx true)) = 0x21 :=
  ⟨by decide +kernel, by decide +kernel, by decide +kernel, by decide +kernel, ownLm_of (by decide +kernel), ownLm_of (by decide +kernel),
    by decide +kernel, by decide +kernel⟩

/-- An outstanding relaxed access of the thread to another die. -/
def sR : State := { s0 with reqs := [⟨7, l0, 0, 1, 1, 0, true, .module, sliceKey 3 0 0, 2 ^ 49, 8, true, .store .plain 1 .b8, 0, none, 0, none, false, .none, .sent, 0, 0⟩] }

/-- What host reads may still return: at one byte only of this thread's writes, at another after a write of thread 2. -/
def sOld : State := { s0 with hostOld := [⟨40, 1, 1, 1, 5⟩, ⟨50, 2, 1, 2, 6⟩, ⟨40, 3, 1, 1, 7⟩] }

/-- A command of the thread on core 3, which it has left; one on its own core whose guard slot is UNSET. -/
def sCmd : State := modCore s0 (.core 0 3) fun c => setEngQ c .ie [⟨0, 3, 0, 1, 1, 0, .rne, none, some true, some 0, [], [], 0, false, false, [], .none, .fill 64 0 64 0 0⟩]
def sGuard : State := queueCmd s0 x0 .ie 3 (some ⟨2, false⟩) [] (.fill 64 0 64 0 0)

theorem test_Fences : [Instr.fenceCore h0, .fenceDie h0, .fenceMod h0, .fenceSys h0, .fenceEng h0].all (fun i =>
      ready i s0 x0 && ready i sR x0 && nx (exec i s0) == some (ends i x0 s0)) = true ∧
    nx (exec (.fenceDie h0) sR) = some (ends (.fenceDie h0) x0 sR) ∧ nx (exec (.fenceMod h0) sR) = some (setSt sR l0 0 (.block (.fence 2) 0)) ∧
    nx (exec (.fenceSys h0) sR) = some (setSt sR l0 0 (.block (.fence 3) 0)) ∧ (slotAt sR l0 0).halting = none ∧
    ready (.fenceSys h0) sOld x0 = true ∧ sOld.reqs = [] ∧ gives (exec (.fenceSys h0) sOld) (fun t => t.hostOld == [⟨50, 2, 1, 2, 6⟩]) = true ∧
    hasCmds (Machine.core s0 l0) (me s0 x0) = false := by decide +kernel

theorem test_Fences_engines : ready (.fenceEng h0) sCmd x0 = true ∧ dropGuards sCmd l0 0 false = sCmd ∧ (slotAt sCmd l0 0).halting = none ∧
    nx (exec (.fenceEng h0) sCmd) = some (setSt sCmd l0 0 (.block (.fence 4) 0)) ∧
    ready (.fenceEng h0) sGuard x0 = true ∧ (engQ (Machine.core sGuard l0) .ie).length = 1 ∧
    gives (exec (.fenceEng h0) sGuard) (fun t => engQ (Machine.core t l0) .ie == [] && (slotAt t l0 0).st == .run) = true := by decide +kernel

theorem test_AccessTraps : ready (.ld h0 none 1 2 0 .b8 false) sD x0 = true ∧
    nx (exec (.ld h0 none 1 2 0 .b8 false) sD) = some (trapAt sD x0 cMISALIGN 0 1) ∧
    nx (exec (.redAdd h0 none false 3 0) sD) = some (trapAt sD x0 cTRANSLATION 0 (2 ^ 56)) ∧
    (let s := modCore (on (user fun r => if r = 2 then 2 ^ 52 + 64 else 0)) l0 fun c => { c with xcache := [(1, ⟨2 ^ 31, 0, 0, true, true, true⟩)] }
     ready (.feSet h0 2 0) s x0 = true ∧ xlateCached s loadPartition l0 (2 ^ 52 + 64) 16 .any = .ok (hbmKey 64) ∧
     nx (exec (.feSet h0 2 0) s) = some (trapAt s x0 cPERMISSION 1 (2 ^ 52 + 64))) := by decide +kernel

/-- s2 names a slice owned by the partition; s3 LM of another core. -/
def sS : State := on (user fun r => if r = 2 then 2 ^ 49 else if r = 3 then 2 ^ 48 else 0)

/-- The loaded partition owns the first unit of slice 0 of die 0. -/
def sS' : State := { sS with owner := [(sliceUnit 0 0 0, 1)] }

theorem test_RemoteAccessParks : xlateCached sS' loadPartition l0 (2 ^ 49) 8 .read = .ok (sliceKey 0 0 0) ∧ isLm (sliceKey 0 0 0) = false ∧
    drained sS' x0 = true ∧ (me sS' x0).roaming = false ∧
    [Instr.ld h0 none 1 2 0 .b8 false, .st h0 none 1 2 0 .b8, .casK h0 1 2 3 4 ⟨true, false, 0⟩, .decK h0 1 2 3 ⟨true, false, 0⟩].all (fun i =>
      ready i sS' x0 && gives (exec i sS') fun t => t.reqs.length == 1 && (slotAt t l0 0).st == .parkMem (.access 1) &&
        (t.reqs.map fun r => r.key) == [sliceKey 0 0 0] && (t.reqs.map fun r => r.va) == [2 ^ 49]) = true := by decide +kernel

/-! ## Messages, rings, queues -/

theorem test_Messages_spawn : ready (.spawn h0 2 4 3 false 0x4000000000000) sS' x0 = true ∧ canSend sS' x0 ∧ namedAt sS' x0 (2 ^ 49) = .ok (sliceKey 0 0 0) ∧
    fetchable sS' 1 l0 .none (2 ^ 52) = .ok () ∧
    gives (exec (.spawn h0 2 4 3 false 0x4000000000000) sS') (fun t => (t.msgs.map fun m => match m.body with
      | .spawn d a => d == .slice 0 0 && a.th.roaming && a.th.pc == 2 ^ 52 | _ => false) == [true]) = true ∧
    ready (.tgSignal h0 3 255) sS' x0 = true ∧ gives (exec (.tgSignal h0 3 255) sS') (fun t => t.msgs.length == 1) = true :=
  ⟨by decide +kernel, ⟨by decide +kernel, by decide +kernel, by decide +kernel⟩, ok_of (by decide +kernel), by rfl, by decide +kernel, by decide +kernel, by decide +kernel⟩

/-- A roaming thread. -/
def sW : State := modTh sS' l0 0 fun th => { th with roaming := true, inTask := false }

theorem test_Messages_migrate : ready (.migrate h0 2) sW x0 = true ∧ (me sW x0).roaming = true ∧ (me sW x0).loops = [] ∧
    namedAt sW x0 (argsOf (.migrate h0 2) sW x0).1.a = .ok (sliceKey 0 0 0) ∧ servedAt (sliceKey 0 0 0) ≠ l0 ∧ drained sW x0 = true ∧ sW.reqs = [] ∧
    (Machine.core sW l0).fwd.length < 16 ∧ hasWaitingGuard (Machine.core sW l0) (me sW x0) = false ∧
    nx (exec (.migrate h0 2) sW) = some (setSt sW l0 0 (.moving (.slice 0 0))) ∧ nx (exec (.migrate h0 2) sS') = some (trapAt sS' x0 cPARAM 0 0) ∧
    (let s := modTh sW l0 0 fun th => { th with s := th.s.set 2 0 }
     nx (exec (.migrate h0 2) s) = some (ends (.migrate h0 2) x0 s)) :=
  ⟨by decide +kernel, by decide +kernel, by decide +kernel, ok_of (by decide +kernel), by decide +kernel, by decide +kernel, by decide +kernel,
    by decide +kernel, by decide +kernel, by decide +kernel, by decide +kernel, by decide +kernel⟩

/-- s2 = 64: a payload, records or a block in own LM; s3 = 17; s4 = 3 names relative core 3. -/
def sB : State := { sM with cores := (modTh sM l0 0 fun th => { th with s := Vector.ofFn fun r => if r = 2 then 64 else if r = 3 then 17 else if r = 4 then 3 else 0 }).cores }

theorem test_Messages_requests : ready (.rbSend h0 1 2 3 4 5 ⟨7, 0, 0⟩) sB x0 = true ∧ canSend sB x0 ∧ OwnLm sB x0 false 64 16 k64 ∧
    (∀ j < 5, poisoned sB (k64 + j) = false) ∧ coreOfRel loadPartition 3 = some (.core 0 3) ∧ part? sB 1 = some loadPartition ∧
    ready (.tgLaunch h0 1 2 4) sB x0 = true ∧ xlateRange sB loadPartition l0 .none .read 8 64 256 = .ok [(64, 256, k64)] ∧
    ready (.pcall h0 1 2 1) sB x0 = true ∧ (me sB x0).priv = false ∧ blockKey sB loadPartition l0 64 = some k64 ∧
    ready (.pcall h0 1 5 1) sB x0 = true ∧ ready (.kswap h0 1) sB x0 = true ∧
    gives (exec (.rbSend h0 1 2 3 4 5 ⟨7, 0, 0⟩) sB) (fun t => (t.msgs.map fun m => match m.body with
      | .ring r d => r.payload == [0xF0, 0xF1, 0xF2, 0xF3, 0xF4] && r.tag == 17 && d == 1 && r.k == 7 | _ => false) == [true]) = true ∧
    gives (exec (.tgLaunch h0 1 2 4) sB) (fun t => (t.msgs.map fun m => match m.body with
      | .launch a l d => !a && l == [k64, k64 + 64, k64 + 128, k64 + 192] && d == 1 | _ => false) == [true]) = true ∧
    gives (exec (.pcall h0 1 2 1) sB) (fun t => (slotAt t l0 0).st == .parkMem (.message 1)) = true ∧
    gives (exec (.kswap h0 1) sB) (fun t => t.kswaps.length == 1 && (slotAt t l0 0).st == .parkMem (.message 1)) = true :=
  ⟨by decide +kernel, ⟨by decide +kernel, by decide +kernel, by decide +kernel⟩, ownLm_of (by decide +kernel), by decide +kernel, by decide +kernel,
    by decide +kernel, by decide +kernel, ok_of (by decide +kernel), by decide +kernel, by decide +kernel, by decide +kernel, by decide +kernel, by decide +kernel,
    by decide +kernel, by decide +kernel, by decide +kernel, by decide +kernel⟩

/-- Ring 3 of the core: 1 KiB at 0x400, HEAD at 1008 with a skip header there and a message of 5 bytes at offset 0. -/
def sQ (kind : Nat) : State :=
  let b := lmKey 0 65 0x400
  let s := setRing s0 l0 3 ⟨true, 1, 1, 1008, 32⟩
  { s with mem := (s.mem.writeN (b + 1008) (toBytes 16 (kind * 2 ^ 39))).writeN b (toBytes 16 5) }

theorem test_Rings : ready (.rbGet h0 1 3) (sQ 1) x0 = true ∧ ready (.rbGetNb h0 1 3) (sQ 1) x0 = true ∧ ready (.rbFree h0 3) (sQ 0) x0 = true ∧
    (Machine.core (sQ 1) l0).rings[(3 : Fin 8)].en = true ∧ drained (sQ 1) x0 = true ∧ (sQ 1).reqs = [] ∧
    (∀ off ∈ [0, 1008], poisoned (sQ 1) (lmKey 0 65 (0x400 + off)) = false ∧ feFull (sQ 1) (lmKey 0 65 (0x400 + off)) = true) ∧
    numAt (sQ 1) (lmKey 0 65 0x7F0) 16 / 2 ^ 39 % 16 = 1 ∧ numAt (sQ 1) (lmKey 0 65 0x400) 16 / 2 ^ 39 % 16 = 0 ∧
    (∀ l ∈ (sQ 0).cores, l.2.ringSpoil = []) ∧
    gives (exec (.rbGet h0 1 3) (sQ 1)) (fun t => (me t x0).s[(1 : SReg)] == 0x400 && ((Machine.core t l0).rings[(3 : Fin 8)]).head == 0 &&
      !feFull t (lmKey 0 65 0x7F0)) = true ∧
    gives (exec (.rbGet h0 1 3) (sQ 0)) (fun t => (me t x0).s[(1 : SReg)] == 0x7F0) = true ∧
    nx (exec (.rbGetNb h0 1 3) (sQ 2)) = some (trapAt (sQ 2) x0 cPARAM 0 0) ∧
    gives (exec (.rbFree h0 3) (sQ 0)) (fun t => ((Machine.core t l0).rings[(3 : Fin 8)]).head == 0) = true ∧
    (let s := setEmpty (sQ 0) (lmKey 0 65 0x7F0)
     gives (exec (.rbGetNb h0 1 3) s) (fun t => (me t x0).s[(1 : SReg)] == 0) = true ∧ nx (exec (.rbFree h0 3) s) = some (trapAt s x0 cPARAM 0 0)) ∧
    nx (exec (.rbGet h0 1 0) (sQ 0)) = some (trapAt (sQ 0) x0 cPARAM 0 0) := by decide +kernel

theorem test_QueuesAndLightHandler : ready (.qsendc h0 1 2) s0 x0 = true ∧ ready (.qstat h0 1 0) inQ0 x0 = true ∧ ready (.qstat h0 1 1) inQ0 x0 = true ∧
    ready (.qstat h0 1 2) inQ0 x0 = true ∧ ready (.qret h0) s0 x0 = true ∧
    gives (exec (.qsendc h0 1 2) s0) (fun t => ((Machine.core t l0).links[(1 : Fin 4)]).words == [⟨128, true, 2⟩]) = true ∧
    gives (exec (.qstat h0 1 0) inQ0) (fun t => (me t x0).s[(1 : SReg)].toNat % 16 == 2) = true ∧
    (let s := modTh s0 l0 0 fun th => { th with lact := true, lret := 0x40, ldir := 2 }
     ready (.qret h0) s x0 = true ∧ gives (exec (.qret h0) s) (fun t => (me t x0).pc == 0x40 && !(me t x0).lact) = true ∧
     gives (exec (.qstat h0 1 2) s) (fun t => (me t x0).s[(1 : SReg)] == 0x8200000000000040) = true) ∧
    nx (exec (.qret h0) s0) = some (trapAt s0 x0 cILLEGAL 2 0) := by decide +kernel

theorem test_QueuesAndLightHandler_status : ∃ q m e p, part? inQ0 (me inQ0 x0).part = some p ∧ (linksOf p x0.loc).getLsbD (q : Fin 4).val = true ∧
    inboundOf x0.loc q = some (m, e) ∧ (Machine.core inQ0 m).links[e].words.length = 2 :=
  ⟨0, _, _, loadPartition, by decide +kernel, by decide +kernel, rfl, by decide +kernel⟩

theorem test_Messages_walks : firstWalk sS' x0 [(2 ^ 49, 1), (2 ^ 52, 4)] = none ∧ firstWalk sW x0 [((argsOf (.migrate h0 2) sW x0).1.a.toNat, 1)] = none ∧
    firstWalk sB x0 [(64, 256)] = none ∧
    (let s := modTh { sW with reqs := sR.reqs } l0 0 fun th => { th with s := th.s.set 2 0 }
     ready (.migrate h0 2) s x0 = true ∧ firstWalk s x0 [((argsOf (.migrate h0 2) s x0).1.a.toNat, 1)] = none ∧ drained s x0 = false ∧
     (slotAt s l0 0).halting = none ∧ nx (exec (.migrate h0 2) s) = some (setSt s l0 0 (.block .drain 0))) := by decide +kernel

theorem test_QueuesAndLightHandler_words (l : Loc) (r : Fin 4) : (Machine.core inQ0 l).links[r].words.length ≤ 8 := by
  have h : ∀ c ∈ inQ0.cores, ∀ q : Fin 4, c.2.links[q].words.length ≤ 8 := by decide +kernel
  have h0 : ∀ q : Fin 4, Core.reset.links[q].words.length ≤ 8 := by decide +kernel
  unfold Machine.core assocGet
  split
  · next e he => exact h _ (List.mem_of_find?_eq_some he) r
  · exact h0 r

/-! ## Path labels -/

/-- The root of tree 5, its child 17 and that one's child 0; written out from the code of 13 R307: 17 is the byte 0xF1 after one nibble group. -/
def root5 : Label := BitVec.ofNat 128 (5 * 2 ^ 108)
def a5 : Label := (lAppend root5 17).getD 0
def b5 : Label := (lAppend a5 0).getD 0

/-- A directory of 2^7 slots in slice 0, an entry for tree 5, labels in l1 to l4: the root, its child, its grandchild, one that is not well-formed. -/
def e5 : LttEntry := ⟨0, root5, root5, 2 ^ 49, 7, false, false, true⟩
def sT : State :=
  let s := modTh { s0 with owner := [(sliceUnit 0 0 0, 1)] } l0 0 fun th => { th with
    l := Vector.ofFn fun r => if r = 1 then root5 else if r = 2 then a5 else if r = 3 then b5 else if r = 4 then BitVec.ofNat 128 (2 ^ 107) else 0 }
  modCore s l0 fun c => { c with lcache := [(1, 5, [e5])] }

def labels (i : Instr) (v : Label) : Bool := ready i sT x0 && gives (exec i sT) fun t => (me t x0).l[(5 : LReg)] == v
def counts (i : Instr) (v : Word) : Bool := ready i sT x0 && gives (exec i sT) fun t => (me t x0).s[(1 : SReg)] == v
def relates (i : Instr) (v : Bool) : Bool := ready i sT x0 && gives (exec i sT) fun t => (me t x0).p.getLsbD 1 == v

theorem test_LabelResults : [labels (.lroot h0 5 1) (BitVec.ofNat 128 (64 * 2 ^ 108)), labels (.lchild h0 5 2 0) b5, labels (.lparent h0 5 3) a5,
    labels (.lparent h0 5 1) root5, labels (.lcommon h0 5 2 3) a5, labels (.lend h0 5 1) (BitVec.ofNat 128 (5 * 2 ^ 108 + 100 * 2 ^ 100 + 2 ^ 100 - 1)),
    labels (.lmov h0 5 4) (BitVec.ofNat 128 (2 ^ 107)), labels (.lset h0 5 2 0) 128, labels (.lset h0 5 2 1) (BitVec.ofNat 128 (128 * 2 ^ 64)),
    counts (.lget h0 1 1 1) (5 * 2 ^ 44), counts (.lget h0 1 1 0) 0, counts (.lget h0 1 1 2) (5 * 2 ^ 44), counts (.lget h0 1 1 3) 0,
    counts (.ldepth h0 1 3) 2, counts (.ldig h0 1 3 0) 17, counts (.ldig h0 1 3 1) (-1), relates (.lanc h0 1 3 3) true, relates (.lpanc h0 1 3 3) false,
    relates (.lpanc h0 1 1 3) true, relates (.lanc h0 1 3 2) false].all id = true ∧
    lFault root5 = none ∧ lFault a5 = none ∧ lFault b5 = none ∧ lAppend a5 0 = some b5 ∧ lTid a5 = lTid b5 := by decide +kernel

/-- Ordinals at the edges of the code's groups. -/
theorem test_LabelTree : ∀ n ∈ [0, 14, 15, 16, 271, 272, 65807, 65808, 16843018],
    (lAppend root5 n).isSome = true ∧ lFault ((lAppend root5 n).getD 0) = none ∧ lDigits ((lAppend root5 n).getD 0) = some [(n, 0)] ∧
      lDigits root5 = some [] := by decide +kernel

theorem test_LabelTraps : ready (.lchild h0 5 4 2) sT x0 = true ∧ (lFault (labelOf sT x0 4)).isSome = true ∧ ready (.lparent h0 5 4) sT x0 = true ∧
    ready (.lanc h0 1 4 2) sT x0 = true ∧ ready (.lpanc h0 1 4 2) sT x0 = true ∧ ready (.lcommon h0 5 2 4) sT x0 = true ∧ ready (.lend h0 5 4) sT x0 = true ∧
    (let s := modTh sT l0 0 fun th => { th with l := th.l.set 6 (BitVec.ofNat 128 (6 * 2 ^ 108)), s := th.s.set 2 (2 ^ 20) |>.set 3 16843019 }
     nx (exec (.lroot h0 5 2) s) = some (trapAt s x0 cLFORMAT (6 * 16 + 5) 0) ∧ nx (exec (.lchild h0 5 1 3) s) = some (trapAt s x0 cLFORMAT (6 * 16 + 5) 0) ∧
     nx (exec (.lcommon h0 5 1 6) s) = some (trapAt s x0 cLFORMAT (5 * 16 + 5) 0) ∧
     nx (exec (.lld h0 none 1 1 9 .b8 false false) s) = some (trapAt s x0 cMISALIGN 0 0)) := by decide +kernel

theorem test_LabelTraps_translation :
    (let s := modCore sT l0 fun c => { c with lcache := [(1, 5, [])] }
     setFor s x0 5 = some [] ∧ ready (.lld h0 none 1 2 8 .b8 false false) s x0 = true ∧ nx (exec (.lld h0 none 1 2 8 .b8 false false) s) = some (trapAt s x0 cNONODE 1 0)) ∧
    (let y : LttEntry := ⟨3, (lAppend root5 9).getD 0, a5, 2 ^ 49, 7, false, false, false⟩
     let s := modCore sT l0 fun c => { c with lcache := [(1, 5, [e5, y])] }
     lTranslate [e5, y] false a5 = .stale y ∧ gives (exec (.lld h0 none 1 2 8 .b8 false false) s) (fun t => (me t x0).lfOld == a5) = true) := by decide +kernel

theorem test_LabelInstructions : setFor sT x0 5 = some [e5] ∧ lTranslate [e5] false a5 = .ok e5 a5 ∧ lTranslate [e5] true a5 = .ok e5 a5 ∧
    drained sT x0 = true ∧ (me sT x0).roaming = false ∧ e5.view = false ∧
    [Instr.lld h0 none 1 2 8 .b8 false false, .lldL h0 none 5 2 16 true, .lst h0 none 1 2 16 .b8, .lstL h0 none 3 2 32, .lxlate h0 1 2, .lxlateT h0 1 2,
      .lxlateTs h0 1 2, .lfree h0 2].all (fun i => ready i sT x0 && gives (exec i sT) fun t => t.reqs.length == 1 &&
        (slotAt t l0 0).st == .parkMem (.access 1)) = true ∧
    gives (exec (.lst h0 (some ⟨.die⟩) 1 2 16 .b8) sT) (fun t => t.reqs.length == 1 && (slotAt t l0 0).st == .run) = true ∧
    gives (exec (.lxlateT h0 1 4) sT) (fun t => (me t x0).s[(1 : SReg)] == 3 * 2 ^ 56) = true ∧
    (let s := modCore sT l0 fun c => { c with lcache := [(1, 5, [])] }
     gives (exec (.lxlateT h0 1 2) s) (fun t => (me t x0).s[(1 : SReg)] == 2 * 2 ^ 56) = true) := by decide +kernel

theorem test_LabelInstructions_tables : ready (.lrebase h0 5 2) sT x0 = true ∧ rebase (setFor sT x0) false a5 = .ok a5 ∧ ready (.lxlateOld h0 5) sT x0 = true ∧
    ready (.lxlateNew h0 5) sT x0 = true ∧ ready (.ltreeV h0 5 2 1) sT x0 = true ∧ ready (.lmove h0 5 2 1) sT x0 = true ∧ ready (.lmoveF h0 5 2 1) sT x0 = true ∧
    labels (.lrebase h0 5 2) a5 = true ∧
    [Instr.ltreeV h0 5 2 1, .lmove h0 5 2 1, .lmoveF h0 5 2 1].all (fun i => gives (exec i sT) fun t => t.ltts.length == 1 &&
      (slotAt t l0 0).st == .parkMem (.message 1)) = true := by decide +kernel

/-- The directory and the first node of a new tree: s2 = 7, s3 = 2^49, s4 = 2^49 + 2^16. -/
def sN' : State := modTh { sT with owner := [(sliceUnit 0 0 0, 1), (sliceUnit 0 0 (2 ^ 16), 1)] } l0 0 fun th => { th with s := th.s.set 2 7 |>.set 3 (2 ^ 49) |>.set 4 (2 ^ 49 + 2 ^ 16) }

theorem test_LabelInstructions_create : ready (.ltree h0 5 2 3 4 7) sN' x0 = true ∧ notTableMem (2 ^ 49) = false ∧
    xlateRange sN' loadPartition l0 .none .rmw 8200 (2 ^ 49) 4096 = .ok [(2 ^ 49, 4096, sliceKey 0 0 0)] ∧
    xlateRange sN' loadPartition l0 .none .write 2 (2 ^ 49 + 2 ^ 16) 16 = .ok [(2 ^ 49 + 2 ^ 16, 16, sliceKey 0 0 (2 ^ 16))] ∧
    gives (exec (.ltree h0 5 2 3 4 7) sN') (fun t => t.ltts.length == 1) = true ∧
    ready (.lnew h0 5 2 4 0) sN' x0 = true ∧ addrCheck sN' x0 (2 ^ 49 + 2 ^ 16) 16 .write = .ok (sliceKey 0 0 (2 ^ 16)) ∧
    gives (exec (.lnew h0 5 2 4 0) sN') (fun t => t.reqs.length == 1) = true :=
  ⟨by decide +kernel, by decide +kernel, ok_of (by decide +kernel), ok_of (by decide +kernel), by decide +kernel, by decide +kernel, by rfl, by decide +kernel⟩

/-- Refused stores of bytes 8 to 15 and through a view: an ordinary one takes the trap with its access, a relaxed one at issue. -/
theorem test_LabelInstructions_denied : storeDeny e5 8 = some 2 ∧ storeDeny { e5 with view := true } 8 = some 3 ∧
    firstWalk sN' x0 [(2 ^ 49, 4096), (2 ^ 49 + 2 ^ 16, 16)] = none ∧
    gives (exec (.lst h0 none 1 2 8 .b8) sT) (fun t => (t.reqs.map fun r => match r.op with
      | .look _ _ _ _ (.store _ _ _ d) => d | _ => none) == [some 2]) = true ∧
    ready (.lst h0 (some ⟨.die⟩) 1 2 8 .b8) sT x0 = true ∧ ready (.lstL h0 (some ⟨.die⟩) 3 2 0) sT x0 = true ∧
    gives (exec (.lst h0 (some ⟨.die⟩) 1 2 8 .b8) sT) (fun t => (me t x0).tcause == 0x20005 && t.reqs == []) = true ∧
    gives (exec (.lstL h0 (some ⟨.die⟩) 3 2 0) sT) (fun t => (me t x0).tcause == 0x20005) = true := by decide +kernel

theorem test_LabelTraps_format : [Instr.ldepth h0 1 4, .lrebase h0 5 4, .lfree h0 4, .lxlate h0 1 4, .lmove h0 5 4 2].all (fun i =>
    ready i sT x0 && match lFault (labelOf sT x0 4) with
      | some n => nx (exec i sT) == some (trapAt sT x0 cLFORMAT (n * 16 + 4) 0)
      | none => false) = true := by decide +kernel

/-! ## Vector instructions (06) -/

/-- A row whose first lanes are `l`, the others 0. -/
def row (w : Nat) (l : List Nat) : Row := BitVec.ofNat 512 (l.zipIdx.map fun q => q.1 * 2 ^ (w * q.2)).sum

/-- Tile 0 FP32, tile 1 I8, tile 2 I32, tile 3 BF16. Mask m1 covers lane 1 only, m3 no lane. Lanes 0 and 1 of v33 are −2^31 and 7, of v34 −1 and 3. -/
def sVec : State :=
  modCore s0 l0 fun c => { c with
    types := Vector.ofFn fun k => [Fmt.fp32, .i8, .i32, .bf16].getD k.val .i8
    m := (c.m.set 1 2).set 3 0
    tiles := Vector.ofFn fun v => ([(1, row 32 [0x3FC00000, 0x7FC00000, 0x40400000]), (2, row 32 [0x40000000, 0x3F800000, 0x3F800001]),
      (3, row 32 [0x3F800000, 0, 0xBF800000]), (17, row 8 [5, 250, 3]), (33, row 32 [0x80000000, 7]), (34, row 32 [0xFFFFFFFF, 3]), (40, row 32 [9, 8, 7, 6]),
      (49, row 16 [0x3F80, 0xC000])].lookup v.val).getD 0 }

/-- Lanes 0 and 1 of the destination v35 (or another) are `r`. -/
def lanes (i : Instr) (r : List Nat) (d : VReg := 35) (w : Nat := 32) (s : State := sVec) : Bool :=
  ready i s x0 && gives (exec i s) fun t => (List.range r.length).map (lane (Machine.core t l0).tiles[d] w) == r

theorem test_VectorIntegerResults : [lanes (.vadd h0 none 35 33 34 .none .none) [0x7FFFFFFF, 10], lanes (.vsub h0 none 35 33 34 .none .none) [0x80000001, 4],
    lanes (.vmul h0 none 35 33 34 .none .none) [0x80000000, 21], lanes (.vmulh h0 none 35 33 34 .none .none) [0, 0],
    lanes (.vmin h0 none 35 33 34 .none .none) [0x80000000, 3], lanes (.vmax h0 none 35 33 34 .none .none) [0xFFFFFFFF, 7],
    lanes (.vminn h0 none 35 33 34 .none .none) [0x80000000, 3], lanes (.vmaxn h0 none 35 33 34 .none .none) [0xFFFFFFFF, 7],
    lanes (.vand h0 none 35 33 34 .none .none) [0x80000000, 3], lanes (.vor h0 none 35 33 34 .none .none) [0xFFFFFFFF, 7],
    lanes (.vxor h0 none 35 33 34 .none .none) [0x7FFFFFFF, 4], lanes (.vandn h0 none 35 33 34 .none .none) [0, 4],
    lanes (.vshl h0 none 35 33 34 .none .none) [0, 56], lanes (.vshr h0 none 35 33 34 .none .none) [1, 0],
    lanes (.vsra h0 none 35 33 34 .none .none) [0xFFFFFFFF, 0], lanes (.vsadd h0 none 35 33 34 .none .none) [0x80000000, 10],
    lanes (.vssub h0 none 35 33 34 .none .none) [0x80000001, 4], lanes (.vabs h0 none 35 33 .none) [0x80000000, 7],
    lanes (.vneg h0 none 35 33 .none) [0x80000000, 0xFFFFFFF9], lanes (.vmov h0 none 35 33 (.rot 1)) [7, 0]].all id = true ∧
    widthOf sVec x0 35 = 32 ∧ widthOf sVec x0 33 = 32 ∧
    ready (.vadd h0 none 35 17 34 .none .none) sVec x0 = true ∧ widthOf sVec x0 17 ≠ 32 ∧
    nx (exec (.vadd h0 none 35 17 34 .none .none) sVec) = some (trapAt sVec x0 cELEM 0 0) := by decide +kernel

/-- Under m1 lane 0 keeps its 9 or is cleared; a source that is the destination. -/
theorem test_VectorIntegerResults_masked : lanes (.vadd h0 (some ⟨1, false, .thread, none⟩) 40 40 33 .none .none) [9, 15] 40 = true ∧
    lanes (.vmov h0 (some ⟨1, true, .thread, none⟩) 40 33 .none) [0, 7, 0] 40 = true ∧ lanes (.vmov h0 (some ⟨0, true, .thread, none⟩) 40 40 .rev) [0, 0] 40 = true ∧
    lane (setRow (Machine.core sVec l0) 40 (row 32 [0xFFFFFFFF]) (row 32 [1, 1])).tiles[(40 : VReg)] 32 0 = 1 ∧
    lane (setRow (Machine.core sVec l0) 40 (row 32 [0xFFFFFFFF]) (row 32 [1, 1])).tiles[(40 : VReg)] 32 1 = 8 := by decide +kernel

/-- Lanes of v1: 1.5, NaN, 3; of v2: 2, 1, 1 + 2^-23; of v3: 1, 0, −1. -/
theorem test_VectorFloatResults : [lanes (.vfadd h0 none 4 1 2 .none .none) [0x40600000, 0x7FC00000, 0x40800000] 4,
    lanes (.vfadd h0 (some ⟨0, false, .rup, none⟩) 4 1 2 .none .none) [0x40600000, 0x7FC00000, 0x40800001] 4,
    lanes (.vfsub h0 none 4 1 2 .none .none) [0xBF000000] 4, lanes (.vfmul h0 none 4 1 2 .none .none) [0x40400000, 0x7FC00000] 4,
    lanes (.vfma h0 (some ⟨0, false, .thread, some 3⟩) 4 1 2 .none .none) [0x40800000] 4, lanes (.vfma h0 none 3 1 2 .none .none) [0x40800000] 3,
    lanes (.vfmin h0 none 4 1 2 .none .none) [0x3FC00000, 0x3F800000] 4, lanes (.vfmax h0 none 4 1 2 .none .none) [0x40000000, 0x3F800000] 4,
    lanes (.vfabs h0 none 4 3 .none) [0x3F800000, 0, 0x3F800000] 4, lanes (.vfneg h0 none 4 3 .none) [0xBF800000, 0x80000000] 4].all id = true ∧
    rowFormat sVec x0 4 = some fp32 ∧ rowFormat sVec x0 35 = none ∧ typeOf (Machine.core sVec l0) 1 = .fp32 ∧
    gives (exec (.vfadd h0 none 4 1 2 .none .none) sVec) (fun t => (me t x0).fpmode == 0x31) = true ∧
    gives (exec (.vfadd h0 (some ⟨1, false, .thread, none⟩) 4 1 2 .none .none) sVec) (fun t => (me t x0).fpmode == 0x21) = true ∧
    nx (exec (.vfadd h0 none 4 1 49 .none .none) sVec) = some (trapAt sVec x0 cELEM 0 0) ∧ ready (.vfadd h0 none 4 1 49 .none .none) sVec x0 = true := by
  decide +kernel

def masks (i : Instr) (v : Word) (m : MReg := 5) : Bool := ready i sVec x0 && gives (exec i sVec) fun t => (Machine.core t l0).m[m] == v

theorem test_VectorCompareResults : [masks (.vcmpEq h0 none 5 33 34 .none .none) 0xFFFC, masks (.vcmpNe h0 none 5 33 34 .none .none) 3,
    masks (.vcmpLt h0 none 5 33 34 .none .none) 1, masks (.vcmpLe h0 none 5 33 34 .none .none) 0xFFFD, masks (.vcmpLtn h0 none 5 34 33 .none .none) 2,
    masks (.vcmpLtn h0 none 5 33 34 .none .none) 1, masks (.vcmpLen h0 none 5 33 34 .none .none) 0xFFFD,
    masks (.vcmpNe h0 (some ⟨1, true, .thread, none⟩) 5 33 34 .none .none) 2, masks (.vcmpNe h0 none 0 33 34 .none .none) 0xFFFFFFFFFFFFFFFF 0,
    masks (.vfcmpEq h0 none 5 1 1 .none .none) 0xFFFD, masks (.vfcmpLt h0 none 5 1 2 .none .none) 1, masks (.vfcmpLe h0 none 5 1 2 .none .none) 0xFFF9,
    masks (.vfcmpUn h0 none 5 1 2 .none .none) 2].all id = true ∧
    gives (exec (.vfcmpLt h0 none 5 1 2 .none .none) sVec) (fun t => (me t x0).fpmode == 0x21) = true ∧
    nx (exec (.vfcmpEq h0 none 5 33 34 .none .none) sVec) = some (trapAt sVec x0 cELEM 0 0) ∧ ready (.vfcmpEq h0 none 5 33 34 .none .none) sVec x0 = true := by
  decide +kernel

/-- Register r of the thread holds 64 r, except s2 = 1, s3 = 16 and s4 = −1. -/
def sVecR : State := modTh sVec l0 0 fun th => { th with s := th.s.set 2 1 |>.set 3 16 |>.set 4 (-1) }

theorem test_VectorMoves : [lanes (.vsel h0 ⟨1, false, .thread, none⟩ 35 33 34 .none .none) [0xFFFFFFFF, 7], lanes (.vsplat h0 none 35 4) [0xFFFFFFFF, 0xFFFFFFFF] 35 32 sVecR,
    lanes (.vidx h0 none 35 4) [0xFFFFFFFF, 0, 1] 35 32 sVecR, lanes (.vins h0 40 4 2) [9, 0xFFFFFFFF, 7] 40 32 sVecR, lanes (.vins h0 40 4 3) [9, 8, 7, 6] 40 32 sVecR,
    lanes (.vcvt h0 none .fp32 4 49 0 .none) [0x3F800000, 0xC0000000] 4, lanes (.vcvt h0 none .i32 35 1 0 .none) [2, 0x80000000 - 1 - 0x7FFFFFFF, 3],
    lanes (.vcvt h0 (some ⟨1, true, .thread, none⟩) .i8 18 33 0 .none) [0, 7] 18 8].all id = true ∧
    [(1, (2 : SReg), (250 : Int) - 256), (0, 2, 7), (0, 3, 0)].all (fun q =>
      ready (.vext h0 1 (if q.1 = 1 then 17 else 33) q.2.1 .none) sVecR x0 && gives (exec (.vext h0 1 (if q.1 = 1 then 17 else 33) q.2.1 .none) sVecR) (fun t =>
        (me t x0).s[(1 : SReg)] == BitVec.ofInt 64 q.2.2)) = true := by decide +kernel

theorem test_MaskResults : [masks (.mand h0 5 1 0) 2, masks (.mor h0 5 1 3) 2, masks (.mxor h0 5 1 0) 0xFFFFFFFFFFFFFFFD, masks (.mnot h0 5 1) 0xFFFFFFFFFFFFFFFD,
    masks (.mset h0 5 3) 192, masks (.mset h0 0 3) 0xFFFFFFFFFFFFFFFF 0].all id = true ∧
    [(Instr.mpopc h0 1 0, 64), (.mget h0 1 1, 2), (.mfirst h0 1 1, 1), (.mfirst h0 1 3, 64), (.mpopc h0 1 3, 0)].all (fun q => ready q.1 sVec x0 &&
      gives (exec q.1 sVec) fun t => (me t x0).s[(1 : SReg)] == BitVec.ofNat 64 q.2) = true ∧
    lanes (.vcompress h0 (some ⟨1, false, .thread, none⟩) 40 33 1 .none) [7, 8] 40 = true ∧
    lanes (.vcompress h0 (some ⟨1, true, .thread, none⟩) 40 33 1 .none) [7, 0] 40 = true ∧
    lanes (.vexpand h0 (some ⟨1, true, .thread, none⟩) 35 40 .none) [0, 9, 0] = true ∧
    gives (exec (.vcompress h0 (some ⟨3, false, .thread, none⟩) 40 33 1 .none) sVec) (fun t => (Machine.core t l0).tstat[(2 : TReg)].cempty && (me t x0).s[(1 : SReg)] == 0) = true := by
  decide +kernel

/-- The outstanding result of an instruction: when it is due, and the scalar it will write. -/
def due (i : Instr) (n : Nat) (v : Option Word := none) (s : State := sVec) : Bool :=
  ready i s x0 && gives (exec i s) fun t => match (me t x0).outs with
    | [r] => r.due == some n && (match v, r.writes with | some w, [.s _ y _] => w == y | _, _ => v.isNone)
    | _ => false

theorem test_LongVectorResults : sVec.cycle = 0 ∧ rowFormat sVec x0 4 = some fp32 ∧ (Machine.core sVec l0).sfu = [] ∧
    [Instr.vexp2 h0 none 4 1 .none, .vlog2 h0 none 4 1 .none, .vrcp h0 none 4 1 .none, .vrsqrt h0 none 4 1 .none, .vtanh h0 none 4 1 .none,
      .vsigm h0 none 4 1 .none].all (fun i => ready i sVec x0) = true ∧ due (.vrcp h0 none 4 2 .none) 24 = true ∧
    (let s := modCore sVec l0 fun c => { c with sfu := List.replicate 8 30, sfuFree := 9 }
     8 ≤ (Machine.core s l0).sfu.length ∧ (slotAt s l0 0).halting = none ∧ gives (exec (.vrcp h0 none 4 2 .none) s) (fun t => (slotAt t l0 0).st == .block .sfu 0) = true) ∧
    [due (.vredadd h0 none 1 33 .none) 12 (some 0xFFFFFFFF80000007), due (.vredmax h0 none 1 33 .none) 12 (some 7), due (.vredmin h0 none 1 33 .none) 12 (some 0xFFFFFFFF80000000),
      due (.vredmax h0 (some ⟨3, false, .thread, none⟩) 1 33 .none) 12 (some 0xFFFFFFFF80000000), due (.vfredadd h0 none 1 3 .none) 12 (some 0),
      due (.vfredmax h0 none 1 2 .none) 12 (some 0x40000000), due (.vscanAdd h0 none 40 33 .none) 12, due (.vscanAdd h0 none 4 2 .none) 12,
      due (.vmergeSm h0 none 4 1 2 .none .none) 30].all id = true := by decide +kernel

/-! ## Engine commands (07, 09, 13, 14) -/

/-- A tensor parameter record at 2^52 + 4096: CLAMPB 1.0, OFMT FP32, WFMT and AFMT i8. A shape record at 2^52 + 8192: a table of i8 at 2^52 + 2^14,
BOUND 1, two dimensions, EXT0 16, EXT1 8, STRIDE1 16, STRIDE0 1. Registers: s1 = 2^52 + 2^15, s2 = 64, s3 = 2^52 + 4096, s4 = 2^52 + 8192, s5 = 1024, s6 = 2^16 + 3. -/
def sEng : State :=
  let m := s0.mem.writeN (hbmKey 4096) (toBytes 32 (0x3F800000 * 2 ^ 160 + 8 * 2 ^ 156))
  let s := { s0 with
    mem := m.writeN (hbmKey 8192) (toBytes 32 (16 * 2 ^ 184 + 2 ^ 160 + 8 * 2 ^ 112 + 16 * 2 ^ 96 + 2 ^ 64 + (2 ^ 52 + 2 ^ 14) * 2 ^ 8 + 4)) }
  let s := modTh s l0 0 fun th => { th with s := th.s.set 1 (2 ^ 52 + 2 ^ 15) |>.set 2 64 |>.set 3 (2 ^ 52 + 4096) |>.set 4 (2 ^ 52 + 8192) |>.set 5 1024 |>.set 6 (2 ^ 16 + 3) }
  modCore s l0 fun c => { c with types := #v[.fp32, .i8, .i32, .bf16], shadow := some (.i8, false) }

def tprE : Tpr := ⟨0, 0x3F800000, .fp32, .i8, #v[.i8, .i8, .i8, .i8], .rne, 0⟩
def shE : Shape := ⟨2 ^ 52 + 2 ^ 14, 1, .i8, 1, #v[16, 8, 0, 0], #v[1, 16, 0, 0]⟩

/-- The command stands alone in its engine's queue, and its thread runs on. -/
def joined (e : Engine) (fn : Nat) (b : EngBody) (t : State) : Bool :=
  (engQ (Machine.core t l0) e).map (fun q => (q.fn, q.body)) == [(fn, b)] && (slotAt t l0 0).st == .run && t.reqs == []

/-- The command `b` of engine `e` with the ranges `needs`, and its record's `recs`, joins the queue. -/
def queued (i : Instr) (e : Engine) (fn : Nat) (needs : List Need) (b : EngBody) (recs : List (Nat × Nat) := []) (s : State := sEng) : Bool :=
  ready i s x0 && drained s x0 && (engQ (Machine.core s l0) e).length < 2
    && (firstWalk (argsOf i s x0).2 x0 (recs ++ needs.map fun n => (n.1, n.2.1))).isNone && match part? s 1 with
    | none => false
    | some p => match xlAll (argsOf i s x0).2 p l0 .none needs with
      | .error _ => false
      | .ok xl => !xl.isEmpty == !needs.isEmpty && gives (exec i s) (joined e fn b)

/-- The ranges of the records that s3 and s4 name. -/
def r3 : List (Nat × Nat) := [(2 ^ 52 + 4096, 32)]
def r4 : List (Nat × Nat) := [(2 ^ 52 + 8192, 32)]

def busyEng (e : Engine) (b : EngBody) (s : State := sEng) : State := queueCmd (queueCmd s x0 e 0 none [] b) x0 e 0 none [] b

def recOk {α : Type} : RecRes α → Option α | .ok a => some a | _ => none

theorem rec_ok_of {α : Type} {e : RecRes α} {a : α} (h : recOk e = some a) : e = .ok a := by
  cases e <;> simp_all [recOk]

theorem test_TilesAndMatrix_records : commandTpr sEng x0 3 (2 ^ 52 + 4096) = .ok tprE ∧ tableAt sEng x0 (2 ^ 52 + 8192) = .ok shE :=
  ⟨rec_ok_of (by decide +kernel), rec_ok_of (by decide +kernel)⟩

theorem test_CommandQueues : (∀ y, engQ (Machine.core sEng l0) y = []) ∧
    (let s := modTh sEng l0 0 fun th => { th with g := #v[.tt, .ff, .unset, .unset] }
     [(some (⟨0, false⟩ : GPfx), [some (some true)]), (some ⟨0, true⟩, []), (some ⟨1, false⟩, []), (some ⟨1, true⟩, [some (some true)]), (some ⟨2, true⟩, [some none]),
       (none, [some (some true)])].all (fun q => (Machine.core (queueCmd s x0 .ie 3 q.1 [] (.tzero 0)) l0).ieq.map (fun c => some c.decided) == q.2) = true ∧
     (Machine.core (queueCmd s x0 .ie 3 none [] (.tzero 0)) l0).engSeq[1] = 1) ∧
    (let s := busyEng .ie (.fill 0 0 0 0 0)
     2 ≤ (engQ (Machine.core s l0) .ie).length ∧ ready (.ieFill h0 none 2 5 0 64) s x0 = true ∧
     gives (exec (.ieFill h0 none 2 5 0 64) s) (fun t => (slotAt t l0 0).st == .block (.engine .ie) 0) = true) := by
  refine ⟨fun y => by cases y <;> decide +kernel, by decide +kernel, by decide +kernel⟩

theorem test_TilesAndMatrix : [queued (.tzero h0 1) .me 1 [] (.tzero 1), queued (.tfree h0 1) .me 2 [] (.tfree 1),
    queued (.wload h0 none 1 3 64 false) .me 0 ((List.range 16).map fun j => (2 ^ 52 + 2 ^ 15 + 64 * j, 64, .read)) (.wload (2 ^ 52 + 2 ^ 15) tprE 64 false) r3,
    queued (.tstore h0 none 1 0 3 0 64 0 5) .me 4 [(2 ^ 52 + 2 ^ 15, 64, .write), (2 ^ 52 + 2 ^ 15 + 128, 64, .write)]
      (.tstore (2 ^ 52 + 2 ^ 15) 0 tprE 64 0 5 0 true) r3,
    queued (.tload h0 none 2 1 64) .me 5 ((List.range 16).map fun j => (2 ^ 52 + 2 ^ 15 + 64 * j, 64, .read)) (.tload 2 (2 ^ 52 + 2 ^ 15) 64),
    queued (.mparam h0 none 1) .me 6 [(2 ^ 52 + 2 ^ 15, 128, .read)] (.mparam (2 ^ 52 + 2 ^ 15))].all id = true := by decide +kernel

/-- TPRA names the record; tile 1 holds i8, tile 2 I32. -/
def sMma : State := modTh sEng l0 0 fun th => { th with tpra := 2 ^ 52 + 4096 }

theorem test_TilesAndMatrix_mma : commandTpr sMma x0 0 0 = .ok tprE := rec_ok_of (by decide +kernel)

theorem test_TilesAndMatrix_mmaForms :
    queued (.mma h0 none 2 1 0 0 0 false) .me 1 [] (.mma .add 2 1 0 false false 0xFFFF 0xFFFF .i8 false tprE) r3 sMma = true ∧
    queued (.mmaZ h0 none 2 1 0 0 0 false) .me 2 [] (.mma .zero 2 1 0 false false 0xFFFF 0xFFFF .i8 false tprE) r3 sMma = true ∧
    queued (.mmaSp h0 none 2 1 0 0 0 false) .me 3 [] (.mma .sparse 2 1 0 false false 0xFFFF 0xFFFF .i8 true tprE) r3
       (modCore sMma l0 fun c => { c with shadow := some (.i8, true) }) = true := by decide +kernel

/-- One vector of 64, 4 rows: activations at 64, results at 1024. -/
theorem test_TilesAndMatrix_gemv : queued (.hmGemv h0 none 5 2 1 3 1 3 63) .nm 0 [(2 ^ 52 + 2 ^ 15, 256, .read), (1024, 16, .write), (64, 64, .read)]
      (.gemv 1024 64 (2 ^ 52 + 2 ^ 15) 1 4 64 tprE) (r3 ++ [(2 ^ 52 + 2 ^ 15, 256)]) = true ∧
    oneStack [(2 ^ 52 + 2 ^ 15, 256, hbmKey (2 ^ 15))] = true ∧ xlAll sEng loadPartition l0 .none [(2 ^ 52 + 2 ^ 15, 256, .read)] = .ok [(2 ^ 52 + 2 ^ 15, 256, hbmKey (2 ^ 15))] :=
  ⟨by decide +kernel, by decide +kernel, ok_of (by decide +kernel)⟩

/-- The ends of the code range of `tcfg` and of the row range of `twm`. -/
theorem test_TilesAndMatrix_control : [5, 8, 12].all (fun c => ready (.tcfg h0 1 c) sEng x0 && gives (exec (.tcfg h0 1 c) sEng) fun t =>
      some (Machine.core t l0).types[(1 : TReg)] == Fmt.ofNum c.val) = true ∧
    [6, 7, 13, 15].all (fun c => nx (exec (.tcfg h0 1 c) sEng) == some (trapAt sEng x0 cPARAM 0 0)) = true ∧
    (Machine.core s0 l0).twm[(0 : TReg)].rows = 16 ∧ nx (exec (.twm h0 0 16) s0) = some (ends (.twm h0 0 16) x0 s0) ∧
    nx (exec (.twm h0 0 0) s0) = some (trapAt s0 x0 cPARAM 0 0) ∧ nx (exec (.twm h0 0 17) s0) = some (trapAt s0 x0 cPARAM 0 0) ∧
    (let s := modCore s0 l0 fun c => { c with twm := c.twm.set 0 ⟨1, 3⟩ }
     ready (.twm h0 0 4) s x0 = true ∧ gives (exec (.twm h0 0 4) s) (fun t => (slotAt t l0 0).st == .block (.twm 0 4) 0) = true) := by decide +kernel

theorem test_IndexCommands : shE.ndim ≤ 1 ∧
    [queued (.ieGather h0 none 5 4 2 0 3) .ie 0 [(1024, 48, .write), (64, 12, .read), (2 ^ 52 + 2 ^ 14, 4096, .read)] (.gather 1024 64 0 shE 3 0 0) r4,
      queued (.ieScatter h0 none 4 5 2 2 3 1) .ie 1 [(1024, 48, .read), (64, 12, .read), (2 ^ 52 + 2 ^ 14, 4096, .rmw), (64, 16, .write)] (.scatter 1024 64 64 shE 3 1 0 0) r4,
      queued (.ieCopy h0 none 1 5 0 32) .ie 2 [(2 ^ 52 + 2 ^ 15, 32, .write), (1024, 32, .read)] (.copy (2 ^ 52 + 2 ^ 15) 1024 0 32 0),
      queued (.ieFill h0 none 2 5 0 64) .ie 3 [(64, 64, .write)] (.fill 64 0 64 1024 0),
      queued (.ieMcast h0 none 2 5 6 0 16 1) .ie 4 [(1024, 16, .read), (2 ^ 48 + 3 * 2 ^ 32 + 64, 16, .write), (2 ^ 48 + 2 ^ 32 + 64, 16, .write)]
        (.mcast 64 1024 0 16 [3, 1] 0),
      queued (.ieCond h0 none 5 2 2 2 4 2) .ie 5 [(1024, 16, .write), (64, 16, .read), (64, 16, .read), (64, 16, .write)] (.cond 1024 64 64 64 4 2 0 0)].all id = true := by
  decide +kernel

/-- Command records at s2 = 64; label registers as in `sT`. -/
def sTree : State := modTh sT l0 0 fun th => { th with s := (((th.s.set 2 64).set 3 1024).set 4 (2 ^ 52)) }

def teQueued (i : Instr) (fn : Nat) (needs : List Need) (b : EngBody) : Bool :=
  ready i sTree x0 && drained sTree x0 && (firstWalk sTree x0 (needs.map fun n => (n.1, n.2.1))).isNone && match part? sTree 1 with
    | none => false
    | some p => match xlAll sTree p l0 .none needs with
      | .error _ => false
      | .ok xl => !xl.isEmpty && gives (exec i sTree) (joined .te fn b)

theorem test_TreeCommands : lFault (labelOf sTree x0 2) = none ∧ rebase (setFor sTree x0) true a5 = .ok a5 ∧ setFor sTree x0 (lTid a5) = some [e5] ∧
    lTranslate [e5] false a5 = .ok e5 a5 ∧ heldByMove sTree l0 1 a5 = false ∧ e5.view = false ∧ fetchable sTree 1 l0 .none (2 ^ 52) = .ok () ∧
    [teQueued (.teSum h0 none 2 2 ⟨16, 8, 63⟩) 0 [(64, 32, .write)] (.te 0 a5 0 64 0 0x80000000 16 .fp32 63 false 0 0 0 [] false),
      teQueued (.teSum h0 none 2 2 ⟨65532, 4, 50⟩) 0 [(64, 32, .write)] (.te 0 a5 0 64 0 0 65532 .i32 50 false 0 0 0 [] false),
      teQueued (.teCount h0 none 2 2 0) 1 [(64, 32, .write)] (.te 1 a5 0 64 0 0 0 .i8 0 false 0 0 0 [] false),
      teQueued (.teCopy h0 none 2 2 3 ⟨16, 4, 63⟩ 8) 2 [(64, 32, .write), (1024, 32, .write)] (.te 2 a5 0 64 1024 0 16 .i32 63 false 8 0 0 [] false),
      teQueued (.teFill h0 none 2 2 3 ⟨16, 4, 63⟩) 3 [(64, 32, .write)] (.te 3 a5 0 64 1024 0 16 .i32 63 false 0 0 0 [] false),
      teQueued (.teVisit h0 none 2 2 4 3 63 true) 4 [(64, 32, .write)] (.te 4 a5 0 64 (2 ^ 52) 1024 0 .i8 63 true 0 0 0 [] false)].all id = true :=
  ⟨by decide +kernel, by decide +kernel, by decide +kernel, by decide +kernel, by decide +kernel, by decide +kernel, by rfl, by decide +kernel⟩

theorem test_TreeCommands_view :
    (let e : LttEntry := { e5 with view := true }
     let s := modCore sTree l0 fun c => { c with lcache := [(1, 5, [e])] }
     lTranslate [e] false a5 = .ok e a5 ∧ ready (.teFill h0 none 2 2 3 ⟨16, 4, 63⟩) s x0 = true ∧
     nx (exec (.teFill h0 none 2 2 3 ⟨16, 4, 63⟩) s) = some (trapAt s x0 cPERMISSION 3 0)) := by decide +kernel

/-- The directory's slot of l2 names a segment record at 2^49 + 8192, that of l3 one at 2^49 + 16384; s2 = 64, s3 = 1024. -/
def sPage : State :=
  let put (s : State) (y : Label) (r : Nat) : State :=
    let key := sliceKey 0 0 (probeVa y (2 ^ 49) 7 0 - 2 ^ 49)
    { s with mem := s.mem.writeN key (toBytes 16 ((2 ^ 56 + 2 ^ 49 + r) * 2 ^ 64) ++ toBytes 16 y.toNat) }
  put (put (modTh sT l0 0 fun th => { th with s := (th.s.set 2 64).set 3 1024 }) a5 8192) b5 16384

def pgQueued (i : Instr) (fn : Nat) (needs : List Need) (b : EngBody) : Bool :=
  ready i sPage x0 && drained sPage x0 && (firstWalk sPage x0 (needs.map fun n => (n.1, n.2.1))).isNone && match part? sPage 1 with
    | none => false
    | some p => match xlAll sPage p l0 .none needs with
      | .error _ => false
      | .ok xl => !xl.isEmpty && gives (exec i sPage) (joined .pe fn b)

/-- The command passes its checks: 1,152 granules to set empty are too many to write out. -/
def pgWould (i : Instr) (needs : List Need) : Bool :=
  ready i sPage x0 && drained sPage x0 && engQ (Machine.core sPage l0) .pe == [] && (match xlAll sPage loadPartition l0 .none needs with | .ok _ => true | .error _ => false)

def rd : Need := (2 ^ 49 + 8192, 112, .read)
def rw' : Need := (2 ^ 49 + 8192, 112, .rmw)

theorem test_PageCommands_segment : rebase (setFor sPage x0) true a5 = .ok a5 ∧ setFor sPage x0 5 = some [e5] ∧ lTranslate [e5] false a5 = .ok e5 a5 ∧
    lFault a5 = none ∧ lFault b5 = none ∧ (lookup sPage loadPartition l0 .none .read a5 (2 ^ 49) 7).1 = .found (2 ^ 49 + 8192) (sliceKey 0 0 (probeVa a5 (2 ^ 49) 7 0 - 2 ^ 49)) ∧
    (lookup sPage loadPartition l0 .none .read b5 (2 ^ 49) 7).1 = .found (2 ^ 49 + 16384) (sliceKey 0 0 (probeVa b5 (2 ^ 49) 7 0 - 2 ^ 49)) ∧
    recordKey sPage loadPartition l0 .none (2 ^ 49 + 8192) 16 .read = .ok (sliceKey 0 0 8192) ∧ recordKey sPage loadPartition l0 .none (2 ^ 49 + 8192) 16 .rmw = .ok (sliceKey 0 0 8192) ∧
    recordKey sPage loadPartition l0 .none (2 ^ 49 + 16384) 16 .rmw = .ok (sliceKey 0 0 16384) :=
  ⟨by decide +kernel, by decide +kernel, by decide +kernel, by decide +kernel, by decide +kernel, by decide +kernel, by decide +kernel, by decide +kernel, by decide +kernel, by decide +kernel⟩

theorem test_PageCommands : [pgQueued (.pgApp h0 none 0 2 2) 1 [rw', (64, 512, .read)] (.pe 1 (2 ^ 49 + 8192) 0 64 0 0 0 0 0 0 0 0 a5 .fresh),
    pgWould (.pgLoad h0 none 0 2 2 65535 0) [rd, (64, 18432, .write)],
    pgQueued (.pgLoadNb h0 none 0 2 2 0 1) 8 [rd, (64, 36864, .write)] (.pe 8 (2 ^ 49 + 8192) 0 64 0 0 0 0 2 0 0 0 a5 .fresh),
    pgWould (.pgLoadList h0 none 0 2 2 3 0) [rd, (64, 18432, .write), (1024, 4, .read)],
    pgQueued (.pgLoadNbList h0 none 0 2 2 3 0) 8 [rd, (64, 18432, .write), (1024, 4, .read)] (.pe 8 (2 ^ 49 + 8192) 0 64 1024 0 0 (2 ^ 24) 1 0 0 0 a5 .fresh),
    pgQueued (.pgSel h0 none 0 2 2 3 64 true false) 3 [rd, (64, 256, .read), (1024, 256, .write)] (.pe 3 (2 ^ 49 + 8192) 0 64 1024 0 0 320 0 0 0 0 a5 .fresh),
    pgQueued (.pgSeal h0 none 2 2) 4 [rd, (64, 16, .write)] (.pe 4 (2 ^ 49 + 8192) 0 0 0 64 0 0 0 0 0 0 a5 .fresh),
    pgQueued (.pgFree h0 none 0 2) 5 [rw'] (.pe 5 (2 ^ 49 + 8192) 0 0 0 0 0 0 0 0 0 0 a5 .fresh),
    pgQueued (.pgExt h0 none 0 2 12 3) 6 [rw'] (.pe 6 (2 ^ 49 + 8192) 0 0 0 0 0 60 0 0 0 0 a5 .fresh),
    pgQueued (.pgEvict h0 none 0 2 3) 7 [rd] (.pe 7 (2 ^ 49 + 8192) 0 0 0 0 1024 0 0 0 0 0 a5 .fresh),
    pgQueued (.pgFork h0 none 0 2 3) 2 [rd, (2 ^ 49 + 16384, 112, .rmw)] (.pe 2 (2 ^ 49 + 8192) (2 ^ 49 + 16384) 0 0 0 0 0 0 0 0 0 a5 .fresh)].all id = true := by
  decide +kernel

/-! ## Control registers, caches, frames (04 R121 to R130) -/

def sPriv : State := modTh s0 l0 0 fun th => { th with priv := true }

/-- s1 = 64 throughout: the value `cset` writes from s4 is 256, from s7 448. -/
theorem test_ControlRegisters_read : (∀ r, r ∈ [CReg.thid, .cycle, .fpmode, .tvec, .tpra, .twm 3, .tstat 0, .ringcfg 7] →
      ready (.cget h0 1 r) s0 x0 = true ∧ (cregRead s0 x0 r).isSome = true) ∧
    cregRead s0 x0 .pvec = none ∧ ready (.cget h0 1 .pvec) s0 x0 = true ∧ nx (exec (.cget h0 1 .pvec) s0) = some (trapAt s0 x0 cPRIV 0 0) ∧
    (me sPriv x0).priv = true ∧ gives (exec (.cget h0 1 .fpmode) s0) (fun t => (me t x0).s[(1 : SReg)] == 0x20) = true := by decide +kernel

def writesCr (s : State) (i : Instr) (r : CReg) (v : Word) : Bool := ready i s x0 && gives (exec i s) fun t => cregRead t x0 r == some v

theorem test_ControlRegisters_write : [writesCr s0 (.cset h0 3 .qos) .qos 0, writesCr s0 (.cset h0 4 .tvec) .tvec 256, writesCr s0 (.cset h0 4 .tpc) .tpc 256,
    writesCr s0 (.cset h0 7 .tword0) .tword0 448, writesCr s0 (.cset h0 7 .tword1) .tword1 448, writesCr s0 (.cset h0 7 .taddr) .taddr 448,
    writesCr s0 (.cset h0 7 .qhvec) .qhvec 448, writesCr s0 (.cset h0 1 .tpra) .tpra 64, writesCr s0 (.cset h0 7 .tcause) .tcause 0xC0,
    writesCr s0 (.cset h0 7 (.tstat 1)) (.tstat 1) 448, writesCr sPriv (.cset h0 4 .pvec) .pvec 256, writesCr sPriv (.cset h0 7 .ckptid) .ckptid 448,
    writesCr sPriv (.cset h0 7 .stamp) .stamp 448, writesCr sPriv (.cset h0 7 .dllimit) .dllimit 448, writesCr sPriv (.csetAgemax h0 7) .agemax 4096,
    writesCr s0 (.csetFpmode h0 1) .fpmode 0x40, writesCr s0 (.csetFpmode h0 7) .fpmode 0x20].all id = true ∧
    [Instr.cset h0 4 .pvec, .cset h0 4 .ckptid, .cset h0 4 .stamp, .cset h0 4 .dllimit, .csetAgemax h0 4, .cset h0 4 .thid, .cset h0 4 (.twm 1)].all (fun i =>
      ready i s0 x0 && nx (exec i s0) == some (trapAt s0 x0 cPRIV 0 0)) = true := by decide +kernel

/-- s1 = EN, SIZE 1 (1,024 bytes), BASE 1; s2 the same with BASE beyond LM. -/
def sRing : State := modTh s0 l0 0 fun th => { th with s := th.s.set 1 (1 + 2 ^ 5 + 2 ^ 9) |>.set 2 (1 + 2 ^ 5 + 2 ^ 9 * 368) }

theorem test_ControlRegisters_rings : ringSpoiled sRing 1 l0 3 = [] ∧ ready (.csetRingcfg h0 1 3) sRing x0 = true ∧
    nx (exec (.csetRingcfg h0 2 3) sRing) = some (trapAt sRing x0 cPARAM 0 0) ∧
    (let s := modCore sRing l0 fun c => { c with rings := c.rings.set 3 ⟨true, 1, 2, 16, 0⟩ }
     ready (.csetRingcfg h0 1 3) s x0 = true ∧ nx (exec (.csetRingcfg h0 1 3) s) = some (trapAt s x0 cPARAM 0 0)) := by decide +kernel

theorem test_ControlRegisters_caches : ready (.ifl h0) s0 x0 = true ∧ drained s0 x0 = true ∧ ready (.lfl h0) s0 x0 = true := by decide +kernel

/-! ## The kiln (12 R292 to R304) -/

/-- A DISPATCH event of partition 1 is being decided on die 0: k1 = 5, k2 = 0x80000000, word 3 of the window 7, words 4 and 5 equal. -/
def kRun : KRun where
  ev := ⟨.dispatch, 1, 1, 0, 0, 0, none, 0, 0, 0, 0, none, []⟩
  img := ⟨none, none, none, [0x710F, 0xB000]⟩
  win := ((Vector.replicate 32 0).set 3 7).set 4 9 |>.set 5 9
  k := ((Vector.replicate 8 0).set 1 5).set 2 0x80000000
  pc := 0
  steps := 0
  word := none
  sw := []

def sKiln (r : KRun := kRun) : State := { modDie s0 0 fun y => { y with run := some r } with cur := none, kcur := some 0 }

/-- The run after one kiln instruction. -/
def kiln (i : Instr) (p : KRun → Bool) : Bool := gives (exec i sKiln) fun t => match (die t 0).run with | some r => p r | none => false

theorem test_KilnInstructions : [kiln (.kld 3 0 3) (fun r => r.k[3] == 7), kiln (.kadd 1 1 2) (fun r => r.k[1] == 12), kiln (.ksub 3 1 0) (fun r => r.k[3] == 0xFFFFFFFB),
    kiln (.kand 1 1 8) (fun r => r.k[1] == 5), kiln (.kor 1 0 8) (fun r => r.k[1] == 13), kiln (.kshl 1 0 31) (fun r => r.k[1] == 0x80000000),
    kiln (.kshr 2 0 31) (fun r => r.k[2] == 1), kiln (.kmin 1 2 0) (fun r => r.k[1] == 5), kiln (.kmax 1 2 0) (fun r => r.k[1] == 0x80000000),
    kiln (.kceq 1 0 5) (fun r => r.k[1] == 1), kiln (.kcgt 2 1 0) (fun r => r.k[2] == 1), kiln (.kfirst 3 2 0) (fun r => r.k[3] == 31),
    kiln (.kfirst 3 0 0) (fun r => r.k[3] == 0xFFFFFFFF), kiln (.kpop 3 1 2) (fun r => r.k[3] == 3), kiln (.kldi 3 31) (fun r => r.k[3] == 31),
    kiln (.klui 1 1) (fun r => r.k[1] == 161), kiln (.ksel 1 2 0) (fun r => r.k[1] == 5), kiln (.ksel 1 2 1) (fun r => r.k[1] == 0x80000000),
    kiln (.kadd 0 1 2) (fun r => r.k[0] == 0), kiln (.kbz 0 3) (fun r => r.pc == 4), kiln (.kbz 1 3) (fun r => r.pc == 1), kiln (.kbnz 1 3) (fun r => r.pc == 4),
    kiln (.kstw 1 30) (fun r => r.sw == [(2, 5)]), kiln (.kemit 1 31) (fun r => r.word == some 36)].all id = true ∧
    (sKiln).kcur = some 0 ∧ (die sKiln 0).run = some kRun := by decide +kernel

/-- Equal words: the lowest of them; none selected. -/
theorem test_KilnInstructions_maximum : kamaxOf kRun.win 0x0F 2 = 2 ∧ kamaxOf kRun.win 0x100 2 = 0xFFFFFFFF ∧ kamaxOf kRun.win 0x80 0 = 7 := by decide +kernel

/-- A level-2 entry of one instance is ready: a word that names its level is valid, one that names another is not. -/
def sReady : State :=
  let t : Template := ⟨2 ^ 52, Vector.replicate 8 0, 1, 0, 1, 2, false, 0, 0, []⟩
  modDie (sKiln { kRun with word := some (1 + 32 * 2) }) 0 fun y => { y with ready := [⟨1, false, 0, 1, 0, 2, 0, 0, 0, false, none, 0, t⟩] }

theorem test_KilnDecisions : wordValid sReady loadPartition 0 kRun.ev 0x41 = true ∧ wordValid sReady loadPartition 0 kRun.ev 0x21 = false ∧
    wordValid sReady loadPartition 0 kRun.ev 0 = true ∧ wordValid sReady loadPartition 0 kRun.ev 2 = false ∧
    wordValid sReady loadPartition 0 { kRun.ev with kind := .fault } 3 = true ∧ wordValid sReady loadPartition 0 { kRun.ev with kind := .fault } 4 = false ∧
    wordValid sReady loadPartition 0 { kRun.ev with kind := .preempt } 1 = true ∧ wordValid sReady loadPartition 0 { kRun.ev with kind := .preempt } 2 = false ∧
    wordValid sReady loadPartition 0 kRun.ev (0x41 + 256 * 65) = false ∧ part? sReady 1 = some loadPartition ∧
    gives (exec .kend sReady) (fun t => (die t 0).run == none && t.starts.length == 1) = true ∧
    gives (exec .kend (sKiln { kRun with word := some 2 })) (fun t => (diePart t 0 1).cnt[15] == 1) = true ∧
    gives (exec .kend (sKiln)) (fun t => (diePart t 0 1).cnt[14] == 1) = true := by decide +kernel

/-- A PREEMPT event finds a victim of a lower level in group 1. -/
theorem test_KilnDecisions_victims :
    (let task : Task := ⟨1, false, 0, 1, 0, 0, 0, 0, 1, 0, [0], 0, 1, true, none⟩
     let s := modCore sKiln (.core 0 64) fun c => { c with task := some task }
     let e : KEvent := { kRun.ev with kind := .preempt, reason := 0, level := 5 }
     wordValid s loadPartition 0 e (1 + 256 * 1) = true ∧ wordValid s loadPartition 0 e (1 + 256 * 2) = false) := by decide +kernel

/-- One event at a free kiln: no program, a program without that entry, a program. -/
theorem test_KilnDecisions_takes : [none, some (⟨none, some 0, none, [0xB000]⟩ : KImage), some ⟨some 1, none, none, [0xB000, 0x710F, 0xB000]⟩].all (fun a =>
    let s := modDiePart (modDie s0 0 fun y => { y with events := [{ kRun.ev with arg0 := 6 }] }) 0 1 fun q => { q with active := a }
    (die s 0).run == none && (nextEvent s 0).isSome && (part? s 1).isSome && (die s 0).held == [] &&
      overrideEntry (modDie s 0 fun y => { y with events := [] }) loadPartition 0 == none &&
      gives (exec (.kilnDecision 0) s) fun t => (die t 0).events == [] && match (die t 0).run with
        | some r => r.pc == 1 && r.win[2] == 6
        | none => (a.bind fun y => y.edisp) == none) = true := by decide +kernel

/-! ## Events: accesses, results, walks (01 R28 to R32, 08 R208) -/

/-- An access of the thread of `s0` to core (0, 70)'s LM, where the bytes 01 to 07 and 88 stand; its thread is parked on it. -/
def reqE (op : MemOp) : Request := ⟨1, l0, 0, 1, 1, 0, false, .core, lmKey 0 70 64, 64, 8, false, op, 0, none, 0, none, false, .none, .sent, 0, 0⟩
def sReq (r : Request) (len : Nat := 8) : State :=
  modSlot { s0 with reqs := [r], mem := s0.mem.writeN (lmKey 0 70 64) [1, 2, 3, 4, 5, 6, 7, 0x88] } l0 0 fun y =>
    { y with st := .parkMem (.access 1), th := { y.th with cont := some ⟨len, false, 0, 0⟩ } }

def noFe (s : State) : Bool := s.reqs.all fun r => match r.st with | .feList _ => false | _ => true

def replied (s : State) (i : Instr) (w : Reply) (p : State → Bool := fun _ => true) : Bool :=
  noFe s && s.mem.wf && gives (exec i s) fun t => (t.reqs.map fun q => q.st) == [.replied w] && p t

def kP : Punty := ⟨true, false, 0x4000000000000⟩
/-- The launch queue at core (0, 70) holds 64 entries. -/
def sFullQ (op : MemOp) : State := modCore (sReq (reqE op)) (.core 0 70) fun c => { c with launchq := List.replicate 64 ⟨1, 0, false, false, 0, 0, 0, 0, .none⟩ }

theorem test_AccessEvents : [replied (sReq (reqE (.load .plain 5 .b8 false))) (.accessPerform 1) (.writes [.s 5 0x8807060504030201 false]),
      replied (sReq (reqE (.load .plain 5 .b2 true))) (.accessPerform 1) (.writes [.s 5 0x201 false]),
      replied (sReq (reqE (.store .plain 0xAABB .b2))) (.accessPerform 1) .ack (fun t => numAt t (lmKey 0 70 64) 8 == 0x880706050403AABB),
      replied (sReq (reqE (.contK true kP 0x04030201 9 5))) (.continuationAct 1) (.writes [.s 5 0x04030201 false])
        (fun t => numAt t (lmKey 0 70 64) 4 == 9 && ((Machine.core t (.core 0 70)).launchq.map fun e => (e.entry, e.anch, e.ea)) == [(0x4000000000000, true, 64)]),
      replied (sReq (reqE (.contK true kP 7 9 5))) (.continuationAct 1) (.writes [.s 5 0x04030201 false]) (fun t => numAt t (lmKey 0 70 64) 4 == 0x04030201),
      replied (sReq (reqE (.contK false kP 0 9 5))) (.continuationAct 1) (.writes [.s 5 0x04030201 false])
        (fun t => numAt t (lmKey 0 70 64) 4 == 0x04030200 && (Machine.core t (.core 0 70)).launchq == [])].all id = true ∧
    poisoned s0 (lmKey 0 70 64) = false ∧ launchWaiters s0 (.core 0 70) = [] ∧ servedAt (lmKey 0 70 64) = .core 0 70 ∧
    gives (exec (.continuationAct 1) (sFullQ (.contK true kP 0x04030201 9 5))) (fun t => (t.reqs.map fun q => q.st) == [.launchList]) = true ∧
    canAct (sReq (reqE (.load .plain 5 .b8 false))) (reqE (.load .plain 5 .b8 false)) = true := by decide +kernel

/-- An access to a bank of slice (0, 0), and one that finds the bank's queue full. -/
def reqB : Request := { reqE (.load .plain 5 .b8 false) with key := sliceKey 0 0 0, refused := 63 }
def bankFull (r : Request) : State := { s0 with reqs := (List.range 16).map (fun j => { reqB with id := j + 2, st := .queued }) ++ [r] }

theorem test_AccessEvents_queues : heldByOrder s0 reqB = false ∧ heldByOrder (bankFull reqB) reqB = false ∧
    reqB.banks.length = 1 ∧ (reqB.banks.all fun b => bankAdmits { s0 with reqs := [reqB] } reqB b) = true ∧
    gives (exec (.requestResend 1) { s0 with reqs := [reqB] }) (fun t => t.reqs == [{ reqB with st := .queued, refused := 0 }]) = true ∧
    gives (exec (.requestResend 1) { s0 with reqs := [{ reqB with lrefused := 70, lesc := some 3 }] })
      (fun t => t.reqs == [{ reqB with lrefused := 70, lesc := some 3, st := .queued, refused := 0 }]) = true ∧
    (reqB.banks.all fun b => bankAdmits (bankFull reqB) reqB b) = false ∧
    gives (exec (.requestResend 1) (bankFull reqB)) (fun t => req? t 1 == some { reqB with refused := 64, esc := some s0.nextId } && (diePart t 0 1).cnt[21] == 1) = true ∧
    gives (exec (.requestResend 1) (bankFull { reqB with esc := some 0 })) (fun t => req? t 1 == some { reqB with refused := 64, esc := some 0 } &&
      (diePart t 0 1).cnt[21] == 0) = true := by decide +kernel

/-- A reply for the thread of slot 0, and one whose thread has moved to core (0, 66). -/
theorem test_ResultsAndWalks_replies :
    (let s := sReq { reqE (.load .plain 5 .b8 false) with st := .replied (.writes [.s 5 7 true]) } 12
     slotOf s l0 1 1 = some 0 ∧ gives (exec (.accessReply 1) s) (fun t => t.reqs == [] && (slotAt t l0 0).st == .run && (me t x0).s[(5 : SReg)] == 7 &&
       (me t x0).sdf == 32 && (me t x0).pc == 2 ^ 52 + 12) = true) ∧
    (let f : FwdEntry := ⟨1, 9, .core 0 66, [⟨.access 1, none, [], 0⟩]⟩
     let s := modCore { s0 with reqs := [{ reqE (.load .plain 5 .b8 false) with thid := 9, st := .replied .ack }] } l0 fun c => { c with fwd := [f] }
     slotOf s l0 1 9 = none ∧ fwdOf s l0 1 9 = some f ∧ inTransit s l0 1 9 = false ∧ (s.reqs.any fun r => fwdBehind s r) = false ∧
       gives (exec (.replyForward 1) s) (fun t => (t.reqs.map fun r => (r.loc, r.fwded)) == [(.core 0 66, true)]) = true) := by decide +kernel

/-- The reply of a relaxed access meets its thread: an entry that counts it counts it no more, and frees where it counted nothing else; one that the
thread left before the access was issued keeps what it has. -/
theorem test_ResultsAndWalks_counts :
    (let r : Request := { reqE (.store .plain 0 .b8) with relaxed := true, st := .replied .ack }
     let o (n : Nat) : LongResult := ⟨.access n, none, [], 0⟩
     let s := modTh { s0 with reqs := [r] } l0 0 fun th => { th with outs := [o 1] }
     let f (y : Nat) (os : List LongResult) (s : State) : State := modCore s (.core 0 y) fun c => { c with fwd := [⟨1, 1, l0, os⟩] }
     let s := f 68 [o 4] (f 67 [o 1] (f 66 [o 1, o 4] s))
     fwdBehind s r = false ∧ slotOf s l0 1 1 = some 0 ∧
     gives (exec (.accessReply 1) s) (fun t => t.reqs == [] && [66, 67, 68].map (fun y => (Machine.core t (.core 0 y)).fwd.map fun e => e.outs) ==
       [[[o 4]], [], [[o 4]]]) = true) := by
  decide +kernel

def sOuts (r : LongResult) : State := modTh { s0 with cycle := 30 } l0 0 fun th => { th with outs := [r] }

theorem test_ResultsAndWalks_long : gives (exec (.longResultWrite l0 0) (sOuts ⟨.alu, some 30, [.s 5 7 false], 2⟩)) (fun t => (me t x0).outs == [] &&
      (me t x0).s[(5 : SReg)] == 7 && (me t x0).fpmode == 0x22) = true ∧
    (let s := modCore (sOuts ⟨.sfu, some 30, [.v 5 0xFF 0x55], 0⟩) l0 fun c => { c with sfu := [30, 31] }
     (Machine.core s l0).sfu = [30, 31] ∧ gives (exec (.sfuResultWrite l0) s) (fun t => (Machine.core t l0).sfu == [31] && (me t x0).outs == [] && (Machine.core t l0).tiles[(5 : VReg)] == 0x55) = true) ∧
    gives (exec (.vredResultWrite l0) (sOuts ⟨.vred, some 30, [.s 5 7 false], 0⟩)) (fun t => (me t x0).outs == [] && (me t x0).s[(5 : SReg)] == 7) = true ∧
    (∀ j, j ≠ (0 : Fin 16) → (thread (sOuts ⟨.vred, some 30, [.s 5 7 false], 0⟩) l0 j).outs = []) := by decide +kernel

/-- The walker of die 0 has walk 7 for slot 0: an extent walk for 2^52 or beyond the map, a walk for tree 5. -/
def sWalk (va : Option Nat) (tid : Nat := 0) : State :=
  let s := modDie (modCore s0 l0 fun c => { c with xcache := [] }) 0 fun y => { y with walks := [⟨7, l0, .thread 1, 1, va, tid, [⟨2 ^ 31, 0, 0, true, true, true⟩], [e5]⟩] }
  modSlot s l0 0 fun y => { y with st := .block .walk 3, th := { y.th with walk := ⟨some (match va with | some v => .extent v | none => .label tid), [7], [], []⟩ } }

theorem test_ResultsAndWalks_walks : (walk? (sWalk (some (2 ^ 52))) 7).isSome = true ∧ slotOf (sWalk (some 0)) l0 1 1 = some 0 ∧
    gives (exec (.extentWalkComplete 7) (sWalk (some (2 ^ 52)))) (fun t => (slotAt t l0 0).st == .run && ((Machine.core t l0).xcache.map fun p => p.1) == [1] &&
      (me t x0).walk == ⟨none, [7], [⟨2 ^ 31, 0, 0, true, true, true⟩], []⟩) = true ∧
    gives (exec (.extentWalkComplete 7) (sWalk (some (2 ^ 53)))) (fun t => (slotAt t l0 0).st == .run && (Machine.core t l0).xcache == [] &&
      (me t x0).walk == ⟨none, [2 ^ 53, 7], [], []⟩) = true ∧
    gives (exec (.labelWalkComplete 7) (sWalk none 5)) (fun t => (slotAt t l0 0).st == .run && (me t x0).walk == ⟨none, [7], [], [(5, [e5])]⟩ &&
      (Machine.core t l0).lcache == [(1, 5, [e5])]) = true := by decide +kernel

/-! ## Events: threads and queues (01 R30 to R35, 11) -/

def l1 : Loc := .core 0 66
/-- A thread of partition 1 with the pc 2^52 + 64 and s1 = 5, as an arrival. -/
def arrE (migrated : Bool) : Arrival := ⟨{ loadThread with pc := 2 ^ 52 + 64, s := (Vector.replicate 32 0).set 1 5, thid := 7, inTask := false }, migrated, false⟩
def msgE (b : MsgBody) : Msg := ⟨3, l0, 0, 1, 1, 0, b⟩

def arrived (t : State) (l : Loc) (k : Fin 16) : Bool := (slotAt t l k).st == .run && (thread t l k).pc == 2 ^ 52 + 64 && (thread t l k).s[(1 : SReg)] == 5

theorem test_ThreadEvents_move :
    (let s := setSt s0 l0 0 (.moving l1)
     (s.msgs.filter fun m => m.src == l0) = [] ∧ storesOpen s (thread s l0 0) = false ∧ (Machine.core s l0).fwd = [] ∧ hasWaitingGuard (Machine.core s l0) (thread s l0 0) = false ∧
     gives (exec (.migrationDepart l0 0) s) (fun t => t.msgs.map (fun m => m.body) == [.migrate l1 ⟨unpackImage (packImage (thread s l0 0)) (thread s l0 0), true, false⟩] && (Machine.core t l0).fwd == []) = true) ∧
    (let s := setSt { s0 with msgs := [msgE (.migrate l1 (arrE true))] } l0 0 (.moving l1)
     headMsg? s 3 = some (msgE (.migrate l1 (arrE true))) ∧ inboxed s l1 1 true = false ∧ usableSlot (Machine.core s l1) false = some 0 ∧ (Machine.core s l1).spill = [] ∧ (Machine.core s l1).spillSpoil = [] ∧
     gives (exec (.migrationArrival 3) s) (fun t => t.msgs == [] && (slotAt t l0 0).st == .free && arrived t l1 0 && (thread t l1 0).thid == 7) = true) ∧
    gives (exec (.spawnArrival 3) { s0 with msgs := [msgE (.spawn l1 (arrE false))] }) (fun t => t.msgs == [] && arrived t l1 0) = true ∧
    (let s := modCore s0 l1 fun c => { c with spillSpoil := [arrE false] }
     inboxed s l1 1 false = false ∧ gives (exec (.arrivalSpillStart l1 false) s) (fun t => arrived t l1 0) = true) := by decide +kernel

/-- A context with two loop bodies and values in every kind of register. -/
def thImage : Thread := { loadThread with
  s := Vector.ofFn fun r => if inImage r then BitVec.ofNat 64 (2 ^ 63 + r.val) else 0, l := (Vector.replicate 8 0).set 7 (-1), p := 0x81, g := #v[.tt, .ff, .unset, .unset]
  loops := [⟨2 ^ 52 - 8, 2 ^ 52, 5⟩, ⟨2 ^ 52 - 64, 2 ^ 52 + 0x200, 7⟩], sdf := 2, ldf := 3, tvec := 64, qhvec := 128, tpra := 32, ckptid := 7, qos := 2 }

theorem test_MigrationImage : thImage.pc.toNat < 2 ^ 56 ∧ thImage.loops.length = 2 ∧ (∀ r, inImage r = false → thImage.s[r] = 0) ∧
    (∀ e ∈ thImage.loops, packable thImage.pc e = true ∧ (e.start - thImage.pc).toNat % 4 = 0 ∧ (e.fin - e.start).toNat % 4 = 0 ∧
      (e.fin - e.start).toNat / 4 + 1 < 2 ^ 16) ∧
    unpackImage (packImage thImage) thImage = thImage ∧ bitsAt (packImage thImage) 63 0 = 1 ∧ bitsAt (packImage thImage) 3143 3136 = 0x81 := by decide +kernel

def sLaunch (entry : BitVec 54) (w : WalkState := .none) : State := modCore s0 l1 fun c => { c with launchq := [⟨1, 2, false, false, entry, 0, 11, 64, w⟩] }

/-- What a walk of the launch has brought: the extent of 2^52. -/
def wE : WalkState := { WalkState.none with exts := [⟨2 ^ 31, 0, 0, true, true, true⟩] }

theorem test_ThreadEvents_launch : lacksExtent (sLaunch (2 ^ 50)) 1 l1 .none (2 ^ 52) = true ∧
    gives (exec (.puntyStart l1) (sLaunch (2 ^ 50))) (fun t => ((Machine.core t l1).launchq.map fun e => e.walk.waits) == [some (.extent (2 ^ 52))] &&
      (slotAt t l1 0).st == .free) = true ∧
    lacksExtent (sLaunch (2 ^ 50) wE) 1 l1 wE (2 ^ 52) = false ∧ fetchable (sLaunch (2 ^ 50) wE) 1 l1 wE (2 ^ 52) = .ok () ∧
    usableSlot (Machine.core (sLaunch (2 ^ 50) wE) l1) false = some 0 ∧
    gives (exec (.puntyStart l1) (sLaunch (2 ^ 50) wE)) (fun t => (Machine.core t l1).launchq == [] && (thread t l1 0).pc == 2 ^ 52 && (thread t l1 0).s[(2 : SReg)] == 64 &&
      (thread t l1 0).s[(3 : SReg)] == 11 && (thread t l1 0).roaming) = true ∧
    lacksExtent (sLaunch 16) 1 l1 .none 64 = false ∧ fetchable (sLaunch 0) 1 l1 .none 64 = .error cPERMISSION ∧
    gives (exec (.puntyStart l1) (sLaunch 16)) (fun t => ((die t 0).events.map fun e => (e.kind, e.cause, e.pid)) == [(.fault, 32, 1)]) = true ∧
    (let s := { sReq { reqE (.contK true kP 0x04030201 9 5) with st := .launchList } with cur := none }
     (launchWaiters s (.core 0 70)).length = 1 ∧ gives (exec (.launchWaitReevaluate (.core 0 70)) s) (fun t => (Machine.core t (.core 0 70)).launchq.length == 1) = true) ∧
    (let s := modTh s0 l0 0 fun th => { th with ended := true }
     isSliceCore l0 = false ∧ (s.reqs.any fun r => isMine (thread s l0 0) r) = false ∧
       gives (exec (.tdoneSlotFree l0 0) s) (fun t => (slotAt t l0 0).st == .free && ((die t 0).events.map fun e => (e.kind, e.reason)) == [(.dispatch, 1)]) = true) :=
  ⟨by decide +kernel, by decide +kernel, by decide +kernel, ok_of (by decide +kernel), by decide +kernel, by decide +kernel, by decide +kernel, by rfl,
    by decide +kernel, by decide +kernel, by decide +kernel⟩

/-- A link full since cycle 0 at cycle 257; a message for ring 3 of core (0, 66); a blocked thread at a limit of 16 cycles and its own probe. -/
def sLink : State := modLink { s0 with cycle := 257 } l0 2 fun d => { d with words := List.replicate 8 ⟨1, false, 0⟩, fullSince := some 0 }
def ringE : RingMsg := ⟨3, 1, l0, 9, 1, l1, 3, 17, [1, 2, 3, 4, 5, 6, 7, 8, 9, 10, 11, 12, 13, 14, 15, 16]⟩
def sRingMsg : State :=
  modCore { s0 with msgs := [msgE (.ring ringE 5)] } l1 fun c => { c with rings := c.rings.set 3 ⟨true, 1, 1, 512, 64⟩ }
def sLock (probes : List Probe) : State :=
  setSt { modPart s0 1 (fun p => { p with dllimit := 16 }) with probes := probes, cycle := 16 } l0 0 (.block (.queues [(1, 1)] []) 0)

theorem test_QueueEvents : (corePart sLink l0).isSome = true ∧
    (∀ p, p ∈ (corePart sLink l0).toList → spoilFits (count (modLink sLink l0 2 fun d => { d with growing := true }) 0 p.pid 8 1) l0 p.pid 16 = true) ∧
    gives (exec (.linkGrow l0 2) sLink) (fun t => (Machine.core t l0).links[2].growing && (diePart t 0 1).cnt[8] == 1) = true ∧
    inboxed sRingMsg l1 1 false = false ∧ ringSpoiled sRingMsg 1 l1 3 = [] ∧ (headMsg? sRingMsg 3).isSome = true ∧ noFe sRingMsg = true ∧
    gives (exec (.ringMessagePlace 3) sRingMsg) (fun t => t.mem.readN (lmKey 0 66 (1024 + 80)) 16 == ringE.payload &&
      t.mem.readN (lmKey 0 66 (1024 + 64)) 16 == [16, 0, 0, 0, 0, 0xC8, 4, 0, 17, 0, 0, 0, 0, 0, 0, 0] && (Machine.core t l1).rings[3].tail == 96 &&
      (t.msgReplies.map fun w => w.ws) == [[.s 5 0 false]]) = true ∧
    inWords (sLock []) l0 1 = [] ∧ (inboundOf l0 1).isSome = true ∧
    gives (exec (.deadlockProbeSend l0 0) (sLock [])) (fun t => (t.probes.map fun b => (b.origin, b.path)) == [(l0, [l0])] && (slotAt t l0 0).probeAt == 16) = true ∧
    gives (exec (.deadlockProbeReceive 9) (sLock [⟨9, 1, l0, 0, 1, 1, 0, l0, l1, [l0, l1]⟩])) (fun t => t.probes == [] &&
      ((die t 0).events.map fun e => (e.kind, e.cause, e.who)) == [(.fault, 34, some (l0, 0))]) = true := by decide +kernel

/-- A probe for a thread of core (0, 66) comes to core (0, 65), where the thread of slot 0 waits on its link 1. -/
def sVia (path : List Loc) : State := sLock [⟨9, 1, l1, 0, 1, 1, 0, l0, l1, path⟩]

theorem test_QueueEvents_probes : inWords (sVia [l1]) l0 1 = [] ∧ (Machine.core (sVia [l1]) l0).spill = [] ∧
    (∀ q e, inboundOf l0 q = some (l1, e) → (Machine.core (sVia [l1]) l0).links[q].words = [] ∧ (Machine.core (sVia [l1]) l0).links[q].spoiled = []) ∧
    (match inboundOf l0 1 with
      | some (n, _) => gives (exec (.deadlockProbeReceive 9) (sVia [l1])) (fun t => (t.probes.map fun b => (b.origin, b.at_, b.from_, b.path)) == [(l1, n, l0, [l1, l0])])
      | none => false) = true ∧
    gives (exec (.deadlockProbeReceive 9) (sVia (List.replicate 32 l1))) (fun t => t.probes == [] && (diePart t 0 1).cnt[7] == 1) = true ∧
    gives (exec (.deadlockProbeReceive 9) (setSt (sVia [l1]) l0 0 .run)) (fun t => t.probes == []) = true ∧
    (match inboundOf l0 1 with
      | some (n, _) =>
        let s := modLink { sVia [l1] with probes := [⟨9, 1, l1, 0, 1, 1, 0, l0, n, [l1]⟩] } l0 1 fun d => { d with words := [⟨1, false, 0⟩] }
        gives (exec (.deadlockProbeReceive 9) s) (fun t => t.probes == [])
      | none => false) = true := by decide +kernel

/-- A thread with an outstanding result leaves: its entry counts it; a second of the partition's migrations drops an older entry of the thread. -/
theorem test_ThreadEvents_depart :
    (let o : LongResult := ⟨.access 9, none, [], 0⟩
     let s := modCore (modTh (setSt s0 l0 0 (.moving l1)) l0 0 fun th => { th with outs := [o] }) l0 fun c => { c with fwd := [⟨1, 1, .core 0 70, []⟩] }
     storesOpen s (thread s l0 0) = false ∧ gives (exec (.migrationDepart l0 0) s) (fun t => (Machine.core t l0).fwd == [⟨1, 1, l1, [o]⟩]) = true) := by decide +kernel

/-! ## Events: engines (07, 09, 13, 14) -/

/-- A started command, number 5 of its engine. -/
def cmdE (b : EngBody) (xl : List (Nat × Nat × Nat)) (fn : Nat := 0) : EngCmd :=
  ⟨5, fn, 0, 1, 1, 0, .rne, none, some true, some 0, xl, [], 0, false, false, [], .none, b⟩
def sMe (q : EngCmd) : State := modCore { s0 with cycle := 20 } l0 fun c => { c with meq := [q], held := 2, twm := c.twm.set 1 ⟨5, 0⟩, tiles := Vector.replicate 64 1 }

/-- A running `tload` at row `n` with the granules `rs` still to read. -/
def tlE (n : Nat) (rs : List Nat) : EngCmd :=
  { cmdE (.tload 1 (2 ^ 52) 64) [(2 ^ 52, 16, hbmKey 0)] with nextRow := n, pend := List.replicate 16 0, io := { EngIO.none with reads := rs } }

theorem test_EngineEvents_matrix : gives (exec (.meCommandStart l0) (sMe { cmdE (.tzero 1) [] with started := none })) (fun t =>
      ((Machine.core t l0).meq.map fun q => q.started) == [some 20]) = true ∧
    gives (exec (.meRowWrite l0) (sMe (cmdE (.tzero 1) []))) (fun t => (Machine.core t l0).tiles[(16 : VReg)] == 0 && (Machine.core t l0).tiles[(17 : VReg)] == 1 &&
      (Machine.core t l0).twm[(1 : TReg)] == ⟨5, 1⟩) = true ∧
    gives (exec (.meRowWrite l0) (sMe { cmdE (.tzero 1) [] with nextRow := 15 })) (fun t => ((Machine.core t l0).meq.map fun q => q.finished) == [true] &&
      (Machine.core t l0).tiles[(31 : VReg)] == 0) = true ∧
    gives (exec (.meRowWrite l0) (sMe { cmdE (.tzero 1) [] with seq := 7 })) (fun t => (Machine.core t l0).twm[(1 : TReg)] == ⟨5, 0⟩) = true ∧
    gives (exec (.meCommandStart l0) (sMe { cmdE (.tfree 1) [] with started := none })) (fun t => (Machine.core t l0).held == 0 && (Machine.core t l0).twm[(1 : TReg)] == ⟨5, 16⟩ &&
      ((Machine.core t l0).meq.map fun q => q.finished) == [true]) = true ∧
    (let s := sMe { cmdE (.tload 1 (2 ^ 52) 64) [] with started := none }
     gives (exec (.meCommandStart l0) s) (fun t => ((Machine.core t l0).meq.map fun q => (q.started, q.io.reads)) == [(some 20, List.range 64)])) = true ∧
    (let q := tlE 0 [0]
     mayAct (sMe q) l0 .me q (hbmKey 0) ∧ (∀ j < 16, poisoned (sMe q) (hbmKey 0 + j) = false) ∧
     gives (exec (.meRowWrite l0) (sMe q)) (fun t => (Machine.core t l0).tiles == Vector.replicate 64 1 && (Machine.core t l0).twm[(1 : TReg)] == ⟨5, 0⟩ &&
       ((Machine.core t l0).meq.map fun q => (q.nextRow, q.io.reads, q.pend.head?)) == [(0, [], some 0xD9)]) = true ∧
     gives (exec (.meRowWrite l0) (sMe { tlE 3 [] with pend := (List.replicate 16 0).set 3 0xD9 })) (fun t =>
       (Machine.core t l0).tiles[(19 : VReg)] == 0xD9 && (Machine.core t l0).twm[(1 : TReg)] == ⟨5, 4⟩) = true ∧
     gives (exec (.meRowWrite l0) (modTh (sMe (tlE 0 [])) l0 0 fun th => { th with outs := [⟨.sfu, some 40, [.v 16 0xFF 0x55], 0⟩] })) (fun t =>
       (thread t l0 0).outs.all fun o => o.writes.all fun w => match w with | .v _ bits _ => bits == 0 | _ => false) = true) ∧
    (let s := sMe { cmdE (.tzero 1) [] with finished := true }
     (∀ e, e ≠ Engine.me → engQ (Machine.core s l0) e = []) ∧ minCycles (.tzero 1) ≤ 20 ∧
       gives (exec (.engineCommandComplete l0 .me) s) (fun t => (Machine.core t l0).meq == []) = true) := by
  refine ⟨by decide +kernel, by decide +kernel, by decide +kernel, by decide +kernel, by decide +kernel, by decide +kernel, ⟨by unfold mayAct; decide +kernel, by decide +kernel, by decide +kernel, by decide +kernel, by decide +kernel⟩,
    ?_, by decide +kernel, by decide +kernel⟩
  intro e h
  cases e <;> first | exact absurd rfl h | decide +kernel

def sRun (f : Core → Core) : State := modCore s0 l0 f

def completed (t : State) (key d0 d1 : Nat) : Bool := numAt t key 8 == d0 && numAt t (key + 8) 8 == d1 && feFull t key

/-- `ie.fill` of one granule at LM 512 with its completion granule at 1024; `te.count` of 3 nodes, 2 skipped; the end of a `pg.load` of 4 pages. -/
theorem test_EngineEvents_runs : (part? s0 1).isSome = true ∧ s0.mem.wf = true ∧ noFe s0 = true ∧ isHbm (lmKey 0 65 1024) = false ∧ lmKey 0 65 1024 % 16 = 0 ∧
    isHbm (lmKey 0 65 1040) = false ∧ poisoned s0 (lmKey 0 65 512) = false ∧
    gives (exec (.ieCommandRun l0 3) (sRun fun c => { c with ieq := [cmdE (.fill 512 1024 16 0xAB 0) [(512, 16, lmKey 0 65 512), (1024, 16, lmKey 0 65 1024)] 3] }))
      (fun t => completed t (lmKey 0 65 1024) 5 1 && numAt t (lmKey 0 65 520) 8 == 0xAB && ((Machine.core t l0).ieq.map fun q => q.finished) == [true]) = true ∧
    gives (exec (.teCommandRun l0 1) (sRun fun c => { c with teq := [cmdE (.te 1 a5 0 1024 0 0 0 .i8 63 false 0 3 2 [] true) [(1024, 32, lmKey 0 65 1024)] 1] }))
      (fun t => numAt t (lmKey 0 65 1024) 8 == 0 && ((Machine.core t l0).teq.map fun q => q.finished) == [false]) = true ∧
    gives (exec (.teCommandRun l0 2) (sRun fun c => { c with teq := [cmdE (.te 1 a5 0 1024 0 0 0 .i8 63 false 0 3 2 [] true) [(1024, 32, lmKey 0 65 1024)] 1] }))
      (fun t => numAt t (lmKey 0 65 1024) 8 == 3 && numAt t (lmKey 0 65 1032) 2 == 5 && numAt t (lmKey 0 65 1040) 8 == 3 && numAt t (lmKey 0 65 1048) 8 == 2) = true ∧
    gives (exec (.peCommandRun l0 2) (sRun fun c => { c with peq := [cmdE (.pe 0 0 0 0 0 1024 0 0 0 4 0 4 a5 .fresh) [(1024, 16, lmKey 0 65 1024)]] }))
      (fun t => completed t (lmKey 0 65 1024) 5 (4 * 2 ^ 32)) = true := by decide +kernel

/-- `hm.gemv` of one vector of 64 against 4 rows with the reads `rs` and the writes `ps` left: its 4 granules of activations come first. -/
def gemvE (rs : List Nat) (ps : List Post) : EngCmd :=
  { cmdE (.gemv 1024 64 (2 ^ 52) 1 4 64 tprE) [(1024, 16, lmKey 0 65 1024), (64, 64, lmKey 0 65 64), (2 ^ 52, 256, hbmKey 0)] with
    io := { EngIO.none with reads := rs, posts := ps } }
def sGemv (rs : List Nat) (ps : List Post) : State := sRun fun c => { c with nmq := [gemvE rs ps] }
/-- The write of the results' first word. -/
def postE : Post := ⟨.put, [(lmKey 0 65 1024, 7)], 0, []⟩

noncomputable def nmIs (s : State) (p : EngCmd → Bool) : Bool := gives (exec (.nmCommandRun l0 1) s) fun t => (engQ (Machine.core t l0) .nm).all p && (engQ (Machine.core t l0) .nm).length == 1

theorem test_EngineEvents_gemv : (gemvIns 64 1 4 64 tprE).length = 4 ∧ isLm (xlKey (gemvE [] []).xl (gemvVa 64 (2 ^ 52) 1 4 64 tprE 0)) = true ∧
    engineHeld (sGemv [0] []) l0 1 = false ∧ heldBack (sGemv [0] []) 1 = false ∧
    nmIs (sGemv [0] []) (fun q => q.io.reads == [] && !q.finished) = true ∧ nmIs (sGemv [20] []) (fun q => q.io.reads == [] && !q.finished && !q.io.posts.isEmpty) = true ∧
    nmIs (sGemv [] [postE]) (fun q => q.finished && q.io.posts == []) = true ∧
    gives (exec (.nmCommandRun l0 1) (sGemv [] [postE])) (fun t => t.mem.read (lmKey 0 65 1024) == 7) = true :=
  ⟨by decide +kernel, by decide +kernel, by decide +kernel, by decide +kernel, by decide +kernel, by decide +kernel, by decide +kernel, by decide +kernel⟩

/-- An append at its act on an attention core, all records zero; the accesses that lead to the act come one in each run. -/
def appE (since : Nat := 3) : EngCmd := cmdE (.pe 1 1024 0 0 0 0 0 0 0 0 0 0 a5 (.act 0 none since)) [(1024, 112, lmKey 16 33 1024)] 1
def sApp (since : Nat := 3) : State := modCore { s0 with cycle := 4 } (.core 16 33) fun c => { c with peq := [appE since] }
def lApp : Loc := .core 16 33
noncomputable def again (i : Instr) : Nat → State → State
  | 0, s => s
  | n + 1, s => again i n ((nx (exec i s)).getD s)
def peBodies (s : State) : List (EngBody × Nat) := (Machine.core s lApp).peq.map fun q => (q.body, q.io.trace.length)

theorem test_EngineEvents_append : actFirst (sApp 3) 1 0 3 1024 = true ∧ nx (exec (.pgAppendAct lApp) (sApp 4)) = some (sApp 4) ∧
    (match (appAct ⟨loadPartition, lApp, appE, 0, .none⟩ 1024 0 false).run.run ⟨sApp, [], [], true, false, [], []⟩ with
      | (.error .pause, w) => w.trace.length == 1
      | _ => false) = true ∧
    peBodies (again (.pgAppendAct lApp) 1 sApp) = [(.pe 1 1024 0 0 0 0 0 0 0 0 0 0 a5 (.act 0 none 3), 1)] ∧
    peBodies (again (.pgAppendAct lApp) 20 sApp) = [(.pe 1 1024 0 0 0 0 0 0 0 0 0 0 a5 (.acted 0 none 0 0), 0)] := by decide +kernel

theorem test_EngineEvents_flash :
    (let f : Flash := ⟨3, .slice 16 0, false, 1, l0, 1024, 0, 0, 0, 0, false⟩
     gives (exec (.nvmeReadComplete 3 false) { s0 with flash := [f] }) (fun t => t.flash == []) = true ∧
       gives (exec (.nvmeWriteComplete 3 true) { s0 with flash := [{ f with write := true }] }) (fun t => t.flash == []) = true) := by decide +kernel

/-! ## Events: graphs, scheduling, label tables, saves (12, 13 R323, 15 R371 to R376) -/

/-- A template record at LM 64: ENTRY 2^52, COUNT 3, LMNEED 1, THREADS 1, PRIO 2, DEPN 2. -/
def tmplNum : Nat := 2 ^ 52 * 2 ^ 448 + 3 * 2 ^ 352 + 1 * 2 ^ 344 + 1 * 2 ^ 339 + 2 * 2 ^ 336 + 2 * 2 ^ 325
def tmplE : Template := ⟨2 ^ 52, Vector.replicate 8 0, 3, 1, 1, 2, false, 0, 2, []⟩
def sGl (n : Nat) : State := { s0 with mem := s0.mem.writeN (lmKey 0 65 64) (toBytes 64 n), msgs := [msgE (.launch false [lmKey 0 65 64] 5)] }
def node1 : Node := ⟨1, 0, [], [], [], 0, 0, 0, [], [], none, []⟩
def graphE : Graph := ⟨0, 1, [tmplE], [2], [false], [], []⟩
/-- The loaded machine with the compute node `n`. -/
def sNode (n : Node) : State := modPart s0 1 fun p => { p with compute := some n }

theorem test_GraphEvents_launch : masterDie s0 loadPartition false = 0 ∧ templateAt (sGl tmplNum) loadPartition l0 0 1 (lmKey 0 65 64) = some tmplE ∧
    freeGraph loadPartition = some 0 ∧ gives (exec (.graphLaunchRequest 3) (sGl tmplNum)) (fun t => match node? t 1 false with
      | some (_, n) => n.graphs.map (fun g => (g.gslot, g.tmpls, g.counts)) == [(0, [tmplE], [2])] && n.version == 1
      | none => false) = true ∧
    templateAt (sGl 0) loadPartition l0 0 1 (lmKey 0 65 64) = none ∧ gives (exec (.graphLaunchRequest 3) (sGl 0)) (fun t => t.msgs == [] &&
      (t.msgReplies.map fun w => w.ws) == [[.s 5 0x8000000000000001 false]] && ((die t 0).events.map fun e => (e.cause, e.arg0)) == [(35, 0)]) = true := by decide +kernel

/-- All 1,024 slots live. -/
def fullNode : Node := { node1 with graphs := (List.range 1024).map fun k => { graphE with gslot := k } }

theorem test_GraphEvents_full : freeGraph { loadPartition with compute := some fullNode } = none := by
  simp only [freeGraph, List.find?_eq_none]
  intro k hk
  simp [loadPartition, fullNode, node1] at hk ⊢
  omega

def countIs (l : List Nat) (t : State) : Bool := (node? t 1 false).any fun q => q.2.graphs.map (fun g => g.counts) == [l]

/-- A host launch request first in the queue of service core 0, which signals its template 0 (01 R40). -/
def launchE (h : Word) : HostReq := ⟨1, .launch h 0, 0, 0, [], none, 0, []⟩
def sHostLaunch (h : Word) (s : State) : State := { s with svcCores := s.svcCores.set 0 ⟨[launchE h]⟩ }

/-- A signal to a count of 2, of a thread and in a host request, one for another generation, one to a count of 0; reports. -/
theorem test_GraphEvents :
    gives (exec (.graphSignalReceive 3) { sNode { node1 with graphs := [graphE] } with msgs := [msgE (.signal false 0x10000 0)] }) (countIs [1]) = true ∧
    (die s0 0).fenced = false ∧ nx (exec (.hostLaunchRequest 1 0 0x10000 0) s0) = some (sHostLaunch 0x10000 s0) ∧
    (let s := { s0 with svcCores := s0.svcCores.set 0 ⟨List.replicate 256 (launchE 1)⟩ }
     nx (exec (.hostLaunchRequest 1 0 0x10000 0) s) = some s) ∧
    (let t := svcAct 0 (sHostLaunch 0x10000 (sNode { node1 with graphs := [graphE] }))
     countIs [1] t = true ∧ t.svcCores[0].queue = []) ∧
    (let g := { graphE with counts := [0] }
     (diePart (svcAct 0 (sHostLaunch 0x10000 (sNode { node1 with graphs := [g] }))) 0 1).cnt[12] = 1) ∧
    (diePart (svcAct 0 (sHostLaunch 0x20000 (sNode { node1 with graphs := [graphE] }))) 0 1).cnt[12] = 1 ∧
    (let r : Report := ⟨4, 0, 1, false, 0, 1, 0, 2, .complete⟩
     let s := { sNode { node1 with graphs := [graphE] } with reports := [r] }
     (graph? s 1 false 0).isSome = true ∧ gives (exec (.completionReport 4) s) (fun t => t.reports == [] && (graph? t 1 false 0).any fun g => g.ended == [(0, 2, .complete)]) = true ∧
     gives (exec (.completionReport 4) { s with reports := [{ r with gen := 2 }] }) (fun t => (graph? t 1 false 0).any fun g => g.ended == []) = true) := by decide +kernel

theorem test_GraphEvents_commit :
    (let w : MsgReply := ⟨3, l0, 0, 1, 1, [.s 5 1 false], none, none⟩
     let n := { node1 with version := 2, sentVersion := 1, acked := 0, await := [(1, .reply w (msgE (.launch false [] 5)))], graphs := [graphE] }
     gives (exec (.deputyCommit 1 false) (sNode n)) (fun t => (node? t 1 false).any fun q => q.2.sentVersion == 2 && q.2.deputyGraphs == [graphE]) = true ∧
     (∀ a ∈ n.await, (match a.2 with | .reply _ _ => true | _ => false) = true) ∧
     gives (exec (.deputyCommitAck 1 false) (sNode n)) (fun t => t.msgReplies == [w] && (node? t 1 false).any fun q => q.2.acked == 1 && q.2.await == []) = true) ∧
    (die s0 0).fenced = false ∧ gives (exec (.dieFence 0) (sHostLaunch 1 s0)) (fun t => (die t 0).fenced && (t.cores.all fun c => dieOf c.1 != 0) &&
      t.svcCores[0].queue == [] && (die t 0).walks == []) = true ∧
    (let s := { s0 with parts := [], reqs := [reqE (.load .plain 5 .b8 false)] }
     s.parts = [] ∧ gives (exec (.dieFence 0) s) (fun t => t.reqs == [] && (die t 0).ready == []) = true) := by decide +kernel

def entryE : ReadyEntry := ⟨1, false, 0, 1, 0, 2, 0, 2, 0, false, none, 0, tmplE⟩

theorem test_SchedulerEvents :
    (let s := modPart (modDie { s0 with cycle := 6 } 0 fun y => { y with ready := [entryE] }) 1 fun p => { p with agemax := 1 }
     agedEntry s { loadPartition with agemax := 1 } entryE = true ∧
       gives (exec (.readyAgeExpire 0 0) s) (fun t => ((die t 0).events.map fun e => (e.kind, e.reason, e.level)) == [(.dispatch, 3, 2)]) = true) ∧
    (let s : State := { s0 with cycle := 4096, parts := [{ loadPartition with sliceLen := 1 }, { loadPartition with pid := 2, st := .descheduled }] }
     matesOf s { loadPartition with sliceLen := 1 } ≠ [] ∧ (diePart s 0 1).sliceFrom + 4096 ≤ 4096 ∧ (die s 0).held = [] ∧
       gives (exec (.timeSliceEnd 1) s) (fun t => ((die t 0).events.map fun e => (e.kind, e.reason, e.pid)) == [(.preempt, 1, 1)]) = true) := by decide +kernel

def swapE : KswapReq := ⟨8, l0, 0, 1, 1, false, 5⟩

theorem test_SchedulerEvents_swap :
    gives (exec (.kswapRequest 8) { s0 with kswaps := [swapE] }) (fun t => t.kswaps == [] && (node? t 1 false).any fun q => q.2.swap == some (swapE, [])) = true ∧
    gives (exec (.kswapRequest 8) { sNode { node1 with swap := some (swapE, []) } with kswaps := [swapE] }) (fun t => (node? t 1 false).any fun q => q.2.swapQ == [swapE]) = true ∧
    (let s := sNode { node1 with swap := some (swapE, []) }
     0 ∈ liveDies s loadPartition false ∧ (die s 0).run = none ∧
       gives (exec (.kswapPrepare 1 false 0) s) (fun t => (diePart t 0 1).holding && (node? t 1 false).any fun q => q.2.swap == some (swapE, [0])) = true) ∧
    (let s := modDiePart (sNode { node1 with swap := some (swapE, List.range 16) }) 0 1 fun q => { q with shadow := some kRun.img }
     (∀ d ∈ liveDies s loadPartition false, d ∈ List.range 16) ∧
       gives (exec (.kswapCommit 1 false) s) (fun t => (diePart t 0 1).active == some kRun.img && (diePart t 0 1).shadow == none &&
         (t.msgReplies.map fun w => w.ws) == [[.s 5 1 false]] && (node? t 1 false).any fun q => q.2.kilnver == 1) = true) := by decide +kernel

/-- Tree 5 is in the table; a view request for tree 9 of the label a5, and one for tree 5, which exists. -/
def lttE (k : LttKind) : LttReq := ⟨8, l0, 0, 1, 1, k, 5, 1, 2, .none⟩
def sLtt (k : LttKind) : State := { modPart sPage 1 (fun p => { p with ltt := [e5] }) with ltts := [lttE k] }
def moveRun (w : Bool) : LttRun := ⟨lttE (.move a5 b5 false), a5, b5, e5, [], w, [], 0⟩

theorem test_LabelChangeEvents : e5.root = true ∧ lTid e5.cur = 5 ∧ e5.view = false ∧ freeEntry [e5] = some 1 ∧
    (masterXlate { sLtt (.view 5 a5) with ltts := [] } { loadPartition with ltt := [e5] } (lttE (.view 5 a5)) 2 a5).toOption = some (e5, a5, 2 ^ 49 + 8192) ∧
    gives (exec (.lttChangeRequest 8) (sLtt (.view 5 a5))) (fun t => (t.msgReplies.map fun w => w.trap) == [some (cLTABLE, 6, 0)] && t.ltts == []) = true ∧
    gives (exec (.lttChangeRequest 8) (sLtt (.view 9 a5))) (fun t => t.ltts == [] && (part? t 1).any fun p => p.lttRun.isSome) = true ∧
    (let s := modPart (sLtt (.view 9 a5)) 1 fun p => { p with lttRun := some (moveRun false) }
     nx (exec (.lttChangeRequest 8) s) = some s) := by decide +kernel

theorem test_LabelChangeEvents_phases :
    (let p := { loadPartition with lttRun := some (moveRun false) }
     let s := modCore { s0 with parts := [p] } l0 fun c => { c with teq := [cmdE (.te 1 a5 0 64 0 0 0 .i8 63 false 0 0 0 [] false) []] }
     pinsClear s p a5 b5 = false ∧ gives (exec (.lttPrepare 1 l0) s) (fun t => (part? t 1).any fun p => (p.lttRun.map fun r => r.acks) == some [l0]) = true) ∧
    (let s := modCore { s0 with parts := [{ loadPartition with lttRun := some (moveRun true) }] } l0 fun c => { c with lcache := [(1, 5, [e5]), (2, 5, [e5])] }
     gives (exec (.lttCommit 1 l0) s) (fun t => ((Machine.core t l0).lcache.map fun y => y.1) == [2]) = true) := by decide +kernel

def taskE (started : Bool) : Task := ⟨1, false, 0, 1, 0, 2, 2, 0, 1, 1, [3], 0, 1, started, none⟩

theorem test_TaskAndSaveEvents_tasks :
    (let y : Start := ⟨6, l1, entryE, 2⟩
     let s := modSlot (modCore { s0 with starts := [y] } l1 fun c => { c with task := some (taskE false) }) l1 3 fun x => { x with reserved := true }
     startAllowed s loadPartition y = true ∧ gives (exec (.taskStart 6) s) (fun t => t.starts == [] && (slotAt t l1 3).st == .run && (thread t l1 3).pc == 2 ^ 52 &&
       (thread t l1 3).s[(1 : SReg)] == 2 && (thread t l1 3).inTask && (Machine.core t l1).task == some (taskE true)) = true) ∧
    (let s := modCore s0 l1 fun c => { c with task := some (taskE true) }
     (slotAt s l1 3).st = .free ∧ taskCmds (Machine.core s l1) (taskE true) = false ∧ taskArrivals s l1 = false ∧
       gives (exec (.taskComplete l1) s) (fun t => (Machine.core t l1).task == none && (t.reports.map fun r => (r.tmpl, r.idx, r.how)) == [(0, 2, .complete)]) = true) := by
  decide +kernel

theorem test_TaskAndSaveEvents_halt :
    gives (exec (.preemptRequest l0 1) { s0 with preReqs := [⟨l0, 1, false⟩] }) (fun t => t.preReqs == [] && (Machine.core t l0).preempt == [⟨1, false⟩] &&
      (slotAt t l0 0).halting == some 256) = true ∧
    gives (exec (.preemptRequest l0 1) (setSt { s0 with preReqs := [⟨l0, 1, false⟩] } l0 0 (.block .drain 0))) (fun t => (slotAt t l0 0).st == .halt) = true ∧
    gives (exec (.threadHalt l0 0) (modSlot s0 l0 0 fun y => { y with halting := some 0 })) (fun t => (slotAt t l0 0).st == .halt) = true := by decide +kernel

/-- Partition 1 is descheduled and its one thread at core (0, 65) halted, 0xAA in the LM; then the core is restored. -/
def sSave : State :=
  let s := { modPart s0 1 (fun p => { p with st := .descheduled }) with mem := s0.mem.writeN (lmKey 0 65 64) [0xAA] }
  modSlot (modCore s l0 fun c => { c with preempt := [⟨1, false⟩] }) l0 0 fun y => { y with st := .halt, halting := some 0 }

noncomputable def sBack : State := (nx (exec (.coreSave l0 1) sSave)).getD sSave
noncomputable def sBack' : State := modPart sBack 1 fun p => { p with st := .running }

theorem test_TaskAndSaveEvents_save : saveReady sSave l0 1 = true ∧ allAtRest sSave 1 = true ∧ (slotAt sBack l0 0).st = .free ∧ numAt sBack (lmKey 0 65 64) 1 = 0 ∧
    ((part? sBack 1).map fun p => p.saves.map fun v => (v.loc, v.victim)) = some [(l0, false)] ∧ (Machine.core sBack' l0).preempt = [] ∧ (Machine.core sBack' l0).task = none ∧
    (match (part? sBack' 1).bind fun p => p.saves.head? with
      | some v => v.slots.map (fun q => q.1) == [0] && gives (exec (.coreRestore l0 v.id) sBack') fun t => (slotAt t l0 0).st == .run && numAt t (lmKey 0 65 64) 1 == 0xAA
      | none => false) = true := by decide +kernel

/-- The graph that the handle names stands on the attention node; a report from the fenced die; shared nodes. -/
theorem test_GraphEvents_otherNode :
    (let s := modPart s0 1 fun p => { p with attention := some { node1 with graphs := [graphE] } }
     (node? (svcAct 0 (sHostLaunch 0x10000 s)) 1 true).any (fun q => q.2.graphs.map (fun g => g.counts) == [[1]]) = true ∧
     gives (exec (.graphSignalReceive 3) { s with msgs := [msgE (.signal false 0x10000 0)] }) (fun t => (diePart t 0 1).cnt[12] == 0) = true) ∧
    gives (exec (.dieFence 0) { s0 with reports := [⟨4, 0, 1, false, 0, 1, 0, 2, .complete⟩, ⟨5, 1, 1, false, 0, 1, 0, 2, .complete⟩] }) (fun t =>
      (t.reports.map fun r => r.id) == [5]) = true ∧
    nodeShared { s0 with parts := [loadPartition, { loadPartition with pid := 2 }] } loadPartition false = true := by decide +kernel

/-- A killed instance waits for its thread's access, and is reported then; a thread at a checkpoint halts once its results are written, TPC naming its
instruction. -/
theorem test_TaskAndSaveEvents_killed :
    (let t : Task := { taskE true with killed := some [7] }
     let s := modCore s0 l1 fun c => { c with task := some t }
     killedOpen { s with reqs := [{ reqE (.store .plain 0 .b8) with thid := 7 }] } t [7] = true ∧ killedOpen s t [7] = false ∧
     taskCmds (Machine.core s l1) t = false ∧
     gives (exec (.taskComplete l1) s) (fun u => (Machine.core u l1).task == none && (u.reports.map fun r => r.how) == [.killed]) = true) ∧
    gives (exec (.threadHalt l0 0) (modSlot s0 l0 0 fun y => { y with halting := some 0, atCkpt := some true })) (fun t =>
      (slotAt t l0 0).st == .halt && (thread t l0 0).tpc == (thread s0 l0 0).pc) = true := by decide +kernel

/-- A pre-emption halts a thread in its trap handler: TPC names where it stopped, and the trapped instruction's address is kept for its `eret`. -/
theorem test_TaskAndSaveEvents_handler :
    (let s := modSlot s0 l0 0 fun y => { y with halting := some 0, th := { y.th with thact := true, tpc := 72 } }
     gives (exec (.threadHalt l0 0) s) (fun t => slotAt t l0 0 == halted (slotAt s l0 0) && (slotAt t l0 0).tpcHeld == some 72 &&
       (thread t l0 0).tpc == (thread s0 l0 0).pc) = true) := by decide +kernel

/-! ## Events: the host, services, links, the module (15 R366, R377 to R381, 16) -/

def vaLm : Word := 0x1000000000040
def hostSays (o : Out) (h : List HostMsg) : Bool := gives o fun t => t.host == h

def sHost (f : Partition → Partition) : State := { modPart s0 1 f with mem := s0.mem.writeN (lmKey 0 0 64) [1, 2, 3] }

/-- A host request of partition 1 for its core 0's LM at 64 and up, in service core 0's queue. -/
def hostE (k : HostKind) (n : Nat) (data : List Byte) (xl : Option (List (Nat × Nat × Nat))) (done : Nat := 0) : HostReq :=
  ⟨1, k, vaLm.toNat, n, data, xl, done, []⟩
def sSvc (r : HostReq) (more : Nat := 0) : State :=
  let s := sHost id
  { s with svcCores := s.svcCores.set 0 ⟨r :: List.replicate more r⟩ }
def begun (n : Nat) : Option (List (Nat × Nat × Nat)) := some [(vaLm.toNat, n, lmKey 0 0 64)]

theorem test_HostEvents_accesses : (die s0 0).fenced = false ∧
    gives (exec (.hostRead 1 0 vaLm 3) (sHost id)) (fun t => t.svcCores[0].queue == [hostE .read 3 [] none]) = true ∧
    gives (exec (.hostWrite 1 0 vaLm [9, 8]) (sHost id)) (fun t => t.svcCores[0].queue == [hostE .write 2 [9, 8] none]) = true ∧
    (sSvc (hostE .read 3 [] none) 255).svcCores[0].queue.length = 256 ∧
    nx (exec (.hostRead 1 0 vaLm 3) (sSvc (hostE .read 3 [] none) 255)) = some (sSvc (hostE .read 3 [] none) 255) := by decide +kernel

/-- The translation of a whole request; one that faults, one that meets poison, one that writes the poisoned block whole. -/
theorem test_HostEvents_begin : hostPieces s0 loadPartition false 2 vaLm.toNat 3 = some [(vaLm.toNat, 3, lmKey 0 0 64)] ∧
    lmAway loadPartition (lmKey 0 0 64) = false ∧ hostPoison s0 (hostE .read 3 [] none) (vaLm.toNat, 3, lmKey 0 0 64) = false ∧
    (svcAct 0 (sSvc (hostE .read 3 [] none))).svcCores[0].queue = [hostE .read 3 [] (begun 3)] ∧
    (svcAct 0 (sSvc { hostE .read 3 [] none with va := 0 })).host = [.readData 1 false []] ∧
    (let p (s : State) : State := { s with poison := [lmKey 0 0 64, lmKey 0 0 80] }
     (svcAct 0 (p (sSvc (hostE .write 3 [1, 2, 3] none)))).host = [.writeDone 1 false] ∧
     (svcAct 0 (p (sSvc (hostE .write 32 (List.replicate 32 1) none)))).host = []) := by decide +kernel

/-- Granules of requests that have begun: a read that ends, a read and a write that go on, a write that ends. -/
theorem test_HostEvents_granule : xlFind [(vaLm.toNat, 40, lmKey 0 0 64)] (vaLm.toNat + 16) = some (lmKey 0 0 80) ∧ lmSaved loadPartition (lmKey 0 0 64) = false ∧
    (sHost id).mem.wf = true ∧
    (svcAct 0 (sSvc (hostE .read 3 [] (begun 3)))).host = [.readData 1 true [1, 2, 3]] ∧
    (svcAct 0 (sSvc (hostE .read 40 [] (begun 40)))).svcCores[0].queue.map (fun r => (r.done, r.data.take 3)) = [(16, [1, 2, 3])] ∧
    (let t := svcAct 0 (sSvc (hostE .write 20 (List.replicate 20 7) (begun 20)))
     t.svcCores[0].queue.map (fun r => r.done) = [16] ∧ t.host = [] ∧ numAt t (lmKey 0 0 78) 4 = 0x0707) ∧
    (let t := svcAct 0 (sSvc (hostE .write 20 (List.replicate 20 7) (begun 20) 16))
     t.svcCores[0].queue = [] ∧ t.host = [.writeDone 1 true] ∧ numAt t (lmKey 0 0 80) 5 = 0x07070707) := by decide +kernel

/-- No thread and no work in the partition. -/
def sIdle (f : Partition → Partition) : State := modPart { s0 with cores := [] } 1 f

theorem test_HostEvents_partition :
    gives (exec (.hostPause 1) s0) (fun t => t.host == [.interrupt (partIdWord loadPartition) 61 0] && (part? t 1).any fun p => p.st == .paused) = true ∧
    (let s := sHost fun p => { p with st := .paused }
     loadPartition.irq = [] ∧ matesOf s loadPartition = [] ∧ gives (exec (.hostResume 1) s) (fun t => (part? t 1).any fun p => p.st == .running) = true) ∧
    gives (exec (.hostReset 1) s0) (fun t => (slotAt t l0 0).st == .free && (part? t 1).any fun p => p.st == .resetting) = true ∧
    partIdle s0 loadPartition = false ∧ hostSays (exec (.partitionRelease 1) s0) [.status 1 2] = true ∧
    partIdle (sIdle id) loadPartition = true ∧ gives (exec (.partitionRelease 1) (sIdle id)) (fun t => t.parts == [] && t.host == [.status 1 0]) = true ∧
    ownsCore loadPartition 0 0 = true := by decide +kernel

theorem test_HostEvents_reset : gives (exec (.partitionResetComplete 1) (modPart s0 1 fun p => { p with st := .resetting, stamp := 3 })) (fun t =>
    (part? t 1).any fun p => p.st == .running && p.stamp == 4 && p.agemax == 0x40000) = true := by decide +kernel

def assignE : AssignReq := ⟨1024, 0, 16384, 16384, 2 ^ 22, 0, [], []⟩

theorem test_HostEvents_assign : hostSays (exec (.partitionAssign assignE) reset) [.status 0 1] = true ∧
    (let s : State := { reset with boot := .ready }
     s.parts = [] ∧ s.owner = [] ∧ s.retired = [] ∧ s.firmware = [] ∧ 0 ∉ spoilUnits assignE ∧ ((spoilUnits assignE ++ [assignE.counterArea / 2 ^ 21]).eraseDups.all fun u => u < 2 ^ 20) = true ∧
       gives (exec (.partitionAssign assignE) s) (fun t => t.host == [.status s.nextId 0] && (part? t s.nextId).any fun p => p.st == .running && p.quota == 16384) = true ∧
       hostSays (exec (.partitionAssign { assignE with cnode := 0 }) s) [.status 0 1] = true ∧
       hostSays (exec (.partitionAssign { assignE with quota := 100 }) s) [.status 0 1] = true) := by decide +kernel

theorem test_HostEvents_split : nodeNum loadPartition false = 1 ∧ treeDepth false = 10 ∧ (sIdle id).parts = [loadPartition] ∧ (∀ d < 20, (diePart (sIdle id) d 1).snap = none) ∧
    gives (exec (.partitionSplit false 1) (sIdle id)) (fun t => t.host == [.status 0 0] && t.parts.map (fun p => nodeNum p false) == [2]) = true ∧
    hostSays (exec (.partitionSplit false 1) s0) [.status 0 2] = true ∧
    (let p := { loadPartition with compute := some { node1 with node := 2 } }
     partIdle { sIdle id with parts := [p] } p = true ∧ partIdle { s0 with parts := [p] } p = false ∧
       gives (exec (.partitionMerge false 1) { sIdle id with parts := [p] }) (fun t => t.host == [.status 0 0] && t.parts.map (fun p => nodeNum p false) == [1]) = true ∧
       hostSays (exec (.partitionMerge false 1) { s0 with parts := [p] }) [.status 0 2] = true) := by decide +kernel

/-- Unit 7 is the partition's, and no map or cache has an extent. -/
def sOwn : State := { sIdle (fun p => { p with map := [] }) with owner := [(7, 1)], dies := State.reset.dies }

theorem test_HostEvents_release : ownedBy sOwn 7 1 = true ∧ ((part? sOwn 1).any fun p => p.map == [] && p.saves == []) = true ∧
    (∀ d < 20, (die sOwn d).walks = []) ∧ sOwn.cores = [] ∧ sOwn.reqs = [] ∧ (∀ n : Fin 64, sOwn.svcCores[n].queue = []) ∧
    gives (exec (.releaseRequest 1 7) sOwn) (fun t => t.owner == [] && t.host == [.status 1 0]) = true := by decide +kernel

theorem test_HostEvents_releaseMaps (d : Nat) : (diePart sOwn d 1).map = [] := by
  by_cases h : d < 20
  · revert d; decide +kernel
  · simp only [diePart, die, h, dif_neg, not_false_eq_true]; rfl

/-- A request block at LM 64 with the dwords `w`, named by a call of service `svc`; grant 5 is units 64 to 95, which the partition owns. -/
def callE (svc : Nat) (block : Bool := true) : Msg := msgE (.pcall (svcCoreOf l0) svc (if block then some (lmKey 0 65 64) else none) 5)
def sCall (svc : Nat) (w : List Nat) (block : Bool := true) : State :=
  let mem := s0.mem.writeN (lmKey 0 65 64) (w.flatMap (toBytes 8))
  { modPart s0 1 (fun p => { p with grants := [⟨5, ⟨64, 5⟩⟩] }) with
    mem := mem, owner := (List.range 32).map fun i => (64 + i, 1), msgs := [callE svc block] }

def statusIs (i : Instr) (s : State) (n : Word) : Bool := gives (exec i s) fun t => t.msgs == [] && (t.msgReplies.map fun w => w.ws) == [[.s 5 n false]]

theorem test_ServiceEvents_refusals : [statusIs (.serviceUnknown 3) (sCall 0 []) 2, statusIs (.serviceUnknown 3) (sCall 7 []) 2, statusIs (.serviceMap 3) (sCall 1 [] false) 3,
    statusIs (.serviceUnmap 3) (sCall 2 [] false) 3, statusIs (.serviceGrant 3) (sCall 3 [] false) 3, statusIs (.serviceCkpttab 3) (sCall 5 [] false) 3,
    statusIs (.serviceIntr 3) (sCall 6 [] false) 3].all id = true ∧ s0.svcs = [] := by decide +kernel

/-- MAP of two units at VBASE 2^53 with W and R, at offset 2 of the grant; UNMAP of the loaded extent; GRANT of 2^19 units, CKPTTAB, INTR 59. -/
theorem test_ServiceEvents : blockWords (sCall 1 [2 ^ 53, 0x301, 5, 2]) (callE 1) (lmKey 0 65 64) = some [2 ^ 53, 0x301, 5, 2, 0, 0, 0, 0] ∧
    mapOk (sCall 1 []) loadPartition ⟨2 ^ 32, 1, 66, false, true, true⟩ = true ∧
    gives (exec (.serviceMap 3) (sCall 1 [2 ^ 53, 0x301, 5, 2])) (fun t => t.msgs == [] && (t.svcs.map fun v => (v.svc, v.phase)) == [(1, 0)] &&
      (part? t 1).any fun p => p.map == [⟨2 ^ 31, 0, 0, true, true, true⟩, ⟨2 ^ 32, 1, 66, false, true, true⟩]) = true ∧
    gives (exec (.serviceUnmap 3) (sCall 2 [2 ^ 52])) (fun t => (t.svcs.map fun v => v.removed) == [some ⟨2 ^ 31, 0, 0, true, true, true⟩] &&
      (part? t 1).any fun p => p.map == []) = true ∧
    gives (exec (.serviceGrant 3) (sCall 3 [19])) (fun t => t.host == [.grantRequest 3 1 (partIdWord loadPartition) 19 0] && t.svcs.length == 1) = true ∧
    gives (exec (.serviceCkpttab 3) (sCall 5 [2 ^ 52, 7])) (fun t => (part? t 1).any fun p => p.ckptTable == 2 ^ 52 && p.ckptCount == 7) = true ∧
    statusIs (.serviceCkpttab 3) (sCall 5 [2 ^ 52, 7]) 0 = true ∧ statusIs (.serviceIntr 3) (sCall 6 [59]) 0 = true ∧
    hostSays (exec (.serviceIntr 3) (sCall 6 [59])) [.interrupt (partIdWord loadPartition) 59 0] = true := by decide +kernel

/-- An image of one halfword, `kend`, with all three entries at 0, at LM 128. -/
def sImg : State :=
  let s := sCall 4 [128]
  { s with mem := s.mem.writeN (lmKey 0 65 128) ([0, 0, 0, 0, 7] ++ List.replicate 11 0 ++ [0x00, 0xB0]) }

theorem test_ServiceEvents_kload : (imageBytes sImg loadPartition (callE 4) 128 16).isSome = true ∧ (die sImg 0).parts.any (fun q => q.pid == 1) = true ∧
    ((imageBytes sImg loadPartition (callE 4) 128 18).bind parseImage) = some ⟨some 0, some 0, some 0, [0xB000]⟩ ∧ (node? sImg 1 false).any (fun q => q.2.swap == none) = true := by
  decide +kernel

def sGrant : State := { s0 with svcs := [⟨3, svcCoreOf l0, l0, 0, 1, 1, 3, none, 5, 0, 0, none⟩] }

theorem test_ServiceEvents_grant : loadPartition.stamp = 0 ∧ grantOk ⟨64, 5⟩ = true ∧ ((grantUnits ⟨64, 5⟩).all fun u => unitFree sGrant u) = true ∧
    [(GrantReply.refused, (1 : Word)), (.busy, 4), (.granted ⟨64, 5⟩, 0)].all (fun q => gives (exec (.hostGrantResponse 3 0 q.1) sGrant) fun t =>
      t.svcs == [] && (t.msgReplies.map fun w => w.ws) == [[.s 5 q.2 false]]) = true ∧
    gives (exec (.hostGrantResponse 3 1 .busy) sGrant) (fun t => (diePart t 0 1).cnt[22] == 1 && t.svcs.length == 1) = true := by decide +kernel

theorem test_LinkEvents_scrub : realLoc l0 = true ∧ gives (exec (.scrubRead l0 .none) s0) (fun t => (Machine.core t l0).scrubAt == 1) = true ∧
    gives (exec (.scrubRead l0 .uncorrectable) s0) (fun t => poisoned t (lmKey 0 65 0)) = true := by decide +kernel

/-- A snapshot of the loaded partition's counters begins; counter 23 stands in it with 9, while it is being written, and at its end. -/
def sSnap (snap : Option (Nat × Vector Nat 24 × Nat)) : State :=
  modDiePart (modPart s0 1 fun p => { p with counterArea := 2 ^ 20 }) 0 1 fun q => { q with snapDue := true, seq := 4, snap := snap }
def nine : Vector Nat 24 := (Vector.replicate 24 0).set 23 9

theorem test_LinkEvents_snapshot : 0 ∈ dieList loadPartition ∧ (die s0 0).fenced = false ∧ ((die s0 0).parts.any fun q => q.pid == 1) = true ∧
    gives (exec (.counterSnapshot 0 1) (sSnap none)) (fun t => numAt t (hbmKey (2 ^ 20 + 4)) 4 == 5 && (diePart t 0 1).seq == 5 &&
      (diePart t 0 1).snap == some (1, Vector.replicate 24 0, 6)) = true ∧
    gives (exec (.counterSnapshot 0 1) (sSnap (some (23, nine, 6)))) (fun t => numAt t (hbmKey (2 ^ 20 + 184)) 8 == 9 &&
      (diePart t 0 1).snap == some (24, nine, 6)) = true ∧
    gives (exec (.counterSnapshot 0 1) (sSnap (some (24, nine, 6)))) (fun t => t.mem == (sSnap none).mem) = true ∧
    gives (exec (.counterSnapshot 0 1) (sSnap (some (64, nine, 6)))) (fun t => numAt t (hbmKey (2 ^ 20 + 4)) 4 == 6 && (diePart t 0 1).snap == none &&
      (diePart t 0 1).seq == 6) = true := by decide +kernel

/-- A class-3 access in flight, part of which is offered to link 4 of die 0. -/
def offerE : FlitOffer := ⟨.request 1, 2, Vector.replicate 64 0xA5⟩
def sFlit (f : Port → Port) : State :=
  let s := sReq { reqE (.store .plain 0 .b8) with cls := 3, key := lmKey 16 33 64 }
  modDie s 0 fun y => { y with ports := y.ports.set 4 (f y.ports[4]) }

theorem test_LinkEvents_flits : linkUp s0 0 4 = true ∧ linkUp { s0 with boot := .awaiting } 0 4 = false ∧ (port (sFlit id) 0 4).queued = [] ∧
    s0.cycle / 4096 ≤ (port s0 0 4).window ∧
    ((flitHead (sFlit id) 0 4 (.request 1)).map fun h => (h.cls, h.pid, h.dest, h.preempting)) = some (3, 1, 16, false) ∧ linkKind 0 4 = .ucie ∧
    flitHead (sReq (reqE (.store .plain 0 .b8))) 0 0 (.request 1) = none ∧
    -- to another compute die it goes over a seam, and its reply comes back over one
    (let s := sReq { reqE (.store .plain 0 .b8) with cls := 3, key := lmKey 3 33 64 }
     ((flitHead s 0 0 (.request 1)).map fun h => (h.pid, h.dest)) = some (1, 3) ∧ flitHead s 0 4 (.request 1) = none) ∧
    ((flitHead (sReq { reqE (.store .plain 0 .b8) with key := lmKey 3 33 64, st := .replied .ack }) 3 0 (.request 1)).map fun h => (h.pid, h.dest)) = some (1, 0) ∧
    gives (exec (.flitSend 0 4 [offerE]) (sFlit id)) (fun t => (port t 0 4).cntFlit.toList == [0, 0, 0, 1] && (port t 0 4).cntDemote == 0 &&
      ((port t 0 4).replay.map fun g => (g.cls, g.payload)) == some (3, offerE.payload) && (port t 0 4).arrived == []) = true ∧
    gives (exec (.flitSend 0 4 [offerE]) (sFlit fun p => { p with use3 := [(1, shareOf 0 4)] })) (fun t =>
      (port t 0 4).cntFlit.toList == [0, 0, 1, 0] && (port t 0 4).cntDemote == 1) = true ∧
    -- the core is being pre-empted: beyond its share too the access keeps class 3
    gives (exec (.flitSend 0 4 [offerE]) (modCore (sFlit fun p => { p with use3 := [(1, shareOf 0 4)] }) l0 fun c => { c with preempt := [⟨1, false⟩] })) (fun t =>
      (port t 0 4).cntFlit.toList == [0, 0, 0, 1] && (port t 0 4).cntDemote == 0) = true ∧
    nx (exec (.flitSend 0 4 [offerE]) { s0 with boot := .awaiting }) = some { s0 with boot := .awaiting } ∧
    gives (exec (.class3WindowEnd 0 4) { sFlit (fun p => { p with use3 := [(1, 3)] }) with cycle := 4096 }) (fun t => (port t 0 4).use3 == []) = true ∧
    (let f : Flit := ⟨3, 1, 16, 2, 0, offerE.payload, false⟩
     gives (exec (.flitCrcReplay 0 4) (sFlit fun p => { p with replay := some f })) (fun t => (port t 0 4).cntReplay == 1 && (port t 0 4).replay == some f) = true) := by
  decide +kernel

theorem test_LinkEvents_frames :
    gives (exec (.ethernetFrameReceive 2 (List.replicate 12 0 ++ [0x88, 0xB5])) s0) (fun t => t.frames.length == 1) = true ∧
    nx (exec (.ethernetFrameReceive 2 (List.replicate 12 0 ++ [0x88, 0xB5])) { s0 with boot := .awaiting }) = some { s0 with boot := .awaiting } := by decide +kernel

/-- A signature of another length is refused; whether one of 29,792 bytes is accepted depends on the fused values, which are free. -/
theorem test_ModuleEvents :
    nx (exec (.firmwareImageReceive [1] 7 [2]) { reset with boot := .awaiting }) = some { reset with boot := .awaiting } ∧
    gives (exec .moduleReset { s0 with mem := s0.mem.writeN (flashKey 0 0 0) [7] }) (fun t => t.mem == [(flashKey 0 0 0, 7)] && t.boot == .awaiting) = true ∧
    gives (exec (.hotRemoval 0 2) { s0 with drives := [(0, 2, 9), (0, 3, 9)] }) (fun t => t.drives == [(0, 3, 9)]) = true ∧
    gives (exec (.temperatureAlarm 3) s0) (fun t => (die t 3).alarmed && t.host == [.alarm 3]) = true := by
  refine ⟨?_, by decide +kernel, by decide +kernel, by decide +kernel⟩
  show nx (execFirmwareImageReceive [1] 7 [2] _) = _
  simp [nx, execFirmwareImageReceive, signedImage, slhVerify, slhLen]

/-- The fused values are free: for an image with its version, either every condition of acceptance holds or one of refusal does. -/
theorem test_ModuleEvents_acceptance (image sig : List Byte) (v : Nat) :
    (shake256 Config.vendorKey.toList = Config.vendorDigest.toList ∧ slhVerify Config.vendorKey.toList (image ++ toBytes 8 v) sig = true ∧ v < 2 ^ 64 ∧
      Config.minVersion ≤ v) ∨
    shake256 Config.vendorKey.toList ≠ Config.vendorDigest.toList ∨ ¬ slhVerify Config.vendorKey.toList (image ++ toBytes 8 v) sig = true ∨ 2 ^ 64 ≤ v ∨
      v < Config.minVersion := by
  by_cases a : shake256 Config.vendorKey.toList = Config.vendorDigest.toList
  · by_cases b : slhVerify Config.vendorKey.toList (image ++ toBytes 8 v) sig = true
    · by_cases c : v < 2 ^ 64 <;> by_cases d : Config.minVersion ≤ v <;> simp_all
    · exact .inr (.inr (.inl b))
  · exact .inr (.inl a)

/-! ## Accesses that wait, and those to other memory (09 R220 to R231) -/

/-- Granule `g` of the own LM behind address 64 is empty. -/
def sEmp (g : Nat := 0) : State := setEmpty sM (k64 + 16 * g)

/-- An access to the own LM waits in the list of its granule. -/
def listed (i : Instr) (s : State) (g : Nat) : Bool :=
  ready i s x0 && s.reqs == [] && (slotAt s l0 0).halting == none && gives (exec i s) fun t =>
    (t.reqs.map fun r => (r.st, r.loc, r.thid)) == [(.feList (granule g), l0, 1)] && (t.reqs.all fun r => (slotAt t l0 0).st == .parkMem (.access r.id))

theorem test_FullEmptyWaits_issue : OwnLm (sEmp 0) x0 false 64 8 k64 ∧ OwnLm sM x0 false 64 8 k64 ∧ feFull (sEmp 0) k64 = false ∧ feFull sM k64 = true ∧
    [Instr.ldSync h0 1 2 0 .b8 false, .ldTake h0 1 2 0 .b8 false, .feWait h0 2 0].all (fun i => listed i (sEmp 0) k64) = true ∧
    listed (.stXfill h0 4 2 0 .b8) sM k64 = true ∧
    feFull (sEmp 1) k64 = true ∧ feFull (sEmp 1) (k64 + 16) = false ∧ listed (.vldSync h0 none 5 2 0) (sEmp 1) (k64 + 16) = true :=
  ⟨ownLm_of (by decide +kernel), ownLm_of (by decide +kernel), by decide +kernel, by decide +kernel, by decide +kernel, by decide +kernel, by decide +kernel,
    by decide +kernel, by decide +kernel⟩

/-- Core (0, 70)'s granule is empty or full; request 1 comes to it, behind the requests `ws`, which wait in its list. -/
def sFe (full : Bool) (op : MemOp) (ws : List MemOp) : State :=
  let s := sReq (reqE op)
  let s := { s with reqs := s.reqs ++ ws.mapIdx fun j o => { reqE o with id := j + 2, slot := j + 1, thid := BitVec.ofNat 64 (j + 2), st := .feList (lmKey 0 70 64) } }
  if full then s else setEmpty s (lmKey 0 70 64)
def feStates (s : State) : List ReqState := [1, 2, 3].filterMap fun i => (req? s i).map fun q => q.st

def takeE : MemOp := .load .take 5 .b8 false
def syncE : MemOp := .load .sync 5 .b8 false

noncomputable def feRun (full : Bool) (op : MemOp) (ws : List MemOp) : List ReqState × Bool :=
  match exec (.accessPerform 1) (sFe full op ws) with
  | .next t => (feStates t, feFull t (lmKey 0 70 64))
  | _ => ([], false)

theorem test_FullEmptyWaits_list : canAct (sFe false syncE []) (reqE syncE) = true ∧ granule (lmKey 0 70 64) = lmKey 0 70 64 ∧
    [feRun false syncE [], feRun false takeE [], feRun false .feWait []].all (fun q => q == ([.feList (lmKey 0 70 64)], false)) = true ∧
    feRun true (.store .xfill 3 .b8) [] = ([.feList (lmKey 0 70 64)], true) := by decide +kernel

def valE : Reply := .writes [.s 5 0x8807060504030201 false]

/-- `fe.set` serves the oldest, and those behind it unless that one empties the granule again; `fe.clr` lets an `st.xfill` in. -/
theorem test_FullEmptyWaits_wake : canAct (sFe false .feSet [takeE, syncE]) (reqE .feSet) = true ∧ (sFe false .feSet [takeE, syncE]).mem.wf = true ∧
    ((sFe false .feSet [takeE, syncE]).reqs.map fun y => y.id) = [1, 2, 3] ∧
    feRun false .feSet [takeE, syncE] = ([.replied .ack, .replied valE, .feList (lmKey 0 70 64)], false) ∧
    feRun false .feSet [syncE, syncE] = ([.replied .ack, .replied valE, .replied valE], true) ∧
    feRun true .feClr [.store .xfill 3 .b8] = ([.replied .ack, .replied .ack], true) := by decide +kernel

/-- One request went out for the instruction, and its thread is parked on it. -/
def parksOn (i : Instr) (s : State) : Bool :=
  ready i s x0 && gives (exec i s) fun t => (t.reqs.map fun r => (r.key, r.va, r.relaxed, r.st)) == [(sliceKey 0 0 0, 2 ^ 49, false, .sent)] &&
    (slotAt t l0 0).st == .parkMem (.access 1)

/-- s4 holds 1. -/
def sRem : State := modTh sS' l0 0 fun th => { th with s := th.s.set 4 1 }

theorem test_RemoteAccessParks_forms : [Instr.ldSpec h0 none 1 2 0 .b8 false, .ldSync h0 1 2 0 .b8 false, .ldTake h0 1 2 0 .b8 false, .stFill h0 1 2 0 .b8,
      .stXfill h0 1 2 0 .b8, .feSet h0 2 0, .feClr h0 2 0, .feGet h0 1 2 0, .feWait h0 2 0, .vld h0 .none 5 2 0, .vldSync h0 none 5 2 0, .vst h0 .none 5 2 0,
      .vstFill h0 none 5 2 0, .amoAdd h0 none true 1 2 4, .amoSwap h0 none false 1 2 4, .amoFadd h0 none 1 2 4, .cas32 h0 none 1 2 4, .cas64 h0 none 1 2 4,
      .redAdd h0 none true 2 4, .redMaxn h0 none false 2 4, .redFadd h0 none 2 4, .redArrive h0 none 2 4].all (fun i => parksOn i sRem) = true := by
  decide +kernel

def mDie : Option MPfx := some ⟨.die⟩

/-- A relaxed access goes on, the eighth outstanding one stops it; one that is not relaxed waits for those; a roaming thread goes to the slice, or, with a
loop body too far from its pc to pack, parks. -/
theorem test_RemoteAccessParks_cases :
    [Instr.ld h0 mDie 1 2 0 .b8 false, .st h0 mDie 1 2 0 .b8, .redAdd h0 mDie true 2 4].all (fun i => ready i sRem x0 && gives (exec i sRem) fun t =>
      (t.reqs.map fun r => (r.relaxed, r.scope)) == [(true, .die)] && (slotAt t l0 0).st == .run) = true ∧
    (let r : Request := { reqE (.store .plain 0 .b8) with relaxed := true }
     let s := { sRem with reqs := List.replicate 8 r }
     let s1 := { sRem with reqs := [r] }
     nx (exec (.st h0 mDie 1 2 0 .b8) s) = some (setSt s l0 0 (.block .relaxedLimit 0)) ∧
     nx (exec (.st h0 none 1 2 0 .b8) s1) = some (setSt s1 l0 0 (.block .drain 0))) ∧
    (let s := modTh sRem l0 0 fun th => { th with roaming := true }
     (Machine.core s l0).fwd.length < 16 ∧ hasWaitingGuard (Machine.core s l0) (me s x0) = false ∧
     [Instr.ld h0 none 1 2 0 .b8 false, .amoAdd h0 none true 1 2 4, .feWait h0 2 0, .vld h0 .none 5 2 0].all (fun i => ready i s x0 &&
       nx (exec i s) == some (setSt s l0 0 (.moving (.slice 0 0)))) = true ∧
     parksOn (.casK h0 1 2 3 4 ⟨true, false, 0⟩) s = true ∧
     (let far := modTh s l0 0 fun th => { th with loops := [⟨0, 2 ^ 40, 5⟩] }
      packable (me far x0).pc ⟨0, 2 ^ 40, 5⟩ = false ∧ parksOn (.ld h0 none 1 2 0 .b8 false) far = true)) := by decide +kernel

/-- Address 2 is misaligned for every atomic; 2^56 is no address. -/
theorem test_AccessTraps_atomics : [Instr.amoAnd h0 none true 1 2 4, .amoMaxn h0 none false 1 2 4, .redXor h0 none true 2 4, .redSwap h0 none false 2 4,
      .cas64 h0 none 1 2 4, .redArrive h0 none 2 4].all (fun i =>
    (let s := on (user fun r => if r = 2 then 2 else 1)
     ready i s x0 && nx (exec i s) == some (trapAt s x0 cMISALIGN 0 2)) &&
    (let s := on (user fun r => if r = 2 then 2 ^ 56 else 1)
     ready i s x0 && nx (exec i s) == some (trapAt s x0 cTRANSLATION 0 (2 ^ 56)))) = true := by decide +kernel

end Sys2Proof.Tests
end

section
/-! PROOFS. Scrubbers, counters, snapshots, links (00 R13; 08 R212; 15 R372; 16 R382 to R388, R393). -/

namespace Sys2Proof.Proofs

open Sys2Proof.Machine Sys2Proof.Laws

/-! ## Dies, the partitions on them and their ports after an update -/

theorem die_modDie {s : State} {d : Nat} (hd : d < 20) (f : Die → Die) (d' : Nat) :
    die (modDie s d f) d' = if d' = d then f (die s d) else die s d' := by
  by_cases h : d' = d
  · subst h; simp [die, modDie, hd]
  · have h' : d ≠ d' := fun e => h e.symm
    simp [die, modDie, hd, h, h']

@[simp] theorem die_modDie_self {s : State} {d : Nat} (hd : d < 20) (f : Die → Die) : die (modDie s d f) d = f (die s d) := by
  simp [die_modDie hd]

/-- An update of a partition's part of a die that keeps its number is what the die then holds of it. -/
theorem diePart_modDiePart_self {s : State} {d pid : Nat} (hd : d < 20) (hp : ∃ q ∈ (die s d).parts, q.pid = pid) {f : DiePart → DiePart}
    (hf : ∀ q, (f q).pid = q.pid) : diePart (modDiePart s d pid f) d pid = f (diePart s d pid) := by
  have keeps : ((fun q : DiePart => q.pid == pid) ∘ fun q => if q.pid = pid then f q else q) = fun q => q.pid == pid := by
    funext q
    simp only [Function.comp_apply, apply_ite DiePart.pid, hf, ite_self]
  obtain ⟨r, hr, hrp⟩ := hp
  obtain ⟨q, hq⟩ : ∃ q, (die s d).parts.find? (fun q => q.pid == pid) = some q :=
    Option.isSome_iff_exists.mp (List.find?_isSome.mpr ⟨r, hr, beq_iff_eq.mpr hrp⟩)
  have hpid : q.pid = pid := by simpa only [beq_iff_eq] using List.find?_some hq
  have found : ((die s d).parts.map fun q => if q.pid = pid then f q else q).find? (fun q => q.pid == pid) = some (f q) := by
    rw [List.find?_map, keeps, hq, Option.map_some, if_pos hpid]
  simp only [diePart, modDiePart, die_modDie_self hd, found, hq]

@[simp] theorem port_modDiePart (s : State) (d pid : Nat) (f : DiePart → DiePart) (d' l : Nat) :
    port (modDiePart s d pid f) d' l = port s d' l := by
  by_cases hd : d < 20
  · unfold port modDiePart
    rw [die_modDie hd]
    split
    · split
      · next h => subst h; rfl
      · rfl
    · rfl
  · simp [port, modDiePart, modDie, hd]

@[simp] theorem port_count (s : State) (d pid : Nat) (k : Fin 24) (n d' l : Nat) : port (count s d pid k n) d' l = port s d' l :=
  port_modDiePart ..

@[simp] theorem port_modPort_self {s : State} {d l : Nat} (hd : d < 20) (hl : l < 7) (f : Port → Port) :
    port (modPort s d l f) d l = f (port s d l) := by
  simp [port, modPort, hd, hl]

@[simp] theorem modPort_mem (s : State) (d l : Nat) (f : Port → Port) : (modPort s d l f).mem = s.mem := by
  unfold modPort; split
  · exact modDie_mem ..
  · rfl

/-! ## What a machine check leaves alone (15 R381) -/

@[simp] theorem setIrq_mem (s : State) (pid vec : Nat) : (setIrq s pid vec).mem = s.mem := by
  unfold setIrq; split
  · rfl
  · split <;> rfl
@[simp] theorem setIrq_poison (s : State) (pid vec : Nat) : (setIrq s pid vec).poison = s.poison := by
  unfold setIrq; split
  · rfl
  · split <;> rfl
@[simp] theorem setIrq_cores (s : State) (pid vec : Nat) : (setIrq s pid vec).cores = s.cores := by
  unfold setIrq; split
  · rfl
  · split <;> rfl

@[simp] theorem logRec_mem (s : State) (pid : Nat) (mc : Bool) (ws : List Word) : (logRec s pid mc ws).mem = s.mem := by
  unfold logRec; split
  · rfl
  · simp only [apply_ite State.mem, modPart_mem, count_mem, ite_self]
@[simp] theorem logRec_poison (s : State) (pid : Nat) (mc : Bool) (ws : List Word) : (logRec s pid mc ws).poison = s.poison := by
  unfold logRec; split
  · rfl
  · simp only [apply_ite State.poison, modPart_poison, count_poison, ite_self]
@[simp] theorem logRec_cores (s : State) (pid : Nat) (mc : Bool) (ws : List Word) : (logRec s pid mc ws).cores = s.cores := by
  unfold logRec; split
  · rfl
  · simp only [apply_ite State.cores, modPart_cores, count_cores, ite_self]

@[simp] theorem machineCheck_mem (s : State) (pid : Nat) (ws : List Word) : (machineCheck s pid ws).mem = s.mem := by simp [machineCheck]
@[simp] theorem machineCheck_poison (s : State) (pid : Nat) (ws : List Word) : (machineCheck s pid ws).poison = s.poison := by simp [machineCheck]
@[simp] theorem machineCheck_cores (s : State) (pid : Nat) (ws : List Word) : (machineCheck s pid ws).cores = s.cores := by simp [machineCheck]

/-! ## Poison marks (08 R213) -/

@[simp] theorem mem_insertNat (a b : Nat) (l : List Nat) : b ∈ insertNat a l ↔ b = a ∨ b ∈ l := by
  induction l with
  | nil => simp [insertNat]
  | cons c r ih =>
    unfold insertNat
    split
    · simp
    · split
      · next h => subst h; simp
      · rw [List.mem_cons, ih, List.mem_cons]; exact or_left_comm

theorem poisoned_iff (s : State) (key : Nat) : poisoned s key = true ↔ poisonUnit key ∈ s.poison := by
  unfold poisoned poisonUnit; split <;> simp

@[simp] theorem markPoison_mem (s : State) (key : Nat) : (markPoison s key).mem = s.mem := by
  unfold markPoison; dsimp only; split <;> simp
@[simp] theorem markPoison_poison (s : State) (key : Nat) : (markPoison s key).poison = insertNat (poisonUnit key) s.poison := by
  unfold markPoison; dsimp only; split <;> simp
@[simp] theorem markPoison_cores (s : State) (key : Nat) : (markPoison s key).cores = s.cores := by
  unfold markPoison; dsimp only; split <;> simp

/-! ## The scrubber (08 R212, log 12) -/

@[simp] theorem poisonGranule_mem (s : State) (l : Loc) (off : Nat) : (poisonGranule s l off).mem = s.mem := by
  unfold poisonGranule; dsimp only; split
  · rfl
  · split <;> simp
@[simp] theorem poisonGranule_cores (s : State) (l : Loc) (off : Nat) : (poisonGranule s l off).cores = s.cores := by
  unfold poisonGranule; dsimp only; split
  · rfl
  · split <;> simp

theorem coresOn_le (d : Nat) : coresOn d ≤ 4096 := by unfold coresOn; split <;> omega
theorem slicesOn_le (d : Nat) : slicesOn d ≤ 64 := by unfold slicesOn; split <;> omega

theorem scrubSize_slice_le (d i : Nat) : scrubSize (.slice d i) ≤ 131072 := by simp only [scrubSize]; split <;> omega

theorem scrubSize_pos (l : Loc) : 0 < scrubSize l := by
  cases l with
  | core d i => simp [scrubSize]
  | slice d i => simp only [scrubSize]; split <;> omega
  | svc d i => simp [scrubSize]

/-- A granule of a core's or slice's memory is its own unit of poison: it starts at a multiple of 16 and does not lie in HBM. -/
theorem poisonUnit_lmAt {l : Loc} (hl : realLoc l = true) {n : Nat} (hn : n < scrubSize l) : poisonUnit (lmAt l (16 * n)) = lmAt l (16 * n) := by
  have place : isHbm (lmAt l (16 * n)) = false ∧ lmAt l (16 * n) % 16 = 0 := by
    cases l with
    | core d i =>
      obtain ⟨hd, hi⟩ : d < 20 ∧ i < coresOn d := by simpa [realLoc] using hl
      have := coresOn_le d
      simp only [scrubSize] at hn
      exact ⟨isHbm_lmKey hd (by omega) (by omega), by simp only [lmAt, lmKey]; omega⟩
    | slice d i =>
      obtain ⟨hd, hi⟩ : d < 20 ∧ i < slicesOn d := by simpa [realLoc] using hl
      have := slicesOn_le d
      have := scrubSize_slice_le d i
      have : (2 * 2 ^ 60 + d * 2 ^ 40 + i * 2 ^ 24 + 16 * n) / 2 ^ 60 = 2 := by omega
      exact ⟨by simp only [isHbm, lmAt, sliceKey, this]; rfl, by simp only [lmAt, sliceKey]; omega⟩
    | svc d i => simp [realLoc] at hl
  simp [poisonUnit, granule, place]

theorem poisoned_poisonGranule (s : State) {l : Loc} (hl : realLoc l = true) {n : Nat} (hn : n < scrubSize l) :
    poisoned (poisonGranule s l (16 * n)) (lmAt l (16 * n)) = true := by
  rw [poisoned_iff, poisonUnit_lmAt hl hn]
  unfold poisonGranule; dsimp only; split
  · next h => simpa using h
  · split <;> simp [poisonUnit_lmAt hl hn]

/-- What a scrubber's read does with the error it finds. -/
def scrubFinds (s : State) (l : Loc) (off : Nat) : SoftError → State
  | .none => s
  | .corrected => countPhys s (dieOf l) (if isSliceCore l then 1 else 0) 1
  | .uncorrectable => poisonGranule s l off

@[simp] theorem scrubFinds_mem (s : State) (l : Loc) (off : Nat) (e : SoftError) : (scrubFinds s l off e).mem = s.mem := by
  cases e <;> simp [scrubFinds]
@[simp] theorem scrubFinds_cores (s : State) (l : Loc) (off : Nat) (e : SoftError) : (scrubFinds s l off e).cores = s.cores := by
  cases e <;> simp [scrubFinds]

/-- A scrub read: the scrubber moves on to its next granule, and the error that it finds takes effect. -/
def scrubbed (s : State) (l : Loc) (e : SoftError) : State :=
  scrubFinds (modCore s l fun c => { c with scrubAt := c.scrubAt + 1 }) l (16 * ((Machine.core s l).scrubAt % scrubSize l)) e

/-- A scrub read that is due is `scrubbed`, but for the passes that its die counts. -/
theorem exec_scrubRead {s : State} {l : Loc} (hl : realLoc l = true) (hc : 64 * (Machine.core s l).scrubAt ≤ s.cycle) (e : SoftError) :
    ∃ f, exec (.scrubRead l e) s = .next (modDie (scrubbed s l e) (dieOf l) f) := by
  have due : ¬ s.cycle < 64 * (Machine.core s l).scrubAt := by omega
  change ∃ f, execScrubRead l e s = _
  simp only [execScrubRead, hl, due, Bool.not_true, decide_false, Bool.or_self, Bool.false_eq_true, if_false]
  cases e <;> exact ⟨_, rfl⟩

/-- It leaves memory alone and moves the scrubber on. -/
theorem scrubbed_frame (s : State) (l : Loc) (e : SoftError) :
    (scrubbed s l e).mem = s.mem ∧ (Machine.core (scrubbed s l e) l).scrubAt = (Machine.core s l).scrubAt + 1 := by
  refine ⟨by simp [scrubbed], ?_⟩
  rw [Machine.core, scrubbed, scrubFinds_cores]
  exact congrArg Core.scrubAt (core_modCore_self s l _)

theorem scrubbed_poison {s : State} {l : Loc} {e : SoftError} (he : e ≠ .uncorrectable) : (scrubbed s l e).poison = s.poison := by
  cases e with
  | none => rfl
  | corrected => simp [scrubbed, scrubFinds]
  | uncorrectable => exact absurd rfl he

theorem scrubbed_uncorrectable (s : State) {l : Loc} (hl : realLoc l = true) :
    poisoned (scrubbed s l .uncorrectable) (lmAt l (16 * ((Machine.core s l).scrubAt % scrubSize l))) = true :=
  poisoned_poisonGranule _ hl (Nat.mod_lt _ (scrubSize_pos l))

/-- A read that finds nothing, or what the scrubber corrects, leaves poison alone too. -/
theorem exec_scrubRead_correctable {s : State} {l : Loc} (hl : realLoc l = true) (hc : 64 * (Machine.core s l).scrubAt ≤ s.cycle) {e : SoftError}
    (he : e ≠ .uncorrectable) : ∃ t, exec (.scrubRead l e) s = .next t ∧ t.mem = s.mem ∧ t.poison = s.poison ∧
      (Machine.core t l).scrubAt = (Machine.core s l).scrubAt + 1 := by
  obtain ⟨f, hx⟩ := exec_scrubRead hl hc e
  obtain ⟨hm, ha⟩ := scrubbed_frame s l e
  exact ⟨_, hx, by simpa, by simpa using scrubbed_poison he, by simpa⟩

/-- One that finds an uncorrectable error poisons its granule. -/
theorem exec_scrubRead_uncorrectable {s : State} {l : Loc} (hl : realLoc l = true) (hc : 64 * (Machine.core s l).scrubAt ≤ s.cycle) :
    ∃ t, exec (.scrubRead l .uncorrectable) s = .next t ∧ t.mem = s.mem ∧
      poisoned t (lmAt l (16 * ((Machine.core s l).scrubAt % scrubSize l))) = true ∧
      (Machine.core t l).scrubAt = (Machine.core s l).scrubAt + 1 := by
  obtain ⟨f, hx⟩ := exec_scrubRead hl hc .uncorrectable
  obtain ⟨hm, ha⟩ := scrubbed_frame s l .uncorrectable
  refine ⟨_, hx, by simpa, ?_, by simpa⟩
  simpa [poisoned_iff] using scrubbed_uncorrectable s hl

/-! ## Counter snapshots (16 R382 to R384, log 28) -/

/-- The next write of a snapshot, on a die that is not fenced and has the partition. -/
theorem exec_counterSnapshot {s : State} {d pid : Nat} {p : Partition} (hp : part? s pid = some p) (hd : d ∈ dieList p)
    (hf : (die s d).fenced = false) : exec (.counterSnapshot d pid) s = .next (snapStep s p d) := by
  change execCounterSnapshot d pid s = _
  simp [execCounterSnapshot, hp, hd, hf]

theorem part?_pid {s : State} {pid : Nat} {p : Partition} (hp : part? s pid = some p) : p.pid = pid := by
  simpa using List.find?_some hp

@[simp] theorem putDword_mem (s : State) (p : Partition) (d k v : Nat) :
    (putDword s p d k v).mem = s.mem.writeN (hbmKey (p.counterArea + 512 * userDie p d + 8 * k)) (toBytes 8 v) := rfl
@[simp] theorem diePart_putDword (s : State) (p : Partition) (d k v d' pid : Nat) : diePart (putDword s p d k v) d' pid = diePart s d' pid := rfl

/-- A block's first dword, of a SEQ below 2^32. -/
theorem blockHead_eq (p : Partition) (d : Nat) {seq : Nat} (h : seq < 2 ^ 32) :
    blockHead p d seq = seq * 2 ^ 32 + p.stamp.toNat * 2 ^ 16 + userDie p d % 32 := by
  rw [blockHead, Nat.mod_eq_of_lt h]

section
variable {s : State} {p : Partition} {d : Nat}

theorem snapStep_begin (hn : (diePart s d p.pid).snap = none) (hq : (diePart s d p.pid).snapDue = true) :
    snapStep s p d = putDword { modDiePart s d p.pid (fun q => { q with
        snapDue := false, seq := ((diePart s d p.pid).seq + 1) % 2 ^ 32,
        snap := some (1, (diePart s d p.pid).cnt, (((diePart s d p.pid).seq + 1) % 2 ^ 32 + 1) % 2 ^ 32) }) with phase := .close }
      p d 0 (blockHead p d (((diePart s d p.pid).seq + 1) % 2 ^ 32)) := by
  simp only [snapStep, hn, hq, if_true]

theorem snapStep_dword {k seq : Nat} {cnt : Vector Nat 24} (hs : (diePart s d p.pid).snap = some (k, cnt, seq)) (hk : k < 64) :
    snapStep s p d = putDword (modDiePart s d p.pid fun q => { q with snap := some (k + 1, cnt, seq) }) p d k (blockDword cnt k) := by
  simp only [snapStep, hs, hk, if_true]

theorem snapStep_end {k seq : Nat} {cnt : Vector Nat 24} (hs : (diePart s d p.pid).snap = some (k, cnt, seq)) (hk : 64 ≤ k) :
    snapStep s p d = putDword (modDiePart s d p.pid fun q => { q with snap := none, seq := seq }) p d 0 (blockHead p d seq) := by
  simp only [snapStep, hs, Nat.not_lt.mpr hk, if_false]

end

/-! ## Links (00 R13; 16 R386 to R388) -/

@[simp] theorem carried_queued (d l : Nat) (p : Port) (q : List Flit) (f : Flit) : carried d l { p with queued := q } f = carried d l p f := rfl

/-- Looking from class 3 down for a class that is `c` finds `c`, where `c` itself will do. -/
theorem find?_class (c : Fin 4) (g : Fin 4 → Bool) :
    ([3, 2, 1, 0] : List (Fin 4)).find? (fun k => c == k && g k) = bif g c then some c else none := by
  match c with
  | 0 => rfl
  | 1 => rfl
  | 2 => rfl
  | 3 => rfl

/-- The class that sends, where one flit is ready: that flit's, waiting for long or not. -/
theorem sendClass_single {d l : Nat} {p : Port} {f : Flit} (hq : p.queued = [f]) : sendClass d l p = some (carried d l p f) := by
  have ready : ([3, 2, 1, 0] : List (Fin 4)).find? (fun k => carried d l p f == k) = some (carried d l p f) := by
    simpa only [Bool.and_true, cond_true] using find?_class (carried d l p f) fun _ => true
  simp only [sendClass, hq, List.any_cons, List.any_nil, Bool.or_false, find?_class, ready]
  cases decide (64 ≤ p.waited[carried d l p f]) <;> rfl

/-- The state once port `l` of die `d` has sent `f`, its only flit, at class `c`. -/
def sentFlit (s : State) (d l : Nat) (c : Fin 4) (f : Flit) : State :=
  let t := modPort s d l fun _ => sendFlit d l { port s d l with queued := [f] } c f
  if f.cls ≠ c then count t d f.pid 9 1 else t

@[simp] theorem sentFlit_mem (s : State) (d l : Nat) (c : Fin 4) (f : Flit) : (sentFlit s d l c f).mem = s.mem := by
  simp [sentFlit, apply_ite State.mem]

@[simp] theorem port_sentFlit {s : State} {d l : Nat} (hd : d < 20) (hl : l < 7) (c : Fin 4) (f : Flit) :
    port (sentFlit s d l c f) d l = sendFlit d l { port s d l with queued := [f] } c f := by
  unfold sentFlit; dsimp only; split <;> simp [hd, hl]

/-- One flit is offered to an empty port: it is sent, at the class at which it is carried. -/
theorem exec_flitSend_single {s : State} {d l : Nat} (hd : d < 20) {o : FlitOffer} {h : FlitHead} (hu : linkUp s d l = true)
    (hh : flitHead s d l o.src = some h) (hq : (port s d l).queued = []) (hw : s.cycle / 4096 ≤ (port s d l).window) :
    exec (.flitSend d l [o]) s = .next (sentFlit s d l (carried d l (port s d l) (flitOf h o)) (flitOf h o)) := by
  have window : freshWindow s.cycle (port s d l) = port s d l := by simp [freshWindow, Nat.not_lt.mpr hw]
  have cls : sendClass d l { port s d l with queued := [flitOf h o] } = some (carried d l (port s d l) (flitOf h o)) := sendClass_single rfl
  change execFlitSend d l [o] s = _
  simp [execFlitSend, Nat.not_le.mpr hd, hu, window, hq, hh, cls, sentFlit]

/-- A link that is not trained carries nothing. -/
theorem exec_flitSend_down {s : State} {d l : Nat} (hu : linkUp s d l = false) (os : List FlitOffer) :
    exec (.flitSend d l os) s = .next s := by
  change execFlitSend d l os s = _
  simp [execFlitSend, hu]

/-- The class at which a flit is carried, from its header: class 2 for one of class 3 beyond its partition's share (00 R13; 15 R372). -/
theorem carried_flitOf (d l : Nat) (p : Port) (h : FlitHead) (o : FlitOffer) : carried d l p (flitOf h o)
    = if h.cls = 3 ∧ h.preempting = false ∧ shareOf d l ≤ assocGet p.use3 h.pid 0 then 2 else h.cls := by
  simp [carried, flitOf]

/-- Exactly such a flit is carried at another class than its own. -/
theorem cls_ne_carried_iff (d l : Nat) (p : Port) (h : FlitHead) (o : FlitOffer) : (flitOf h o).cls ≠ carried d l p (flitOf h o)
    ↔ h.cls = 3 ∧ h.preempting = false ∧ shareOf d l ≤ assocGet p.use3 h.pid 0 := by
  rw [carried_flitOf, show (flitOf h o).cls = h.cls from rfl]
  split
  · next hb => simp [hb]
  · next hb => simpa using hb

theorem exec_class3WindowEnd (s : State) (d l : Nat) : exec (.class3WindowEnd d l) s = .next (modPort s d l (freshWindow s.cycle)) := rfl

/-- A flit kept for replay is sent again, and counted. -/
theorem exec_flitCrcReplay {s : State} {d l : Nat} (hd : d < 20) (hl : l < 7) {f : Flit} (hf : (port s d l).replay = some f) :
    ∃ t, exec (.flitCrcReplay d l) s = .next t ∧ t.mem = s.mem ∧
      port t d l = { port s d l with cntReplay := sat48 ((port s d l).cntReplay + 1) } :=
  ⟨_, (rfl : execFlitCrcReplay d l s = _), modPort_mem .., by simp [hd, hl, hf]⟩

/-! ## The flits of an access (16 R387, R388; 15 R372) -/

/-- What a seam carries of an access, between dies, and UCIe, between a compute and an attention die. -/
theorem linkCarries_request (d l id o : Nat) (h : FlitHead) : linkCarries d l (.request id) (.die o) h = true
    ↔ (linkKind d l = .seam ∧ o ≠ h.dest) ∨ (linkKind d l = .ucie ∧ isAttn o ≠ isAttn h.dest) := by
  cases hk : linkKind d l <;> simp [linkCarries, hk]

theorem flitHead_of_way {s : State} {d l : Nat} {src : FlitSrc} {o : FlitFrom} {h : FlitHead} (hw : flitWay s src = some (o, h)) :
    flitHead s d l src = if linkCarries d l src o h then some h else none := by
  simp [flitHead, hw]

section
variable {s : State} {id : Nat} {r : Request} (hr : req? s id = some r) (ha : r.op ≠ .agent)
include hr ha

/-- The reply of an access comes from where it was served. -/
theorem flitWay_reply {w : Reply} (hw : r.st = .replied w) :
    flitWay s (.request id) = some (.die (dieOf (servedAt r.key)), coreHead s r.loc r.part r.cls (dieOf r.loc)) := by
  simp only [flitWay, hr, Option.bind_some, hw]

/-- An access that is under way goes where it is served. -/
theorem flitWay_access (hx : ∀ k, r.st ≠ .xlate k ∧ r.st ≠ .walking k) (hb : ¬ ∃ w, r.st = .replied w) :
    flitWay s (.request id) = some (.die (dieOf r.loc), coreHead s r.loc r.part r.cls (dieOf (servedAt r.key))) := by
  simp only [flitWay, hr, Option.bind_some]
  split <;> simp_all

end

/-- The header under which a link takes the flits of an access or its reply, from die `a` to die `b`, where it carries them. -/
theorem flitHead_request {s : State} {d l id a b : Nat} {r : Request}
    (hw : flitWay s (.request id) = some (.die a, coreHead s r.loc r.part r.cls b)) :
    let carried : Prop := (linkKind d l = .seam ∧ a ≠ b) ∨ (linkKind d l = .ucie ∧ isAttn a ≠ isAttn b)
    (¬ carried → flitHead s d l (.request id) = none) ∧
    (carried → ∃ h, flitHead s d l (.request id) = some h ∧ h.pid = r.part ∧ h.dest = b ∧
      h.preempting = ((Machine.core s r.loc).preempt.any fun q => q.pid == r.part) ∧ h.cls = (if h.preempting then 3 else r.cls.toFin)) := by
  have carries := linkCarries_request d l id a (coreHead s r.loc r.part r.cls b)
  rw [flitHead_of_way hw]
  exact ⟨fun hc => if_neg (mt carries.mp hc), fun hc => ⟨_, if_pos (carries.mpr hc), rfl, rfl, rfl, rfl⟩⟩

/-! ## Frames (16 R387, R393) -/

theorem bytesAt_two (f : List Byte) (i : Nat) : bytesAt f i 2 = [f.getD i 0, f.getD (i + 1) 0] := rfl

/-- A frame of the transport is delivered once the links are trained. -/
theorem exec_ethernetFrameReceive {s : State} {f : List Byte} (hb : s.boot = .ready) (h1 : 14 ≤ f.length) (h2 : f.length ≤ 9216) (h3 : f[12]? = some 0x88)
    (h4 : f[13]? = some 0xB5) (q : Fin 16) : exec (.ethernetFrameReceive q f) s = .next { s with frames := s.frames ++ [(q, f)] } := by
  change execEthernetFrameReceive q f s = _
  simp [execEthernetFrameReceive, bytesAt_two, List.getD, hb, h1, h2, h3, h4]

/-- One that is too long, or comes before, is dropped. -/
theorem exec_ethernetFrameReceive_dropped {s : State} {f : List Byte} (h : 9216 < f.length ∨ s.boot ≠ .ready) (q : Fin 16) :
    exec (.ethernetFrameReceive q f) s = .next s := by
  change execEthernetFrameReceive q f s = _
  rcases h with h | h
  · simp [execEthernetFrameReceive, Nat.not_le.mpr h]
  · simp [execEthernetFrameReceive, h]

/-! ## The statement -/

/-- Settles O58, clause by clause: the scrubber's read, the three writes of a snapshot, the host's counters, the links, the flits of an access, frames. -/
theorem linkEvents : Obligations.LinkEvents := by
  unfold Obligations.LinkEvents
  refine ⟨?scrubbers, ?snapshots, ?counters, ?links, ?requests, ?frames⟩
  case scrubbers =>
    intro s l hl hc
    exact ⟨exec_scrubRead_correctable hl hc nofun, exec_scrubRead_correctable hl hc nofun, exec_scrubRead_uncorrectable hl hc⟩
  case snapshots =>
    intro s d pid p hp hd hlt hf hq
    obtain rfl := part?_pid hp
    have step := exec_counterSnapshot hp hd hf
    refine ⟨fun hn hdue => ⟨_, step, ?_⟩, fun k cnt seq hs hk => ⟨_, step, ?_⟩, fun k cnt seq hs hk hseq => ⟨_, step, ?_⟩⟩
    · rw [snapStep_begin hn hdue]
      exact ⟨rfl, by rw [putDword_mem, blockHead_eq p d (Nat.mod_lt _ (Nat.two_pow_pos 32))]; simp, diePart_modDiePart_self hlt hq fun _ => rfl⟩
    · rw [snapStep_dword hs hk]
      exact ⟨by simp [blockDword], diePart_modDiePart_self hlt hq fun _ => rfl⟩
    · rw [snapStep_end hs hk]
      exact ⟨by simp [blockHead_eq p d hseq], diePart_modDiePart_self hlt hq fun _ => rfl⟩
  case counters => exact fun s d => rfl
  case links =>
    intro s d l hd hl
    refine ⟨⟨_, exec_class3WindowEnd s d l, modPort_mem .., fun hw => ?_⟩, fun f hf => ?_, fun o h hu hh hq hw => ?_, fun hu => exec_flitSend_down hu⟩
    · simp [hd, hl, freshWindow, hw]
    · obtain ⟨t, step, hmem, hport⟩ := exec_flitCrcReplay hd hl hf
      exact ⟨t, step, hmem, by simp [hport, hf], by simp [hport, sat48]⟩
    · refine ⟨_, exec_flitSend_single hd hu hh hq hw, sentFlit_mem .., ?_⟩
      rw [port_sentFlit hd hl]
      exact ⟨by simp [sendFlit], rfl, rfl, by simp only [sendFlit, carried_flitOf]; rfl,
        fun hb => if_pos ((cls_ne_carried_iff ..).mpr hb), fun hb => if_neg (mt (cls_ne_carried_iff ..).mp hb)⟩
  case requests =>
    intro s d l id r hr ha hx
    exact ⟨fun ⟨w, hw⟩ => flitHead_request (flitWay_reply hr ha hw), fun hb => flitHead_request (flitWay_access hr ha hx hb)⟩
  case frames =>
    exact fun s q f => ⟨fun hb h1 h2 h3 h4 => exec_ethernetFrameReceive hb h1 h2 h3 h4 q, fun h => exec_ethernetFrameReceive_dropped h q⟩

end Sys2Proof.Proofs
end

section
/-! PROOFS. Control registers (04 R121 to R130; 08 R196; 11 R272): a `cset` of RINGCFG that enables a ring wakes the stores that wait in it. -/

namespace Sys2Proof.Proofs

open Sys2Proof.Machine Sys2Proof.Laws

/-! ## A store that waits where a ring is enabled (08 R196; 11 R272) -/

/-- `cset` of RINGCFG3 from s1, without guard and without S bit. -/
noncomputable def enableRing : Instr := .csetRingcfg ⟨false, 0, false⟩ 1 3

/-- It issues, with its word fetched, in slot 0 of core 65 of die 0. -/
def enablingCur : Cur := ⟨.core 0 65, 0, 0x46008204C1, 0⟩

/-- The granule at 1,024 in the LM of that core. -/
def ringGranule : Nat := lmKey 0 65 1024

/-- `st.xfill` of the byte 1 by the thread in slot 1: its granule is full, so it stands on the granule's wait list. -/
def waitingXfill : Request where
  id := 1
  loc := .core 0 65
  slot := 1
  thid := 2
  part := 1
  cls := 0
  relaxed := false
  scope := .core
  key := ringGranule
  va := 1024
  size := 1
  write := true
  op := .store .xfill 1 .b1
  refused := 0
  esc := none
  lrefused := 0
  lesc := none
  fwded := false
  walk := .none
  st := .feList ringGranule
  w0 := 0
  w1 := 0

/-- A loaded machine in which it waits, with s1 = EN, SIZE 1 and BASE 1: a ring of 1,024 bytes that begins with its granule. -/
def xfillWaits : State :=
  let s := modTh (loadWord State.reset 0x46008204C1) (.core 0 65) 0 fun th => { th with s := th.s.set 1 (1 + 2 ^ 5 + 2 ^ 9) }
  let s := setSlot s (.core 0 65) 1 { Slot.reset with st := .parkMem (.access 1), th := { loadThread with thid := 2 } }
  { s with cur := some enablingCur, turn := none, reqs := [waitingXfill], nextId := 2 }

theorem ready_enableRing : Ready enableRing xfillWaits enablingCur :=
  ⟨rfl, _, rfl, by decide +kernel⟩

theorem ringGranule_before : feFull xfillWaits ringGranule = true ∧ xfillWaits.mem.read ringGranule = 0 := by decide +kernel

/-- The byte at an address after an act. -/
def byteAfter (o : Out) (key : Nat) : Option Byte :=
  match o with
  | .next t => some (t.mem.read key)
  | _ => none

/-- Enabling the ring sets the granule empty, and the store is performed in the same act. -/
theorem exec_enableRing_stores : byteAfter (exec enableRing xfillWaits) ringGranule = some 1 := by decide +kernel

/-- The end of an instruction without S bit and without a branch leaves memory alone. -/
theorem ends_mem {i : Instr} {f : Form} (hf : formOf i = some f) (hs : f.h.sw = false) (x : Cur) (t : State) : (ends i x t).mem = t.mem := by
  simp [ends, hf, advance, goto, hs]

/-! ## The statement -/

/-- Refutes O43: its clause on RINGCFG promises that memory stands whatever requests wait, but enabling a ring empties its granules, and a `st.xfill`
that waits on one of them then stores (08 R196). Its last part, on the full/empty bits, assumes that no request stands on a wait list; the promise
about memory does not. -/
theorem not_controlRegisters : ¬ Obligations.ControlRegisters := by
  unfold Obligations.ControlRegisters
  rintro ⟨-, -, ringcfg⟩
  obtain ⟨-, -, completes⟩ := ringcfg ⟨false, 0, false⟩ 1 3 xfillWaits enablingCur ready_enableRing (by decide +kernel)
  obtain ⟨u, promised, -, hmem, -⟩ := completes (fun _ => by decide +kernel) (fun _ => by decide +kernel)
  have stands : byteAfter (exec enableRing xfillWaits) ringGranule = some 0 := by
    rw [enableRing, promised, byteAfter, ends_mem rfl rfl, hmem, ringGranule_before.2]
  exact absurd (exec_enableRing_stores.symm.trans stands) (by decide)

end Sys2Proof.Proofs
end
